-- ==== Sys2Proof/Word.lean ====
section
/-! DEFINITION. The plain data the whole model shares: bytes, host, line, slot and group numbers, pin levels,
per-host tables and sets of hosts. -/

namespace Sys2Proof

/-- One byte of a frame. -/
abbrev Byte := BitVec 8

/-- Line number L0 to L47 (spec/00_scope.md). -/
abbrev LineNo := Fin 48

/-- Record slot 0 to 95 (R1). -/
abbrev SlotNo := Fin 96

/-- Line group G0 to G7 (R143). -/
abbrev GroupNo := Fin 8

/-- Hosts H0 to H3; host Hn is the processor on port Pn. -/
inductive HostId where
  | h0 | h1 | h2 | h3
  deriving DecidableEq, Repr

/-- The four hosts in number order. -/
def HostId.all : List HostId := [.h0, .h1, .h2, .h3]

/-- A host's number, 0 to 3. -/
def HostId.toNat : HostId → Nat
  | .h0 => 0
  | .h1 => 1
  | .h2 => 2
  | .h3 => 3

/-- The host of a number, none above 3. -/
def HostId.ofNat? : Nat → Option HostId
  | 0 => some .h0
  | 1 => some .h1
  | 2 => some .h2
  | 3 => some .h3
  | _ => none

/-- One value for each of the four hosts. -/
structure PerHost (α : Type) where
  h0 : α
  h1 : α
  h2 : α
  h3 : α
  deriving DecidableEq, Repr

/-- The value of one host. -/
def PerHost.get {α : Type} (t : PerHost α) : HostId → α
  | .h0 => t.h0
  | .h1 => t.h1
  | .h2 => t.h2
  | .h3 => t.h3

/-- The table with one host's value replaced. -/
def PerHost.set {α : Type} (t : PerHost α) (h : HostId) (v : α) : PerHost α :=
  match h with
  | .h0 => { t with h0 := v }
  | .h1 => { t with h1 := v }
  | .h2 => { t with h2 := v }
  | .h3 => { t with h3 := v }

/-- The same value for every host. -/
def PerHost.fill {α : Type} (v : α) : PerHost α := ⟨v, v, v, v⟩

/-- The table of a function of the host. -/
def PerHost.ofFn {α : Type} (f : HostId → α) : PerHost α := ⟨f .h0, f .h1, f .h2, f .h3⟩

/-- A set of hosts: a declined set, an unread set. -/
abbrev HostSet := PerHost Bool

/-- The set of no host. -/
def HostSet.empty : HostSet := PerHost.fill false

/-- Whether a set of hosts has no member. -/
def HostSet.isEmpty (u : HostSet) : Bool := !(u.h0 || u.h1 || u.h2 || u.h3)

/-- A pin level (R27). -/
inductive Level where
  | low | high
  deriving DecidableEq, Repr

/-- The other level of a pin (a pin has two levels, R30). -/
def Level.other : Level → Level
  | .low => .high
  | .high => .low

/-- The three causes and holds of a hub reset (R166). -/
inductive Cause where
  | powerOn | resetLine | supplyLow
  deriving DecidableEq, Repr

/-- A subset of the three causes (R164). -/
structure CauseSet where
  powerOn : Bool
  resetLine : Bool
  supplyLow : Bool
  deriving DecidableEq, Repr

/-- The empty set of causes. -/
def CauseSet.empty : CauseSet := ⟨false, false, false⟩

/-- A set of causes with one more member. -/
def CauseSet.insert (u : CauseSet) : Cause → CauseSet
  | .powerOn => { u with powerOn := true }
  | .resetLine => { u with resetLine := true }
  | .supplyLow => { u with supplyLow := true }

/-- A set of causes with one member removed. -/
def CauseSet.erase (u : CauseSet) : Cause → CauseSet
  | .powerOn => { u with powerOn := false }
  | .resetLine => { u with resetLine := false }
  | .supplyLow => { u with supplyLow := false }

/-- Whether a cause is a member of a set. -/
def CauseSet.has (u : CauseSet) : Cause → Bool
  | .powerOn => u.powerOn
  | .resetLine => u.resetLine
  | .supplyLow => u.supplyLow

/-- The number of members of a set of causes. -/
def CauseSet.size (u : CauseSet) : Nat := u.powerOn.toNat + u.resetLine.toNat + u.supplyLow.toNat

/-- The causes of either set. -/
def CauseSet.union (u v : CauseSet) : CauseSet :=
  ⟨u.powerOn || v.powerOn, u.resetLine || v.resetLine, u.supplyLow || v.supplyLow⟩

/-- The causes of the first set that are not in the second. -/
def CauseSet.diff (u v : CauseSet) : CauseSet :=
  ⟨u.powerOn && !v.powerOn, u.resetLine && !v.resetLine, u.supplyLow && !v.supplyLow⟩

end Sys2Proof
end

