-- ==== Sys2Proof/Syntax.lean ====
section
/-! DEFINITION. The commands and events the hub takes: one constructor for each row of spec/opcode_table.json.

A command row carries the port, the sequence number (byte 1 of the command frame, R175) and the argument bytes that R176
names for it, as they were shifted in: the command's own rule judges them. -/

namespace Sys2Proof

/-- The commands and events of the hub. -/
inductive Instr where
  /-- EXCHANGE_START (R172): the fall of CS on a port. -/
  | exchangeStart (p : HostId)
  /-- SHORT_EXCHANGE (R174): CS rises with `counted` bytes counted, fewer than 12. -/
  | shortExchange (p : HostId) (counted : Fin 12)
  /-- NOP (R175): a full exchange carrying code 0x00. -/
  | nop (p : HostId) (seq : Byte)
  /-- UNKNOWN_COMMAND (R175): a full exchange with a code that is not in the table of R176. -/
  | unknownCommand (p : HostId) (seq code : Byte)
  /-- ATTACH (R124): the nesting depth requested. -/
  | attach (p : HostId) (seq depth : Byte)
  /-- DETACH (R134). -/
  | detach (p : HostId) (seq : Byte)
  /-- SLEEP (R128): 1 DOZE, 2 DEEP. -/
  | sleep (p : HostId) (seq depth : Byte)
  /-- SET_HOST (R139): parameter 0 to 5 and its value. -/
  | setHost (p : HostId) (seq param : Byte) (value : BitVec 16)
  /-- SET_FLOOR (R61). -/
  | setFloor (p : HostId) (seq floor : Byte)
  /-- SET_QUOTA (R111). -/
  | setQuota (p : HostId) (seq quota : Byte)
  /-- QUERY_HOST (R141): host number and view (0 STATE, 1 COUNTS, 2 TIMES). -/
  | queryHost (p : HostId) (seq host view : Byte)
  /-- CLAIM (R70): a handle, slot then serial. -/
  | claim (p : HostId) (seq slot serial : Byte)
  /-- DECLINE (R72): a handle. -/
  | decline (p : HostId) (seq slot serial : Byte)
  /-- DONE (R91): a handle. -/
  | done (p : HostId) (seq slot serial : Byte)
  /-- POST (R107): band, mode, notify, route list (count and hosts), payload. -/
  | post (p : HostId) (seq band mode notify routeCount routeHosts : Byte) (payload : BitVec 32)
  /-- RETRACT (R113): a slot number. -/
  | retract (p : HostId) (seq slot : Byte)
  /-- LEASE (R144): a group number. -/
  | lease (p : HostId) (seq group : Byte)
  /-- RELEASE (R145): a group number. -/
  | release (p : HostId) (seq group : Byte)
  /-- CONFIG_LINE (R147): line, flags (bit 0 enabled, bit 1 apply-to-open), sense, qualification, band, mode, route list. -/
  | configLine (p : HostId) (seq line flags sense qualification band mode routeCount routeHosts : Byte)
  /-- FETCH_LOSS (R162). -/
  | fetchLoss (p : HostId) (seq : Byte)
  /-- ACK_NOTICE (R169): a set of causes. -/
  | ackNotice (p : HostId) (seq causes : Byte)
  /-- QUERY_EVENT (R22): slot and view (0 RECORD, 1 COPIES, 2 CONTENT). -/
  | queryEvent (p : HostId) (seq slot view : Byte)
  /-- QUERY_LINE (R42): a line number. -/
  | queryLine (p : HostId) (seq line : Byte)
  /-- RAW_CHANGE (R29): the sample of a line's pin, at the level it now has. -/
  | rawChange (line : LineNo) (level : Level)
  /-- QUALIFICATION_TIMER_EXPIRY (R31). -/
  | qualificationTimerExpiry (line : LineNo)
  /-- CLAIM_TIMER_EXPIRY (R77). -/
  | claimTimerExpiry (h : HostId)
  /-- WAKE_TIMER_EXPIRY (R131). -/
  | wakeTimerExpiry (h : HostId)
  /-- ARBITER_FILL (R64): the arbiter of a host fills its empty offer slot. -/
  | arbiterFill (h : HostId)
  /-- RESET_LINE (R166): the RESET input has been low for 10 µs. -/
  | resetLine
  /-- SUPPLY_LOW (R166): the supply falls below the operating threshold. -/
  | supplyLow
  /-- POWER_ON (R166): the supply falls below the retention threshold or is first applied. -/
  | powerOn
  /-- HUB_RESET_COMPLETION (R167): the last hold ends; `pins` holds the first sample of each event input (bit n for Ln, 1 high,
  R27). -/
  | hubResetCompletion (pins : BitVec 48)
  /-- EXCHANGE_DISCARDED (R187): CS rises on an exchange that a reset cut off or that began during a reset. -/
  | exchangeDiscarded (p : HostId)
  /-- HOLD_ENDS (R165): one hold of a reset in progress ends. -/
  | holdEnds (hold : Cause)
  deriving DecidableEq, Repr

end Sys2Proof
end

