-- ==== Sys2Proof/WellFormed.lean ====
section
/-! DEFINITION. Which terms of Instr stand for a command or event that can be. The argument bytes of a command are not judged
here: a byte outside its values is a well-formed command that its rule answers BAD_ARG (R175). -/

namespace Sys2Proof

/-- The command codes of the table of R176. -/
def commandCodes : List Nat :=
  [0x00, 0x01, 0x02, 0x03, 0x04, 0x05, 0x06, 0x07, 0x10, 0x11, 0x12, 0x18, 0x19, 0x20, 0x21, 0x22, 0x28, 0x29, 0x30, 0x31]

/-- UNKNOWN_COMMAND carries a code that is not in the table (R175); every other row is well formed by its types. -/
def Instr.wellFormed : Instr → Bool
  | .unknownCommand _ _ code => !commandCodes.contains code.toNat
  | .exchangeStart _ | .shortExchange _ _ | .nop _ _ | .attach _ _ _ | .detach _ _ | .sleep _ _ _ | .setHost _ _ _ _
  | .setFloor _ _ _ | .setQuota _ _ _ | .queryHost _ _ _ _ | .claim _ _ _ _ | .decline _ _ _ _ | .done _ _ _ _
  | .post _ _ _ _ _ _ _ _ | .retract _ _ _ | .lease _ _ _ | .release _ _ _ | .configLine _ _ _ _ _ _ _ _ _ _
  | .fetchLoss _ _ | .ackNotice _ _ _ | .queryEvent _ _ _ _ | .queryLine _ _ _ | .rawChange _ _
  | .qualificationTimerExpiry _ | .claimTimerExpiry _ | .wakeTimerExpiry _ | .arbiterFill _ | .resetLine | .supplyLow
  | .powerOn | .hubResetCompletion _ | .exchangeDiscarded _ | .holdEnds _ => true

end Sys2Proof
end

