-- ==== Sys2Proof/Decode.lean ====
section
/-! DEFINITION. Decoding. spec/opcode_table.json gives no row any bits, so `decodeTableWord` spells no command. The command
frame that a host shifts in is decoded by R175 and R176 (`commandOfFrame`), and written by `frameOfCommand`. -/

namespace Sys2Proof

/-- The command a word spells by the table's bits. The table gives bits for no row. -/
def decodeTableWord (_nbits _w : Nat) : Option Instr := none

/-- The 12 bytes of a command frame, byte 0 first (R171, R175). -/
structure CommandFrame where
  code : Byte
  seq : Byte
  b2 : Byte
  b3 : Byte
  b4 : Byte
  b5 : Byte
  b6 : Byte
  b7 : Byte
  b8 : Byte
  b9 : Byte
  b10 : Byte
  b11 : Byte
  deriving DecidableEq, Repr

/-- A number of two bytes, low byte first (R171). -/
def word16 (lo hi : Byte) : BitVec 16 := hi ++ lo

/-- A number of four bytes, low byte first (R171). -/
def word32 (b0 b1 b2 b3 : Byte) : BitVec 32 := b3 ++ b2 ++ b1 ++ b0

/-- The command of a full exchange on port `p`: R175 and the table of R176, total on every frame. Bytes that a command's layout
does not name are ignored. -/
def commandOfFrame (p : HostId) (f : CommandFrame) : Instr :=
  match f.code.toNat with
  | 0x00 => .nop p f.seq
  | 0x01 => .attach p f.seq f.b2
  | 0x02 => .detach p f.seq
  | 0x03 => .sleep p f.seq f.b2
  | 0x04 => .setHost p f.seq f.b2 (word16 f.b3 f.b4)
  | 0x05 => .setFloor p f.seq f.b2
  | 0x06 => .setQuota p f.seq f.b2
  | 0x07 => .queryHost p f.seq f.b2 f.b3
  | 0x10 => .claim p f.seq f.b2 f.b3
  | 0x11 => .decline p f.seq f.b2 f.b3
  | 0x12 => .done p f.seq f.b2 f.b3
  | 0x18 => .post p f.seq f.b2 f.b3 f.b4 f.b5 f.b6 (word32 f.b7 f.b8 f.b9 f.b10)
  | 0x19 => .retract p f.seq f.b2
  | 0x20 => .lease p f.seq f.b2
  | 0x21 => .release p f.seq f.b2
  | 0x22 => .configLine p f.seq f.b2 f.b3 f.b4 f.b5 f.b6 f.b7 f.b8 f.b9
  | 0x28 => .fetchLoss p f.seq
  | 0x29 => .ackNotice p f.seq f.b2
  | 0x30 => .queryEvent p f.seq f.b2 f.b3
  | 0x31 => .queryLine p f.seq f.b2
  | _ => .unknownCommand p f.seq f.code

/-- A frame with the arguments left at zero. -/
def CommandFrame.bare (code : Nat) (seq : Byte) : CommandFrame :=
  ⟨BitVec.ofNat 8 code, seq, 0, 0, 0, 0, 0, 0, 0, 0, 0, 0⟩

/-- The port and the command frame of a command row, with every byte its layout does not name at zero (R176); none for the rows
that are no command of a full exchange. -/
def frameOfCommand : Instr → Option (HostId × CommandFrame)
  | .nop p q => some (p, .bare 0x00 q)
  | .unknownCommand p q code => some (p, { CommandFrame.bare 0 q with code := code })
  | .attach p q d => some (p, { CommandFrame.bare 0x01 q with b2 := d })
  | .detach p q => some (p, .bare 0x02 q)
  | .sleep p q d => some (p, { CommandFrame.bare 0x03 q with b2 := d })
  | .setHost p q param v => some (p, { CommandFrame.bare 0x04 q with b2 := param, b3 := v.extractLsb' 0 8, b4 := v.extractLsb' 8 8 })
  | .setFloor p q f => some (p, { CommandFrame.bare 0x05 q with b2 := f })
  | .setQuota p q n => some (p, { CommandFrame.bare 0x06 q with b2 := n })
  | .queryHost p q h v => some (p, { CommandFrame.bare 0x07 q with b2 := h, b3 := v })
  | .claim p q n r => some (p, { CommandFrame.bare 0x10 q with b2 := n, b3 := r })
  | .decline p q n r => some (p, { CommandFrame.bare 0x11 q with b2 := n, b3 := r })
  | .done p q n r => some (p, { CommandFrame.bare 0x12 q with b2 := n, b3 := r })
  | .post p q band mode notify rc rh payload =>
    some (p, { CommandFrame.bare 0x18 q with
      b2 := band, b3 := mode, b4 := notify, b5 := rc, b6 := rh,
      b7 := payload.extractLsb' 0 8, b8 := payload.extractLsb' 8 8,
      b9 := payload.extractLsb' 16 8, b10 := payload.extractLsb' 24 8 })
  | .retract p q n => some (p, { CommandFrame.bare 0x19 q with b2 := n })
  | .lease p q g => some (p, { CommandFrame.bare 0x20 q with b2 := g })
  | .release p q g => some (p, { CommandFrame.bare 0x21 q with b2 := g })
  | .configLine p q line flags sense qual band mode rc rh =>
    some (p, { CommandFrame.bare 0x22 q with
      b2 := line, b3 := flags, b4 := sense, b5 := qual, b6 := band, b7 := mode, b8 := rc, b9 := rh })
  | .fetchLoss p q => some (p, .bare 0x28 q)
  | .ackNotice p q c => some (p, { CommandFrame.bare 0x29 q with b2 := c })
  | .queryEvent p q n v => some (p, { CommandFrame.bare 0x30 q with b2 := n, b3 := v })
  | .queryLine p q n => some (p, { CommandFrame.bare 0x31 q with b2 := n })
  | .exchangeStart _ | .shortExchange _ _ | .rawChange _ _ | .qualificationTimerExpiry _ | .claimTimerExpiry _
  | .wakeTimerExpiry _ | .arbiterFill _ | .resetLine | .supplyLow | .powerOn | .hubResetCompletion _
  | .exchangeDiscarded _ | .holdEnds _ => none

end Sys2Proof
end

