-- ==== Sys2Proof/Config.lean ====
section
/-! DEFINITION. The values the manual leaves open. Each is a constant without a body, so no proof can rest on a
value of it. -/

namespace Sys2Proof

/-- The bits of a frame byte that no rule lists, for one frame (by its number) and one byte position. R181 to R185 say
that an unlisted byte reads 0x00 and say nothing of an unlisted bit of a listed byte. DESIGN CHOICE: log entry 10. -/
opaque Config.unlistedBits : Nat → Nat → Byte

/-- The hub epoch, less one, that the Retention Cells hold after their contents are lost (R166) and before the POWER_ON reset completes (R167): the
epoch always lies between 1 and 65535 (R164). DESIGN CHOICE: log entry 9. -/
opaque Config.lostEpoch : Nat → Fin 65535

/-- Whether a cause stands in a host's cause set after the Retention Cells have lost their contents (R166) and before the
POWER_ON reset completes (R167). DESIGN CHOICE: log entry 9. -/
opaque Config.lostCause : Nat → HostId → Cause → Bool

end Sys2Proof
end

