-- ==== Sys2Proof/Machine/State.lean ====
section
/-! DEFINITION. The state of the hub, as plain data: every piece of state that spec/ names, with its reset value, and the two
reason types of a step. INVENTORY.md lists the rule of each field. -/

namespace Sys2Proof.Machine

/-- The host states of R123. -/
inductive HostState where
  | absent | awake | doze | deep | waking | lost
  deriving DecidableEq, Repr

/-- The senses of R25. -/
inductive Sense where
  | rise | fall | both | high | low
  deriving DecidableEq, Repr

/-- ANY: one host handles the event; EACH: every host of the route list handles its own copy (R2). -/
inductive Mode where
  | any | each
  deriving DecidableEq, Repr

/-- The phase of a record in use: OPEN or CAPTURED (R8). A FREE slot holds no record. -/
inductive RecordPhase where
  | opened | captured
  deriving DecidableEq, Repr

/-- The phase of a slot: FREE, OPEN or CAPTURED (R8). -/
inductive SlotPhase where
  | free | opened | captured
  deriving DecidableEq, Repr

/-- A handle: the slot and the offer serial of one offer (R6). -/
structure Handle where
  slot : SlotNo
  serial : Byte
  deriving DecidableEq, Repr

/-- A copy's state, with the handle of the offer that put it to its host when it is OFFERED or IN_SERVICE (R4). -/
inductive CopyState where
  | waiting
  | offered (handle : Handle)
  | inService (handle : Handle)
  deriving DecidableEq, Repr

/-- A copy of a record (R4). The host is absent in a WAITING copy of an ANY record. -/
structure Copy where
  host : Option HostId
  state : CopyState
  deriving DecidableEq, Repr

/-- Where a record came from (R2); it fixes the record's kind, LINE or POSTED. -/
inductive Source where
  | line (l : LineNo)
  | host (h : HostId)
  deriving DecidableEq, Repr

/-- A record in use (R2). A field that R2 marks absent for the record's kind or mode stands at zero, clear or empty. -/
structure Record where
  source : Source
  band : Nat
  mode : Mode
  route : List HostId
  phase : RecordPhase
  count : Nat
  backlog : Nat
  saturated : Bool
  payload : BitVec 32
  notify : Bool
  declined : HostSet
  rounds : Nat
  copies : List Copy
  deriving DecidableEq, Repr

/-- A record slot: its offer serial (R6) and its record, none when FREE (R1). -/
structure Slot where
  serial : Byte
  record : Option Record
  deriving DecidableEq, Repr

/-- A line table entry (R25). -/
structure LineEntry where
  enabled : Bool
  sense : Sense
  qualification : Nat
  band : Nat
  mode : Mode
  route : List HostId
  deriving DecidableEq, Repr

/-- A line detector (R28): the accepted level is none while UNPRIMED; the pending level and the qualification timer, with its
expiry tick, stand in QUALIFYING only. -/
inductive Detector where
  | unprimed
  | steady (accepted : Level)
  | qualifying (accepted pending : Level) (expiry : Nat)
  deriving DecidableEq, Repr

/-- What the Line Unit holds of one line (R27, R28). -/
structure LineState where
  raw : Level
  detector : Detector
  deriving DecidableEq, Repr

/-- A session entry (R122). A timer is none when stopped, else it holds its expiry tick. -/
structure Session where
  state : HostState
  depth : Nat
  floor : Nat
  claimWindow : Nat
  dozeAllowance : Nat
  wakeTimeout : Nat
  missLimit : Nat
  wakeBand : Nat
  batchThreshold : Nat
  missCount : Nat
  wasLost : Bool
  wakeTimer : Option Nat
  quota : Nat
  deriving DecidableEq, Repr

/-- An outstanding offer: its handle and the band of the offered copy (R63). -/
structure Offer where
  handle : Handle
  band : Nat
  deriving DecidableEq, Repr

/-- An entry of a service stack (R88). -/
structure StackEntry where
  handle : Handle
  band : Nat
  deriving DecidableEq, Repr

/-- What the Dispatcher holds for one host: the offer slot, none when EMPTY (R63), the claim timer (R68) and the service stack,
oldest entry first (R88). -/
structure Dispatch where
  offer : Option Offer
  claimTimer : Option Nat
  stack : List StackEntry
  deriving DecidableEq, Repr

/-- The causes of a loss entry (R159). -/
inductive LossCause where
  | unwanted | abandoned | saturated
  deriving DecidableEq, Repr

/-- A loss entry (R159) with its unread set (R160). The payload of a line record stands at zero. -/
structure LossEntry where
  cause : LossCause
  slot : SlotNo
  source : Source
  band : Nat
  payload : BitVec 32
  host : Option HostId
  unread : HostSet
  deriving DecidableEq, Repr

/-- The result codes of R183. -/
inductive ResultCode where
  | ok | okDeferred | partialDone | stale | order | notAttached | badState | badArg | held | noLease | full | quota | noRoom
  | inService | notOwner
  deriving DecidableEq, Repr

/-- The record results of a DONE (R94). -/
inductive RecordResult where
  | remaining | freed | reopened
  deriving DecidableEq, Repr

/-- Withdraw reasons (R74). -/
inductive Reason where
  | preempted | timeout | floor | sleep | reconfigured | retracted
  deriving DecidableEq, Repr

/-- Outcomes of a completion (R14). -/
inductive CompletionOutcome where
  | done | dropped
  deriving DecidableEq, Repr

/-- Causes of a loss (R138). -/
inductive EvictCause where
  | claimTimeout | wakeTimeout
  deriving DecidableEq, Repr

/-- What the COPIES view shows at one route-list position (R185). -/
structure PositionView where
  state : Nat
  candidate : Bool
  wakeTarget : Bool
  deriving DecidableEq, Repr

/-- The data of a REPLY: one constructor for each row of R184 and R185. -/
inductive ReplyData where
  | empty
  | attachOk (epoch : BitVec 16) (causes : CauseSet) (depth : Nat) (wasLost : Bool) (quota : Nat)
  | hostStateIs (state : HostState)
  | parameterSet (param : Byte) (value : BitVec 16)
  | floorSet (f : Byte)
  | quotaSet (quota room : Nat)
  | claimLine (handle : Handle) (count : Nat) (saturated : Bool)
  | claimPosted (handle : Handle) (payload : BitVec 32)
  | handleNamed (slot serial : Byte)
  | doneOk (handle : Handle) (result : RecordResult) (number : Nat)
  | postOk (slot : SlotNo) (use quota : Nat)
  | postRefused (use quota : Nat)
  | retractOk (slot : SlotNo) (removed inService : Nat)
  | retractInService (slot : SlotNo) (holder : Option HostId)
  | retractSlot (slot : Byte)
  | leaseHolder (group : GroupNo) (holder : Option HostId)
  | configured (line : LineNo) (armed arrival : Bool) (phase : SlotPhase) (withdrawn rebuilt : Nat)
  | configNoLease (line : LineNo) (holder : Option HostId)
  | configBadArg (line : Byte)
  | causesLeft (causes : CauseSet) (epoch : BitVec 16)
  | hostStateView (state : HostState) (wasLost : Bool) (depth floor level entries tally : Nat)
  | hostCounts (missCount missLimit wakeBand batchThreshold quota use : Nat)
  | hostTimes (claimWindow dozeAllowance wakeTimeout : Nat)
  | eventRecord (phase : SlotPhase) (posted : Bool) (mode : Mode) (saturated notify : Bool) (source : Option Source)
      (band position : Nat) (serial : Byte)
  | eventCopies (phase : SlotPhase) (mode : Mode) (anyWaiting : Bool) (route : List HostId) (declined : HostSet) (rounds : Nat)
      (positions : List PositionView)
  | eventLine (phase : SlotPhase) (count backlog : Nat)
  | eventPosted (phase : SlotPhase) (payload : BitVec 32)
  | lineView (entry : LineEntry) (raw : Level) (accepted : Option Level) (qualifying : Bool) (phase : SlotPhase)
      (count backlog : Nat)
  | lossEntry (cause : LossCause) (slot : SlotNo) (source : Source) (band : Nat) (payload : BitVec 32) (host : Option HostId)
      (missed remaining : Nat)
  | noLossEntry (missed : Nat)
  deriving DecidableEq, Repr

/-- The messages of an outbound queue (R177, R182, R183). -/
inductive Msg where
  | reply (seq : Byte) (result : ResultCode) (data : ReplyData)
  | offer (handle : Handle) (source : Source) (band : Nat) (mode : Mode) (saturated : Bool) (count : Nat) (payload : BitVec 32)
  | withdraw (handle : Handle) (reason : Reason)
  | completed (slot : SlotNo) (outcome : CompletionOutcome) (payload : BitVec 32)
  | evicted (cause : EvictCause) (missCount returned abandoned leases : Nat)
  deriving DecidableEq, Repr

/-- An exchange in progress (R171, R172): the frame formed at the fall of CS, the bytes counted, whether the message at the head
of the queue is this exchange's message, and for each mark whether the frame showed it set and no event has set it since. -/
structure Exchange where
  frame : List Byte
  bytes : Nat
  carried : Bool
  shownOverrun : Bool
  shownNotice : Bool
  deriving DecidableEq, Repr

/-- The chip-select period of a port: CS high; an exchange in progress; a period whose exchange a reset cut off, which shifts out
0x00; a period that began during a reset, which shifts out NOT_READY (R187). The last two hold no exchange. -/
inductive ChipSelect where
  | idle
  | live (x : Exchange)
  | cutOff
  | notReady
  deriving DecidableEq, Repr

/-- What a host port holds (spec/10). The queue stands oldest message first. -/
structure Port where
  queue : List Msg
  partMark : Bool
  overrun : Bool
  noticeDropped : Bool
  cs : ChipSelect
  deriving DecidableEq, Repr

/-- A reset in progress: the holds in force and every cause that occurred within it (R165). -/
structure ResetProgress where
  holds : CauseSet
  causes : CauseSet
  deriving DecidableEq, Repr

/-- The state of the hub. `now` counts the ticks of the Timebase (log entry 3), `freeIdx` picks free values (log entry 15) and
`pending` holds the commands that wait, first in first out (log entry 14): these three are the model's own. -/
structure State where
  now : Nat
  lines : Vector LineState 48
  table : Vector LineEntry 48
  leases : Vector (Option HostId) 8
  slots : Vector Slot 96
  arrivals : List SlotNo
  dispatch : PerHost Dispatch
  sessions : PerHost Session
  ports : PerHost Port
  loss : List LossEntry
  missed : PerHost Nat
  epoch : BitVec 16
  causes : PerHost CauseSet
  inReset : Option ResetProgress
  freeIdx : Nat
  pending : List Instr
  deriving DecidableEq, Repr

/-- The reasons a step can stop with a fault. The spec names none, so there is none: every command that the hub cannot do is
answered by a REPLY (R183), refused with the overrun mark (R178) or discarded (R174, R187). -/
inductive Fault where
  deriving DecidableEq, Repr

/-- The reasons a step can be refused. -/
inductive Refusal where
  /-- Raised by an arm of `exec` whose row has no meaning yet. Safe: the run stops and nothing is claimed. No arm raises it. -/
  | notModelled (mnemonic : String)
  deriving DecidableEq, Repr

/-- A line table entry after a hub reset (R25). -/
def LineEntry.initial : LineEntry := ⟨false, .rise, 0, 1, .any, [.h0]⟩

/-- A session entry after a hub reset (R122). -/
def Session.initial : Session := ⟨.absent, 2, 0, 500, 2000, 5000, 3, 5, 8, 0, false, none, 12⟩

/-- A host's offer slot, claim timer and stack after a hub reset (R87, R105). -/
def Dispatch.initial : Dispatch := ⟨none, none, []⟩

/-- A port after a hub reset (R187), with no exchange in progress. That CS is high, and not low in a period that began during the reset, is the model's
choice at `State.reset`: DESIGN CHOICE, log entry 29. -/
def Port.initial : Port := ⟨[], false, false, false, .idle⟩

/-- The hub right after the POWER_ON reset of the first application of power (R166, R167), with no command waiting. The raw
levels are the model's choice, low (log entry 1). -/
def State.reset : State where
  now := 0
  lines := Vector.replicate 48 ⟨.low, .unprimed⟩
  table := Vector.replicate 48 LineEntry.initial
  leases := Vector.replicate 8 none
  slots := Vector.replicate 96 ⟨0, none⟩
  arrivals := []
  dispatch := PerHost.fill Dispatch.initial
  sessions := PerHost.fill Session.initial
  ports := PerHost.fill Port.initial
  loss := []
  missed := PerHost.fill 0
  epoch := 1
  causes := PerHost.fill ⟨true, false, false⟩
  inReset := none
  freeIdx := 0
  pending := []

end Sys2Proof.Machine
end

