-- ==== Sys2Proof/Machine/Access.lean ====
section
/-! DEFINITION. Reading and writing single pieces of the state: the one place where a record, a session entry, a port, a line or a
lease is read or replaced. -/

namespace Sys2Proof.Machine

/-- The slot of a line's record: slot n for line Ln (R1). -/
def slotOfLine (l : LineNo) : SlotNo := ⟨l.val, Nat.lt_trans l.isLt (by decide)⟩

/-- The group of a line: Gk holds lines 6k to 6k+5 (R143). -/
def groupOfLine (l : LineNo) : GroupNo := ⟨l.val / 6, by have := l.isLt; omega⟩

/-- Whether a slot is one of the posted pool, slots 48 to 95 (R1). -/
def isPostedSlot (n : SlotNo) : Bool := decide (48 ≤ n.val)

/-- The record in a slot, none when it is FREE (R1). -/
def State.record (s : State) (n : SlotNo) : Option Record := s.slots[n].record

/-- The offer serial of a slot (R6). -/
def State.serial (s : State) (n : SlotNo) : Byte := s.slots[n].serial

/-- The record of a slot replaced; the offer serial is kept (R6). -/
def State.setRecord (s : State) (n : SlotNo) (r : Option Record) : State :=
  { s with slots := s.slots.set n { s.slots[n] with record := r } }

/-- The offer serial of a slot replaced. -/
def State.setSerial (s : State) (n : SlotNo) (v : Byte) : State :=
  { s with slots := s.slots.set n { s.slots[n] with serial := v } }

/-- The record of a slot changed by a function; a FREE slot stays FREE. -/
def State.updRecord (s : State) (n : SlotNo) (f : Record → Record) : State :=
  s.setRecord n ((s.record n).map f)

/-- The phase of a slot (R8). -/
def State.phase (s : State) (n : SlotNo) : SlotPhase :=
  match s.record n with
  | none => .free
  | some r =>
    match r.phase with
    | .opened => .opened
    | .captured => .captured

/-- The session entry of a host (R122). -/
def State.session (s : State) (h : HostId) : Session := s.sessions.get h

/-- A host's session entry changed. -/
def State.updSession (s : State) (h : HostId) (f : Session → Session) : State :=
  { s with sessions := s.sessions.set h (f (s.sessions.get h)) }

/-- A host's offer slot, claim timer and stack. -/
def State.disp (s : State) (h : HostId) : Dispatch := s.dispatch.get h

/-- A host's offer slot, claim timer and stack changed. -/
def State.updDisp (s : State) (h : HostId) (f : Dispatch → Dispatch) : State :=
  { s with dispatch := s.dispatch.set h (f (s.dispatch.get h)) }

/-- A host's port. -/
def State.port (s : State) (h : HostId) : Port := s.ports.get h

/-- A host's port changed. -/
def State.updPort (s : State) (h : HostId) (f : Port → Port) : State :=
  { s with ports := s.ports.set h (f (s.ports.get h)) }

/-- The line table entry of a line (R25). -/
def State.entry (s : State) (l : LineNo) : LineEntry := s.table[l]

/-- A line table entry replaced. -/
def State.setEntry (s : State) (l : LineNo) (e : LineEntry) : State := { s with table := s.table.set l e }

/-- What the Line Unit holds of a line. -/
def State.line (s : State) (l : LineNo) : LineState := s.lines[l]

/-- What the Line Unit holds of a line, replaced. -/
def State.setLine (s : State) (l : LineNo) (v : LineState) : State := { s with lines := s.lines.set l v }

/-- The holder of a line group's lease (R143). -/
def State.holder (s : State) (g : GroupNo) : Option HostId := s.leases[g]

/-- A line group's holder replaced. -/
def State.setHolder (s : State) (g : GroupNo) (v : Option HostId) : State := { s with leases := s.leases.set g v }

/-- A function applied to every entry of a table. -/
def mapTable {α β : Type} {n : Nat} (f : α → β) (v : Vector α n) : Vector β n := ⟨(v.toList.map f).toArray, by simp⟩

/-- The table of a function of the index. -/
def tableOf {α : Type} {n : Nat} (f : Fin n → α) : Vector α n := ⟨((List.finRange n).map f).toArray, by simp⟩

/-- Whether a host is attached: AWAKE, DOZE, DEEP or WAKING (R123). -/
def HostState.attached : HostState → Bool
  | .awake | .doze | .deep | .waking => true
  | .absent | .lost => false

/-- Whether a host may hold an offer: AWAKE or DOZE (R44, R123). -/
def HostState.listening : HostState → Bool
  | .awake | .doze => true
  | .deep | .waking | .absent | .lost => false

/-- Whether a host is in one of the sleeping states DEEP and WAKING (R123). -/
def HostState.asleep : HostState → Bool
  | .deep | .waking => true
  | .awake | .doze | .absent | .lost => false

/-- Whether a host is attached (R123). -/
def State.attached (s : State) (h : HostId) : Bool := (s.session h).state.attached

/-- The level of a host: the band of its stack's newest entry, 0 when the stack is empty (R90). -/
def State.level (s : State) (h : HostId) : Nat :=
  match (s.disp h).stack.getLast? with
  | some e => e.band
  | none => 0

/-- A host's posted use: the posted records in use whose source is the host (R10). -/
def State.postedUse (s : State) (h : HostId) : Nat :=
  s.slots.toList.countP fun c =>
    match c.record with
    | some r => decide (r.source = .host h)
    | none => false

/-- The sum of the four quotas (R111). -/
def State.quotaSum (s : State) : Nat :=
  (s.session .h0).quota + (s.session .h1).quota + (s.session .h2).quota + (s.session .h3).quota

/-- The lowest-numbered FREE posted slot, none when the pool is full (R10). -/
def State.lowestFreePosted (s : State) : Option SlotNo :=
  (List.finRange 96).find? fun n => isPostedSlot n && (s.record n).isNone

end Sys2Proof.Machine
end

