-- ==== Sys2Proof/Machine/Flags.lean ====
section
/-! DEFINITION. The counts, marks and outputs of a port that rules read as flags: queue capacity (R177), the status byte (R181), ATTN (R179),
WAKE (R123) and the loss-unread status (R163). -/

namespace Sys2Proof.Machine

/-- Whether a message is a WITHDRAW. -/
def Msg.isWithdraw : Msg → Bool
  | .withdraw _ _ => true
  | .reply _ _ _ | .offer _ _ _ _ _ _ _ | .completed _ _ _ | .evicted _ _ _ _ _ => false

/-- Whether a message is the OFFER of a handle. -/
def Msg.offers (hd : Handle) : Msg → Bool
  | .offer h _ _ _ _ _ _ => decide (h = hd)
  | .reply _ _ _ | .withdraw _ _ | .completed _ _ _ | .evicted _ _ _ _ _ => false

/-- Whether a message has two parts: the REPLY of a FETCH_LOSS that returns an entry, and no other (R180). -/
def Msg.twoPart : Msg → Bool
  | .reply _ _ (.lossEntry _ _ _ _ _ _ _ _) => true
  | .reply _ _ _ | .offer _ _ _ _ _ _ _ | .withdraw _ _ | .completed _ _ _ | .evicted _ _ _ _ _ => false

/-- The messages of a queue other than WITHDRAW (R177). -/
def nonWithdraw (q : List Msg) : Nat := q.countP fun m => !m.isWithdraw

/-- A REPLY has a place: fewer than 8 messages other than WITHDRAW are queued, the carried message counted (R178). -/
def Port.hasReplyRoom (p : Port) : Bool := decide (nonWithdraw p.queue < 8)

/-- A COMPLETED notice is admitted: 7 or fewer messages other than WITHDRAW are queued (R118). -/
def Port.hasNoticeRoom (p : Port) : Bool := decide (nonWithdraw p.queue ≤ 7)

/-- An OFFER is admitted: 5 or fewer messages of every kind are queued (R64). -/
def Port.hasOfferRoom (p : Port) : Bool := decide (p.queue.length ≤ 5)

/-- Whether the message at the head of the queue is that of an exchange in progress (R172). -/
def Port.headCarried (p : Port) : Bool :=
  match p.cs with
  | .live x => x.carried
  | .idle | .cutOff | .notReady => false

/-- The loss-unread status of a host: some loss entry holds it in its unread set (R163). -/
def State.lossUnread (s : State) (h : HostId) : Bool := s.loss.any fun e => e.unread.get h

/-- ATTN: asserted while the outbound queue holds a message (R179). -/
def State.attn (s : State) (h : HostId) : Bool := !(s.port h).queue.isEmpty

/-- WAKE: asserted while the host is WAKING (R123), and deasserted while the hub is in reset (R142, R165). -/
def State.wakeOut (s : State) (h : HostId) : Bool :=
  decide ((s.session h).state = .waking) && s.inReset.isNone

/-- The host state code of the status byte (R181). -/
def HostState.code : HostState → Nat
  | .absent => 0
  | .awake => 1
  | .doze => 2
  | .deep => 3
  | .waking => 4
  | .lost => 5

/-- The queue depth item of the status byte: the messages left once this frame's message leaves, a first part counted as still queued, 3 for three
or more (R181). -/
def Port.depthAfter (p : Port) : Nat :=
  match p.queue with
  | [] => 0
  | m :: rest => min 3 (if m.twoPart && !p.partMark then rest.length + 1 else rest.length)

/-- The status byte (R181): overrun, notice-dropped, loss-unread, host state, queue depth after this frame. -/
def State.statusByte (s : State) (h : HostId) : Byte :=
  BitVec.ofNat 8 ((s.port h).overrun.toNat * 128 + (s.port h).noticeDropped.toNat * 64 + (s.lossUnread h).toNat * 32
    + (s.session h).state.code * 4 + (s.port h).depthAfter)

end Sys2Proof.Machine
end

