-- ==== Sys2Proof/Machine/Frames.lean ====
section
/-! DEFINITION. Hub frames: the layouts of R181 to R185. Each byte is written as the value of its listed bits and a mask of the bits that no
rule lists; those take a free value (log entry 10). -/

namespace Sys2Proof.Machine

/-- A byte of a frame: the value of its listed bits, with zero elsewhere, and the mask of its unlisted bits. -/
structure Octet where
  value : Byte
  unlisted : Byte
  deriving DecidableEq, Repr

/-- A byte whose every bit is listed. -/
def octet (v : Byte) : Octet := ⟨v, 0⟩

/-- A byte of a number below 256. -/
def octetNat (n : Nat) : Octet := ⟨BitVec.ofNat 8 n, 0⟩

/-- The bytes of a frame, with the unlisted bits of byte `i` of frame `k` free (log entry 10). -/
def fillOctets (k : Nat) (i : Nat) : List Octet → List Byte
  | [] => []
  | o :: os => (if o.unlisted = 0 then o.value else o.value ||| (o.unlisted &&& Config.unlistedBits k i)) :: fillOctets k (i + 1) os

/-- Exactly `n` bytes: the list cut, or filled with 0x00, since a byte not listed reads 0x00 (R182, R184). -/
def padOctets : Nat → List Octet → List Octet
  | 0, _ => []
  | n + 1, [] => octet 0 :: padOctets n []
  | n + 1, o :: os => o :: padOctets n os

/-- A number of two bytes, low byte first (R171). -/
def octets16 (v : BitVec 16) : List Octet := [octet (v.extractLsb' 0 8), octet (v.extractLsb' 8 8)]

/-- A number of four bytes, low byte first (R171). -/
def octets32 (v : BitVec 32) : List Octet :=
  [octet (v.extractLsb' 0 8), octet (v.extractLsb' 8 8), octet (v.extractLsb' 16 8), octet (v.extractLsb' 24 8)]

/-- A handle: slot, then serial (R176). -/
def octetsHandle (hd : Handle) : List Octet := [octetNat hd.slot.val, octet hd.serial]

/-- A host number in data, 4 for none (R184). -/
def hostCode : Option HostId → Nat
  | some h => h.toNat
  | none => 4

/-- A set of causes: bit 0 POWER_ON, bit 1 RESET_LINE, bit 2 SUPPLY_LOW (R176). -/
def causeCode (c : CauseSet) : Nat := c.powerOn.toNat + 2 * c.resetLine.toNat + 4 * c.supplyLow.toNat

/-- A set of hosts: bit n for Hn (R185). -/
def hostSetCode (u : HostSet) : Nat := u.h0.toNat + 2 * u.h1.toNat + 4 * u.h2.toNat + 8 * u.h3.toNat

/-- Phase codes (R184). -/
def SlotPhase.code : SlotPhase → Nat
  | .free => 0
  | .opened => 1
  | .captured => 2

/-- Mode codes (R176). -/
def Mode.code : Mode → Nat
  | .any => 0
  | .each => 1

/-- Sense codes (R176). -/
def Sense.code : Sense → Nat
  | .rise => 0
  | .fall => 1
  | .both => 2
  | .high => 3
  | .low => 4

/-- Result codes (R183). -/
def ResultCode.code : ResultCode → Nat
  | .ok => 0x00
  | .okDeferred => 0x01
  | .partialDone => 0x02
  | .stale => 0x03
  | .order => 0x04
  | .notAttached => 0x05
  | .badState => 0x06
  | .badArg => 0x07
  | .held => 0x08
  | .noLease => 0x09
  | .full => 0x0A
  | .quota => 0x0B
  | .noRoom => 0x0C
  | .inService => 0x0D
  | .notOwner => 0x0E

/-- Withdraw reason codes (R182). -/
def Reason.code : Reason → Nat
  | .preempted => 0
  | .timeout => 1
  | .floor => 2
  | .sleep => 3
  | .reconfigured => 4
  | .retracted => 5

/-- Record result codes of a DONE (R184). -/
def RecordResult.code : RecordResult → Nat
  | .remaining => 0
  | .freed => 1
  | .reopened => 2

/-- Outcome codes of a COMPLETED notice (R182). -/
def CompletionOutcome.code : CompletionOutcome → Nat
  | .done => 0
  | .dropped => 1

/-- Cause codes of an EVICTED notice (R182). -/
def EvictCause.code : EvictCause → Nat
  | .claimTimeout => 0
  | .wakeTimeout => 1

/-- Cause codes of a loss entry (R185). -/
def LossCause.code : LossCause → Nat
  | .unwanted => 0
  | .abandoned => 1
  | .saturated => 2

/-- Level codes of QUERY_LINE: 0 none, 1 low, 2 high (R185). -/
def acceptedCode : Option Level → Nat
  | none => 0
  | some .low => 1
  | some .high => 2

/-- The source byte: the line number, or the sending host (R182, R185). -/
def Source.code : Source → Nat
  | .line l => l.val
  | .host h => h.toNat

/-- The source byte of a RECORD view. For a FREE slot R23 gives "zero or none": zero for a line slot, and for a posted slot zero or 4, the code of
none (R184), which is left free (log entry 11). -/
def sourceOctet (posted : Bool) : Option Source → Octet
  | some v => octetNat v.code
  | none => if posted then ⟨0, 4⟩ else octet 0

/-- The hosts of a route list in 2-bit fields, the first in bits 1-0 (R176); the fields beyond the count are not listed. An empty list is shown as
zero (R185, for FREE). -/
def routeOctet (route : List HostId) : Octet :=
  match route with
  | [] => octet 0
  | [a] => ⟨BitVec.ofNat 8 a.toNat, 0xFC⟩
  | [a, b] => ⟨BitVec.ofNat 8 (a.toNat + 4 * b.toNat), 0xF0⟩
  | [a, b, c] => ⟨BitVec.ofNat 8 (a.toNat + 4 * b.toNat + 16 * c.toNat), 0xC0⟩
  | a :: b :: c :: d :: _ => octetNat (a.toNat + 4 * b.toNat + 16 * c.toNat + 64 * d.toNat)

/-- One nibble of the COPIES view: bits 1-0 the copy's state, bit 2 candidate, bit 3 wake target (R185). -/
def PositionView.nibble (v : PositionView) : Nat := v.state % 4 + 4 * v.candidate.toNat + 8 * v.wakeTarget.toNat

/-- The nibble of a route-list position, 0 beyond the route list. -/
def nibbleAt (ps : List PositionView) (i : Nat) : Nat :=
  match ps[i]? with
  | some v => v.nibble
  | none => 0

/-- Byte 6 of a fetched entry: bit 0 entry present, bits 2-1 cause, bits 5-4 host of an ABANDONED entry, bits 7-6 sending host of a posted
record (R185); the two host fields are not listed for other entries. -/
def lossFlags (cause : LossCause) (source : Source) (host : Option HostId) : Octet :=
  let hostBits : Nat × Nat := match host with
    | some h => (16 * h.toNat, 0)
    | none => (0, 0x30)
  let senderBits : Nat × Nat := match source with
    | .host h => (64 * h.toNat, 0)
    | .line _ => (0, 0xC0)
  ⟨BitVec.ofNat 8 (1 + 2 * cause.code + hostBits.1 + senderBits.1), BitVec.ofNat 8 (8 + hostBits.2 + senderBits.2)⟩

/-- The data bytes of a REPLY from byte 6 on (R184, R185); for the two-part REPLY of FETCH_LOSS, those of its first part. Without an entry, R185 gives no
value to the bytes of its slot and its band, which are free values (log entry 28). -/
def ReplyData.octets : ReplyData → List Octet
  | .empty => []
  | .attachOk epoch causes depth wasLost quota =>
    octets16 epoch ++ [octetNat (causeCode causes), ⟨BitVec.ofNat 8 (depth % 8 + 128 * wasLost.toNat), 0x78⟩, octetNat quota]
  | .hostStateIs st => [octetNat st.code]
  | .parameterSet param value => octet param :: octets16 value
  | .floorSet f => [octet f]
  | .quotaSet quota room => [octetNat quota, octetNat room]
  | .claimLine hd count sat => octetsHandle hd ++ [octetNat count, octetNat sat.toNat]
  | .claimPosted hd payload => octetsHandle hd ++ octets32 payload
  | .handleNamed slot serial => [octet slot, octet serial]
  | .doneOk hd result n => octetsHandle hd ++ [octetNat result.code, octetNat n]
  | .postOk slot use quota => [octetNat slot.val, octetNat use, octetNat quota]
  | .postRefused use quota => [octet 0, octetNat use, octetNat quota]
  | .retractOk slot removed left => [octetNat slot.val, octetNat removed, octetNat left]
  | .retractInService slot holder => [octetNat slot.val, octet 0, octetNat (hostCode holder)]
  | .retractSlot slot => [octet slot]
  | .leaseHolder group holder => [octetNat group.val, octetNat (hostCode holder)]
  | .configured line armed arrival phase withdrawn rebuilt =>
    [octetNat line.val, ⟨BitVec.ofNat 8 (armed.toNat + 2 * arrival.toNat + 16 * phase.code), 0xCC⟩, octetNat withdrawn, octetNat rebuilt]
  | .configNoLease line holder => [octetNat line.val, octetNat (hostCode holder)]
  | .configBadArg line => [octet line]
  | .causesLeft causes epoch => octetNat (causeCode causes) :: octets16 epoch
  | .hostStateView st wasLost depth floor level entries tally =>
    [⟨BitVec.ofNat 8 (st.code + 128 * wasLost.toNat), 0x78⟩, octetNat depth, octetNat floor, octetNat level, octetNat entries, octetNat tally]
  | .hostCounts misses limit wakeBand threshold quota use =>
    [octetNat misses, octetNat limit, octetNat wakeBand, octetNat threshold, octetNat quota, octetNat use]
  | .hostTimes window allowance timeout =>
    octets16 (BitVec.ofNat 16 window) ++ octets16 (BitVec.ofNat 16 allowance) ++ octets16 (BitVec.ofNat 16 timeout)
  | .eventRecord phase posted mode sat notify source band position serial =>
    [⟨BitVec.ofNat 8 (phase.code + 4 * posted.toNat + 8 * mode.code + 16 * sat.toNat + 32 * notify.toNat), 0xC0⟩,
      sourceOctet posted source, octetNat band, octetNat position, octet serial]
  | .eventCopies phase mode anyWaiting route declined rounds ps =>
    [⟨BitVec.ofNat 8 (phase.code + 8 * mode.code + 16 * anyWaiting.toNat + 32 * (route.length % 8)), 0x04⟩, routeOctet route,
      ⟨BitVec.ofNat 8 (hostSetCode declined), 0xF0⟩, octetNat rounds,
      octetNat (nibbleAt ps 0 + 16 * nibbleAt ps 1), octetNat (nibbleAt ps 2 + 16 * nibbleAt ps 3)]
  | .eventLine phase count backlog => [octetNat phase.code, octetNat count, octetNat backlog]
  | .eventPosted phase payload => octetNat phase.code :: octets32 payload
  | .lineView e raw accepted qualifying phase count backlog =>
    [octetNat (e.enabled.toNat + 2 * e.mode.code + 4 * (decide (raw = .high)).toNat + 8 * acceptedCode accepted + 32 * qualifying.toNat
        + 64 * phase.code),
      octetNat (e.sense.code + 8 * (e.band % 8) + 64 * ((e.route.length - 1) % 4)), octetNat e.qualification, routeOctet e.route,
      octetNat count, octetNat backlog]
  | .lossEntry cause slot source band _ host missed remaining =>
    [lossFlags cause source host, octetNat slot.val, octetNat band, octetNat missed, octetNat remaining]
  | .noLossEntry missed => [⟨0, 0xFE⟩, ⟨0, 0xFF⟩, ⟨0, 0xFF⟩, octetNat missed, octet 0]

/-- The data bytes of the second part of a two-part REPLY: the payload, 0 for a line record (R185). -/
def ReplyData.secondOctets : ReplyData → List Octet
  | .lossEntry _ _ _ _ payload _ _ _ => octets32 payload
  | _ => []

/-- Bytes 4 to 11 of a message's frame (R182, R183); `second` is whether the second part is carried. -/
def Msg.body (second : Bool) : Msg → List Octet
  | .reply seq result data => octet seq :: octetNat result.code :: (if second then data.secondOctets else data.octets)
  | .offer hd source band mode sat count payload =>
    octetsHandle hd ++ [octetNat source.code, ⟨BitVec.ofNat 8 (band % 8 + 8 * mode.code + 16 * sat.toNat), 0xE0⟩] ++
      (match source with
        | .line _ => [octetNat count]
        | .host _ => octets32 payload)
  | .withdraw hd reason => octetsHandle hd ++ [octetNat reason.code]
  | .completed slot outcome payload => [octetNat 1, octetNat slot.val, octetNat outcome.code] ++ octets32 payload
  | .evicted cause misses returned abandoned leases =>
    [octetNat 2, octetNat cause.code, octetNat misses, octetNat returned, octetNat abandoned, octetNat leases]

/-- The kind code of a message's frame (R181). -/
def Msg.kindCode : Msg → Nat
  | .reply _ _ _ => 1
  | .offer _ _ _ _ _ _ _ => 2
  | .withdraw _ _ => 3
  | .completed _ _ _ => 4
  | .evicted _ _ _ _ _ => 4

/-- Byte 0 of a frame: bits 3-0 kind, bit 6 second part, bit 7 another part follows (R181). -/
def headOctet (kind : Nat) (second follows : Bool) : Octet :=
  ⟨BitVec.ofNat 8 (kind + 64 * second.toNat + 128 * follows.toNat), 0x30⟩

/-- The octets of the frame that a running hub forms on a port (R172, R181): kind, status, epoch and body. -/
def State.frameOctets (s : State) (h : HostId) : List Octet :=
  let common := octet (s.statusByte h) :: octets16 s.epoch
  match (s.port h).queue with
  | [] => headOctet 0 false false :: (common ++ padOctets 8 [])
  | m :: _ =>
    let second := m.twoPart && (s.port h).partMark
    headOctet m.kindCode second (m.twoPart && !(s.port h).partMark) :: (common ++ padOctets 8 (m.body second))

/-- The NOT_READY frame (R181). -/
def notReadyFrame : List Byte := [0x0F, 0, 0, 0, 0, 0, 0, 0, 0, 0, 0, 0]

/-- Byte `i` that the hub shifts out in the present chip-select period of a port: the frame's first 12 bytes and 0x00 after them (R171), 0x00 after a
cut-off (R187), none while CS is high, where MISO is at high impedance (R171). -/
def State.misoByte (s : State) (h : HostId) (i : Nat) : Option Byte :=
  match (s.port h).cs with
  | .idle => none
  | .live x => some (x.frame.getD i 0)
  | .cutOff => some 0
  | .notReady => some (notReadyFrame.getD i 0)

end Sys2Proof.Machine
end

