-- ==== Sys2Proof/Machine/Router.lean ====
section
/-! DEFINITION. The Router: eligibility, candidates, wake targets, the batch tally and the wake trigger (chapter 3). It holds no state;
every answer is a reading of the state (R50). -/

namespace Sys2Proof.Machine

/-- The conditions on floor, level and stack room that R44 and R48 share: the band is above the host's floor and above its level, and its stack
holds fewer entries than its nesting depth. -/
def State.hasRoomFor (s : State) (h : HostId) (band : Nat) : Bool :=
  decide ((s.session h).floor < band) && decide (s.level h < band) &&
    decide ((s.disp h).stack.length < (s.session h).depth)

/-- Eligibility of a band at a host, but for the declined set (R44). -/
def State.eligible (s : State) (h : HostId) (band : Nat) : Bool :=
  (s.session h).state.listening && s.hasRoomFor h band

/-- The conditions of R44 with the state condition replaced by DEEP or WAKING (R48). -/
def State.wouldAccept (s : State) (h : HostId) (band : Nat) : Bool :=
  (s.session h).state.asleep && s.hasRoomFor h band

/-- The candidate of a copy: for ANY the first eligible, undeclined host of the route list (R45), for EACH its own host when eligible (R46);
none for a copy that is not WAITING. -/
def State.candidate (s : State) (r : Record) (c : Copy) : Option HostId :=
  match c.state with
  | .waiting =>
    match r.mode with
    | .any => r.route.find? fun h => s.eligible h r.band && !r.declined.get h
    | .each => c.host.filter fun h => s.eligible h r.band
  | .offered _ | .inService _ => none

/-- The wake target of a copy that has no candidate (R48, R49). -/
def State.wakeTarget (s : State) (r : Record) (c : Copy) : Option HostId :=
  match c.state with
  | .waiting =>
    if (s.candidate r c).isSome then none
    else
      match r.mode with
      | .any => r.route.find? fun h => s.wouldAccept h r.band && !r.declined.get h
      | .each => c.host.filter fun h => s.wouldAccept h r.band
  | .offered _ | .inService _ => none

/-- A copy with its record and its slot. -/
structure PlacedCopy where
  slot : SlotNo
  record : Record
  copy : Copy
  deriving DecidableEq, Repr

/-- Every copy of the records in use, in arrival-list order and then copy-list order. -/
def State.placedCopies (s : State) : List PlacedCopy :=
  s.arrivals.flatMap fun n =>
    match s.record n with
    | some r => r.copies.map fun c => ⟨n, r, c⟩
    | none => []

/-- The copies whose candidate is `h`. -/
def State.candidatesOf (s : State) (h : HostId) : List PlacedCopy :=
  s.placedCopies.filter fun w => decide (s.candidate w.record w.copy = some h)

/-- The earlier of two copies in the arbiter's order: the first, unless the second has a higher band (R65). -/
def preferred (best : Option PlacedCopy) (w : PlacedCopy) : Option PlacedCopy :=
  match best with
  | none => some w
  | some b => if b.record.band < w.record.band then some w else some b

/-- The arbiter's choice at `h`: among the copies whose candidate is `h` the highest band, and among those the earliest in the arrival list
(R65). -/
def State.choose (s : State) (h : HostId) : Option PlacedCopy := (s.candidatesOf h).foldl preferred none

/-- The copies whose wake target is `h`. -/
def State.wakeCopies (s : State) (h : HostId) : List PlacedCopy :=
  s.placedCopies.filter fun w => decide (s.wakeTarget w.record w.copy = some h)

/-- The batch tally of a host: the WAITING copies whose wake target it is (R58); 0 in any state but DEEP and WAKING, since only such a host is a
wake target. -/
def State.batchTally (s : State) (h : HostId) : Nat :=
  if (s.session h).state.asleep then (s.wakeCopies h).length else 0

/-- The wake trigger (R59): the host is DEEP and a copy whose wake target it is has a band at or above its wake band, or its batch tally is at or
above its batch threshold. -/
def State.wakeTriggered (s : State) (h : HostId) : Bool :=
  decide ((s.session h).state = .deep) &&
    ((s.wakeCopies h).any (fun w => decide ((s.session h).wakeBand ≤ w.record.band)) ||
      decide ((s.session h).batchThreshold ≤ s.batchTally h))

end Sys2Proof.Machine
end

