-- ==== Sys2Proof/Machine/Ops.lean ====
section
/-! DEFINITION. The operations that several commands and events share: messages and notices, loss entries, the life of a record, offers and
their withdrawal, the Router's recomputation and the teardown of a host. -/

namespace Sys2Proof.Machine

/-! ### Outbound queues -/

/-- A message appended at the tail of a host's outbound queue (R177). -/
def State.enqueue (s : State) (h : HostId) (m : Msg) : State := s.updPort h fun p => { p with queue := p.queue ++ [m] }

/-- A REPLY placed in the caller's outbound queue (R183). -/
def State.reply (s : State) (h : HostId) (seq : Byte) (result : ResultCode) (data : ReplyData) : State :=
  s.enqueue h (.reply seq result data)

/-- A queue without the newest OFFER of a handle, none when it holds no such OFFER. An older OFFER of an equal handle, which a short exchange has left
at the head after its WITHDRAW was made (R75), is not the OFFER of the offer that ends. DEDUCED: log entry 24. -/
def dropOffer (hd : Handle) : List Msg → Option (List Msg)
  | [] => none
  | m :: ms =>
    match dropOffer hd ms with
    | some q => some (m :: q)
    | none => if m.offers hd then some ms else none

/-- The queue of a port without the OFFER of a handle, none when the queue holds no such OFFER behind the message of an exchange in progress, which
cannot be deleted (R69, R75, R172). -/
def Port.queueWithoutOffer (p : Port) (hd : Handle) : Option (List Msg) :=
  if p.headCarried then
    match p.queue with
    | [] => none
    | m :: ms => (dropOffer hd ms).map (m :: ·)
  else dropOffer hd p.queue

/-- The handling of a withdrawn offer's message (R75): the OFFER is deleted if it is still in the queue and not carried, otherwise a WITHDRAW is
appended. -/
def Port.endOffer (p : Port) (hd : Handle) (reason : Reason) : Port :=
  match p.queueWithoutOffer hd with
  | some q => { p with queue := q }
  | none => { p with queue := p.queue ++ [.withdraw hd reason] }

/-- The deletion of a claimed or declined offer's OFFER that is still in the queue and not carried (R69). -/
def Port.deleteOffer (p : Port) (hd : Handle) : Port :=
  match p.queueWithoutOffer hd with
  | some q => { p with queue := q }
  | none => p

/-- The frame of an exchange in progress no longer clears the notice-dropped mark at completion, since the mark was set again (R173 step 1). -/
def ChipSelect.noticeSetAgain : ChipSelect → ChipSelect
  | .live x => .live { x with shownNotice := false }
  | .idle => .idle
  | .cutOff => .cutOff
  | .notReady => .notReady

/-- A COMPLETED notice on its way to the sender's port (R117). -/
structure Notice where
  sender : HostId
  slot : SlotNo
  outcome : CompletionOutcome
  payload : BitVec 32
  deriving DecidableEq, Repr

/-- The delivery of a COMPLETED notice (R118, R119): appended when the sender is attached and has room; dropped with the notice-dropped mark when it
is attached without room; dropped without a mark when it is not attached. -/
def State.deliver (s : State) (n : Notice) : State :=
  if s.attached n.sender then
    if (s.port n.sender).hasNoticeRoom then s.enqueue n.sender (.completed n.slot n.outcome n.payload)
    else s.updPort n.sender fun p => { p with noticeDropped := true, cs := p.cs.noticeSetAgain }
  else s

/-- The delivery of a notice that a completion may have made. -/
def State.deliver? (s : State) : Option Notice → State
  | some n => s.deliver n
  | none => s

/-! ### Loss entries -/

/-- The unread set of a new entry (R160): the attached hosts of the route list, or every attached host when the route list holds none. -/
def State.unreadFor (s : State) (route : List HostId) : HostSet :=
  let onRoute : HostSet := PerHost.ofFn fun h => s.attached h && route.contains h
  if onRoute.isEmpty then PerHost.ofFn fun h => s.attached h else onRoute

/-- The payload a loss entry carries: the record's, for a posted record (R159). -/
def Record.lossPayload (r : Record) : BitVec 32 :=
  match r.source with
  | .host _ => r.payload
  | .line _ => 0

/-- The making of a loss entry (R159 to R161): stored while the list holds fewer than 16 entries, otherwise counted as missed by every host of its
unread set, up to 255; no entry when no host is attached. -/
def State.makeLoss (s : State) (cause : LossCause) (n : SlotNo) (r : Record) (host : Option HostId) : State :=
  let unread := s.unreadFor r.route
  if unread.isEmpty then s
  else if s.loss.length < 16 then
    { s with loss := s.loss ++ [⟨cause, n, r.source, r.band, r.lossPayload, host, unread⟩] }
  else
    { s with missed := PerHost.ofFn fun h =>
        if unread.get h then min 255 (s.missed.get h + 1) else s.missed.get h }

/-! ### The life of a record -/

/-- Fresh copies (R11): one WAITING copy without host for ANY, one WAITING copy for each route-list host for EACH. -/
def freshCopies (mode : Mode) (route : List HostId) : List Copy :=
  match mode with
  | .any => [⟨none, .waiting⟩]
  | .each => route.map fun h => ⟨some h, .waiting⟩

/-- The record of a line as it opens or reopens from the line table entry (R9, R17). -/
def lineRecord (l : LineNo) (e : LineEntry) (count : Nat) (saturated : Bool) : Record :=
  { source := .line l, band := e.band, mode := e.mode, route := e.route, phase := .opened, count := count, backlog := 0,
    saturated := saturated, payload := 0, notify := false, declined := HostSet.empty, rounds := 0,
    copies := freshCopies e.mode e.route }

/-- A posted record as it opens (R10). -/
def postedRecord (sender : HostId) (band : Nat) (mode : Mode) (route : List HostId) (payload : BitVec 32) (notify : Bool) : Record :=
  { source := .host sender, band := band, mode := mode, route := route, phase := .opened, count := 0, backlog := 0,
    saturated := false, payload := payload, notify := notify, declined := HostSet.empty, rounds := 0,
    copies := freshCopies mode route }

/-- A record opened in a FREE slot and appended at the tail of the arrival list (R9, R10, R20). -/
def State.openRecord (s : State) (n : SlotNo) (r : Record) : State :=
  { s.setRecord n (some r) with arrivals := s.arrivals ++ [n] }

/-- A slot freed: the record leaves the arrival list; the offer serial is kept (R18). -/
def State.freeSlot (s : State) (n : SlotNo) : State :=
  { s.setRecord n none with arrivals := s.arrivals.filter fun m => decide (m ≠ n) }

/-- A line record reopened in its slot, at the tail of the arrival list (R17). -/
def State.reopenRecord (s : State) (n : SlotNo) (r : Record) : State :=
  { s.setRecord n (some r) with arrivals := (s.arrivals.filter fun m => decide (m ≠ n)) ++ [n] }

/-- The active level of a sense, none for an edge sense (R25). -/
def Sense.active : Sense → Option Level
  | .high => some .high
  | .low => some .low
  | .rise | .fall | .both => none

/-- Whether a sense is a level sense (R25). -/
def Sense.isLevel (v : Sense) : Bool := v.active.isSome

/-- The accepted level of a detector, none while UNPRIMED (R28). -/
def Detector.accepted : Detector → Option Level
  | .unprimed => none
  | .steady a => some a
  | .qualifying a _ _ => some a

/-- Whether the accepted level of a line is the active level of its sense (R16, R35). -/
def State.lineActive (s : State) (l : LineNo) : Bool :=
  match (s.entry l).sense.active, (s.line l).detector.accepted with
  | some v, some a => decide (a = v)
  | _, _ => false

/-- The table of R16, with R34 for a level-sense backlog above 1: the count a completing line record reopens with, none when it is freed. -/
def reopenCount (e : LineEntry) (active : Bool) (backlog : Nat) : Option Nat :=
  if e.enabled then
    if e.sense.isLevel then (if backlog = 0 ∧ active = false then none else some 1)
    else (if backlog = 0 then none else some backlog)
  else none

/-- What a completion or the removal of a copy leaves: the state, the COMPLETED notice to deliver, and the record result with its number (R94). -/
structure Completion where
  state : State
  notice : Option Notice
  result : RecordResult
  number : Nat
  deriving DecidableEq, Repr

/-- The completion of a record whose last copy has left it (R14 to R17). -/
def State.complete (s : State) (n : SlotNo) (r : Record) (outcome : CompletionOutcome) : Completion :=
  match r.source with
  | .host h => ⟨s.freeSlot n, if r.notify then some ⟨h, n, outcome, r.payload⟩ else none, .freed, 0⟩
  | .line l =>
    match reopenCount (s.entry l) (s.lineActive l) r.backlog with
    | none => ⟨s.freeSlot n, none, .freed, r.backlog⟩
    | some c => ⟨s.reopenRecord n (lineRecord l (s.entry l) c r.saturated), none, .reopened, c⟩

/-- The removal of a host's copy from the record in a slot, with the completion when it was the last (R4, R14). -/
def State.removeCopy (s : State) (n : SlotNo) (h : HostId) : Completion :=
  match s.record n with
  | none => ⟨s, none, .remaining, 0⟩
  | some r =>
    let left := r.copies.filter fun c => decide (c.host ≠ some h)
    if left.isEmpty then s.complete n r .done
    else ⟨s.setRecord n (some { r with copies := left }), none, .remaining, r.backlog⟩

/-- The saturated mark set; its change from clear makes the record's one SATURATED entry (R36, R37). -/
def State.saturate (s : State) (n : SlotNo) (r : Record) : State :=
  let s' := s.setRecord n (some { r with saturated := true })
  if r.saturated then s' else s'.makeLoss .saturated n r none

/-- An arrival applied to the line's record (R33 for the edge senses, R34 for the level senses). -/
def State.arrive (s : State) (l : LineNo) : State :=
  let n := slotOfLine l
  match s.record n with
  | none => s.openRecord n (lineRecord l (s.entry l) 1 false)
  | some r =>
    if (s.entry l).sense.isLevel then
      match r.phase with
      | .opened => s
      | .captured => s.setRecord n (some { r with backlog := if r.backlog = 0 then 1 else r.backlog })
    else
      match r.phase with
      | .opened => if r.count < 255 then s.setRecord n (some { r with count := r.count + 1 }) else s.saturate n r
      | .captured => if r.backlog < 255 then s.setRecord n (some { r with backlog := r.backlog + 1 }) else s.saturate n r

/-! ### Decline rounds -/

/-- Whether a round of a record has ended: its copy is WAITING, some host of its route list is attached, and every attached host of its route list is
declined (R54). -/
def State.roundOver (s : State) (r : Record) : Bool :=
  decide (r.mode = .any) && r.copies.any (fun c => decide (c.state = .waiting)) && r.route.any s.attached &&
    r.route.all fun h => !s.attached h || r.declined.get h

/-- The round end at a record when it is due (R54): the rounds count rises and the declined set is emptied; at the third the record is dropped with an
UNWANTED entry and completes DROPPED (R55). Within a teardown (R98) the outcome is DROPPED as well, by R14, R55 and R117, although R103 gives DONE to
every record that completes during a teardown. DESIGN CHOICE: log entry 27. -/
def State.roundEnd (s : State) (n : SlotNo) : State × Option Notice :=
  match s.record n with
  | none => (s, none)
  | some r =>
    if s.roundOver r then
      if r.rounds + 1 < 3 then
        (s.setRecord n (some { r with rounds := r.rounds + 1, declined := HostSet.empty }), none)
      else
        let c := (s.makeLoss .unwanted n r none).complete n r .dropped
        (c.state, c.notice)
    else (s, none)

/-- A round end with the delivery of its notice. -/
def State.roundEndDelivered (s : State) (n : SlotNo) : State :=
  (s.roundEnd n).1.deliver? (s.roundEnd n).2

/-- Every round end that holds, record by record in arrival-list order (R54, R98). -/
def State.roundEnds (s : State) : State := s.arrivals.foldl State.roundEndDelivered s

/-! ### Offers -/

/-- The record with a WAITING copy put to a host under a handle (R66). -/
def Record.offerTo (r : Record) (h : HostId) (hd : Handle) : Record :=
  { r with copies := r.copies.map fun c =>
      if c.state = .waiting ∧ (r.mode = .any ∨ c.host = some h) then ⟨some h, .offered hd⟩ else c }

/-- The duration of a claim timer started now: the claim window, with the doze allowance when the host is in DOZE (R68). -/
def State.claimDuration (s : State) (h : HostId) : Nat :=
  (s.session h).claimWindow + (if (s.session h).state = .doze then (s.session h).dozeAllowance else 0)

/-- The offer of the copy of slot `n` to host `h` (R66 to R68): the serial advances, the copy is OFFERED, the slot holds the offer, the claim timer
starts and the OFFER is appended. -/
def State.makeOffer (s : State) (h : HostId) (n : SlotNo) : State :=
  match s.record n with
  | none => s
  | some r =>
    let hd : Handle := ⟨n, s.serial n + 1⟩
    let s' := (s.setSerial n hd.serial).setRecord n (some (r.offerTo h hd))
    let s' := s'.updDisp h fun d => { d with offer := some ⟨hd, r.band⟩, claimTimer := some (s.now + s.claimDuration h) }
    s'.enqueue h (.offer hd r.source r.band r.mode r.saturated r.count r.payload)

/-- Whether a host's arbiter may fill its slot: the slot is EMPTY and the queue holds 5 messages or fewer (R64). -/
def State.readyForOffer (s : State) (h : HostId) : Bool := (s.disp h).offer.isNone && (s.port h).hasOfferRoom

/-- The arbiter of one host (R64, R65). -/
def State.arbiterFill (s : State) (h : HostId) : State :=
  if s.readyForOffer h then
    match s.choose h with
    | some w => s.makeOffer h w.slot
    | none => s
  else s

/-- The offers that the arbiters of all hosts make from one state, in arrival-list order of the records and copy-list order within a record, which is
the order in which the serials are taken (R66). -/
def State.offersDue (s : State) : List (HostId × SlotNo) :=
  s.placedCopies.filterMap fun w =>
    match s.candidate w.record w.copy with
    | some h => if s.readyForOffer h && decide ((s.choose h).map PlacedCopy.slot = some w.slot) then some (h, w.slot) else none
    | none => none

/-- One of the fills of an event: the offer, made while the slot is EMPTY and the queue has room (R64). -/
def State.fillDue (s : State) (o : HostId × SlotNo) : State := if s.readyForOffer o.1 then s.makeOffer o.1 o.2 else s

/-- Every arbiter fills its slot from the state as it stands (R64). A fill changes no other host's candidates, so the arbiters do not
meet. -/
def State.fillAll (s : State) : State := s.offersDue.foldl State.fillDue s

/-- The record with host `h`'s offer ended: the copy OFFERED at `h` (a handle of equal value held for another host is not looked at, R7) is WAITING again, an ANY copy without host, and after a TIMEOUT the host has joined the declined
set of an ANY record (R73, R74). -/
def Record.withdrawn (r : Record) (h : HostId) (hd : Handle) (reason : Reason) : Record :=
  { r with
    copies := r.copies.map fun c =>
      if c.host = some h ∧ c.state = .offered hd then ⟨if r.mode = .any then none else c.host, .waiting⟩ else c
    declined := if reason = .timeout ∧ r.mode = .any then r.declined.set h true else r.declined }

/-- The withdrawal of the offer outstanding at a host (R73 to R75); nothing when its slot is EMPTY. -/
def State.withdraw (s : State) (h : HostId) (reason : Reason) : State :=
  match (s.disp h).offer with
  | none => s
  | some o =>
    let s := s.updDisp h fun d => { d with offer := none, claimTimer := none }
    let s := s.updRecord o.handle.slot fun r => r.withdrawn h o.handle reason
    s.updPort h fun p => p.endOffer o.handle reason

/-- Whether a host's slot holds an offer of a slot's record. -/
def State.holdsOfferOf (s : State) (n : SlotNo) (h : HostId) : Bool :=
  match (s.disp h).offer with
  | some o => decide (o.handle.slot = n)
  | none => false

/-- The withdrawal of every outstanding offer of a record, at whichever hosts hold them (R80, R114, R115, R151). -/
def State.withdrawAll (s : State) (n : SlotNo) (reason : Reason) : State :=
  (HostId.all.filter (s.holdsOfferOf n)).foldl (fun t h => t.withdraw h reason) s

/-! ### The Router's recomputation -/

/-- Preemption at one host (R76): its offer is withdrawn when a WAITING copy of higher band has it as candidate. -/
def State.preemptAt (s : State) (h : HostId) : State :=
  match (s.disp h).offer with
  | some o => if (s.candidatesOf h).any (fun w => decide (o.band < w.record.band)) then s.withdraw h .preempted else s
  | none => s

/-- Preemption at every host once. -/
def State.preemptPass (s : State) : State := HostId.all.foldl State.preemptAt s

/-- Every preemption that one event causes, before any slot is filled: a withdrawn copy may in turn preempt elsewhere, and four slots can be emptied
at most four times (R76, log entry 17). -/
def State.preemptAll (s : State) : State := s.preemptPass.preemptPass.preemptPass.preemptPass

/-- The wake trigger at one host (R130). -/
def State.takeWake (s : State) (h : HostId) : State :=
  if s.wakeTriggered h then
    s.updSession h fun e => { e with state := .waking, wakeTimer := some (s.now + e.wakeTimeout) }
  else s

/-- The wake triggers of every host (R59, R130). -/
def State.takeWakes (s : State) : State := HostId.all.foldl State.takeWake s

/-- The Router's recomputation at the end of an event (R50): outstanding offers are preempted, empty slots filled, wake triggers taken. -/
def State.recompute (s : State) : State := s.preemptAll.fillAll.takeWakes

/-! ### The teardown of a host -/

/-- A teardown at work: the state and the counts that EVICTED carries (R138). -/
structure TeardownWork where
  state : State
  returned : Nat
  abandoned : Nat
  deriving DecidableEq, Repr

/-- An ANY record with a host's copy handed back: WAITING without host, and the host declined (R86, R99). -/
def Record.handBack (r : Record) (h : HostId) : Record :=
  { r with
    copies := r.copies.map fun c => if c.host = some h then ⟨none, .waiting⟩ else c
    declined := r.declined.set h true }

/-- An EACH copy of a torn-down host given up (R100): its ABANDONED entry, the removal of the copy, and the completion when it was the last. -/
def TeardownWork.abandon (w : TeardownWork) (h : HostId) (n : SlotNo) (r : Record) : TeardownWork :=
  let c := (w.state.makeLoss .abandoned n r (some h)).removeCopy n h
  { w with state := c.state.deliver? c.notice, abandoned := w.abandoned + 1 }

/-- The reclaim of an ANY copy from a stack (R99, R13): the record returns to OPEN, and on an edge-sense line the backlog is merged into the count, held
at 255 with the saturated mark. -/
def State.reclaim (s : State) (h : HostId) (n : SlotNo) (r : Record) : State :=
  let r' := { r.handBack h with phase := .opened, backlog := 0 }
  match r.source with
  | .host _ => s.setRecord n (some r')
  | .line l =>
    if (s.entry l).sense.isLevel then s.setRecord n (some r')
    else if r.count + r.backlog ≤ 255 then s.setRecord n (some { r' with count := r.count + r.backlog })
    else s.saturate n { r' with count := 255 }

/-- Step 2 of the teardown (R86): the offer in the host's slot. -/
def TeardownWork.endOffer (w : TeardownWork) (h : HostId) : TeardownWork :=
  match (w.state.disp h).offer with
  | none => w
  | some o =>
    let s := w.state.updDisp h fun d => { d with offer := none, claimTimer := none }
    match s.record o.handle.slot with
    | none => { w with state := s }
    | some r =>
      match r.mode with
      | .any => { w with state := s.setRecord o.handle.slot (some (r.handBack h)), returned := w.returned + 1 }
      | .each => { w with state := s }.abandon h o.handle.slot r

/-- One entry of step 3 of the teardown (R99, R100). -/
def TeardownWork.popEntry (h : HostId) (w : TeardownWork) (e : StackEntry) : TeardownWork :=
  match w.state.record e.handle.slot with
  | none => w
  | some r =>
    match r.mode with
    | .any => { w with state := w.state.reclaim h e.handle.slot r, returned := w.returned + 1 }
    | .each => w.abandon h e.handle.slot r

/-- The records that owe a host a WAITING EACH copy, in arrival-list order (R101). -/
def State.owedTo (s : State) (h : HostId) : List SlotNo :=
  s.arrivals.filter fun n =>
    match s.record n with
    | some r => decide (r.mode = .each) && r.copies.any fun c => decide (c.host = some h) && decide (c.state = .waiting)
    | none => false

/-- One record of step 4 of the teardown (R101). -/
def TeardownWork.dropOwed (h : HostId) (w : TeardownWork) (n : SlotNo) : TeardownWork :=
  match w.state.record n with
  | none => w
  | some r => w.abandon h n r

/-- Steps 2 to 4 of the teardown: the offer, the stack oldest entry first, and the EACH copies the host was owed when the teardown began; a copy that a
record reopened within the teardown owes it anew stays (R98, R100, R101). DEDUCED: log entry 19. -/
def State.releaseCopies (s : State) (h : HostId) : TeardownWork :=
  let w := TeardownWork.endOffer ⟨s, 0, 0⟩ h
  let stack := (w.state.disp h).stack
  let w := { w with state := w.state.updDisp h fun d => { d with stack := [], claimTimer := none } }
  (s.owedTo h).foldl (TeardownWork.dropOwed h) (stack.foldl (TeardownWork.popEntry h) w)

/-- The number of line groups a host holds (R138). -/
def State.leaseCount (s : State) (h : HostId) : Nat := s.leases.toList.countP fun v => decide (v = some h)

/-- Step 6 of the teardown: every lease of the host released (R136). -/
def State.releaseLeases (s : State) (h : HostId) : State :=
  { s with leases := mapTable (fun v => if v = some h then none else v) s.leases }

/-- Step 7 of the teardown: the host leaves every unread set, entries left with none are freed, and its missed-loss count is 0 (R136). -/
def State.forgetLosses (s : State) (h : HostId) : State :=
  { s with
    loss := (s.loss.map fun e => { e with unread := e.unread.set h false }).filter fun e => !e.unread.isEmpty
    missed := s.missed.set h 0 }

/-- The exchange in progress keeps its frame, but its message has left the queue (R186). -/
def ChipSelect.dropCarried : ChipSelect → ChipSelect
  | .live x => .live { x with carried := false }
  | .idle => .idle
  | .cutOff => .cutOff
  | .notReady => .notReady

/-- Step 8 of the teardown: the queue is emptied and the marks cleared (R137, R186). -/
def State.clearPort (s : State) (h : HostId) : State :=
  s.updPort h fun p =>
    { p with queue := [], partMark := false, overrun := false, noticeDropped := false, cs := p.cs.dropCarried }

/-- What steps 1 to 8 of a teardown leave, with the counts of EVICTED (R138). -/
structure Teardown where
  state : State
  returned : Nat
  abandoned : Nat
  leases : Nat
  deriving DecidableEq, Repr

/-- Steps 1 to 8 of the teardown of a host (R135); `final` is ABSENT or LOST. -/
def State.teardown (s : State) (h : HostId) (final : HostState) : Teardown :=
  let s := s.updSession h fun e => { e with state := final, wakeTimer := none }
  let w := s.releaseCopies h
  let s := w.state.roundEnds
  ⟨((s.releaseLeases h).forgetLosses h).clearPort h, w.returned, w.abandoned, s.leaseCount h⟩

/-- The loss of a host (R133, R135, R137, R138): its teardown, the was-lost mark, EVICTED in the emptied queue, and the recomputation. -/
def State.lose (s : State) (h : HostId) (cause : EvictCause) : State :=
  let t := s.teardown h .lost
  let s := t.state.updSession h fun e => { e with wasLost := true }
  (s.enqueue h (.evicted cause (s.session h).missCount t.returned t.abandoned t.leases)).recompute

/-- A miss counted against a host (R78, R133): it is lost when the count then stands at or above its miss limit; otherwise `survive` goes
on. -/
def State.miss (s : State) (h : HostId) (cause : EvictCause) (survive : State → State) : State :=
  let s := s.updSession h fun e => { e with missCount := e.missCount + 1 }
  if (s.session h).missLimit ≤ (s.session h).missCount then s.lose h cause else survive s

end Sys2Proof.Machine
end

