-- ==== Sys2Proof/Machine/Exchange.lean ====
section
/-! DEFINITION. The exchange on a port: its start, its completion step by step (R171 to R175), the conditions every command passes before its own
rule, and the meanings of EXCHANGE_START, SHORT_EXCHANGE, EXCHANGE_DISCARDED, NOP and UNKNOWN_COMMAND. -/

namespace Sys2Proof.Machine

/-- The outcome type of a meaning. -/
abbrev Result := Host.Outcome State Fault Refusal

/-- A port's chip-select period replaced. -/
def State.setCs (s : State) (p : HostId) (cs : ChipSelect) : State := s.updPort p fun q => { q with cs := cs }

/-- The exchange that the fall of CS starts while the hub runs: the frame formed from the port's state at that moment (R172). -/
def State.newExchange (s : State) (p : HostId) : Exchange :=
  { frame := fillOctets s.freeIdx 0 (s.frameOctets p), bytes := 0, carried := !(s.port p).queue.isEmpty,
    shownOverrun := (s.port p).overrun, shownNotice := (s.port p).noticeDropped }

/-- The fall of CS on a port (R172): an exchange with its frame while the hub runs, a NOT_READY period during a reset (R187). CS that is low already does
not fall again (log entry 6). -/
def State.csFall (s : State) (p : HostId) : State :=
  match (s.port p).cs with
  | .idle =>
    match s.inReset with
    | none => { s.setCs p (.live (s.newExchange p)) with freeIdx := s.freeIdx + 1 }
    | some _ => s.setCs p .notReady
  | .live _ | .cutOff | .notReady => s

/-- The exchange of a command row: the one in progress, or, when CS is high, one whose CS falls immediately before (log entry 5). -/
def State.ensureExchange (s : State) (p : HostId) : State :=
  match (s.port p).cs with
  | .idle => s.csFall p
  | .live _ | .cutOff | .notReady => s

/-- Step 1 of the completion (R173): the marks that the frame showed are cleared, unless set again since. -/
def Port.clearShown (q : Port) (x : Exchange) : Port :=
  { q with overrun := q.overrun && !x.shownOverrun, noticeDropped := q.noticeDropped && !x.shownNotice }

/-- Step 3 of the completion (R173, R180): the carried message leaves the queue, or a first part sets the part mark; the second component says
whether a message has left. -/
def Port.takeCarried (q : Port) : Port × Bool :=
  if q.headCarried then
    match q.queue with
    | [] => (q, false)
    | m :: rest =>
      if m.twoPart && !q.partMark then ({ q with partMark := true }, false)
      else ({ q with queue := rest, partMark := false }, true)
  else (q, false)

/-- The end of a full exchange (R173): step 3, and the fill of the host's slot when the removal has left room. CS is high from here on. When this fill and
the offers of step 2 are of one record, the offers of step 2 have taken the lower serials, whatever the copy order: R66 does not say so of the two
steps of R173. DESIGN CHOICE: log entry 26. -/
def State.finishExchange (s : State) (p : HostId) : State :=
  let q := (s.port p).takeCarried
  let s := s.updPort p fun _ => { q.1 with cs := .idle }
  if q.2 then s.arbiterFill p else s

/-- Step 1 of the completion of the exchange in progress on a port (R173), after `bytes` bytes; nothing when no exchange is in progress. -/
def State.clearMarks (s : State) (p : HostId) (bytes : Nat) : State :=
  match (s.port p).cs with
  | .live x => s.updPort p fun q => { q.clearShown x with cs := .live { x with bytes := bytes } }
  | .idle | .cutOff | .notReady => s

/-- The rise of CS on port `p` after `bytes` bytes (R171, R173, R174, R187). While the hub is in reset, or in a period that a reset cut off or that began
during one, the exchange is discarded; with fewer than 12 bytes it is discarded as short; otherwise it completes, with `take` as step 2. -/
def State.csRise (s : State) (p : HostId) (bytes : Nat) (take : State → State) : State :=
  match s.inReset, (s.port p).cs with
  | _, .idle => s
  | none, .live _ => if bytes < 12 then s.setCs p .idle else (take (s.clearMarks p bytes)).finishExchange p
  | _, _ => s.setCs p .idle

/-- A full exchange on port `p` whose command has the effect `take` at step 2 (R173). -/
def State.fullExchange (s : State) (p : HostId) (take : State → State) : State := (s.ensureExchange p).csRise p 12 take

/-- The capacity rule (R178): a command is taken only if its REPLY has a place; otherwise the overrun mark is set and nothing else happens. -/
def State.withReplyRoom (s : State) (p : HostId) (take : State → State) : State :=
  if (s.port p).hasReplyRoom then take s else s.updPort p fun q => { q with overrun := true }

/-- The return to AWAKE of a host in DOZE, DEEP or WAKING (R127): WAKE is deasserted and the wake timer stopped without expiry. -/
def State.wakeUp (s : State) (p : HostId) : State :=
  match (s.session p).state with
  | .doze | .deep | .waking => s.updSession p fun e => { e with state := .awake, wakeTimer := none }
  | .awake | .absent | .lost => s

/-- Whether a command first makes its host AWAKE (R127). -/
def State.sleeps (s : State) (p : HostId) : Bool :=
  match (s.session p).state with
  | .doze | .deep | .waking => true
  | .awake | .absent | .lost => false

/-- What a command's own rule leaves: the state with its REPLY placed, and whether it changed an input of the Router (R50). -/
structure Effect where
  state : State
  routed : Bool

/-- A command of an attached host (R126, R127): NOT_ATTACHED from a host that is not attached; otherwise the host is made AWAKE, the command takes effect,
and the Router recomputes once when the host woke or the command changed its inputs. -/
def State.command (s : State) (p : HostId) (seq : Byte) (act : State → Effect) : State :=
  s.withReplyRoom p fun s =>
    if s.attached p then
      let e := act (s.wakeUp p)
      if s.sleeps p || e.routed then e.state.recompute else e.state
    else s.reply p seq .notAttached .empty

/-- A REPLY alone: the command changes nothing else. -/
def State.answer (s : State) (p : HostId) (seq : Byte) (result : ResultCode) (data : ReplyData) : Effect :=
  ⟨s.reply p seq result data, false⟩

/-- EXCHANGE_START (R172). -/
def execExchangeStart (p : HostId) (s : State) : Result := .next (s.csFall p)

/-- SHORT_EXCHANGE (R174): discarded at the rise of CS; the carried message, the part mark and the shown marks stay. -/
def execShortExchange (p : HostId) (counted : Fin 12) (s : State) : Result := .next (s.csRise p counted.val id)

/-- EXCHANGE_DISCARDED (R187): the rise of CS on a period that a reset cut off or that began during a reset. An exchange that no reset has touched is not
discarded by this row (log entry 6). -/
def execExchangeDiscarded (p : HostId) (s : State) : Result :=
  match (s.port p).cs with
  | .cutOff | .notReady => .next (s.setCs p .idle)
  | .idle | .live _ => .next s

/-- NOP (R175): the exchange completes, with no REPLY and no change of state; the host does not wake. -/
def execNop (p : HostId) (_seq : Byte) (s : State) : Result := .next (s.fullExchange p id)

/-- UNKNOWN_COMMAND (R175): BAD_ARG from an attached host, first made AWAKE; NOT_ATTACHED otherwise. -/
def execUnknownCommand (p : HostId) (seq _code : Byte) (s : State) : Result :=
  .next (s.fullExchange p fun s => s.command p seq fun s => s.answer p seq .badArg .empty)

end Sys2Proof.Machine
end

