-- ==== Sys2Proof/Machine/Operands.lean ====
section
/-! DEFINITION. The argument encodings of R176 and the value ranges that the commands' rules give: each function answers none for a
byte outside its values. -/

namespace Sys2Proof.Machine

/-- A byte as a number below `n`, none from `n` on. -/
def boundedByte (n : Nat) (b : Byte) : Option (Fin n) :=
  if h : b.toNat < n then some ⟨b.toNat, h⟩ else none

/-- A line number, 0 to 47 (R42, R147). -/
def parseLine (b : Byte) : Option LineNo := boundedByte 48 b

/-- A slot number, 0 to 95 (R22). -/
def parseSlot (b : Byte) : Option SlotNo := boundedByte 96 b

/-- A group number, 0 to 7 (R144). -/
def parseGroup (b : Byte) : Option GroupNo := boundedByte 8 b

/-- A host number, 0 to 3 (R141). -/
def parseHost (b : Byte) : Option HostId := HostId.ofNat? b.toNat

/-- A handle; its slot byte is not range-checked by a command, and a slot above 95 names no offer (R176). -/
def parseHandle (slot serial : Byte) : Option Handle :=
  (parseSlot slot).map fun n => ⟨n, serial⟩

/-- The host in one 2-bit field of a route list's second byte (R176). -/
def routeField (hosts : Byte) (i : Nat) : HostId :=
  match (hosts.toNat / 4 ^ i) % 4 with
  | 0 => .h0
  | 1 => .h1
  | 2 => .h2
  | _ => .h3

/-- A route list: 1 to 4 distinct hosts in order; fields beyond the count are ignored (R107, R147, R176). -/
def parseRoute (count hosts : Byte) : Option (List HostId) :=
  let fields := [routeField hosts 0, routeField hosts 1, routeField hosts 2, routeField hosts 3]
  let route := fields.take count.toNat
  if 1 ≤ count.toNat ∧ count.toNat ≤ 4 ∧ route.Nodup then some route else none

/-- A mode: 0 ANY, 1 EACH (R176). -/
def parseMode (b : Byte) : Option Mode :=
  match b.toNat with
  | 0 => some .any
  | 1 => some .each
  | _ => none

/-- A flag byte: 0 clear, 1 set (R176). -/
def parseFlag (b : Byte) : Option Bool :=
  match b.toNat with
  | 0 => some false
  | 1 => some true
  | _ => none

/-- A sense: 0 RISE, 1 FALL, 2 BOTH, 3 HIGH, 4 LOW (R176). -/
def parseSense (b : Byte) : Option Sense :=
  match b.toNat with
  | 0 => some .rise
  | 1 => some .fall
  | 2 => some .both
  | 3 => some .high
  | 4 => some .low
  | _ => none

/-- A qualification in µs: one of the eight values of R25. -/
def parseQualification (b : Byte) : Option Nat :=
  if [0, 1, 2, 4, 8, 16, 32, 64].contains b.toNat then some b.toNat else none

/-- A number from `lo` to `hi`. -/
def parseRange (lo hi : Nat) (b : Byte) : Option Nat :=
  if lo ≤ b.toNat ∧ b.toNat ≤ hi then some b.toNat else none

/-- A set of causes: bit 0 POWER_ON, bit 1 RESET_LINE, bit 2 SUPPLY_LOW; a higher bit is outside the values (R176). -/
def parseCauses (b : Byte) : Option CauseSet :=
  if b.toNat < 8 then some ⟨b.getLsbD 0, b.getLsbD 1, b.getLsbD 2⟩ else none

/-- Byte 3 of CONFIG_LINE: enabled and apply-to-open. R176 lists bits 0 and 1 alone; a byte with a higher bit lies outside what
R176 lists, so R175 puts it outside the values. DEDUCED: log entry 12. -/
def parseConfigFlags (b : Byte) : Option (Bool × Bool) :=
  if b.toNat < 4 then some (b.getLsbD 0, b.getLsbD 1) else none

/-- The six fields of a CONFIG_LINE and its apply-to-open flag, none when a field is outside its values (check 4 of R147). -/
def parseLineEntry (flags sense qualification band mode routeCount routeHosts : Byte) : Option (LineEntry × Bool) :=
  match parseConfigFlags flags, parseSense sense, parseQualification qualification, parseRange 0 7 band, parseMode mode,
    parseRoute routeCount routeHosts with
  | some (enabled, apply), some sense, some qual, some band, some mode, some route =>
    some (⟨enabled, sense, qual, band, mode, route⟩, apply)
  | _, _, _, _, _, _ => none

/-- The arguments of a POST as judged by R107. -/
structure PostArgs where
  band : Nat
  mode : Mode
  notify : Bool
  route : List HostId
  deriving DecidableEq, Repr

/-- The arguments of a POST, none when one is outside its values (R107): band 1 to 7, mode, notify, route list. -/
def parsePost (band mode notify routeCount routeHosts : Byte) : Option PostArgs :=
  match parseRange 1 7 band, parseMode mode, parseFlag notify, parseRoute routeCount routeHosts with
  | some band, some mode, some notify, some route => some ⟨band, mode, notify, route⟩
  | _, _, _, _ => none

/-- The session entry with one of the six parameters of SET_HOST set, none when the parameter or the value is outside the table of
R139. -/
def setParameter (e : Session) (param : Byte) (value : BitVec 16) : Option Session :=
  let v := value.toNat
  match param.toNat with
  | 0 => if 16 ≤ v then some { e with claimWindow := v } else none
  | 1 => some { e with dozeAllowance := v }
  | 2 => if 50 ≤ v then some { e with wakeTimeout := v } else none
  | 3 => if 1 ≤ v ∧ v ≤ 15 then some { e with missLimit := v } else none
  | 4 => if 1 ≤ v ∧ v ≤ 8 then some { e with wakeBand := v } else none
  | 5 => if 1 ≤ v ∧ v ≤ 32 then some { e with batchThreshold := v } else none
  | _ => none

end Sys2Proof.Machine
end

