-- ==== Sys2Proof/Machine/Lines.lean ====
section
/-! DEFINITION. The lines and their configuration (chapters 2 and 8): RAW_CHANGE, QUALIFICATION_TIMER_EXPIRY, LEASE, RELEASE, CONFIG_LINE,
QUERY_LINE. -/

namespace Sys2Proof.Machine

/-- Whether the acceptance of a level is what a sense asks for (the table of R32). -/
def Sense.asksFor (v : Sense) (accepted : Level) : Bool :=
  match v, accepted with
  | .rise, .high | .both, .high | .high, .high => true
  | .fall, .low | .both, .low | .low, .low => true
  | .rise, .low | .high, .low | .fall, .high | .low, .high => false

/-- The acceptance of a new level (R31, R32): the detector is STEADY at it, and on an enabled line whose sense asks for the change it is an arrival, with
the Router's recomputation. -/
def State.accept (s : State) (l : LineNo) (level : Level) : State :=
  let t := s.setLine l { s.line l with detector := .steady level }
  if (s.entry l).enabled && (s.entry l).sense.asksFor level then (t.arrive l).recompute else t

/-- A raw change taken by the detector (R28 to R30). -/
def State.rawChange (s : State) (l : LineNo) (level : Level) : State :=
  let t := s.setLine l { s.line l with raw := level }
  match (s.line l).detector with
  | .unprimed => t
  | .steady accepted =>
    if level = accepted then t
    else if (s.entry l).qualification = 0 then t.accept l level
    else t.setLine l ⟨level, .qualifying accepted level (s.now + (s.entry l).qualification)⟩
  | .qualifying accepted _ _ =>
    if level = accepted then t.setLine l ⟨level, .steady accepted⟩ else t

/-- RAW_CHANGE (R27 to R30): a sample that differs from the sample before it. The lines are not sampled during a reset (R165), and a sample that does not
differ is no raw change (R27). -/
def execRawChange (l : LineNo) (level : Level) (s : State) : Result :=
  match s.inReset with
  | none => .next (if (s.line l).raw = level then s else s.rawChange l level)
  | some _ => .next s

/-- QUALIFICATION_TIMER_EXPIRY (R31): the pending level is accepted. The Timebase stands at the expiry tick or later (log entry 4); a detector that is not
QUALIFYING has no timer to expire. -/
def execQualificationTimerExpiry (l : LineNo) (s : State) : Result :=
  match s.inReset, (s.line l).detector with
  | none, .qualifying _ pending expiry => .next ({ s with now := max s.now expiry }.accept l pending)
  | _, _ => .next s

/-- LEASE (R144). -/
def execLease (p : HostId) (seq group : Byte) (s : State) : Result :=
  .next (s.fullExchange p fun s => s.command p seq fun s =>
    match parseGroup group with
    | none => s.answer p seq .badArg .empty
    | some g =>
      match s.holder g with
      | none => (s.setHolder g (some p)).answer p seq .ok (.leaseHolder g (some p))
      | some h => s.answer p seq (if h = p then .ok else .held) (.leaseHolder g (some h)))

/-- RELEASE (R145). -/
def execRelease (p : HostId) (seq group : Byte) (s : State) : Result :=
  .next (s.fullExchange p fun s => s.command p seq fun s =>
    match parseGroup group with
    | none => s.answer p seq .badArg .empty
    | some g =>
      if s.holder g = some p then (s.setHolder g none).answer p seq .ok (.leaseHolder g none)
      else s.answer p seq .noLease (.leaseHolder g (s.holder g)))

/-- Whether a change of the entry arms the detector (R38, R149). -/
def armsDetector (old new : LineEntry) : Bool :=
  (!old.enabled && new.enabled) || decide (old.sense ≠ new.sense) || decide (old.qualification ≠ new.qualification)

/-- Whether an arming under an entry gives an arrival at a raw level (R39). -/
def armingArrives (e : LineEntry) (raw : Level) : Bool := e.enabled && decide (e.sense.active = some raw)

/-- Step 2 of a CONFIG_LINE (R148, R149), with the entry already replaced: the arming of the detector and its arrival. -/
def State.arm (s : State) (l : LineNo) : State :=
  let raw := (s.line l).raw
  let t := s.setLine l ⟨raw, .steady raw⟩
  if armingArrives (s.entry l) raw then t.arrive l else t

/-- The rebuild of an OPEN record from the line's entry (R151): the offers withdrawn RECONFIGURED, band, mode and route list replaced, fresh copies, the
declined set and the rounds cleared. -/
def State.rebuild (s : State) (l : LineNo) : State :=
  let n := slotOfLine l
  let e := s.entry l
  (s.withdrawAll n .reconfigured).updRecord n fun r =>
    { r with band := e.band, mode := e.mode, route := e.route, copies := freshCopies e.mode e.route,
             declined := HostSet.empty, rounds := 0 }

/-- A CONFIG_LINE that has passed its checks (R148 to R154), with its REPLY. -/
def State.configure (s : State) (p : HostId) (seq : Byte) (l : LineNo) (new : LineEntry) (apply : Bool) : State :=
  let n := slotOfLine l
  let armed := armsDetector (s.entry l) new
  let arrival := armed && armingArrives new (s.line l).raw
  let t := s.setEntry l new
  let t := if armed then t.arm l else t
  if apply && decide (t.phase n = .opened) then
    let withdrawn := (HostId.all.filter (t.holdsOfferOf n)).length
    (t.rebuild l).reply p seq .ok
      (.configured l armed arrival .opened withdrawn (freshCopies new.mode new.route).length)
  else
    t.reply p seq (if apply && decide (t.phase n = .captured) then .okDeferred else .ok)
      (.configured l armed arrival (t.phase n) 0 0)

/-- CONFIG_LINE (R147, R148): the checks in their order, then the change. -/
def execConfigLine (p : HostId) (seq line flags sense qualification band mode routeCount routeHosts : Byte) (s : State) : Result :=
  .next (s.fullExchange p fun s => s.command p seq fun s =>
    match parseLine line with
    | none => s.answer p seq .badArg (.configBadArg line)
    | some l =>
      if s.holder (groupOfLine l) = some p then
        match parseLineEntry flags sense qualification band mode routeCount routeHosts with
        | none => s.answer p seq .badArg (.configBadArg line)
        | some (new, apply) => ⟨s.configure p seq l new apply, true⟩
      else s.answer p seq .noLease (.configNoLease l (s.holder (groupOfLine l))))

/-- Whether a detector is QUALIFYING. -/
def Detector.isQualifying : Detector → Bool
  | .qualifying _ _ _ => true
  | .unprimed | .steady _ => false

/-- What QUERY_LINE reports of a line (R42). -/
def State.lineData (s : State) (l : LineNo) : ReplyData :=
  let n := slotOfLine l
  let v := s.line l
  let counts : Nat × Nat := match s.record n with
    | some r => (r.count, r.backlog)
    | none => (0, 0)
  .lineView (s.entry l) v.raw v.detector.accepted v.detector.isQualifying (s.phase n) counts.1 counts.2

/-- QUERY_LINE (R42). -/
def execQueryLine (p : HostId) (seq line : Byte) (s : State) : Result :=
  .next (s.fullExchange p fun s => s.command p seq fun s =>
    match parseLine line with
    | none => s.answer p seq .badArg .empty
    | some l => s.answer p seq .ok (s.lineData l))

end Sys2Proof.Machine
end

