-- ==== Sys2Proof/Machine/Losses.lean ====
section
/-! DEFINITION. Loss entries and reset causes read by a host, and the record query (chapters 1 and 9): FETCH_LOSS, ACK_NOTICE, QUERY_EVENT. -/

namespace Sys2Proof.Machine

/-- The loss list after a fetch by a host: the first entry that holds it loses it, and is freed when its unread set is then empty (R162). -/
def fetchFrom (h : HostId) : List LossEntry → List LossEntry
  | [] => []
  | e :: es =>
    if e.unread.get h then
      let e' := { e with unread := e.unread.set h false }
      if e'.unread.isEmpty then es else e' :: es
    else e :: fetchFrom h es

/-- The entries whose unread sets hold a host (R162). -/
def unreadCount (h : HostId) (loss : List LossEntry) : Nat := loss.countP fun e => e.unread.get h

/-- The oldest entry that holds a host fetched, with the missed-loss count reported and zeroed (R162). -/
def State.fetchLoss (s : State) (p : HostId) (seq : Byte) : State :=
  let missed := s.missed.get p
  let t := { s with missed := s.missed.set p 0 }
  match s.loss.find? fun e => e.unread.get p with
  | none => t.reply p seq .ok (.noLossEntry missed)
  | some e =>
    let left := fetchFrom p s.loss
    { t with loss := left }.reply p seq .ok
      (.lossEntry e.cause e.slot e.source e.band e.payload e.host missed (unreadCount p left))

/-- FETCH_LOSS (R162). -/
def execFetchLoss (p : HostId) (seq : Byte) (s : State) : Result :=
  .next (s.fullExchange p fun s => s.command p seq fun s => ⟨s.fetchLoss p seq, false⟩)

/-- ACK_NOTICE (R169): the named causes leave the caller's cause set. -/
def execAckNotice (p : HostId) (seq causes : Byte) (s : State) : Result :=
  .next (s.fullExchange p fun s => s.command p seq fun s =>
    match parseCauses causes with
    | none => s.answer p seq .badArg .empty
    | some c =>
      let left := (s.causes.get p).diff c
      ({ s with causes := s.causes.set p left }).answer p seq .ok (.causesLeft left s.epoch))

/-- The state code of a copy at a route-list position: 1 WAITING, 2 OFFERED, 3 IN_SERVICE (R185). -/
def CopyState.code : CopyState → Nat
  | .waiting => 1
  | .offered _ => 2
  | .inService _ => 3

/-- What the COPIES view shows at one route-list position (R185): the copy held by or owed to the host, and whether the host is candidate or wake target of
a copy of the record. -/
def State.positionView (s : State) (r : Record) (h : HostId) : PositionView :=
  { state := match r.copies.find? fun c => decide (c.host = some h) with
      | some c => c.state.code
      | none => 0
    candidate := r.copies.any fun c => decide (s.candidate r c = some h)
    wakeTarget := r.copies.any fun c => decide (s.wakeTarget r c = some h) }

/-- The RECORD view of a slot (R23). -/
def State.recordView (s : State) (n : SlotNo) : ReplyData :=
  match s.record n with
  | none => .eventRecord .free (isPostedSlot n) .any false false none 0 0 (s.serial n)
  | some r =>
    .eventRecord (s.phase n) (isPostedSlot n) r.mode r.saturated r.notify (some r.source) r.band (s.arrivals.idxOf n) (s.serial n)

/-- The COPIES view of a slot (R23, R185). -/
def State.copiesView (s : State) (n : SlotNo) : ReplyData :=
  match s.record n with
  | none => .eventCopies .free .any false [] HostSet.empty 0 []
  | some r =>
    .eventCopies (s.phase n) r.mode (decide (r.mode = .any) && r.copies.any fun c => decide (c.state = .waiting)) r.route r.declined
      r.rounds (r.route.map (s.positionView r))

/-- The CONTENT view of a slot (R23): count and backlog of a line slot, payload of a posted slot, zero when FREE. -/
def State.contentView (s : State) (n : SlotNo) : ReplyData :=
  match s.record n with
  | none => if isPostedSlot n then .eventPosted .free 0 else .eventLine .free 0 0
  | some r => if isPostedSlot n then .eventPosted (s.phase n) r.payload else .eventLine (s.phase n) r.count r.backlog

/-- The view of a slot that QUERY_EVENT returns, none for a view that is none of the three (R22). -/
def State.eventView (s : State) (n : SlotNo) (view : Byte) : Option ReplyData :=
  match view.toNat with
  | 0 => some (s.recordView n)
  | 1 => some (s.copiesView n)
  | 2 => some (s.contentView n)
  | _ => none

/-- QUERY_EVENT (R22, R23). -/
def execQueryEvent (p : HostId) (seq slot view : Byte) (s : State) : Result :=
  .next (s.fullExchange p fun s => s.command p seq fun s =>
    match (parseSlot slot).bind fun n => s.eventView n view with
    | some data => s.answer p seq .ok data
    | none => s.answer p seq .badArg .empty)

end Sys2Proof.Machine
end

