-- ==== Sys2Proof/Machine/Offers.lean ====
section
/-! DEFINITION. The answers to an offer and the end of a service (chapters 4 and 5): CLAIM, DECLINE, DONE; and the arbiter's own event. -/

namespace Sys2Proof.Machine

/-- The offer in a host's slot when a handle matches it (R7, R69). -/
def State.matchOffer (s : State) (h : HostId) (slot serial : Byte) : Option Offer :=
  (s.disp h).offer.filter fun o => decide (parseHandle slot serial = some o.handle)

/-- What a matching CLAIM and DECLINE do to the slot, the timer, the miss count and an OFFER still queued (R69, R70, R72). -/
def State.takeOffer (s : State) (h : HostId) (o : Offer) : State :=
  let s := s.updDisp h fun d => { d with offer := none, claimTimer := none }
  let s := s.updSession h fun e => { e with missCount := 0 }
  s.updPort h fun q => q.deleteOffer o.handle

/-- The record after a CLAIM by `h` of the copy offered to it (R7, R12, R70): the copy IN_SERVICE, the record CAPTURED, an ANY record's declined set
emptied. -/
def Record.claimed (r : Record) (h : HostId) (hd : Handle) : Record :=
  { r with
    phase := .captured
    declined := if r.mode = .any then HostSet.empty else r.declined
    copies := r.copies.map fun c => if c.host = some h ∧ c.state = .offered hd then { c with state := .inService hd } else c }

/-- The REPLY data of a CLAIM (R70): the captured count and saturated mark of a line record, the payload of a posted record. -/
def Record.claimData (r : Record) (hd : Handle) : ReplyData :=
  match r.source with
  | .line _ => .claimLine hd r.count r.saturated
  | .host _ => .claimPosted hd r.payload

/-- The taking of an offered copy onto the caller's stack (R70, R89). -/
def State.claimOffer (s : State) (p : HostId) (seq : Byte) (o : Offer) (r : Record) : State :=
  let t := (s.takeOffer p o).updDisp p fun d => { d with stack := d.stack ++ [⟨o.handle, o.band⟩] }
  let t := t.setRecord o.handle.slot (some (r.claimed p o.handle))
  t.reply p seq .ok (r.claimData o.handle)

/-- CLAIM (R69, R70). A slot that holds an offer names a record in use (R4, R63). -/
def execClaim (p : HostId) (seq slot serial : Byte) (s : State) : Result :=
  .next (s.fullExchange p fun s => s.command p seq fun s =>
    match (s.matchOffer p slot serial).bind fun o => (s.record o.handle.slot).map fun r => (o, r) with
    | some (o, r) => ⟨s.claimOffer p seq o r, true⟩
    | none => s.answer p seq .stale (.handleNamed slot serial))

/-- The record after a DECLINE of its ANY copy (R72): WAITING without host, the caller declined. -/
def Record.declinedBy (r : Record) (h : HostId) (hd : Handle) : Record :=
  { r with
    copies := r.copies.map fun c => if c.host = some h ∧ c.state = .offered hd then ⟨none, .waiting⟩ else c
    declined := r.declined.set h true }

/-- The handing back of an offered copy (R72): ANY joins the caller to the declined set and may end the round; EACH removes the caller's copy. The REPLY comes
before the COMPLETED notice (R120). -/
def State.declineOffer (s : State) (p : HostId) (seq : Byte) (o : Offer) (r : Record) : State :=
  let t := s.takeOffer p o
  let n := o.handle.slot
  let done : State × Option Notice :=
    match r.mode with
    | .any => (t.setRecord n (some (r.declinedBy p o.handle))).roundEnd n
    | .each => ((t.removeCopy n p).state, (t.removeCopy n p).notice)
  (done.1.reply p seq .ok (.handleNamed (BitVec.ofNat 8 n.val) o.handle.serial)).deliver? done.2

/-- DECLINE (R69, R72). -/
def execDecline (p : HostId) (seq slot serial : Byte) (s : State) : Result :=
  .next (s.fullExchange p fun s => s.command p seq fun s =>
    match (s.matchOffer p slot serial).bind fun o => (s.record o.handle.slot).map fun r => (o, r) with
    | some (o, r) => ⟨s.declineOffer p seq o r, true⟩
    | none => s.answer p seq .stale (.handleNamed slot serial))

/-- The end of the service of the newest entry (R92 to R94): pop, removal and completion, the REPLY, then the COMPLETED notice. -/
def State.finishService (s : State) (p : HostId) (seq : Byte) (e : StackEntry) : State :=
  let t := s.updDisp p fun d => { d with stack := d.stack.dropLast }
  let c := t.removeCopy e.handle.slot p
  (c.state.reply p seq .ok (.doneOk e.handle c.result c.number)).deliver? c.notice

/-- DONE (R91, R92): STALE for a handle equal to no entry of the caller's stack, ORDER for an entry other than the newest. -/
def execDone (p : HostId) (seq slot serial : Byte) (s : State) : Result :=
  .next (s.fullExchange p fun s => s.command p seq fun s =>
    if (s.disp p).stack.any fun e => decide (parseHandle slot serial = some e.handle) then
      match (s.disp p).stack.getLast? with
      | some e =>
        if parseHandle slot serial = some e.handle then ⟨s.finishService p seq e, true⟩
        else s.answer p seq .order (.handleNamed slot serial)
      | none => s.answer p seq .stale (.handleNamed slot serial)
    else s.answer p seq .stale (.handleNamed slot serial))

/-- ARBITER_FILL (R64): the fill of one host's slot when the slot, the queue room and a candidate allow it. While the hub is in reset it takes no event
(R165). -/
def execArbiterFill (h : HostId) (s : State) : Result :=
  match s.inReset with
  | none => .next (s.arbiterFill h)
  | some _ => .next s

end Sys2Proof.Machine
end

