-- ==== Sys2Proof/Machine/Posted.lean ====
section
/-! DEFINITION. Posted events (chapter 6): POST and RETRACT. -/

namespace Sys2Proof.Machine

/-- POST (R107 to R109): the checks in the order of R108, then the record in the lowest FREE posted slot. -/
def execPost (p : HostId) (seq band mode notify routeCount routeHosts : Byte) (payload : BitVec 32) (s : State) : Result :=
  .next (s.fullExchange p fun s => s.command p seq fun s =>
    match parsePost band mode notify routeCount routeHosts with
    | none => s.answer p seq .badArg .empty
    | some a =>
      let quota := (s.session p).quota
      if s.postedUse p < quota then
        match s.lowestFreePosted with
        | none => s.answer p seq .full (.postRefused (s.postedUse p) quota)
        | some n =>
          let t := s.openRecord n (postedRecord p a.band a.mode a.route payload a.notify)
          ⟨t.reply p seq .ok (.postOk n (t.postedUse p) quota), true⟩
      else s.answer p seq .quota (.postRefused (s.postedUse p) quota))

/-- Whether a copy is IN_SERVICE. -/
def Copy.inService (c : Copy) : Bool :=
  match c.state with
  | .inService _ => true
  | .waiting | .offered _ => false

/-- The RETRACT of an ANY record (R114): freed while OPEN, with its offer withdrawn RETRACTED; answered IN_SERVICE while CAPTURED. -/
def State.retractAny (s : State) (p : HostId) (seq : Byte) (n : SlotNo) (r : Record) : Effect :=
  match r.phase with
  | .opened => ⟨((s.withdrawAll n .retracted).freeSlot n).reply p seq .ok (.retractOk n 1 0), true⟩
  | .captured => s.answer p seq .inService (.retractInService n ((r.copies.find? Copy.inService).bind Copy.host))

/-- The RETRACT of an EACH record (R115): the WAITING and OFFERED copies removed, the offers withdrawn RETRACTED; freed when no copy is left, otherwise
PARTIAL. -/
def State.retractEach (s : State) (p : HostId) (seq : Byte) (n : SlotNo) (r : Record) : Effect :=
  let t := s.withdrawAll n .retracted
  let left := r.copies.filter Copy.inService
  let removed := r.copies.length - left.length
  if left.isEmpty then ⟨(t.freeSlot n).reply p seq .ok (.retractOk n removed 0), true⟩
  else ⟨(t.setRecord n (some { r with copies := left })).reply p seq .partialDone (.retractOk n removed left.length), true⟩

/-- RETRACT (R113 to R115). -/
def execRetract (p : HostId) (seq slot : Byte) (s : State) : Result :=
  .next (s.fullExchange p fun s => s.command p seq fun s =>
    match (parseSlot slot).filter isPostedSlot with
    | none => s.answer p seq .badArg (.retractSlot slot)
    | some n =>
      match s.record n with
      | none => s.answer p seq .badArg (.retractSlot slot)
      | some r =>
        if r.source = .host p then
          match r.mode with
          | .any => s.retractAny p seq n r
          | .each => s.retractEach p seq n r
        else s.answer p seq .notOwner (.retractSlot slot))

end Sys2Proof.Machine
end

