-- ==== Sys2Proof/Machine/Resets.lean ====
section
/-! DEFINITION. The hub resets (chapter 9): RESET_LINE, SUPPLY_LOW, POWER_ON, HOLD_ENDS, HUB_RESET_COMPLETION. -/

namespace Sys2Proof.Machine

/-- A detector when a reset begins: a running qualification timer is stopped and its pending level discarded (R28, R165). -/
def Detector.stopped : Detector → Detector
  | .unprimed => .unprimed
  | .steady a => .steady a
  | .qualifying a _ _ => .steady a

/-- The chip-select period of a port when a reset begins: an exchange in progress is cut off (R187). -/
def ChipSelect.cut : ChipSelect → ChipSelect
  | .live _ => .cutOff
  | .idle => .idle
  | .cutOff => .cutOff
  | .notReady => .notReady

/-- What happens at the moment a reset begins (R165): the queues are emptied and the part marks cleared, every timer stops without expiry, exchanges are cut
off. Every ATTN falls with its queue, and every WAKE with the reset. -/
def State.haltForReset (s : State) : State :=
  { s with
    ports := PerHost.ofFn fun h => { s.port h with queue := [], partMark := false, cs := (s.port h).cs.cut }
    dispatch := PerHost.ofFn fun h => { s.disp h with claimTimer := none }
    sessions := PerHost.ofFn fun h => { s.session h with wakeTimer := none }
    lines := mapTable (fun v => { v with detector := v.detector.stopped }) s.lines }

/-- A hold that appears (R165): it begins a reset while the hub runs, and joins the reset in progress otherwise. -/
def State.hold (s : State) (c : Cause) : State :=
  match s.inReset with
  | none => { s.haltForReset with inReset := some ⟨CauseSet.empty.insert c, CauseSet.empty.insert c⟩ }
  | some r => { s with inReset := some ⟨r.holds.insert c, r.causes.insert c⟩ }

/-- RESET_LINE (R166). -/
def execResetLine (s : State) : Result := .next (s.hold .resetLine)

/-- SUPPLY_LOW (R166). -/
def execSupplyLow (s : State) : Result := .next (s.hold .supplyLow)

/-- The loss of the Retention Cells' contents (R166): free values until the reset completes, with an epoch of 1 to 65535 (R164, log entry 9). -/
def State.loseRetention (s : State) : State :=
  { s with
    epoch := BitVec.ofNat 16 ((Config.lostEpoch s.freeIdx).val + 1)
    causes := PerHost.ofFn fun h =>
      ⟨Config.lostCause s.freeIdx h .powerOn, Config.lostCause s.freeIdx h .resetLine, Config.lostCause s.freeIdx h .supplyLow⟩
    freeIdx := s.freeIdx + 1 }

/-- POWER_ON (R166): the power-on circuit holds the hub in reset and the Retention Cells lose their contents. -/
def execPowerOn (s : State) : Result := .next (s.hold .powerOn).loseRetention

/-- HOLD_ENDS (R165): one hold of a reset in progress ends while another persists, so the reset stays in progress. A hold that is not in force cannot
end (log entry 6), and the end of the last hold is the row HUB_RESET_COMPLETION (log entry 7): there this row changes nothing. -/
def execHoldEnds (c : Cause) (s : State) : Result :=
  match s.inReset with
  | none => .next s
  | some r =>
    if r.holds.has c && decide (1 < r.holds.size) then .next { s with inReset := some { r with holds := r.holds.erase c } } else .next s

/-- The epoch advanced by one, from 65535 to 1 (R167). -/
def nextEpoch (e : BitVec 16) : BitVec 16 := if e = 65535 then 1 else e + 1

/-- The raw level of a line in the first sample after a reset (R27). -/
def firstSample (pins : BitVec 48) (l : LineNo) : Level := if pins.getLsbD l.val then .high else .low

/-- Every block at its reset values (R24, R25, R28, R87, R105, R106, R142, R143, R157, R158, R187), with the first sample of the pins. The Retention Cells,
the Timebase and the commands that wait are kept; a chip-select period that the reset cut off, or that began during it, stays one until CS
rises (R187). -/
def State.clearBlocks (s : State) (pins : BitVec 48) : State :=
  { s with
    lines := tableOf fun l => ⟨firstSample pins l, .unprimed⟩
    table := Vector.replicate 48 LineEntry.initial
    leases := Vector.replicate 8 none
    slots := Vector.replicate 96 ⟨0, none⟩
    arrivals := []
    dispatch := PerHost.fill Dispatch.initial
    sessions := PerHost.fill Session.initial
    ports := PerHost.ofFn fun h => { Port.initial with cs := (s.port h).cs.cut }
    loss := []
    missed := PerHost.fill 0 }

/-- The Retention Cells at the completion of a reset (R167). -/
def State.updateRetention (s : State) (causes : CauseSet) : State :=
  if causes.powerOn then { s with epoch := 1, causes := PerHost.fill ⟨true, false, false⟩ }
  else { s with epoch := nextEpoch s.epoch, causes := PerHost.ofFn fun h => (s.causes.get h).union causes }

/-- HUB_RESET_COMPLETION (R165, R167): the last hold ends, every block takes its reset values, the Retention Cells are updated by the causes of the reset, and
the hub runs. While more than one hold is in force the reset stays in progress (R165), and while the hub runs there is no reset to complete: the
row then changes nothing (log entry 6). -/
def execHubResetCompletion (pins : BitVec 48) (s : State) : Result :=
  match s.inReset with
  | none => .next s
  | some r =>
    if 1 < r.holds.size then .next s else .next { (s.clearBlocks pins).updateRetention r.causes with inReset := none }

end Sys2Proof.Machine
end

