-- ==== Sys2Proof/Machine/Sessions.lean ====
section
/-! DEFINITION. The session commands (chapters 3, 6 and 7): ATTACH, DETACH, SLEEP, SET_HOST, SET_FLOOR, SET_QUOTA, QUERY_HOST. -/

namespace Sys2Proof.Machine

/-- An accepted ATTACH (R124, R125): the session opened, the REPLY, the round ends that the attachment has made hold (R54), and the recomputation. -/
def State.openSession (s : State) (p : HostId) (seq : Byte) (depth : Nat) : State :=
  let e := s.session p
  let t := s.updSession p fun e =>
    { e with state := .awake, depth := depth, floor := 0, missCount := 0, wasLost := false, wakeTimer := none }
  let t := t.reply p seq .ok (.attachOk s.epoch (s.causes.get p) depth e.wasLost e.quota)
  t.roundEnds.recompute

/-- ATTACH (R124): STATE from an attached host, BAD_ARG for a depth above 4, otherwise the session is opened, with depth 2 for an argument
of 0. -/
def execAttach (p : HostId) (seq depth : Byte) (s : State) : Result :=
  .next (s.fullExchange p fun s => s.withReplyRoom p fun s =>
    if s.attached p then s.reply p seq .badState (.hostStateIs (s.session p).state)
    else
      match parseRange 0 4 depth with
      | none => s.reply p seq .badArg .empty
      | some d => s.openSession p seq (if d = 0 then 2 else d))

/-- The end of a session at the host's request (R134, R135): the teardown, the REPLY in the emptied queue, and the recomputation. -/
def State.closeSession (s : State) (p : HostId) (seq : Byte) : State :=
  ((s.teardown p .absent).state.reply p seq .ok .empty).recompute

/-- DETACH (R134). -/
def execDetach (p : HostId) (seq : Byte) (s : State) : Result :=
  .next (s.fullExchange p fun s => s.withReplyRoom p fun s =>
    if s.attached p then (s.wakeUp p).closeSession p seq else s.reply p seq .notAttached .empty)

/-- SLEEP(DOZE) (R128): from AWAKE and DOZE the offer and its timer stay; from DEEP and WAKING the host becomes eligible, and any offer stands behind the
REPLY. -/
def State.sleepDoze (s : State) (p : HostId) (seq : Byte) : State :=
  match (s.session p).state with
  | .doze => s.reply p seq .ok (.hostStateIs .doze)
  | _ =>
    let t := s.updSession p fun e => { e with state := .doze, wakeTimer := none }
    (t.reply p seq .ok (.hostStateIs .doze)).recompute

/-- SLEEP(DEEP) (R128, R129): an outstanding offer is withdrawn SLEEP, the host is DEEP, the Router recomputes and may take the wake trigger, and the REPLY
carries the state these steps leave. From DEEP nothing changes. From WAKING R128 is followed, a SLEEP(DEEP) sent again included: the wake timer is
stopped and the trigger judged afresh, which may start the timer again, although the table of R188 has nothing further changed. DESIGN CHOICE: log
entry 30. -/
def State.sleepDeep (s : State) (p : HostId) (seq : Byte) : State :=
  match (s.session p).state with
  | .deep => s.reply p seq .ok (.hostStateIs .deep)
  | _ =>
    let t := (s.withdraw p .sleep).updSession p fun e => { e with state := .deep, wakeTimer := none }
    let t := t.recompute
    t.reply p seq .ok (.hostStateIs (t.session p).state)

/-- SLEEP (R128): not a command that wakes its host. -/
def execSleep (p : HostId) (seq depth : Byte) (s : State) : Result :=
  .next (s.fullExchange p fun s => s.withReplyRoom p fun s =>
    if s.attached p then
      match depth.toNat with
      | 1 => s.sleepDoze p seq
      | 2 => s.sleepDeep p seq
      | _ => s.reply p seq .badArg .empty
    else s.reply p seq .notAttached .empty)

/-- SET_HOST (R139): one of the six parameters of the caller's own session entry. -/
def execSetHost (p : HostId) (seq param : Byte) (value : BitVec 16) (s : State) : Result :=
  .next (s.fullExchange p fun s => s.command p seq fun s =>
    match setParameter (s.session p) param value with
    | none => s.answer p seq .badArg .empty
    | some e => (s.updSession p fun _ => e).answer p seq .ok (.parameterSet param value))

/-- SET_FLOOR (R61): the caller's floor, with the FLOOR withdrawal of its offer when the offer's band is at or below the new floor, before the
REPLY (R81). -/
def execSetFloor (p : HostId) (seq floor : Byte) (s : State) : Result :=
  .next (s.fullExchange p fun s => s.command p seq fun s =>
    match parseRange 0 7 floor with
    | none => s.answer p seq .badArg .empty
    | some f =>
      let t := s.updSession p fun e => { e with floor := f }
      let t := match (t.disp p).offer with
        | some o => if o.band ≤ f then t.withdraw p .floor else t
        | none => t
      ⟨t.reply p seq .ok (.floorSet floor), true⟩)

/-- The REPLY data of SET_QUOTA: the caller's quota and the unallotted room (R111). -/
def State.quotaData (s : State) (p : HostId) : ReplyData := .quotaSet (s.session p).quota (48 - s.quotaSum)

/-- SET_QUOTA (R111): NO_ROOM when the four quotas would sum to more than 48. -/
def execSetQuota (p : HostId) (seq quota : Byte) (s : State) : Result :=
  .next (s.fullExchange p fun s => s.command p seq fun s =>
    match parseRange 0 48 quota with
    | none => s.answer p seq .badArg (s.quotaData p)
    | some q =>
      let t := s.updSession p fun e => { e with quota := q }
      if 48 < t.quotaSum then s.answer p seq .noRoom (s.quotaData p) else t.answer p seq .ok (t.quotaData p))

/-- The view of a host's session that QUERY_HOST returns, none for a view that is none of the three (R141). -/
def State.hostView (s : State) (h : HostId) (view : Byte) : Option ReplyData :=
  let e := s.session h
  match view.toNat with
  | 0 => some (.hostStateView e.state e.wasLost e.depth e.floor (s.level h) (s.disp h).stack.length (s.batchTally h))
  | 1 => some (.hostCounts e.missCount e.missLimit e.wakeBand e.batchThreshold e.quota (s.postedUse h))
  | 2 => some (.hostTimes e.claimWindow e.dozeAllowance e.wakeTimeout)
  | _ => none

/-- The REPLY of a QUERY_HOST (R141). -/
def State.answerHost (s : State) (p : HostId) (seq host view : Byte) : State :=
  match (parseHost host).bind fun h => s.hostView h view with
  | some data => s.reply p seq .ok data
  | none => s.reply p seq .badArg .empty

/-- QUERY_HOST (R141): answered to attached and unattached callers alike; an attached caller is first made AWAKE. -/
def execQueryHost (p : HostId) (seq host view : Byte) (s : State) : Result :=
  .next (s.fullExchange p fun s => s.withReplyRoom p fun s =>
    let t := (s.wakeUp p).answerHost p seq host view
    if s.sleeps p then t.recompute else t)

end Sys2Proof.Machine
end

