-- ==== Sys2Proof/Machine/Timers.lean ====
section
/-! DEFINITION. The host timers (chapters 4 and 7): CLAIM_TIMER_EXPIRY and WAKE_TIMER_EXPIRY. An expiry is taken at its expiry tick or later
(log entry 4); a stopped timer holds no expiry (R68), and no timer runs during a reset (R165). -/

namespace Sys2Proof.Machine

/-- The expiry of a running claim timer (R77, R78): the TIMEOUT withdrawal, the round end it may make with its notice, then the miss, which may lose the
host. This order is DEDUCED: log entry 20. -/
def State.claimExpiry (s : State) (h : HostId) (o : Offer) : State :=
  let t := (s.withdraw h .timeout).roundEndDelivered o.handle.slot
  t.miss h .claimTimeout State.recompute

/-- CLAIM_TIMER_EXPIRY (R77). -/
def execClaimTimerExpiry (h : HostId) (s : State) : Result :=
  match s.inReset, (s.disp h).offer, (s.disp h).claimTimer with
  | none, some o, some expiry => .next ({ s with now := max s.now expiry }.claimExpiry h o)
  | _, _, _ => .next s

/-- The wake timer started again with the wake timeout (R131). -/
def State.restartWake (s : State) (h : HostId) : State :=
  s.updSession h fun e => { e with wakeTimer := some (s.now + e.wakeTimeout) }

/-- WAKE_TIMER_EXPIRY (R131): a miss, which restarts the timer or loses the host. -/
def execWakeTimerExpiry (h : HostId) (s : State) : Result :=
  match s.inReset, (s.session h).state, (s.session h).wakeTimer with
  | none, .waking, some expiry =>
    .next ({ s with now := max s.now expiry }.miss h .wakeTimeout fun t => t.restartWake h)
  | _, _, _ => .next s

end Sys2Proof.Machine
end

