-- ==== Sys2Proof/Machine/Dispatch.lean ====
section
/-! DEFINITION. The dispatch: one arm for each command and event. -/

namespace Sys2Proof.Machine

def exec (i : Instr) (s : State) : Host.Outcome State Fault Refusal :=
  match i with
  | .exchangeStart p => Sys2Proof.Machine.execExchangeStart p s
  | .shortExchange p counted => Sys2Proof.Machine.execShortExchange p counted s
  | .nop p seq => Sys2Proof.Machine.execNop p seq s
  | .unknownCommand p seq code => Sys2Proof.Machine.execUnknownCommand p seq code s
  | .attach p seq depth => Sys2Proof.Machine.execAttach p seq depth s
  | .detach p seq => Sys2Proof.Machine.execDetach p seq s
  | .sleep p seq depth => Sys2Proof.Machine.execSleep p seq depth s
  | .setHost p seq param value => Sys2Proof.Machine.execSetHost p seq param value s
  | .setFloor p seq floor => Sys2Proof.Machine.execSetFloor p seq floor s
  | .setQuota p seq quota => Sys2Proof.Machine.execSetQuota p seq quota s
  | .queryHost p seq host view => Sys2Proof.Machine.execQueryHost p seq host view s
  | .claim p seq slot serial => Sys2Proof.Machine.execClaim p seq slot serial s
  | .decline p seq slot serial => Sys2Proof.Machine.execDecline p seq slot serial s
  | .done p seq slot serial => Sys2Proof.Machine.execDone p seq slot serial s
  | .post p seq band mode notify routeCount routeHosts payload => Sys2Proof.Machine.execPost p seq band mode notify routeCount routeHosts payload s
  | .retract p seq slot => Sys2Proof.Machine.execRetract p seq slot s
  | .lease p seq group => Sys2Proof.Machine.execLease p seq group s
  | .release p seq group => Sys2Proof.Machine.execRelease p seq group s
  | .configLine p seq line flags sense qualification band mode routeCount routeHosts => Sys2Proof.Machine.execConfigLine p seq line flags sense qualification band mode routeCount routeHosts s
  | .fetchLoss p seq => Sys2Proof.Machine.execFetchLoss p seq s
  | .ackNotice p seq causes => Sys2Proof.Machine.execAckNotice p seq causes s
  | .queryEvent p seq slot view => Sys2Proof.Machine.execQueryEvent p seq slot view s
  | .queryLine p seq line => Sys2Proof.Machine.execQueryLine p seq line s
  | .rawChange l level => Sys2Proof.Machine.execRawChange l level s
  | .qualificationTimerExpiry l => Sys2Proof.Machine.execQualificationTimerExpiry l s
  | .claimTimerExpiry h => Sys2Proof.Machine.execClaimTimerExpiry h s
  | .wakeTimerExpiry h => Sys2Proof.Machine.execWakeTimerExpiry h s
  | .arbiterFill h => Sys2Proof.Machine.execArbiterFill h s
  | .resetLine => Sys2Proof.Machine.execResetLine s
  | .supplyLow => Sys2Proof.Machine.execSupplyLow s
  | .powerOn => Sys2Proof.Machine.execPowerOn s
  | .hubResetCompletion pins => Sys2Proof.Machine.execHubResetCompletion pins s
  | .exchangeDiscarded p => Sys2Proof.Machine.execExchangeDiscarded p s
  | .holdEnds hold => Sys2Proof.Machine.execHoldEnds hold s

end Sys2Proof.Machine
end

