-- ==== Sys2Proof/Machine/Step.lean ====
section
/-! DEFINITION. One step: the command at the front of the queue of waiting commands is run with the queue's rest; on an empty queue one microsecond
tick of the Timebase passes (log entries 3 and 14). -/

namespace Sys2Proof.Machine

/-- One microsecond tick of the Timebase with no command waiting (log entry 3). -/
def State.tick (s : State) : State := { s with now := s.now + 1 }

/-- One step of the hub. -/
def step (s : State) : Host.Outcome State Fault Refusal :=
  match s.pending with
  | [] => .next s.tick
  | c :: rest => exec c { s with pending := rest }

/-- The state with the command a word spells put at the front of the queue; unchanged where the word spells none. -/
def State.withFetchWord (s : State) (nbits w : Nat) : State :=
  match decodeTableWord nbits w with
  | some c => { s with pending := c :: s.pending }
  | none => s

end Sys2Proof.Machine
end

