-- ==== Sys2Proof/Safety.lean ====
section
/-! DEFINITION. What a safe state of the hub is: the invariants that the spec states of the whole machine, each as a property of one state; the words in
which statements about a command say where it is taken, against which state it is judged and what stays the same; and the tables of hub frames
against which the model's frames are stated. -/

namespace Sys2Proof.Machine

/-- The hub runs: no reset is in progress (R165). -/
abbrev State.running (s : State) : Prop := s.inReset = none

/-- The sum of the four quotas never exceeds 48 (R111). -/
def State.QuotaOk (s : State) : Prop := s.quotaSum ≤ 48

/-- The fields of a session entry lie within the values of R122. While a host is attached its miss count is below 15, so that the next miss counts to at
most 15 (R133). -/
def Session.InRange (e : Session) : Prop :=
  (1 ≤ e.depth ∧ e.depth ≤ 4) ∧ e.floor ≤ 7 ∧ (16 ≤ e.claimWindow ∧ e.claimWindow ≤ 65535) ∧ e.dozeAllowance ≤ 65535 ∧
    (50 ≤ e.wakeTimeout ∧ e.wakeTimeout ≤ 65535) ∧ (1 ≤ e.missLimit ∧ e.missLimit ≤ 15) ∧ (1 ≤ e.wakeBand ∧ e.wakeBand ≤ 8) ∧
    (1 ≤ e.batchThreshold ∧ e.batchThreshold ≤ 32) ∧ e.missCount ≤ 15 ∧ (e.state.attached = true → e.missCount ≤ 14) ∧ e.quota ≤ 48

/-- One host's stack, offer slot and timers agree with its session: the bands of the stack strictly increase and it holds no more entries than the nesting
depth (R88); a held offer is at a listening host, above its floor and level, with stack room (R63, R89); a host that is not attached holds neither
(R135); the wake timer runs in WAKING only (R130). -/
structure State.HostOk (s : State) (h : HostId) : Prop where
  inRange : (s.session h).InRange
  increasing : ((s.disp h).stack.map StackEntry.band).Pairwise (· < ·)
  nesting : (s.disp h).stack.length ≤ (s.session h).depth
  offered : ∀ o, (s.disp h).offer = some o → (s.session h).state.listening = true ∧ s.hasRoomFor h o.band = true
  noOfferNoTimer : (s.disp h).offer = none → (s.disp h).claimTimer = none
  offerTimer : s.running → (s.disp h).offer ≠ none → (s.disp h).claimTimer ≠ none
  unattached : s.attached h = false → (s.disp h).offer = none ∧ (s.disp h).stack = []
  wakeTimer : (s.session h).wakeTimer ≠ none → (s.session h).state = .waking
  waking : s.running → (s.session h).state = .waking → (s.session h).wakeTimer ≠ none

/-- Every host is as `State.HostOk` says. -/
def State.HostsOk (s : State) : Prop := ∀ h, s.HostOk h

/-- Every lease holder is an attached host (R143). -/
def State.LeasesOk (s : State) : Prop := ∀ g h, s.holder g = some h → s.attached h = true

/-- The loss list holds at most 16 entries, every unread set is non-empty and holds attached hosts only (R158), and a missed-loss count is at
most 255 (R158). -/
def State.LossOk (s : State) : Prop :=
  s.loss.length ≤ 16 ∧
    (∀ e ∈ s.loss, HostSet.isEmpty e.unread = false ∧ ∀ h, e.unread.get h = true → s.attached h = true) ∧
    ∀ h, s.missed.get h ≤ 255

/-- Every record that is not FREE appears exactly once in the arrival list, and no FREE record appears in it (R20). -/
def State.ArrivalsOk (s : State) : Prop := s.arrivals.Nodup ∧ ∀ n, n ∈ s.arrivals ↔ s.record n ≠ none

/-- A route list: 1 to 4 distinct hosts (R2). -/
def RouteOk (route : List HostId) : Prop := route ≠ [] ∧ route.Nodup

/-- The entry of a line holds a band of 0 to 7, a route list and one of the qualifications of R25. -/
def LineEntry.InRange (e : LineEntry) : Prop :=
  e.band ≤ 7 ∧ RouteOk e.route ∧ e.qualification ∈ [0, 1, 2, 4, 8, 16, 32, 64]

/-- The kind of a record is fixed by its slot: slot n below 48 holds the record of line Ln, the others hold posted records (R1). -/
def sourceFits (n : SlotNo) : Source → Prop
  | .line l => n = slotOfLine l
  | .host _ => 48 ≤ n.val

/-- The fields of a record lie within the values of R2 and R3. -/
structure Record.InRange (n : SlotNo) (r : Record) : Prop where
  kind : sourceFits n r.source
  band : r.band ≤ 7
  postedBand : 48 ≤ n.val → 1 ≤ r.band
  route : RouteOk r.route
  count : r.count ≤ 255
  lineCount : n.val < 48 → 1 ≤ r.count
  backlog : r.backlog ≤ 255
  openBacklog : r.phase = .opened → r.backlog = 0
  rounds : r.rounds ≤ 2

/-- Every record and every line table entry holds values of its fields (R2, R3, R25). -/
def State.RecordsOk (s : State) : Prop :=
  (∀ n r, s.record n = some r → r.InRange n) ∧ ∀ l, (s.entry l).InRange

/-- The copy list of a record (R4): an ANY record has its one copy, without host just when it is WAITING and otherwise at a host of the route list; an EACH
record has one copy for each of some hosts of its route list, in route-list order. No copy of an OPEN record is IN_SERVICE (R8), and a host that
holds an ANY record's offer is not declined (R44, R53). -/
structure Record.CopiesOk (r : Record) : Prop where
  nonempty : r.copies ≠ []
  anyCopy : r.mode = .any → r.copies.length = 1 ∧
    ∀ c ∈ r.copies, (c.state = .waiting ↔ c.host = none) ∧
      ∀ h, c.host = some h → h ∈ r.route ∧ r.declined.get h = false
  eachCopies : r.mode = .each → (r.copies.map Copy.host).Sublist (r.route.map Option.some)
  opened : r.phase = .opened → ∀ c ∈ r.copies, ∀ hd, c.state ≠ .inService hd

/-- Copies and holders agree (R4, R63, R88): an OFFERED copy is the one named in its host's offer slot, an IN_SERVICE copy is one entry of its host's service
stack, and every offer and every entry names such a copy, of the record's band. -/
structure State.CopiesOk (s : State) : Prop where
  lists : ∀ n r, s.record n = some r → r.CopiesOk
  offeredCopy : ∀ n r c hd, s.record n = some r → c ∈ r.copies → c.state = .offered hd →
    ∃ h, c.host = some h ∧ hd.slot = n ∧ (s.disp h).offer = some ⟨hd, r.band⟩
  servedCopy : ∀ n r c hd, s.record n = some r → c ∈ r.copies → c.state = .inService hd →
    ∃ h, c.host = some h ∧ hd.slot = n ∧ ⟨hd, r.band⟩ ∈ (s.disp h).stack
  offer : ∀ h o, (s.disp h).offer = some o →
    ∃ r, s.record o.handle.slot = some r ∧ ⟨some h, .offered o.handle⟩ ∈ r.copies ∧ o.band = r.band
  entry : ∀ h e, e ∈ (s.disp h).stack →
    ∃ r, s.record e.handle.slot = some r ∧ ⟨some h, .inService e.handle⟩ ∈ r.copies ∧ e.band = r.band

/-- A queue holds at most 8 messages other than WITHDRAW and at most one WITHDRAW (R177). -/
def QueueFits (q : List Msg) : Prop := nonWithdraw q ≤ 8 ∧ q.countP Msg.isWithdraw ≤ 1

/-- While a WITHDRAW is queued, the OFFER of an offer outstanding at the host stands behind it (R75). -/
def OfferBehindWithdraw (q : List Msg) (offer : Option Offer) : Prop :=
  ∀ before after m o, q = before ++ m :: after → m.isWithdraw = true → offer = some o → after.any (Msg.offers o.handle) = true

/-- Every outbound queue is as R177 and R75 say. -/
def State.QueuesOk (s : State) : Prop :=
  ∀ h, QueueFits (s.port h).queue ∧ OfferBehindWithdraw (s.port h).queue (s.disp h).offer

/-- While the hub runs, a STEADY detector's accepted level is the raw level, and a QUALIFYING detector's pending level is the raw level and differs from its
accepted level (R28 to R31). -/
def State.DetectorsOk (s : State) : Prop :=
  s.running → ∀ l, match (s.line l).detector with
    | .unprimed => True
    | .steady a => a = (s.line l).raw
    | .qualifying a p _ => p = (s.line l).raw ∧ a ≠ (s.line l).raw

/-- The epoch lies between 1 and 65535, in a reset too (R164). -/
def State.EpochOk (s : State) : Prop := s.epoch ≠ 0

/-- While a reset is in progress at least one hold is in force and every hold in force is among its causes (R165); every queue is empty with its part mark
clear, every timer is stopped and no exchange runs (R165, R187). -/
def State.ResetOk (s : State) : Prop :=
  (∀ r, s.inReset = some r → r.holds ≠ CauseSet.empty ∧ ∀ c, r.holds.has c = true → r.causes.has c = true) ∧
  (s.inReset ≠ none →
    (∀ h, (s.port h).queue = [] ∧ (s.port h).partMark = false ∧ (∀ x, (s.port h).cs ≠ .live x) ∧ (s.disp h).claimTimer = none ∧
      (s.session h).wakeTimer = none) ∧
    ∀ l a p e, (s.line l).detector ≠ .qualifying a p e)

/-- The offer slots, the rounds and the wakes of a running hub are up to date between events: no arbiter has a fill to make (R64), no outstanding offer is due
to be preempted (R76), no wake trigger is untaken (R59) and no round end is due (R54). -/
structure State.Settled (s : State) : Prop where
  fills : ∀ h, s.readyForOffer h = true → s.choose h = none
  preemptions : ∀ h o, (s.disp h).offer = some o → ∀ w ∈ s.candidatesOf h, w.record.band ≤ o.band
  wakes : ∀ h, s.wakeTriggered h = false
  rounds : ∀ n r, s.record n = some r → s.roundOver r = false

/-- A running hub is settled between events. -/
def State.SettledOk (s : State) : Prop := s.running → s.Settled

/-- Every invariant of the hub. -/
structure State.Safe (s : State) : Prop where
  quota : s.QuotaOk
  hosts : s.HostsOk
  leases : s.LeasesOk
  loss : s.LossOk
  arrivals : s.ArrivalsOk
  records : s.RecordsOk
  copies : s.CopiesOk
  queues : s.QueuesOk
  detectors : s.DetectorsOk
  epoch : s.EpochOk
  inReset : s.ResetOk
  settled : s.SettledOk

/-! ### The words of the statements -/

/-- The port and the sequence number of a row that is the command of a full exchange (R175). -/
def callerOf : Instr → Option (HostId × Byte)
  | .nop p q | .unknownCommand p q _ | .attach p q _ | .detach p q | .sleep p q _ | .setHost p q _ _ | .setFloor p q _ | .setQuota p q _
  | .queryHost p q _ _ | .claim p q _ _ | .decline p q _ _ | .done p q _ _ | .post p q _ _ _ _ _ _ | .retract p q _ | .lease p q _
  | .release p q _ | .configLine p q _ _ _ _ _ _ _ _ | .fetchLoss p q | .ackNotice p q _ | .queryEvent p q _ _ | .queryLine p q _ =>
    some (p, q)
  | .exchangeStart _ | .shortExchange _ _ | .rawChange _ _ | .qualificationTimerExpiry _ | .claimTimerExpiry _ | .wakeTimerExpiry _
  | .arbiterFill _ | .resetLine | .supplyLow | .powerOn | .hubResetCompletion _ | .exchangeDiscarded _ | .holdEnds _ => none

/-- Whether a command is answered NOT_ATTACHED from a host that is not attached: every one but NOP, ATTACH and QUERY_HOST (R126). -/
def needsSession : Instr → Bool
  | .nop _ _ | .attach _ _ _ | .queryHost _ _ _ _ => false
  | i => (callerOf i).isSome

/-- A full exchange on a port completes with its command judged: the hub runs, and the port is in no chip-select period that a reset cut off or that began
during one (R187). -/
abbrev State.canExchange (s : State) (p : HostId) : Prop :=
  s.running ∧ (s.port p).cs ≠ .cutOff ∧ (s.port p).cs ≠ .notReady

/-- A command on a port is taken: the exchange completes and its REPLY has a place (R178). -/
abbrev State.takes (s : State) (p : HostId) : Prop := s.canExchange p ∧ (s.port p).hasReplyRoom = true

/-- The state in which the command of a full exchange is judged: CS has fallen, and step 1 of the completion is done (R173). -/
def State.judged (s : State) (p : HostId) : State := (s.ensureExchange p).clearMarks p 12

/-- The state in which a command of an attached host takes effect: `judged`, with the host made AWAKE (R127). -/
def State.heard (s : State) (p : HostId) : State := (s.judged p).wakeUp p

/-- What the rest of the event leaves of `u`, the state a command's own effects have left: the Router's recomputation when the host was made AWAKE or the
command changed the Router's inputs (`routed`), and step 3 of the exchange (R50, R127, R173). -/
def State.ended (s : State) (p : HostId) (routed : Bool) (u : State) : State :=
  (if s.sleeps p || routed then u.recompute else u).finishExchange p

/-- The sessions, offer slots, stacks and ports of every host but one are the same in two states. -/
def State.sameHostsBut (s t : State) (p : HostId) : Prop :=
  ∀ h, h ≠ p → t.session h = s.session h ∧ t.disp h = s.disp h ∧ t.port h = s.port h

/-- The ports of every host but one are the same in two states. -/
def State.samePortsBut (s t : State) (p : HostId) : Prop := ∀ h, h ≠ p → t.port h = s.port h

/-- Every slot but one holds the same record and serial in two states. -/
def State.sameSlotsBut (s t : State) (n : SlotNo) : Prop := ∀ m, m ≠ n → t.record m = s.record m ∧ t.serial m = s.serial m

/-- The offer of slot `n`'s copy, of record `r`, to a host, from one state to another (R66 to R68): the serial advances by one, the WAITING copy that the host may
hold is OFFERED there, the slot holds the offer, the claim timer starts with the claim window and, in DOZE, the allowance, and the OFFER is appended;
nothing else changes. -/
def State.OfferMade (s t : State) (h : HostId) (n : SlotNo) (r : Record) : Prop :=
  let hd : Handle := ⟨n, s.serial n + 1⟩
  t = { s with slots := t.slots, dispatch := t.dispatch, ports := t.ports } ∧ s.sameHostsBut t h ∧ s.sameSlotsBut t n ∧
    t.serial n = s.serial n + 1 ∧
    t.record n = some
      { r with copies := r.copies.map fun c =>
          if c.state = .waiting ∧ (r.mode = .any ∨ c.host = some h) then ⟨some h, .offered hd⟩ else c } ∧
    t.disp h =
      { s.disp h with
        offer := some ⟨hd, r.band⟩
        claimTimer := some (s.now + ((s.session h).claimWindow +
          if (s.session h).state = .doze then (s.session h).dozeAllowance else 0)) } ∧
    t.port h = { s.port h with
      queue := (s.port h).queue ++ [.offer hd r.source r.band r.mode r.saturated r.count r.payload] }

/-- The offer outstanding at a host is due to be preempted: a WAITING copy of higher band has the host as its candidate (R76). -/
def State.PreemptionDue (s : State) (h : HostId) : Prop :=
  ∃ o w, (s.disp h).offer = some o ∧ w ∈ s.candidatesOf h ∧ o.band < w.record.band

/-- Withdrawals with reason PREEMPTED at the hosts of a list, one after the other. -/
def State.preempted (s : State) (hs : List HostId) : State := hs.foldl (fun v h => v.withdraw h .preempted) s

/-- Offers of chosen copies to hosts, one after the other. -/
def State.offeredAll (s : State) (os : List (HostId × PlacedCopy)) : State := os.foldl (fun v o => v.makeOffer o.1 o.2.slot) s

/-! ### Frames as R181 to R185 lay them out, written apart from the functions of Machine/Frames.lean that the statements judge -/

/-- The phase codes of R184. -/
def wirePhase : SlotPhase → Nat
  | .free => 0
  | .opened => 1
  | .captured => 2

/-- The mode codes of R176 and R182. -/
def wireMode : Mode → Nat
  | .any => 0
  | .each => 1

/-- The host state codes of R181. -/
def wireHostState : HostState → Nat
  | .absent => 0
  | .awake => 1
  | .doze => 2
  | .deep => 3
  | .waking => 4
  | .lost => 5

/-- The sense codes of R176. -/
def wireSense : Sense → Nat
  | .rise => 0
  | .fall => 1
  | .both => 2
  | .high => 3
  | .low => 4

/-- The result codes of R183. -/
def wireResult : ResultCode → Byte
  | .ok => 0x00
  | .okDeferred => 0x01
  | .partialDone => 0x02
  | .stale => 0x03
  | .order => 0x04
  | .notAttached => 0x05
  | .badState => 0x06
  | .badArg => 0x07
  | .held => 0x08
  | .noLease => 0x09
  | .full => 0x0A
  | .quota => 0x0B
  | .noRoom => 0x0C
  | .inService => 0x0D
  | .notOwner => 0x0E

/-- The withdraw reasons of R182. -/
def wireReason : Reason → Byte
  | .preempted => 0
  | .timeout => 1
  | .floor => 2
  | .sleep => 3
  | .reconfigured => 4
  | .retracted => 5

/-- The outcomes of R182. -/
def wireOutcome : CompletionOutcome → Byte
  | .done => 0
  | .dropped => 1

/-- The causes of an EVICTED notice (R182). -/
def wireEvictCause : EvictCause → Byte
  | .claimTimeout => 0
  | .wakeTimeout => 1

/-- The causes of a loss entry (R185). -/
def wireLossCause : LossCause → Nat
  | .unwanted => 0
  | .abandoned => 1
  | .saturated => 2

/-- The record results of a DONE (R184). -/
def wireRecordResult : RecordResult → Nat
  | .remaining => 0
  | .freed => 1
  | .reopened => 2

/-- A source byte: the line number, or the sending host (R182, R185). -/
def wireSource : Source → Nat
  | .line l => l.val
  | .host h => h.toNat

/-- A host number in data, 4 for none (R184). -/
def wireHost : Option HostId → Nat
  | some h => h.toNat
  | none => 4

/-- A field of a data byte: the value that bits `high` to `low` carry. -/
structure BitField where
  high : Nat
  low : Nat
  value : Nat

/-- A byte carries a field. -/
def BitField.shownIn (f : BitField) (b : Byte) : Prop :=
  b.toNat / 2 ^ f.low % 2 ^ (f.high + 1 - f.low) = f.value % 2 ^ (f.high + 1 - f.low)

/-- A flag at one bit of a byte. -/
def bitFlag (i : Nat) (v : Bool) : BitField := ⟨i, i, v.toNat⟩

/-- A byte that carries one number. -/
def whole (v : Nat) : List BitField := [⟨7, 0, v⟩]

/-- A number of `k` bytes, low byte first (R171). -/
def number : Nat → Nat → List (List BitField)
  | 0, _ => []
  | k + 1, v => whole (v % 256) :: number k (v / 256)

/-- The three causes at bits 0 to 2 (R176). -/
def causeFields (c : CauseSet) : List BitField := [⟨7, 3, 0⟩, bitFlag 2 c.supplyLow, bitFlag 1 c.resetLine, bitFlag 0 c.powerOn]

/-- The hosts of a route list, the first in bits 1 and 0 (R176); zero for the empty list of a FREE slot (R23). -/
def routeFields (route : List HostId) : List BitField :=
  if route = [] then whole 0 else (route.take 4).mapIdx fun i h => ⟨2 * i + 1, 2 * i, h.toNat⟩

/-- A route-list position of the COPIES view in the nibble that begins at bit `low`: the state of its copy, candidate, wake target (R185). -/
def positionFields (ps : List PositionView) (i low : Nat) : List BitField :=
  match ps[i]? with
  | some v => [⟨low + 1, low, v.state⟩, bitFlag (low + 2) v.candidate, bitFlag (low + 3) v.wakeTarget]
  | none => [⟨low + 3, low, 0⟩]

/-- What each byte of a REPLY's data carries from byte 6 on, by the tables of R184 and R185; for the REPLY with a loss entry, its first part. -/
def replyFields : ReplyData → List (List BitField)
  | .empty => []
  | .attachOk epoch causes depth wasLost quota =>
    number 2 epoch.toNat ++ [causeFields causes, [⟨2, 0, depth⟩, bitFlag 7 wasLost], whole quota]
  | .hostStateIs st => [whole (wireHostState st)]
  | .parameterSet param value => whole param.toNat :: number 2 value.toNat
  | .floorSet f => [whole f.toNat]
  | .quotaSet quota room => [whole quota, whole room]
  | .claimLine hd count sat => [whole hd.slot.val, whole hd.serial.toNat, whole count, whole sat.toNat]
  | .claimPosted hd payload => [whole hd.slot.val, whole hd.serial.toNat] ++ number 4 payload.toNat
  | .handleNamed slot serial => [whole slot.toNat, whole serial.toNat]
  | .doneOk hd result n => [whole hd.slot.val, whole hd.serial.toNat, whole (wireRecordResult result), whole n]
  | .postOk slot use quota => [whole slot.val, whole use, whole quota]
  | .postRefused use quota => [whole 0, whole use, whole quota]
  | .retractOk slot removed left => [whole slot.val, whole removed, whole left]
  | .retractInService slot holder => [whole slot.val, whole 0, whole (wireHost holder)]
  | .retractSlot slot => [whole slot.toNat]
  | .leaseHolder group holder => [whole group.val, whole (wireHost holder)]
  | .configured line armed arrival phase withdrawn rebuilt =>
    [whole line.val, [bitFlag 0 armed, bitFlag 1 arrival, ⟨5, 4, wirePhase phase⟩], whole withdrawn, whole rebuilt]
  | .configNoLease line holder => [whole line.val, whole (wireHost holder)]
  | .configBadArg line => [whole line.toNat]
  | .causesLeft causes epoch => causeFields causes :: number 2 epoch.toNat
  | .hostStateView st wasLost depth floor level entries tally =>
    [[⟨2, 0, wireHostState st⟩, bitFlag 7 wasLost], whole depth, whole floor, whole level, whole entries, whole tally]
  | .hostCounts misses limit wakeBand threshold quota use =>
    [whole misses, whole limit, whole wakeBand, whole threshold, whole quota, whole use]
  | .hostTimes window allowance timeout => number 2 window ++ number 2 allowance ++ number 2 timeout
  | .eventRecord phase posted mode sat notify source band position serial =>
    [[⟨1, 0, wirePhase phase⟩, bitFlag 2 posted, ⟨3, 3, wireMode mode⟩, bitFlag 4 sat, bitFlag 5 notify],
      (match source with
        | some v => whole (wireSource v)
        | none => if posted then [⟨1, 0, 0⟩, ⟨7, 3, 0⟩] else whole 0),
      whole band, whole position, whole serial.toNat]
  | .eventCopies phase mode anyWaiting route declined rounds ps =>
    [[⟨1, 0, wirePhase phase⟩, ⟨3, 3, wireMode mode⟩, bitFlag 4 anyWaiting, ⟨7, 5, route.length⟩], routeFields route,
      [bitFlag 0 declined.h0, bitFlag 1 declined.h1, bitFlag 2 declined.h2, bitFlag 3 declined.h3], whole rounds,
      positionFields ps 0 0 ++ positionFields ps 1 4, positionFields ps 2 0 ++ positionFields ps 3 4]
  | .eventLine phase count backlog => [whole (wirePhase phase), whole count, whole backlog]
  | .eventPosted phase payload => whole (wirePhase phase) :: number 4 payload.toNat
  | .lineView e raw accepted qualifying phase count backlog =>
    [[bitFlag 0 e.enabled, ⟨1, 1, wireMode e.mode⟩, bitFlag 2 (decide (raw = .high)),
        ⟨4, 3, match accepted with
          | none => 0
          | some .low => 1
          | some .high => 2⟩,
        bitFlag 5 qualifying, ⟨7, 6, wirePhase phase⟩],
      [⟨2, 0, wireSense e.sense⟩, ⟨5, 3, e.band⟩, ⟨7, 6, e.route.length - 1⟩], whole e.qualification, routeFields e.route, whole count,
      whole backlog]
  | .lossEntry cause slot source band _ host missed remaining =>
    [[bitFlag 0 true, ⟨2, 1, wireLossCause cause⟩] ++ (host.toList.map fun h => ⟨5, 4, h.toNat⟩) ++
        (match source with
          | .host h => [⟨7, 6, h.toNat⟩]
          | .line _ => []),
      whole slot.val, whole band, whole missed, whole remaining]
  | .noLossEntry missed => [[bitFlag 0 false], [], [], whole missed, whole 0]

/-- The data bytes of a frame carry what a table lists for them; a byte beyond the table reads 0x00 (R184). -/
def dataShown (bytes : List Byte) (table : List (List BitField)) : Prop :=
  ∀ (i : Nat) (b : Byte), bytes[i]? = some b →
    (∀ fields, table[i]? = some fields → ∀ f ∈ fields, BitField.shownIn f b) ∧ (table[i]? = none → b = 0)

end Sys2Proof.Machine
end

