-- ==== Sys2Proof/Certificates/Slice0/Obligations.lean ====
section
/-! DEFINITION. The statements for the provers. A statement about a command names the state `s` in which its exchange completes, `s.heard p` (or `s.judged p`)
against which the command is judged, and `s.ended p` which the rest of the exchange makes of the command's own effects; what these three do is stated by
`BeforeTheCommand`, `ExchangeEnd` and `RecomputationFrame`. -/

section
open Sys2Proof Sys2Proof.Machine

/-! ### The machine as a whole -/

/-- One step runs the command at the front of the queue with the queue's rest; with no command waiting one tick of the Timebase passes, which is the model's
choice (log entries 3 and 14). -/
def Obligations.StepRunsFrontCommand : Prop :=
  (∀ (c : Instr) (rest : List Instr) (s : State), s.pending = c :: rest → step s = exec c { s with pending := rest }) ∧
    ∀ s : State, s.pending = [] → step s = .next { s with now := s.now + 1 }

/-- The values the spec gives after the POWER_ON reset (R24, R25, R28, R87, R105, R106, R122, R143, R158, R167). The raw levels, the count of ticks and the
empty queue of commands, which the model chooses (log entries 1, 3 and 14), are not stated. That the state after reset is that of the POWER_ON reset,
and that CS is high on every port there, are the model's choices (log entries 2 and 29). -/
def Obligations.ResetValues : Prop :=
  let s := State.reset
  (∀ l, s.entry l = ⟨false, .rise, 0, 1, .any, [.h0]⟩ ∧ (s.line l).detector = .unprimed) ∧
    (∀ g, s.holder g = none) ∧
    (∀ n, s.record n = none ∧ s.serial n = 0) ∧ s.arrivals = [] ∧
    (∀ h, s.disp h = ⟨none, none, []⟩ ∧
      s.session h =
        { state := .absent, depth := 2, floor := 0, claimWindow := 500, dozeAllowance := 2000, wakeTimeout := 5000, missLimit := 3,
          wakeBand := 5, batchThreshold := 8, missCount := 0, wasLost := false, wakeTimer := none, quota := 12 } ∧
      s.port h = { queue := [], partMark := false, overrun := false, noticeDropped := false, cs := .idle } ∧
      s.missed.get h = 0 ∧ s.postedUse h = 0 ∧ s.causes.get h = ⟨true, false, false⟩) ∧
    s.loss = [] ∧ s.epoch = 1 ∧ s.running

/-- The state after reset meets every invariant. -/
def Obligations.ResetIsSafe : Prop := State.reset.Safe

/-- Every well-formed command of a full exchange has a command frame, which carries its sequence number and decodes to it; and every frame decodes to a
well-formed command of its port, whose own frame carries the same code and decodes to the same command, since bytes that a layout does not name are
ignored (R175, R176). -/
def Obligations.CommandFrameRoundTrip : Prop :=
  (
    ∀ (i : Instr) (p : HostId) (q : Byte), i.wellFormed = true → callerOf i = some (p, q) →
      ∃ f, frameOfCommand i = some (p, f) ∧ f.seq = q ∧ commandOfFrame p f = i) ∧
  (
    ∀ (p : HostId) (f : CommandFrame), (commandOfFrame p f).wellFormed = true ∧ callerOf (commandOfFrame p f) = some (p, f.seq) ∧
      ∃ g, frameOfCommand (commandOfFrame p f) = some (p, g) ∧ g.code = f.code ∧ commandOfFrame p g = commandOfFrame p f)

/-! ### Invariants that every step keeps -/

/-- The sum of the four host quotas never exceeds 48 (R111). -/
def Obligations.QuotaSumKept : Prop := ∀ s t : State, s.QuotaOk → step s = .next t → t.QuotaOk

/-- The stack, offer and timer invariants of every host (R63, R88, R89, R122, R130, R135). -/
def Obligations.HostsKept : Prop := ∀ s t : State, s.HostsOk → step s = .next t → t.HostsOk

/-- A lease holder is always an attached host (R143). -/
def Obligations.LeaseHoldersKept : Prop := ∀ s t : State, s.LeasesOk → step s = .next t → t.LeasesOk

/-- The loss queue invariants (R158). -/
def Obligations.LossQueueKept : Prop := ∀ s t : State, s.LossOk → step s = .next t → t.LossOk

/-- The arrival list holds every record in use exactly once and no FREE one (R20). -/
def Obligations.ArrivalListKept : Prop := ∀ s t : State, s.ArrivalsOk → step s = .next t → t.ArrivalsOk

/-- The fields of every record and line table entry stay within their values (R1, R2, R3, R25). -/
def Obligations.RecordsKept : Prop := ∀ s t : State, s.RecordsOk → step s = .next t → t.RecordsOk

/-- Copies, offer slots and stacks agree (R4, R63, R88). -/
def Obligations.CopiesKept : Prop :=
  ∀ s t : State, s.HostsOk → s.ArrivalsOk → s.RecordsOk → s.CopiesOk → step s = .next t → t.CopiesOk

/-- Each outbound queue holds at most 8 messages other than WITHDRAW and at most one WITHDRAW (R177), and an outstanding offer's OFFER stands behind a queued
WITHDRAW (R75). -/
def Obligations.QueuesKept : Prop := ∀ s t : State, s.QueuesOk → step s = .next t → t.QueuesOk

/-- The detectors agree with the raw levels while the hub runs (R28 to R31), the epoch is never 0 (R164), and a hub in reset has a hold in force (R165), which is
among its causes, and holds no message, timer or exchange (R165, R187). -/
def Obligations.DetectorsAndResetKept : Prop :=
  (
    ∀ s t : State, s.DetectorsOk → step s = .next t → t.DetectorsOk) ∧
  (
    ∀ s t : State, step s = .next t → (s.EpochOk → t.EpochOk) ∧ (s.ResetOk → t.ResetOk))

/-- Between events a running hub has no fill to make, no offer to preempt, no wake trigger untaken and no round end due (R50, R54, R59, R64, R76). -/
def Obligations.SettledKept : Prop :=
  ∀ s t : State, s.HostsOk → s.ArrivalsOk → s.RecordsOk → s.CopiesOk → s.SettledOk → step s = .next t → t.SettledOk

/-- Every step of a safe hub leaves a safe hub. -/
def Obligations.SafetyKept : Prop := ∀ s t : State, s.Safe → step s = .next t → t.Safe

/-! ### Rules over every command -/

/-- A line table entry changes by a CONFIG_LINE from the holder of its line's group, and at the completion of a reset, and at no other event (R25, R147,
R157). -/
def Obligations.LineTableGuarded : Prop :=
  ∀ (i : Instr) (s t : State) (l : LineNo), exec i s = .next t → t.entry l ≠ s.entry l →
    (∃ p q line flags sense qual band mode rc rh, i = .configLine p q line flags sense qual band mode rc rh ∧ line.toNat = l.val ∧
      s.running ∧ s.attached p = true ∧ s.holder (groupOfLine l) = some p) ∨
    (∃ pins, i = .hubResetCompletion pins ∧ ¬s.running)

/-- The epoch changes only at a reset, and a host's cause set only at a reset and by the host's own ACK_NOTICE (R164). -/
def Obligations.RetentionGuarded : Prop :=
  ∀ (i : Instr) (s t : State), exec i s = .next t →
    (t.epoch ≠ s.epoch → i = .powerOn ∨ ∃ pins, i = .hubResetCompletion pins ∧ ¬s.running) ∧
    ∀ h, t.causes.get h ≠ s.causes.get h →
      i = .powerOn ∨ (∃ pins, i = .hubResetCompletion pins ∧ ¬s.running) ∨ ∃ q c, i = .ackNotice h q c

/-- A command changes no field of another host's session entry but by the wake that its effects may trigger there (R111, R130, R139, R141). -/
def Obligations.OtherSessionsUntouched : Prop :=
  ∀ (i : Instr) (p : HostId) (q : Byte) (s t : State) (h : HostId), callerOf i = some (p, q) → h ≠ p → exec i s = .next t →
    t.session h = s.session h ∨
      (s.session h).state = .deep ∧
        t.session h = { s.session h with state := .waking, wakeTimer := some (s.now + (s.session h).wakeTimeout) }

/-- While a reset is in progress the hub takes no event (R165): a row that is not a part of the reset changes nothing but a port's chip-select period, and
a command's exchange is discarded (R187). A period that a reset cut off, or that began during one, is discarded too when the hub runs by the time
CS rises: neither the command nor a short exchange of that port changes anything but CS (R187). -/
def Obligations.NothingTakenInReset : Prop :=
  (∀ (i : Instr) (s t : State), ¬s.running → exec i s = .next t →
    i ≠ .resetLine → i ≠ .supplyLow → i ≠ .powerOn → (∀ c, i ≠ .holdEnds c) → (∀ pins, i ≠ .hubResetCompletion pins) →
    t = { s with ports := t.ports } ∧ (∀ h, t.port h = { s.port h with cs := (t.port h).cs }) ∧
      ∀ p q, callerOf i = some (p, q) → (t.port p).cs = .idle ∧ s.samePortsBut t p) ∧
  ∀ (i : Instr) (p : HostId) (s : State), (s.port p).cs = .cutOff ∨ (s.port p).cs = .notReady →
    ((∃ q, callerOf i = some (p, q)) ∨ ∃ k, i = .shortExchange p k) →
    ∃ t, exec i s = .next t ∧ t = { s with ports := t.ports } ∧ s.samePortsBut t p ∧ t.port p = { s.port p with cs := .idle }

/-- A command other than NOP whose REPLY has no place is not taken: the overrun mark is set, and nothing else happens but the end of the exchange (R178). A
command from a host that is not attached, other than ATTACH, NOP and QUERY_HOST, is answered NOT_ATTACHED with no other effect (R126). -/
def Obligations.NoRoomAndNotAttached : Prop :=
  (
    ∀ (i : Instr) (p : HostId) (q : Byte) (s : State), callerOf i = some (p, q) → i ≠ .nop p q → s.canExchange p →
      (s.port p).hasReplyRoom = false →
      exec i s = .next (((s.judged p).updPort p fun r => { r with overrun := true }).finishExchange p)) ∧
  (
    ∀ (i : Instr) (p : HostId) (q : Byte) (s : State), callerOf i = some (p, q) → needsSession i = true → s.takes p →
      s.attached p = false →
      exec i s = .next (((s.judged p).reply p q .notAttached .empty).finishExchange p))

/-! ### Before and after a command -/

/-- The state in which a command is judged (R172, R173 step 1) differs from the state before in its own port's exchange and marks alone, and the return to
AWAKE (R127) in the host's state and wake timer alone. That CS falls here when it was high is the model's choice (log entry 5). -/
def Obligations.BeforeTheCommand : Prop :=
  (∀ (s : State) (p : HostId), s.canExchange p → ∃ x,
    s.judged p = { s with ports := (s.judged p).ports, freeIdx := (s.judged p).freeIdx } ∧ s.samePortsBut (s.judged p) p ∧
    (s.judged p).port p =
      { s.port p with
        cs := .live x
        overrun := (s.port p).overrun && !x.shownOverrun
        noticeDropped := (s.port p).noticeDropped && !x.shownNotice } ∧
    ((s.port p).cs = .idle →
      x.carried = !(s.port p).queue.isEmpty ∧ x.shownOverrun = (s.port p).overrun ∧ x.shownNotice = (s.port p).noticeDropped) ∧
    ∀ y, (s.port p).cs = .live y → x = { y with bytes := 12 }) ∧
  ∀ (s : State) (p : HostId),
    s.wakeUp p = { s with sessions := (s.wakeUp p).sessions } ∧ (∀ h, h ≠ p → (s.wakeUp p).session h = s.session h) ∧
    (s.wakeUp p).session p =
      if (s.session p).state = .doze ∨ (s.session p).state = .deep ∨ (s.session p).state = .waking then
        { s.session p with state := .awake, wakeTimer := none }
      else s.session p

/-- Step 3 of the completion of a full exchange (R173, R180): a first part sets the part mark, a one-part message or a second part leaves the queue, after
which the arbiter may fill; an exchange that carried nothing, or whose message is gone, removes nothing. That this fill takes a later serial than the
offers of step 2, whatever the copy order of R66, is the model's choice (log entry 26). -/
def Obligations.ExchangeEnd : Prop :=
  ∀ (s : State) (p : HostId) (x : Exchange), (s.port p).cs = .live x →
    ((x.carried = false ∨ (s.port p).queue = []) → s.finishExchange p = s.updPort p fun q => { q with cs := .idle }) ∧
    ∀ m rest, x.carried = true → (s.port p).queue = m :: rest →
      (m.twoPart = true → (s.port p).partMark = false →
        s.finishExchange p = s.updPort p fun q => { q with cs := .idle, partMark := true }) ∧
      ((m.twoPart = false ∨ (s.port p).partMark = true) →
        s.finishExchange p = (s.updPort p fun q => { q with cs := .idle, queue := rest, partMark := false }).arbiterFill p)

/-! ### The Router and the arbiters -/

/-- Eligibility and candidates (R44, R45, R46, R90): the candidate of a WAITING ANY copy is the first host of the route list, in its order, at which the copy
is eligible; that of an EACH copy is its own host when eligible there; a copy of another state has none. -/
def Obligations.CandidateAnswers : Prop :=
  (∀ (s : State) (h : HostId) (band : Nat), s.eligible h band = true ↔
    ((s.session h).state = .awake ∨ (s.session h).state = .doze) ∧ (s.session h).floor < band ∧ s.level h < band ∧
      (s.disp h).stack.length < (s.session h).depth) ∧
  (∀ (s : State) (h : HostId), ((s.disp h).stack = [] → s.level h = 0) ∧
    ∀ es e, (s.disp h).stack = es ++ [e] → s.level h = e.band) ∧
  (∀ (s : State) (r : Record) (c : Copy), c.state = .waiting → r.mode = .any →
    (∀ h, s.candidate r c = some h ↔ ∃ before after, r.route = before ++ h :: after ∧
      (s.eligible h r.band = true ∧ r.declined.get h = false) ∧
      ∀ k ∈ before, ¬(s.eligible k r.band = true ∧ r.declined.get k = false)) ∧
    (s.candidate r c = none ↔ ∀ k ∈ r.route, ¬(s.eligible k r.band = true ∧ r.declined.get k = false))) ∧
  (∀ (s : State) (r : Record) (c : Copy), c.state = .waiting → r.mode = .each →
    ∀ h, s.candidate r c = some h ↔ c.host = some h ∧ s.eligible h r.band = true) ∧
  (∀ (s : State) (r : Record) (c : Copy), c.state ≠ .waiting → s.candidate r c = none) ∧
  ∀ (s : State) (r : Record) (c : Copy), r.band = 0 → s.candidate r c = none

/-- Wake targets (R48, R49): of a WAITING copy without candidate, the first sleeping host of the route list that would accept it and is not declined (ANY), or
its own host when it sleeps and would accept it (EACH); any other copy has none. The wake trigger (R58, R59): the host is DEEP and a copy whose wake target
it is has a band at or above its wake band, or the number of such copies is at or above its batch threshold. -/
def Obligations.WakeTargetsAndTrigger : Prop :=
  (
    (∀ (s : State) (h : HostId) (band : Nat), s.wouldAccept h band = true ↔
      ((s.session h).state = .deep ∨ (s.session h).state = .waking) ∧ (s.session h).floor < band ∧ s.level h < band ∧
        (s.disp h).stack.length < (s.session h).depth) ∧
    (∀ (s : State) (r : Record) (c : Copy), (c.state ≠ .waiting ∨ s.candidate r c ≠ none ∨ r.band = 0) → s.wakeTarget r c = none) ∧
    (∀ (s : State) (r : Record) (c : Copy), c.state = .waiting → r.mode = .any → s.candidate r c = none →
      (∀ h, s.wakeTarget r c = some h ↔ ∃ before after, r.route = before ++ h :: after ∧
        (s.wouldAccept h r.band = true ∧ r.declined.get h = false) ∧
        ∀ k ∈ before, ¬(s.wouldAccept k r.band = true ∧ r.declined.get k = false)) ∧
      (s.wakeTarget r c = none ↔ ∀ k ∈ r.route, ¬(s.wouldAccept k r.band = true ∧ r.declined.get k = false))) ∧
    ∀ (s : State) (r : Record) (c : Copy), c.state = .waiting → r.mode = .each → s.candidate r c = none →
      ∀ h, s.wakeTarget r c = some h ↔ c.host = some h ∧ s.wouldAccept h r.band = true) ∧
  (
    ∀ (s : State) (h : HostId),
      (∀ w, w ∈ s.wakeCopies h ↔ ∃ r, w.slot ∈ s.arrivals ∧ s.record w.slot = some r ∧ w.record = r ∧ w.copy ∈ r.copies ∧
        s.wakeTarget r w.copy = some h) ∧
      s.batchTally h = (s.wakeCopies h).length ∧
      (s.wakeTriggered h = true ↔
        (s.session h).state = .deep ∧
          ((∃ w ∈ s.wakeCopies h, (s.session h).wakeBand ≤ w.record.band) ∨ (s.session h).batchThreshold ≤ s.batchTally h)))

/-- The arbiter's choice (R65), among the copies whose candidate the host is: none when there is no such copy; otherwise one of them, of the highest band,
and among those of that band one whose record stands earliest in the arrival list. -/
def Obligations.ArbiterChoosesHighestThenOldest : Prop :=
  ∀ (s : State) (h : HostId),
    (∀ w, w ∈ s.candidatesOf h ↔ ∃ r, w.slot ∈ s.arrivals ∧ s.record w.slot = some r ∧ w.record = r ∧ w.copy ∈ r.copies ∧
      s.candidate r w.copy = some h) ∧
    (s.choose h = none ↔ s.candidatesOf h = []) ∧
    ∀ w, s.choose h = some w → w ∈ s.candidatesOf h ∧ ∀ v ∈ s.candidatesOf h, v.record.band ≤ w.record.band ∧
      (v.record.band = w.record.band → s.arrivals.idxOf w.slot ≤ s.arrivals.idxOf v.slot)

/-- ARBITER_FILL (R64, R66, R67, R68): with the slot EMPTY, 5 messages or fewer queued and a candidate, the chosen copy is offered; otherwise nothing
happens. The offer that any fill makes is that of `State.OfferMade`. -/
def Obligations.ArbiterFillMakesOffer : Prop :=
  (∀ (h : HostId) (s : State), s.running → ((s.disp h).offer ≠ none ∨ 5 < (s.port h).queue.length ∨ s.candidatesOf h = []) →
    exec (.arbiterFill h) s = .next s) ∧
  (∀ (h : HostId) (s : State) (w : PlacedCopy) (r : Record), s.running → (s.disp h).offer = none → (s.port h).queue.length ≤ 5 →
    s.choose h = some w → s.record w.slot = some r → ∃ t, exec (.arbiterFill h) s = .next t ∧ s.OfferMade t h w.slot r) ∧
  ∀ (h : HostId) (s : State) (n : SlotNo) (r : Record), s.record n = some r → s.OfferMade (s.makeOffer h n) h n r

/-- The Router's recomputation (R50, R51, R59, R64, R65, R66, R76, R130). It changes copies, serials, offers, claim timers, queues and, by a wake trigger, the
state and wake timer of a DEEP host, and nothing else: no stack, no band, mode, route list, count, declined set or phase, no miss count, and no copy
IN_SERVICE. First each withdrawal ends an offer that a copy of higher band is due to preempt at that moment (R51, R76), until none is due; then each
arbiter whose slot is EMPTY and whose queue has room offers its own choice (R64, R65), once, by `State.OfferMade` of `ArbiterFillMakesOffer`, and the
offers of one record take its serials in copy-list order (R66); then the hosts whose wake trigger holds are woken. That every preemption comes before
every fill is the model's reading (log entry 17). -/
def Obligations.RecomputationFrame : Prop :=
  (∀ s : State,
    let t := s.recompute
    t = { s with slots := t.slots, dispatch := t.dispatch, sessions := t.sessions, ports := t.ports } ∧
    (∀ h, (t.disp h).stack = (s.disp h).stack ∧ t.port h = { s.port h with queue := (t.port h).queue } ∧
      (t.session h = s.session h ∨
        (s.session h).state = .deep ∧
          t.session h = { s.session h with state := .waking, wakeTimer := some (s.now + (s.session h).wakeTimeout) })) ∧
    ∀ n, (s.record n = none → t.record n = none) ∧
      ∀ r, s.record n = some r → ∃ copies, t.record n = some { r with copies := copies } ∧ copies.length = r.copies.length ∧
        ∀ c hd, c.state = .inService hd → (c ∈ copies ↔ c ∈ r.copies)) ∧
  ∀ s : State, s.ArrivalsOk → (∀ n r, s.record n = some r → r.CopiesOk ∧ RouteOk r.route) →
    ∃ (hs : List HostId) (os : List (HostId × PlacedCopy)),
      let u := s.preempted hs
      let v := u.offeredAll os
      (∀ before h after, hs = before ++ h :: after → (s.preempted before).PreemptionDue h) ∧ (∀ h, ¬u.PreemptionDue h) ∧
      (∀ h w, (h, w) ∈ os ↔ (u.disp h).offer = none ∧ (u.port h).queue.length ≤ 5 ∧ u.choose h = some w) ∧
      (os.map Prod.fst).Nodup ∧
      os.Pairwise (fun a b => a.2.slot = b.2.slot → [a.2.copy, b.2.copy].Sublist a.2.record.copies) ∧
      s.recompute = { v with sessions := s.recompute.sessions } ∧
      ∀ h, s.recompute.session h =
        if v.wakeTriggered h then { s.session h with state := .waking, wakeTimer := some (s.now + (s.session h).wakeTimeout) }
        else s.session h

/-- After the Router's recomputation no arbiter has a fill to make, no offer is due to be preempted and no wake trigger is untaken (R50, R59, R64, R76). -/
def Obligations.RecomputationSettles : Prop :=
  ∀ s : State,
    (∀ h, s.recompute.readyForOffer h = true → s.recompute.choose h = none) ∧
    (∀ h o, (s.recompute.disp h).offer = some o → ∀ w ∈ s.recompute.candidatesOf h, w.record.band ≤ o.band) ∧
    ∀ h, s.recompute.wakeTriggered h = false

/-- A withdrawal (R73, R74, R75): the slot is EMPTY and the timer stopped, the copy WAITING, the host declined after a TIMEOUT of an ANY copy alone, and
the newest OFFER of the handle is deleted when it is queued and not carried, else a WITHDRAW is appended. No session changes. That the NEWEST of several
OFFERs of one handle is the one deleted is the model's reading (log entry 24); for the reason RETRACTED, the WAITING copy stands only until the command
removes it (R73). The withdrawal of every offer of a record (R80, R114, R115, R151) does the same at each host that holds one, and nothing at any other
host or slot. -/
def Obligations.WithdrawalEffect : Prop :=
  (∀ (s : State) (h : HostId) (o : Offer) (r : Record) (reason : Reason), (s.disp h).offer = some o → s.record o.handle.slot = some r →
    let t := s.withdraw h reason
    t = { s with slots := t.slots, dispatch := t.dispatch, ports := t.ports } ∧ s.sameHostsBut t h ∧ s.sameSlotsBut t o.handle.slot ∧
    t.serial o.handle.slot = s.serial o.handle.slot ∧
    t.disp h = { s.disp h with offer := none, claimTimer := none } ∧
    t.record o.handle.slot = some
      { r with
        copies := r.copies.map fun c =>
          if c.host = some h ∧ c.state = .offered o.handle then ⟨if r.mode = .any then none else some h, .waiting⟩ else c
        declined := if reason = .timeout ∧ r.mode = .any then r.declined.set h true else r.declined } ∧
    t.port h = { s.port h with queue := (t.port h).queue } ∧
    (∀ before m after, (s.port h).queue = before ++ m :: after → m.offers o.handle = true → (∀ x ∈ after, x.offers o.handle = false) →
      (before = [] → (s.port h).headCarried = false) → (t.port h).queue = before ++ after) ∧
    ((∀ m ∈ (if (s.port h).headCarried then (s.port h).queue.tail else (s.port h).queue), m.offers o.handle = false) →
      (t.port h).queue = (s.port h).queue ++ [.withdraw o.handle reason])) ∧
  ∀ (s : State) (n : SlotNo) (r : Record) (reason : Reason), s.record n = some r → reason ≠ .timeout →
    let t := s.withdrawAll n reason
    t = { s with slots := t.slots, dispatch := t.dispatch, ports := t.ports } ∧ s.sameSlotsBut t n ∧ t.serial n = s.serial n ∧
    (∀ h, (∀ o, (s.disp h).offer = some o → o.handle.slot ≠ n) → t.disp h = s.disp h ∧ t.port h = s.port h) ∧
    (∀ h o, (s.disp h).offer = some o → o.handle.slot = n →
      t.disp h = { s.disp h with offer := none, claimTimer := none } ∧ t.port h = (s.withdraw h reason).port h) ∧
    t.record n = some
      { r with copies := r.copies.map fun c =>
          match c.host.bind fun h => (s.disp h).offer with
          | some o =>
            if o.handle.slot = n ∧ c.state = .offered o.handle then ⟨if r.mode = .any then none else c.host, .waiting⟩ else c
          | none => c }

/-! ### The life of a record -/

/-- Freeing and completion (R14 to R18, R34): a posted record is freed, with a COMPLETED notice when notify is set; a line record is freed or reopened by the
table of R16, at the arrival-list tail, from the line table entry as it stands, with the saturated mark and the serial kept. -/
def Obligations.CompletionFreesOrReopens : Prop :=
  (∀ (s : State) (n : SlotNo), s.freeSlot n = { s with slots := (s.freeSlot n).slots, arrivals := s.arrivals.filter fun m => m ≠ n } ∧
    (s.freeSlot n).record n = none ∧ (s.freeSlot n).serial n = s.serial n ∧ s.sameSlotsBut (s.freeSlot n) n) ∧
  (∀ (s : State) (n : SlotNo) (r : Record) (outcome : CompletionOutcome) (k : HostId), r.source = .host k →
    s.complete n r outcome = ⟨s.freeSlot n, if r.notify then some ⟨k, n, outcome, r.payload⟩ else none, .freed, 0⟩) ∧
  ∀ (s : State) (n : SlotNo) (r : Record) (outcome : CompletionOutcome) (l : LineNo), r.source = .line l →
    let e := s.entry l
    let c := s.complete n r outcome
    let reopens (count : Nat) : Prop := c.notice = none ∧ c.result = .reopened ∧ c.number = count ∧
      c.state = { s with slots := c.state.slots, arrivals := (s.arrivals.filter fun m => m ≠ n) ++ [n] } ∧
      s.sameSlotsBut c.state n ∧ c.state.serial n = s.serial n ∧
      c.state.record n = some
        { source := .line l, band := e.band, mode := e.mode, route := e.route, phase := .opened, count := count, backlog := 0,
          saturated := r.saturated, payload := 0, notify := false, declined := HostSet.empty, rounds := 0,
          copies := match e.mode with
            | .any => [⟨none, .waiting⟩]
            | .each => e.route.map fun h => ⟨some h, .waiting⟩ }
    (e.enabled = false → c = ⟨s.freeSlot n, none, .freed, r.backlog⟩) ∧
    (e.enabled = true → e.sense.active = none → (r.backlog = 0 → c = ⟨s.freeSlot n, none, .freed, 0⟩) ∧ (r.backlog ≠ 0 → reopens r.backlog)) ∧
    ∀ a, e.enabled = true → e.sense.active = some a →
      (r.backlog = 0 → (s.line l).detector.accepted ≠ some a → c = ⟨s.freeSlot n, none, .freed, 0⟩) ∧
      ((r.backlog ≠ 0 ∨ (s.line l).detector.accepted = some a) → reopens 1)

/-- An arrival on a line (R9, R33, R34, R36, R37): it opens a FREE slot at the arrival-list tail with count 1; on an edge sense it raises the count of an OPEN
record or the backlog of a CAPTURED one, held at 255 with the saturated mark and the record's one SATURATED entry; on a level sense it leaves a count
and raises a backlog of 0 to 1. -/
def Obligations.ArrivalApplied : Prop :=
  ∀ (s : State) (l : LineNo),
    let n := slotOfLine l
    let e := s.entry l
    let t := s.arrive l
    let becomes (r : Record) : Prop := t = { s with slots := t.slots } ∧ s.sameSlotsBut t n ∧ t.serial n = s.serial n ∧ t.record n = some r
    (s.record n = none →
      t = { s with slots := t.slots, arrivals := s.arrivals ++ [n] } ∧ s.sameSlotsBut t n ∧ t.serial n = s.serial n ∧
      t.record n = some
        { source := .line l, band := e.band, mode := e.mode, route := e.route, phase := .opened, count := 1, backlog := 0,
          saturated := false, payload := 0, notify := false, declined := HostSet.empty, rounds := 0,
          copies := match e.mode with
            | .any => [⟨none, .waiting⟩]
            | .each => e.route.map fun h => ⟨some h, .waiting⟩ }) ∧
    ∀ r, s.record n = some r →
      (e.sense.active ≠ none → r.phase = .opened → t = s) ∧
      (e.sense.active ≠ none → r.phase = .captured → becomes { r with backlog := if r.backlog = 0 then 1 else r.backlog }) ∧
      (e.sense.active = none → r.phase = .opened → r.count < 255 → becomes { r with count := r.count + 1 }) ∧
      (e.sense.active = none → r.phase = .captured → r.backlog < 255 → becomes { r with backlog := r.backlog + 1 }) ∧
      (e.sense.active = none → (r.phase = .opened ∧ 255 ≤ r.count ∨ r.phase = .captured ∧ 255 ≤ r.backlog) →
        (r.saturated = true → t = s) ∧
        (r.saturated = false →
          t = (s.setRecord n (some { r with saturated := true })).makeLoss .saturated n r none))

/-- The making of a loss entry (R159, R160, R161): its unread set is the attached hosts of the route list, or every attached host when the route list holds
none; with no attached host nothing is made; with 16 entries listed the missed-loss counts of the set rise, up to 255; else the entry is stored at
the tail. -/
def Obligations.LossEntryMade : Prop :=
  ∀ (s : State) (cause : LossCause) (n : SlotNo) (r : Record) (host : Option HostId),
    let unread := s.unreadFor r.route
    (∀ h, unread.get h = true ↔ s.attached h = true ∧ (h ∈ r.route ∨ ∀ k ∈ r.route, s.attached k = false)) ∧
    ((∀ h, s.attached h = false) → s.makeLoss cause n r host = s) ∧
    ((∃ h, s.attached h = true) → s.loss.length < 16 →
      s.makeLoss cause n r host = { s with
        loss := s.loss ++
          [{ cause := cause, slot := n, source := r.source, band := r.band
             payload := match r.source with
               | .host _ => r.payload
               | .line _ => 0
             host := host, unread := unread }] }) ∧
    ((∃ h, s.attached h = true) → 16 ≤ s.loss.length →
      s.makeLoss cause n r host = { s with missed := (s.makeLoss cause n r host).missed } ∧
      ∀ h, (s.makeLoss cause n r host).missed.get h = if unread.get h then min 255 (s.missed.get h + 1) else s.missed.get h)

/-- The delivery of a COMPLETED notice (R118, R119): appended at the tail of an attached sender's queue with 7 or fewer messages other than WITHDRAW; with 8
dropped, setting the notice-dropped mark, which an exchange in progress then no longer clears; dropped without a mark when the sender is not
attached. -/
def Obligations.NoticeDelivered : Prop :=
  ∀ (s : State) (n : Notice),
    (s.attached n.sender = false → s.deliver n = s) ∧
    (s.attached n.sender = true → nonWithdraw (s.port n.sender).queue ≤ 7 →
      s.deliver n = s.updPort n.sender fun p => { p with queue := p.queue ++ [.completed n.slot n.outcome n.payload] }) ∧
    (s.attached n.sender = true → 8 ≤ nonWithdraw (s.port n.sender).queue →
      s.deliver n = { s with ports := (s.deliver n).ports } ∧ s.samePortsBut (s.deliver n) n.sender ∧
      ∃ cs, (s.deliver n).port n.sender = { s.port n.sender with noticeDropped := true, cs := cs } ∧
        ((∀ x, (s.port n.sender).cs ≠ .live x) → cs = (s.port n.sender).cs) ∧
        ∀ x, (s.port n.sender).cs = .live x → cs = .live { x with shownNotice := false })

/-- The end of a round (R54, R55): due when an ANY copy waits, a host of its route list is attached and every attached host of it is declined. A first or
second round end raises the rounds and empties the declined set; the third makes an UNWANTED entry and completes the record DROPPED. -/
def Obligations.RoundEndTaken : Prop :=
  ∀ (s : State) (n : SlotNo) (r : Record), s.record n = some r →
    (s.roundOver r = true ↔ r.mode = .any ∧ (∃ c ∈ r.copies, c.state = .waiting) ∧ (∃ h ∈ r.route, s.attached h = true) ∧
      ∀ h ∈ r.route, s.attached h = true → r.declined.get h = true) ∧
    (s.roundOver r = false → s.roundEnd n = (s, none)) ∧
    (s.roundOver r = true → r.rounds ≤ 1 →
      s.roundEnd n = (s.setRecord n (some { r with rounds := r.rounds + 1, declined := HostSet.empty }), none)) ∧
    (s.roundOver r = true → 2 ≤ r.rounds →
      s.roundEnd n = (((s.makeLoss .unwanted n r none).complete n r .dropped).state,
        ((s.makeLoss .unwanted n r none).complete n r .dropped).notice))

/-- Steps 1 to 8 of a teardown (R86, R98, R135, R136, R137): the host's state and wake timer, its offer slot, claim timer and stack, its leases, its places in
unread sets, its missed-loss count, queue and marks go; every kept field of its session, every other host's session and offer slot, the line table, the
detectors and the Retention Cells stay.

Steps 2 to 5, in the order of R98, with the counts of R138: the offer, the stack entries oldest first, the EACH copies the host was owed when the teardown
began (log entry 19), then the round ends in arrival-list order (their outcome DROPPED: log entry 27). An offered ANY copy waits without host, the host
declined (R86). An ANY copy in service is reclaimed the same way, with its record OPEN and its backlog merged on an edge sense, held at 255 with the mark
and its one SATURATED entry (R13, R99). An EACH copy is given up with an ABANDONED entry of the host and removed, the last one completing the record DONE
with its notice (R100 to R102).

A loss (R133, R137, R138) adds the was-lost mark, EVICTED with the counts of the teardown alone in the queue, and the recomputation. -/
def Obligations.TeardownAndLoss : Prop :=
  (
    ∀ (s : State) (h : HostId) (final : HostState), final = .absent ∨ final = .lost →
      let t := (s.teardown h final).state
      t.session h = { s.session h with state := final, wakeTimer := none } ∧
      t.disp h = { offer := none, claimTimer := none, stack := [] } ∧
      (∀ k, k ≠ h → t.session k = s.session k ∧ t.disp k = s.disp k) ∧
      (∀ g, t.holder g = if s.holder g = some h then none else s.holder g) ∧
      (∀ e ∈ t.loss, e.unread.get h = false ∧ HostSet.isEmpty e.unread = false) ∧ t.missed.get h = 0 ∧
      (t.port h).queue = [] ∧ (t.port h).partMark = false ∧ (t.port h).overrun = false ∧ (t.port h).noticeDropped = false ∧
      (∀ x, (s.port h).cs = .live x → ∃ y, (t.port h).cs = .live y ∧ y.frame = x.frame ∧ y.carried = false) ∧
      t.table = s.table ∧ t.lines = s.lines ∧ t.epoch = s.epoch ∧ t.causes = s.causes ∧ t.now = s.now ∧ t.inReset = s.inReset ∧
      (s.teardown h final).leases = s.leases.toList.countP fun v => v = some h) ∧
  (
    ∀ (s : State) (h : HostId) (final : HostState),
      let b := s.updSession h fun e => { e with state := final, wakeTimer := none }
      let w2 := TeardownWork.endOffer ⟨b, 0, 0⟩ h
      let w3 := (s.disp h).stack.foldl (TeardownWork.popEntry h)
        { w2 with state := w2.state.updDisp h fun d => { d with stack := [], claimTimer := none } }
      let w4 := (s.owedTo h).foldl (TeardownWork.dropOwed h) w3
      let u := w4.state.arrivals.foldl (fun v n => (v.roundEnd n).1.deliver? (v.roundEnd n).2) w4.state
      (s.owedTo h).Sublist s.arrivals ∧
      (∀ n, n ∈ s.owedTo h ↔ n ∈ s.arrivals ∧
        ∃ r, s.record n = some r ∧ r.mode = .each ∧ ∃ c ∈ r.copies, c.host = some h ∧ c.state = .waiting) ∧
      (∀ n, (s.teardown h final).state.record n = u.record n ∧ (s.teardown h final).state.serial n = u.serial n) ∧
      (s.teardown h final).state.arrivals = u.arrivals ∧
      (s.teardown h final).state.loss =
        (u.loss.map fun e => { e with unread := e.unread.set h false }).filter (fun e => !HostSet.isEmpty e.unread) ∧
      (∀ k, k ≠ h → (s.teardown h final).state.missed.get k = u.missed.get k ∧ (s.teardown h final).state.port k = u.port k) ∧
      (s.teardown h final).returned = w4.returned ∧ (s.teardown h final).abandoned = w4.abandoned) ∧
  (
    ∀ (w : TeardownWork) (h : HostId),
      let s := w.state
      let back (r : Record) : Record :=
        { r with
          copies := r.copies.map fun c => if c.host = some h then ⟨none, .waiting⟩ else c
          declined := r.declined.set h true }
      ((s.disp h).offer = none → w.endOffer h = w) ∧
      (∀ o r, (s.disp h).offer = some o → s.record o.handle.slot = some r →
        let a := s.updDisp h fun d => { d with offer := none, claimTimer := none }
        (r.mode = .any → w.endOffer h = ⟨a.setRecord o.handle.slot (some (back r)), w.returned + 1, w.abandoned⟩) ∧
        (r.mode = .each → w.endOffer h = TeardownWork.abandon ⟨a, w.returned, w.abandoned⟩ h o.handle.slot r)) ∧
      (∀ e r, s.record e.handle.slot = some r → r.mode = .any →
        let n := e.handle.slot
        let becomes (x : Record) : Prop := w.popEntry h e = ⟨s.setRecord n (some x), w.returned + 1, w.abandoned⟩
        let opened : Record := { back r with phase := .opened, backlog := 0 }
        (∀ k, r.source = .host k → becomes opened) ∧
        ∀ l, r.source = .line l →
          ((s.entry l).sense.active ≠ none → becomes opened) ∧
          ((s.entry l).sense.active = none → r.count + r.backlog ≤ 255 → becomes { opened with count := r.count + r.backlog }) ∧
          ((s.entry l).sense.active = none → 255 < r.count + r.backlog →
            let full : Record := { opened with count := 255, saturated := true }
            (r.saturated = true → becomes full) ∧
            (r.saturated = false →
              w.popEntry h e = ⟨(s.setRecord n (some full)).makeLoss .saturated n full none, w.returned + 1, w.abandoned⟩))) ∧
      (∀ e r, s.record e.handle.slot = some r → r.mode = .each → w.popEntry h e = w.abandon h e.handle.slot r) ∧
      (∀ n r, s.record n = some r → w.dropOwed h n = w.abandon h n r) ∧
      ∀ n r, s.record n = some r →
        let v := s.makeLoss .abandoned n r (some h)
        let left := r.copies.filter fun c => c.host ≠ some h
        let c : Completion := if left = [] then v.complete n r .done else ⟨v.setRecord n (some { r with copies := left }), none, .remaining, r.backlog⟩
        (∀ m, c.notice = some m → w.abandon h n r = ⟨c.state.deliver m, w.returned, w.abandoned + 1⟩) ∧
        (c.notice = none → w.abandon h n r = ⟨c.state, w.returned, w.abandoned + 1⟩)) ∧
  (
    ∀ (s : State) (h : HostId) (cause : EvictCause),
      let d := s.teardown h .lost
      ∃ u, s.lose h cause = u.recompute ∧ u = { d.state with sessions := u.sessions, ports := u.ports } ∧ d.state.sameHostsBut u h ∧
        u.session h = { s.session h with state := .lost, wakeTimer := none, wasLost := true } ∧
        u.port h = { d.state.port h with
          queue := [.evicted cause (s.session h).missCount d.returned d.abandoned d.leases] })

/-! ### Exchanges -/

/-- EXCHANGE_START (R172, R181, R187): a running hub forms the frame from the port's state at that moment; during a reset the period shifts out NOT_READY;
CS that is low does not fall (log entry 6). -/
def Obligations.ExchangeStartFormsFrame : Prop :=
  (∀ (p : HostId) (s : State), s.running → (s.port p).cs = .idle →
    ∃ t x, exec (.exchangeStart p) s = .next t ∧ t = { s with ports := t.ports, freeIdx := s.freeIdx + 1 } ∧ s.samePortsBut t p ∧
      t.port p = { s.port p with cs := .live x } ∧ x.bytes = 0 ∧ x.carried = !(s.port p).queue.isEmpty ∧
      x.shownOverrun = (s.port p).overrun ∧ x.shownNotice = (s.port p).noticeDropped ∧ x.frame.length = 12 ∧
      x.frame[1]? = some (s.statusByte p) ∧ x.frame[2]? = some (s.epoch.extractLsb' 0 8) ∧
      x.frame[3]? = some (s.epoch.extractLsb' 8 8)) ∧
  (∀ (p : HostId) (s : State), ¬s.running → (s.port p).cs = .idle →
    ∃ t, exec (.exchangeStart p) s = .next t ∧ t = { s with ports := t.ports } ∧ s.samePortsBut t p ∧
      t.port p = { s.port p with cs := .notReady } ∧
      (∀ i, t.misoByte p i = some (if i = 0 then 0x0F else 0))) ∧
  ∀ (p : HostId) (s : State), (s.port p).cs ≠ .idle → exec (.exchangeStart p) s = .next s

/-- The content of a hub frame (R180 to R185), by the tables that Safety.lean gives apart from the model's own: kind and part bits, the status byte with the
host state and the queue depth after this frame, and the body of each message, with the data bytes of every REPLY and, for the REPLY of a FETCH_LOSS
that returns an entry, its second part. The bits that no rule lists are not stated (log entries 10, 11 and 28). -/
def Obligations.FrameContent : Prop :=
  (∀ (s : State) (h : HostId),
    (s.statusByte h).getLsbD 7 = (s.port h).overrun ∧ (s.statusByte h).getLsbD 6 = (s.port h).noticeDropped ∧
    ((s.statusByte h).getLsbD 5 = true ↔ ∃ e ∈ s.loss, e.unread.get h = true) ∧
    (s.statusByte h).toNat / 4 % 8 = wireHostState (s.session h).state ∧
    ((s.port h).queue = [] → (s.statusByte h).toNat % 4 = 0) ∧
    ∀ m rest, (s.port h).queue = m :: rest → (s.statusByte h).toNat % 4 =
      min 3 (if m.twoPart = true ∧ (s.port h).partMark = false then rest.length + 1 else rest.length)) ∧
  (∀ m : Msg, m.twoPart = true ↔ ∃ seq result cause slot source band payload host missed remaining,
    m = .reply seq result (.lossEntry cause slot source band payload host missed remaining)) ∧
  ∀ (p : HostId) (s t : State) (x : Exchange), s.running → (s.port p).cs = .idle → exec (.exchangeStart p) s = .next t →
    (t.port p).cs = .live x →
    let head := x.frame.getD 0 0
    let body := x.frame.drop 4
    ((s.port p).queue = [] → head &&& 0xCF = 0 ∧ body = [0, 0, 0, 0, 0, 0, 0, 0]) ∧
    ∀ m rest, (s.port p).queue = m :: rest →
      match m with
      | .reply seq result data =>
        head &&& 0x0F = 1 ∧ (head.getLsbD 6 = true ↔ m.twoPart = true ∧ (s.port p).partMark = true) ∧
          (head.getLsbD 7 = true ↔ m.twoPart = true ∧ (s.port p).partMark = false) ∧
          body.length = 8 ∧ body[0]? = some seq ∧ body[1]? = some (wireResult result) ∧
          (m.twoPart = false ∨ (s.port p).partMark = false → dataShown (body.drop 2) (replyFields data)) ∧
          ∀ cause slot source band payload host missed remaining,
            data = .lossEntry cause slot source band payload host missed remaining → (s.port p).partMark = true →
            body.drop 2 = [payload.extractLsb' 0 8, payload.extractLsb' 8 8, payload.extractLsb' 16 8, payload.extractLsb' 24 8, 0, 0]
      | .offer hd source band mode sat count payload =>
        head &&& 0xCF = 2 ∧ body[0]? = some (BitVec.ofNat 8 hd.slot.val) ∧ body[1]? = some hd.serial ∧
          body[2]? = some (BitVec.ofNat 8 (wireSource source)) ∧
          (∀ f ∈ [(⟨2, 0, band⟩ : BitField), ⟨3, 3, wireMode mode⟩, bitFlag 4 sat], f.shownIn (body.getD 3 0)) ∧
          body.drop 4 = match source with
            | .line _ => [BitVec.ofNat 8 count, 0, 0, 0]
            | .host _ => [payload.extractLsb' 0 8, payload.extractLsb' 8 8, payload.extractLsb' 16 8, payload.extractLsb' 24 8]
      | .withdraw hd reason =>
        head &&& 0xCF = 3 ∧ body = [BitVec.ofNat 8 hd.slot.val, hd.serial, wireReason reason, 0, 0, 0, 0, 0]
      | .completed slot outcome payload =>
        head &&& 0xCF = 4 ∧ body = [1, BitVec.ofNat 8 slot.val, wireOutcome outcome, payload.extractLsb' 0 8,
          payload.extractLsb' 8 8, payload.extractLsb' 16 8, payload.extractLsb' 24 8, 0]
      | .evicted cause misses returned abandoned leases =>
        head &&& 0xCF = 4 ∧ body = [2, wireEvictCause cause, BitVec.ofNat 8 misses, BitVec.ofNat 8 returned,
          BitVec.ofNat 8 abandoned, BitVec.ofNat 8 leases, 0, 0]

/-- SHORT_EXCHANGE (R174) and EXCHANGE_DISCARDED (R187): CS is high and nothing else of the port, its queue, part mark or marks, or of any block
changes. -/
def Obligations.DiscardedExchangesChangeNothing : Prop :=
  (∀ (p : HostId) (k : Fin 12) (s : State), s.canExchange p →
    ∃ t, exec (.shortExchange p k) s = .next t ∧ t = { s with ports := t.ports } ∧ s.samePortsBut t p ∧
      t.port p = { s.port p with cs := .idle }) ∧
  ∀ (p : HostId) (s : State), (s.port p).cs = .cutOff ∨ (s.port p).cs = .notReady →
    ∃ t, exec (.exchangeDiscarded p) s = .next t ∧ t = { s with ports := t.ports } ∧ s.samePortsBut t p ∧
      t.port p = { s.port p with cs := .idle }

/-- NOP and UNKNOWN_COMMAND (R175): a NOP's exchange completes with no REPLY, from any host and with any queue, and leaves every session as it was; a code
outside the table is answered BAD_ARG after an attached host is made AWAKE, and NOT_ATTACHED otherwise. -/
def Obligations.NopAndUnknownCommand : Prop :=
  (∀ (p : HostId) (q : Byte) (s : State), s.canExchange p →
    exec (.nop p q) s = .next ((s.judged p).finishExchange p) ∧ ((s.judged p).finishExchange p).sessions = s.sessions) ∧
  (∀ (p : HostId) (q code : Byte) (s : State), s.takes p → s.attached p = true →
    exec (.unknownCommand p q code) s = .next (s.ended p false ((s.heard p).reply p q .badArg .empty))) ∧
  ∀ (p : HostId) (q code : Byte) (s : State), s.takes p → s.attached p = false →
    exec (.unknownCommand p q code) s = .next (((s.judged p).reply p q .notAttached .empty).finishExchange p)

/-! ### Sessions -/

/-- ATTACH (R124, R125): STATE from an attached host, BAD_ARG for a depth above 4; otherwise the session is opened, its REPLY placed, the round ends it makes
hold taken, and the Router recomputes. -/
def Obligations.AttachOpensSession : Prop :=
  ∀ (p : HostId) (q depth : Byte) (s : State), s.takes p →
    let j := s.judged p
    (s.attached p = true →
      exec (.attach p q depth) s = .next ((j.reply p q .badState (.hostStateIs (s.session p).state)).finishExchange p)) ∧
    (s.attached p = false → 4 < depth.toNat → exec (.attach p q depth) s = .next ((j.reply p q .badArg .empty).finishExchange p)) ∧
    (s.attached p = false → depth.toNat ≤ 4 →
      ∃ u, exec (.attach p q depth) s = .next (u.roundEnds.recompute.finishExchange p) ∧
        let d := if depth.toNat = 0 then 2 else depth.toNat
        u = { j with sessions := u.sessions, ports := u.ports } ∧ j.samePortsBut u p ∧
        (∀ h, h ≠ p → u.session h = s.session h) ∧
        u.session p =
          { s.session p with state := .awake, depth := d, floor := 0, missCount := 0, wasLost := false, wakeTimer := none } ∧
        u.port p = { j.port p with queue := (s.port p).queue ++
          [.reply q .ok (.attachOk s.epoch (s.causes.get p) d (s.session p).wasLost (s.session p).quota)] })

/-- DETACH (R127, R134, R135): the teardown with the state ABSENT, the REPLY alone in the emptied queue, then the recomputation; the REPLY stays queued for
the next exchange (R186). -/
def Obligations.DetachClosesSession : Prop :=
  ∀ (p : HostId) (q : Byte) (s : State), s.takes p → s.attached p = true →
    ∃ u, exec (.detach p q) s = .next (u.recompute.finishExchange p) ∧
      let t := ((s.heard p).teardown p .absent).state
      u = { t with ports := u.ports } ∧ t.samePortsBut u p ∧ u.port p = { t.port p with queue := [.reply q .ok .empty] } ∧
      (u.recompute.finishExchange p).session p = { s.session p with state := .absent, wakeTimer := none } ∧
      ((u.recompute.finishExchange p).port p).queue = [.reply q .ok .empty]

/-- SLEEP (R128, R129): the table of R128 from each state, with BAD_ARG for an argument other than 1 and 2. That SLEEP(DEEP) from WAKING, sent again too, stops the
wake timer and judges the trigger afresh, is R128's; the model follows it where R188 has nothing further changed (log entry 30). -/
def Obligations.SleepByState : Prop :=
  ∀ (p : HostId) (q depth : Byte) (s : State), s.takes p → s.attached p = true →
    let j := s.judged p
    let st := (s.session p).state
    (depth ≠ 1 → depth ≠ 2 → exec (.sleep p q depth) s = .next ((j.reply p q .badArg .empty).finishExchange p)) ∧
    (depth = 1 → st = .doze → exec (.sleep p q depth) s = .next ((j.reply p q .ok (.hostStateIs .doze)).finishExchange p)) ∧
    (depth = 1 → st ≠ .doze →
      let u := j.updSession p fun e => { e with state := .doze, wakeTimer := none }
      exec (.sleep p q depth) s = .next ((u.reply p q .ok (.hostStateIs .doze)).recompute.finishExchange p)) ∧
    (depth = 2 → st = .deep → exec (.sleep p q depth) s = .next ((j.reply p q .ok (.hostStateIs .deep)).finishExchange p)) ∧
    (depth = 2 → st ≠ .deep →
      let u := ((j.withdraw p .sleep).updSession p fun e => { e with state := .deep, wakeTimer := none }).recompute
      exec (.sleep p q depth) s = .next ((u.reply p q .ok (.hostStateIs (u.session p).state)).finishExchange p) ∧
        ((u.session p).state = .deep ∨ (u.session p).state = .waking))

/-- SET_HOST (R139): each of the six parameters with its range, in the caller's own entry; BAD_ARG outside them. -/
def Obligations.SetHostSetsParameter : Prop :=
  ∀ (p : HostId) (q param : Byte) (value : BitVec 16) (s : State), s.takes p → s.attached p = true →
    let v := value.toNat
    let w := s.heard p
    let sets (f : Session → Session) : Prop := exec (.setHost p q param value) s =
      .next (s.ended p false ((w.updSession p f).reply p q .ok (.parameterSet param value)))
    (param = 0 → 16 ≤ v → sets fun e => { e with claimWindow := v }) ∧
    (param = 1 → sets fun e => { e with dozeAllowance := v }) ∧
    (param = 2 → 50 ≤ v → sets fun e => { e with wakeTimeout := v }) ∧
    (param = 3 → 1 ≤ v → v ≤ 15 → sets fun e => { e with missLimit := v }) ∧
    (param = 4 → 1 ≤ v → v ≤ 8 → sets fun e => { e with wakeBand := v }) ∧
    (param = 5 → 1 ≤ v → v ≤ 32 → sets fun e => { e with batchThreshold := v }) ∧
    ((5 < param.toNat ∨ param = 0 ∧ v < 16 ∨ param = 2 ∧ v < 50 ∨ param = 3 ∧ (v = 0 ∨ 15 < v) ∨ param = 4 ∧ (v = 0 ∨ 8 < v) ∨
        param = 5 ∧ (v = 0 ∨ 32 < v)) →
      exec (.setHost p q param value) s = .next (s.ended p false (w.reply p q .badArg .empty)))

/-- SET_FLOOR (R61, R81): BAD_ARG above 7; otherwise the floor is set, an offer of band at or below it is withdrawn FLOOR before the REPLY, an offer above it
stands, and the Router recomputes. -/
def Obligations.SetFloorWithdrawsOffer : Prop :=
  ∀ (p : HostId) (q floor : Byte) (s : State), s.takes p → s.attached p = true →
    let w := s.heard p
    let u := w.updSession p fun e => { e with floor := floor.toNat }
    (7 < floor.toNat → exec (.setFloor p q floor) s = .next (s.ended p false (w.reply p q .badArg .empty))) ∧
    (floor.toNat ≤ 7 → (∀ o, (s.disp p).offer = some o → floor.toNat < o.band) →
      exec (.setFloor p q floor) s = .next (s.ended p true (u.reply p q .ok (.floorSet floor)))) ∧
    ∀ o, floor.toNat ≤ 7 → (s.disp p).offer = some o → o.band ≤ floor.toNat →
      exec (.setFloor p q floor) s = .next (s.ended p true ((u.withdraw p .floor).reply p q .ok (.floorSet floor)))

/-- SET_QUOTA (R111): BAD_ARG above 48, NO_ROOM when the four quotas would sum to more than 48, otherwise the caller's quota is set; each REPLY carries the
quota and the unallotted room after the command. -/
def Obligations.SetQuotaWithinPool : Prop :=
  ∀ (p : HostId) (q quota : Byte) (s : State), s.takes p → s.attached p = true →
    let w := s.heard p
    let u := w.updSession p fun e => { e with quota := quota.toNat }
    let sum := s.quotaSum - (s.session p).quota + quota.toNat
    (48 < quota.toNat →
      exec (.setQuota p q quota) s =
        .next (s.ended p false (w.reply p q .badArg (.quotaSet (s.session p).quota (48 - s.quotaSum))))) ∧
    (quota.toNat ≤ 48 → 48 < sum →
      exec (.setQuota p q quota) s =
        .next (s.ended p false (w.reply p q .noRoom (.quotaSet (s.session p).quota (48 - s.quotaSum))))) ∧
    (quota.toNat ≤ 48 → sum ≤ 48 →
      exec (.setQuota p q quota) s =
        .next (s.ended p false (u.reply p q .ok (.quotaSet quota.toNat (48 - sum)))))

/-- QUERY_HOST, QUERY_EVENT and QUERY_LINE (R22, R23, R42, R141, R185): BAD_ARG for a number or view outside its values, otherwise OK with the view of the state in
which the command takes effect; nothing but the REPLY, and the caller's return to AWAKE, results. An unattached caller of QUERY_HOST is answered too. The
COPIES view shows at each route-list position the copy of that host, and whether the host is the candidate or the wake target of a copy. -/
def Obligations.QueriesOnlyReply : Prop :=
  (∀ (p : HostId) (q host view : Byte) (s : State), s.takes p →
    let w := s.heard p
    let answers (u : State) : Prop := exec (.queryHost p q host view) s = .next (s.ended p false u)
    ((3 < host.toNat ∨ 2 < view.toNat) → answers (w.reply p q .badArg .empty)) ∧
    ∀ h : HostId, host.toNat = h.toNat →
      let e := w.session h
      (view = 0 → answers (w.reply p q .ok
        (.hostStateView e.state e.wasLost e.depth e.floor (s.level h) (s.disp h).stack.length (w.batchTally h)))) ∧
      (view = 1 → answers (w.reply p q .ok
        (.hostCounts e.missCount e.missLimit e.wakeBand e.batchThreshold e.quota (s.postedUse h)))) ∧
      (view = 2 → answers (w.reply p q .ok (.hostTimes e.claimWindow e.dozeAllowance e.wakeTimeout)))) ∧
  (∀ (p : HostId) (q slot view : Byte) (s : State), s.takes p → s.attached p = true →
    let w := s.heard p
    let answers (u : State) : Prop := exec (.queryEvent p q slot view) s = .next (s.ended p false u)
    ((95 < slot.toNat ∨ 2 < view.toNat) → answers (w.reply p q .badArg .empty)) ∧
    ∀ n : SlotNo, slot.toNat = n.val →
      (view = 0 → (s.record n = none →
          answers (w.reply p q .ok (.eventRecord .free (decide (48 ≤ n.val)) .any false false none 0 0 (s.serial n)))) ∧
        ∀ r, s.record n = some r →
          answers (w.reply p q .ok (.eventRecord (s.phase n) (decide (48 ≤ n.val)) r.mode r.saturated r.notify (some r.source) r.band
            (s.arrivals.idxOf n) (s.serial n)))) ∧
      (view = 1 → (s.record n = none → answers (w.reply p q .ok (.eventCopies .free .any false [] HostSet.empty 0 []))) ∧
        ∀ r, s.record n = some r → ∃ anyWaiting positions,
          answers (w.reply p q .ok (.eventCopies (s.phase n) r.mode anyWaiting r.route r.declined r.rounds positions)) ∧
          (anyWaiting = true ↔ r.mode = .any ∧ ∃ c ∈ r.copies, c.state = .waiting) ∧ positions.length = r.route.length ∧
          ∀ (i : Nat) h, r.route[i]? = some h → ∃ v : PositionView, positions[i]? = some v ∧
            (v.candidate = true ↔ ∃ c ∈ r.copies, w.candidate r c = some h) ∧
            (v.wakeTarget = true ↔ ∃ c ∈ r.copies, w.wakeTarget r c = some h) ∧
            ((∀ c ∈ r.copies, c.host ≠ some h) → v.state = 0) ∧
            ∀ before c after, r.copies = before ++ c :: after → c.host = some h → (∀ d ∈ before, d.host ≠ some h) →
              v.state = match c.state with
                | .waiting => 1
                | .offered _ => 2
                | .inService _ => 3) ∧
      (view = 2 → (s.record n = none →
          answers (w.reply p q .ok (if n.val < 48 then .eventLine .free 0 0 else .eventPosted .free 0))) ∧
        ∀ r, s.record n = some r →
          answers (w.reply p q .ok (if n.val < 48 then .eventLine (s.phase n) r.count r.backlog else .eventPosted (s.phase n) r.payload)))) ∧
  ∀ (p : HostId) (q line : Byte) (s : State), s.takes p → s.attached p = true →
    let w := s.heard p
    (47 < line.toNat → exec (.queryLine p q line) s = .next (s.ended p false (w.reply p q .badArg .empty))) ∧
    ∀ l : LineNo, line.toNat = l.val →
      exec (.queryLine p q line) s = .next (s.ended p false (w.reply p q .ok
        (.lineView (s.entry l) (s.line l).raw (s.line l).detector.accepted (s.line l).detector.isQualifying (s.phase (slotOfLine l))
          (match s.record (slotOfLine l) with
            | some r => r.count
            | none => 0)
          (match s.record (slotOfLine l) with
            | some r => r.backlog
            | none => 0))))

/-! ### Offers and service -/

/-- CLAIM of the outstanding offer (R12, R70, R89): the copy becomes IN_SERVICE on top of the stack, the slot EMPTY and the timer stopped, the miss count 0, the
record CAPTURED with its count as it stands, an ANY record's declined set empty, and the REPLY carries the count and mark, or the payload; then the
Router recomputes. A queued, uncarried OFFER of the handle is deleted (R69). -/
def Obligations.ClaimTakesOffer : Prop :=
  ∀ (p : HostId) (q : Byte) (o : Offer) (r : Record) (s : State), s.takes p → s.attached p = true → (s.disp p).offer = some o →
    s.record o.handle.slot = some r →
    ∃ u, exec (.claim p q (BitVec.ofNat 8 o.handle.slot.val) o.handle.serial) s = .next (s.ended p true u) ∧
      let w := s.heard p
      let n := o.handle.slot
      u = { w with slots := u.slots, dispatch := u.dispatch, sessions := u.sessions, ports := u.ports } ∧ w.sameHostsBut u p ∧
      w.sameSlotsBut u n ∧ u.serial n = s.serial n ∧
      u.disp p = { offer := none, claimTimer := none, stack := (s.disp p).stack ++ [⟨o.handle, o.band⟩] } ∧
      u.session p = { w.session p with missCount := 0 } ∧
      u.record n = some
        { r with
          phase := .captured
          declined := if r.mode = .any then HostSet.empty else r.declined
          copies := r.copies.map fun c =>
            if c.host = some p ∧ c.state = .offered o.handle then ⟨some p, .inService o.handle⟩ else c } ∧
      u.port p = { w.port p with queue := ((w.port p).queueWithoutOffer o.handle).getD (w.port p).queue ++
        [.reply q .ok (match r.source with
          | .line _ => .claimLine o.handle r.count r.saturated
          | .host _ => .claimPosted o.handle r.payload)] }

/-- A CLAIM or DECLINE that does not match the offer slot is answered STALE (R7, R69), a DONE of a handle on no entry STALE and of an entry other than the newest
ORDER (R91), each with no other effect. -/
def Obligations.StaleAndOutOfOrderRefused : Prop :=
  (
    ∀ (p : HostId) (q slot serial : Byte) (s : State), s.takes p → s.attached p = true →
      (∀ o, (s.disp p).offer = some o → ¬(slot.toNat = o.handle.slot.val ∧ serial = o.handle.serial)) →
      exec (.claim p q slot serial) s = .next (s.ended p false ((s.heard p).reply p q .stale (.handleNamed slot serial))) ∧
      exec (.decline p q slot serial) s = .next (s.ended p false ((s.heard p).reply p q .stale (.handleNamed slot serial)))) ∧
  (
    ∀ (p : HostId) (q slot serial : Byte) (s : State), s.takes p → s.attached p = true →
      ((∀ e ∈ (s.disp p).stack, ¬(slot.toNat = e.handle.slot.val ∧ serial = e.handle.serial)) →
        exec (.done p q slot serial) s = .next (s.ended p false ((s.heard p).reply p q .stale (.handleNamed slot serial)))) ∧
      ∀ es e, (s.disp p).stack = es ++ [e] → ¬(slot.toNat = e.handle.slot.val ∧ serial = e.handle.serial) →
        (∃ d ∈ es, slot.toNat = d.handle.slot.val ∧ serial = d.handle.serial) →
        exec (.done p q slot serial) s = .next (s.ended p false ((s.heard p).reply p q .order (.handleNamed slot serial))))

/-- DECLINE of the outstanding offer (R72, R120): the slot is EMPTY, the timer stopped and the miss count 0; an ANY copy waits with the caller declined, with the
round end that may be due; an EACH copy is removed, completing the record when it was the last; the REPLY, then any COMPLETED notice; then the
Router recomputes. -/
def Obligations.DeclineHandsBack : Prop :=
  ∀ (p : HostId) (q : Byte) (o : Offer) (r : Record) (s : State), s.takes p → s.attached p = true → (s.disp p).offer = some o →
    s.record o.handle.slot = some r →
    ∃ u, let w := s.heard p
      let n := o.handle.slot
      let no := BitVec.ofNat 8 n.val
      u = { w with dispatch := u.dispatch, sessions := u.sessions, ports := u.ports } ∧ w.sameHostsBut u p ∧
      u.disp p = { s.disp p with offer := none, claimTimer := none } ∧ u.session p = { w.session p with missCount := 0 } ∧
      u.port p = { w.port p with queue := ((w.port p).queueWithoutOffer o.handle).getD (w.port p).queue } ∧
      (r.mode = .any →
        let v := u.setRecord n (some
          { r with
            declined := r.declined.set p true
            copies := r.copies.map fun c => if c.host = some p ∧ c.state = .offered o.handle then ⟨none, .waiting⟩ else c })
        exec (.decline p q no o.handle.serial) s =
          .next (s.ended p true (((v.roundEnd n).1.reply p q .ok (.handleNamed no o.handle.serial)).deliver? (v.roundEnd n).2))) ∧
      (r.mode = .each →
        let left := r.copies.filter fun c => c.host ≠ some p
        let c : Completion :=
          if left = [] then u.complete n r .done else ⟨u.setRecord n (some { r with copies := left }), none, .remaining, r.backlog⟩
        exec (.decline p q no o.handle.serial) s =
          .next (s.ended p true ((c.state.reply p q .ok (.handleNamed no o.handle.serial)).deliver? c.notice)))

/-- DONE of the newest entry (R92, R93, R94): the entry is popped and the copy removed, the record completing when it was the last; the REPLY says REMAINING,
FREED or REOPENED with its number; then any COMPLETED notice, and the recomputation. -/
def Obligations.DoneFinishesNewest : Prop :=
  ∀ (p : HostId) (q : Byte) (es : List StackEntry) (e : StackEntry) (r : Record) (s : State), s.takes p → s.attached p = true →
    (s.disp p).stack = es ++ [e] → s.record e.handle.slot = some r →
    let u := (s.heard p).updDisp p fun d => { d with stack := es }
    let n := e.handle.slot
    let left := r.copies.filter fun c => c.host ≠ some p
    let c : Completion :=
      if left = [] then u.complete n r .done else ⟨u.setRecord n (some { r with copies := left }), none, .remaining, r.backlog⟩
    exec (.done p q (BitVec.ofNat 8 n.val) e.handle.serial) s =
      .next (s.ended p true ((c.state.reply p q .ok (.doneOk e.handle c.result c.number)).deliver? c.notice))

/-! ### Posted events -/

/-- POST (R10, R107, R108, R109): BAD_ARG, then QUOTA, then FULL; otherwise the lowest FREE posted slot opens at the arrival-list tail with the arguments and
the sender as source, and the Router recomputes. -/
def Obligations.PostOpensRecord : Prop :=
  ∀ (p : HostId) (q band mode notify rc rh : Byte) (payload : BitVec 32) (s : State), s.takes p → s.attached p = true →
    let w := s.heard p
    let cmd := Instr.post p q band mode notify rc rh payload
    ((band = 0 ∨ 7 < band.toNat ∨ 1 < mode.toNat ∨ 1 < notify.toNat ∨ parseRoute rc rh = none) →
      exec cmd s = .next (s.ended p false (w.reply p q .badArg .empty))) ∧
    ∀ route, 1 ≤ band.toNat → band.toNat ≤ 7 → mode.toNat ≤ 1 → notify.toNat ≤ 1 → parseRoute rc rh = some route →
      ((s.session p).quota ≤ s.postedUse p →
        exec cmd s = .next (s.ended p false (w.reply p q .quota (.postRefused (s.postedUse p) (s.session p).quota)))) ∧
      (s.postedUse p < (s.session p).quota → (∀ n : SlotNo, 48 ≤ n.val → s.record n ≠ none) →
        exec cmd s = .next (s.ended p false (w.reply p q .full (.postRefused (s.postedUse p) (s.session p).quota)))) ∧
      ∀ n : SlotNo, s.postedUse p < (s.session p).quota → 48 ≤ n.val → s.record n = none →
        (∀ m : SlotNo, 48 ≤ m.val → m.val < n.val → s.record m ≠ none) →
        ∃ u, exec cmd s = .next (s.ended p true u) ∧
          u = { w with slots := u.slots, arrivals := s.arrivals ++ [n], ports := u.ports } ∧ w.samePortsBut u p ∧ w.sameSlotsBut u n ∧
          u.serial n = s.serial n ∧
          u.record n = some
            { source := .host p, band := band.toNat, mode := if mode = 0 then .any else .each, route := route, phase := .opened,
              count := 0, backlog := 0, saturated := false, payload := payload, notify := decide (notify = 1),
              declined := HostSet.empty, rounds := 0,
              copies := if mode = 0 then [⟨none, .waiting⟩] else route.map fun h => ⟨some h, .waiting⟩ } ∧
          u.port p = { w.port p with queue := (w.port p).queue ++ [.reply q .ok (.postOk n (s.postedUse p + 1) (s.session p).quota)] }

/-- The argument encodings of R176 (R25, R107, R147): a route list is the first `count` of the 2-bit fields, in order, when the count is 1 to 4 and no host
repeats, and outside its values otherwise; the fields of a CONFIG_LINE within their values give the entry they spell. A flag byte with a bit above 1 is
outside its values (log entry 12). -/
def Obligations.ArgumentEncodings : Prop :=
  (
    ∀ (count hosts : Byte),
      let fields := [hosts.toNat % 4, hosts.toNat / 4 % 4, hosts.toNat / 16 % 4, hosts.toNat / 64 % 4]
      (∀ route, parseRoute count hosts = some route ↔
        (1 ≤ count.toNat ∧ count.toNat ≤ 4 ∧ (fields.take count.toNat).Nodup) ∧ route.map HostId.toNat = fields.take count.toNat) ∧
      (parseRoute count hosts = none ↔ count = 0 ∨ 4 < count.toNat ∨ ¬(fields.take count.toNat).Nodup)) ∧
  (
    ∀ (flags sense qual band mode rc rh : Byte) (route : List HostId), sense.toNat ≤ 4 → qual.toNat ∈ [0, 1, 2, 4, 8, 16, 32, 64] →
      band.toNat ≤ 7 → mode.toNat ≤ 1 → parseRoute rc rh = some route →
      (4 ≤ flags.toNat → parseLineEntry flags sense qual band mode rc rh = none) ∧
      (flags.toNat ≤ 3 → parseLineEntry flags sense qual band mode rc rh = some
        ({ enabled := flags.getLsbD 0
           sense := match sense.toNat with
             | 0 => .rise
             | 1 => .fall
             | 2 => .both
             | 3 => .high
             | _ => .low
           qualification := qual.toNat, band := band.toNat, mode := if mode = 0 then .any else .each, route := route },
          flags.getLsbD 1)))

/-- RETRACT (R113, R114, R115): BAD_ARG for a slot that is no posted slot in use, NOT_OWNER for another host's record; an OPEN ANY record and an EACH record
without IN_SERVICE copies are freed with their offers withdrawn RETRACTED; a CAPTURED ANY record answers IN_SERVICE; an EACH record with IN_SERVICE
copies keeps those alone and answers PARTIAL. No notice and no loss entry results. -/
def Obligations.RetractTakesBack : Prop :=
  ∀ (p : HostId) (q slot : Byte) (s : State), s.takes p → s.attached p = true →
    let w := s.heard p
    let cmd := Instr.retract p q slot
    ((slot.toNat < 48 ∨ 95 < slot.toNat) → exec cmd s = .next (s.ended p false (w.reply p q .badArg (.retractSlot slot)))) ∧
    ∀ n : SlotNo, slot.toNat = n.val → 48 ≤ n.val →
      (s.record n = none → exec cmd s = .next (s.ended p false (w.reply p q .badArg (.retractSlot slot)))) ∧
      ∀ r, s.record n = some r →
        (r.source ≠ .host p → exec cmd s = .next (s.ended p false (w.reply p q .notOwner (.retractSlot slot)))) ∧
        (r.source = .host p → r.mode = .any → r.phase = .opened →
          exec cmd s = .next (s.ended p true (((w.withdrawAll n .retracted).freeSlot n).reply p q .ok (.retractOk n 1 0)))) ∧
        (∀ h hd, r.source = .host p → r.mode = .any → r.phase = .captured → r.copies = [⟨some h, .inService hd⟩] →
          exec cmd s = .next (s.ended p false (w.reply p q .inService (.retractInService n (some h))))) ∧
        (r.source = .host p → r.mode = .each →
          let left := r.copies.filter fun c => c.inService
          let removed := r.copies.length - left.length
          let u := w.withdrawAll n .retracted
          (left = [] → exec cmd s = .next (s.ended p true ((u.freeSlot n).reply p q .ok (.retractOk n removed 0)))) ∧
          (left ≠ [] → exec cmd s =
            .next (s.ended p true ((u.setRecord n (some { r with copies := left })).reply p q .partialDone
              (.retractOk n removed left.length)))))

/-! ### Lines and leases -/

/-- LEASE and RELEASE (R144, R145): BAD_ARG above 7; a free group is taken; a group of the caller stays; another host's is HELD; a RELEASE by the holder frees
the group, and by another host is answered NO_LEASE with the holder. -/
def Obligations.LeaseAndRelease : Prop :=
  ∀ (p : HostId) (q group : Byte) (s : State), s.takes p → s.attached p = true →
    let w := s.heard p
    (7 < group.toNat →
      exec (.lease p q group) s = .next (s.ended p false (w.reply p q .badArg .empty)) ∧
      exec (.release p q group) s = .next (s.ended p false (w.reply p q .badArg .empty))) ∧
    ∀ g : GroupNo, group.toNat = g.val →
      (s.holder g = none →
        exec (.lease p q group) s =
          .next (s.ended p false ({ w with leases := w.leases.set g (some p) }.reply p q .ok (.leaseHolder g (some p)))) ∧
        exec (.release p q group) s = .next (s.ended p false (w.reply p q .noLease (.leaseHolder g none)))) ∧
      (s.holder g = some p →
        exec (.lease p q group) s = .next (s.ended p false (w.reply p q .ok (.leaseHolder g (some p)))) ∧
        exec (.release p q group) s =
          .next (s.ended p false ({ w with leases := w.leases.set g none }.reply p q .ok (.leaseHolder g none)))) ∧
      ∀ h, h ≠ p → s.holder g = some h →
        exec (.lease p q group) s = .next (s.ended p false (w.reply p q .held (.leaseHolder g (some h)))) ∧
        exec (.release p q group) s = .next (s.ended p false (w.reply p q .noLease (.leaseHolder g (some h))))

/-- CONFIG_LINE: its refusals in their order (R147), BAD_ARG for the line number, NO_LEASE with the holder, BAD_ARG for a field outside its values; that a flag
byte above 3 is outside them is the model's reading (log entry 12). One that passes (R148 to R154): the entry is replaced whole; the detector is armed when
the line becomes enabled or its sense or qualification changes, with the arrival of an enabled level sense at its active level; with apply-to-open an OPEN
record's offers are withdrawn RECONFIGURED and its copies made afresh, and a CAPTURED record is deferred; the REPLY, then the recomputation. -/
def Obligations.ConfigLineReplacesEntry : Prop :=
  (
    ∀ (p : HostId) (q line flags sense qual band mode rc rh : Byte) (s : State), s.takes p → s.attached p = true →
      let w := s.heard p
      let cmd := Instr.configLine p q line flags sense qual band mode rc rh
      (47 < line.toNat → exec cmd s = .next (s.ended p false (w.reply p q .badArg (.configBadArg line)))) ∧
      ∀ l : LineNo, line.toNat = l.val →
        (s.holder (groupOfLine l) ≠ some p →
          exec cmd s = .next (s.ended p false (w.reply p q .noLease (.configNoLease l (s.holder (groupOfLine l)))))) ∧
        (s.holder (groupOfLine l) = some p →
          (3 < flags.toNat ∨ 4 < sense.toNat ∨ qual.toNat ∉ [0, 1, 2, 4, 8, 16, 32, 64] ∨ 7 < band.toNat ∨ 1 < mode.toNat ∨ parseRoute rc rh = none) →
          exec cmd s = .next (s.ended p false (w.reply p q .badArg (.configBadArg line))))) ∧
  (
    ∀ (p : HostId) (q line flags sense qual band mode rc rh : Byte) (l : LineNo) (new : LineEntry) (apply : Bool) (s : State),
      s.takes p → s.attached p = true → line.toNat = l.val → s.holder (groupOfLine l) = some p →
      parseLineEntry flags sense qual band mode rc rh = some (new, apply) →
      let w := s.heard p
      let n := slotOfLine l
      let old := s.entry l
      let raw := (s.line l).raw
      let armed : Bool := (!old.enabled && new.enabled) || decide (old.sense ≠ new.sense) || decide (old.qualification ≠ new.qualification)
      let arrival : Bool := armed && new.enabled && decide (new.sense.active = some raw)
      let u := { w with table := w.table.set l new }
      let u := if armed then { u with lines := u.lines.set l ⟨raw, .steady raw⟩ } else u
      let u := if arrival then u.arrive l else u
      let cmd := Instr.configLine p q line flags sense qual band mode rc rh
      (apply = false → exec cmd s = .next (s.ended p true (u.reply p q .ok (.configured l armed arrival (u.phase n) 0 0)))) ∧
      (apply = true → u.record n = none →
        exec cmd s = .next (s.ended p true (u.reply p q .ok (.configured l armed arrival .free 0 0)))) ∧
      (∀ r, apply = true → u.record n = some r → r.phase = .captured →
        exec cmd s = .next (s.ended p true (u.reply p q .okDeferred (.configured l armed arrival .captured 0 0)))) ∧
      ∀ r, apply = true → u.record n = some r → r.phase = .opened →
        let v := u.withdrawAll n .reconfigured
        let copies : List Copy := match new.mode with
          | .any => [⟨none, .waiting⟩]
          | .each => new.route.map fun h => ⟨some h, .waiting⟩
        exec cmd s = .next (s.ended p true
          ((v.setRecord n (some { r with
              band := new.band, mode := new.mode, route := new.route, copies := copies, declined := HostSet.empty, rounds := 0 })).reply
            p q .ok (.configured l armed arrival .opened (HostId.all.filter (u.holdsOfferOf n)).length copies.length))))

/-- RAW_CHANGE and QUALIFICATION_TIMER_EXPIRY (R27 to R32): a detector UNPRIMED keeps the raw level alone; STEADY accepts at once with qualification 0 and else
starts the timer; QUALIFYING cancels it on a change back; at the expiry the pending level is accepted (at the expiry tick or later, log entry 4); and an
acceptance is an arrival, with the recomputation, on an enabled line whose sense asks for it. -/
def Obligations.DetectorFollowsPin : Prop :=
  (∀ (l : LineNo) (level : Level) (s : State), s.running → (s.line l).raw ≠ level →
    let becomes (v : LineState) : State := { s with lines := s.lines.set l v }
    ((s.line l).detector = .unprimed → exec (.rawChange l level) s = .next (becomes ⟨level, .unprimed⟩)) ∧
    (∀ a, (s.line l).detector = .steady a → a = level → exec (.rawChange l level) s = .next (becomes ⟨level, .steady a⟩)) ∧
    (∀ a, (s.line l).detector = .steady a → a ≠ level → (s.entry l).qualification ≠ 0 →
      exec (.rawChange l level) s = .next (becomes ⟨level, .qualifying a level (s.now + (s.entry l).qualification)⟩)) ∧
    (∀ a, (s.line l).detector = .steady a → a ≠ level → (s.entry l).qualification = 0 →
      exec (.rawChange l level) s =
        .next (if (s.entry l).enabled && (s.entry l).sense.asksFor level then ((becomes ⟨level, .steady level⟩).arrive l).recompute
          else becomes ⟨level, .steady level⟩)) ∧
    ∀ a pending expiry, (s.line l).detector = .qualifying a pending expiry → a = level →
      exec (.rawChange l level) s = .next (becomes ⟨level, .steady a⟩)) ∧
  (∀ (l : LineNo) (a pending : Level) (expiry : Nat) (s : State), s.running → (s.line l).detector = .qualifying a pending expiry →
    let u := { s with now := max s.now expiry, lines := s.lines.set l ⟨(s.line l).raw, .steady pending⟩ }
    exec (.qualificationTimerExpiry l) s =
      .next (if (s.entry l).enabled && (s.entry l).sense.asksFor pending then (u.arrive l).recompute else u)) ∧
  ∀ (v : Sense) (level : Level), v.asksFor level = true ↔
    v = .both ∨ (level = .high ∧ (v = .rise ∨ v = .high)) ∨ (level = .low ∧ (v = .fall ∨ v = .low))

/-! ### Losses and the Retention Cells -/

/-- FETCH_LOSS (R162): the first entry that holds the caller loses it, and is freed when its unread set is then empty; the REPLY carries the entry, the
caller's missed-loss count as it stood, which becomes 0, and the number of entries that still hold the caller. ACK_NOTICE (R169): BAD_ARG when a bit above
2 is set; otherwise the named causes leave the caller's set, and the REPLY carries what is left and the epoch. -/
def Obligations.FetchLossAndAckNotice : Prop :=
  (
    ∀ (p : HostId) (q : Byte) (s : State), s.takes p → s.attached p = true →
      let w := s.heard p
      ((∀ e ∈ s.loss, e.unread.get p = false) →
        exec (.fetchLoss p q) s =
          .next (s.ended p false ({ w with missed := w.missed.set p 0 }.reply p q .ok (.noLossEntry (s.missed.get p))))) ∧
      ∀ before e after, s.loss = before ++ e :: after → (∀ d ∈ before, d.unread.get p = false) → e.unread.get p = true →
        let read := { e with unread := e.unread.set p false }
        let left := before ++ (if HostSet.isEmpty read.unread then [] else [read]) ++ after
        exec (.fetchLoss p q) s =
          .next (s.ended p false ({ w with missed := w.missed.set p 0, loss := left }.reply p q .ok
            (.lossEntry e.cause e.slot e.source e.band e.payload e.host (s.missed.get p)
              (after.countP fun (d : LossEntry) => d.unread.get p))))) ∧
  (
    ∀ (p : HostId) (q causes : Byte) (s : State), s.takes p → s.attached p = true →
      let w := s.heard p
      let c := s.causes.get p
      let left : CauseSet :=
        ⟨c.powerOn && !causes.getLsbD 0, c.resetLine && !causes.getLsbD 1, c.supplyLow && !causes.getLsbD 2⟩
      (7 < causes.toNat → exec (.ackNotice p q causes) s = .next (s.ended p false (w.reply p q .badArg .empty))) ∧
      (causes.toNat ≤ 7 →
        exec (.ackNotice p q causes) s =
          .next (s.ended p false ({ w with causes := w.causes.set p left }.reply p q .ok (.causesLeft left s.epoch)))))

/-! ### Timers and resets -/

/-- CLAIM_TIMER_EXPIRY (R77, R78) and WAKE_TIMER_EXPIRY (R131, R133), at the expiry tick or later (log entry 4): the TIMEOUT withdrawal with the round end it
makes due, or the restart of the wake timer, and a miss, which loses the host when the count stands at its miss limit. That the withdrawal and the round
end, with its notice, come before the miss and the loss it may bring is the model's reading (log entry 20). -/
def Obligations.TimerExpiriesCountMisses : Prop :=
  (∀ (h : HostId) (o : Offer) (expiry : Nat) (s : State), s.running → (s.disp h).offer = some o → (s.disp h).claimTimer = some expiry →
    let s' := { s with now := max s.now expiry }
    let e := s.session h
    let u := ((s'.withdraw h .timeout).roundEndDelivered o.handle.slot).updSession h fun e => { e with missCount := e.missCount + 1 }
    (e.missCount + 1 < e.missLimit → exec (.claimTimerExpiry h) s = .next u.recompute) ∧
    (e.missLimit ≤ e.missCount + 1 → exec (.claimTimerExpiry h) s = .next (u.lose h .claimTimeout))) ∧
  (∀ (h : HostId) (expiry : Nat) (s : State), s.running → (s.session h).state = .waking → (s.session h).wakeTimer = some expiry →
    let s' := { s with now := max s.now expiry }
    let e := s.session h
    (e.missCount + 1 < e.missLimit → exec (.wakeTimerExpiry h) s =
      .next (s'.updSession h fun e => { e with missCount := e.missCount + 1, wakeTimer := some (max s.now expiry + e.wakeTimeout) })) ∧
    (e.missLimit ≤ e.missCount + 1 → exec (.wakeTimerExpiry h) s =
      .next ((s'.updSession h fun e => { e with missCount := e.missCount + 1 }).lose h .wakeTimeout))) ∧
  ∀ (h : HostId) (s : State), ((s.disp h).claimTimer = none → exec (.claimTimerExpiry h) s = .next s) ∧
    ((s.session h).wakeTimer = none → exec (.wakeTimerExpiry h) s = .next s)

/-- RESET_LINE, SUPPLY_LOW and POWER_ON (R165, R166), on a running hub: the reset begins with the one hold and cause, every queue is emptied and part mark
cleared, every timer stopped, every exchange cut off, and nothing else changes but, for POWER_ON, the contents of the Retention Cells, which are then free
values with an epoch other than 0 (R164, log entries 8 and 9). Within a reset a hold that appears joins the holds and the causes. HOLD_ENDS takes its hold
from the holds while another persists, and the reset stays in progress (R165). That the row changes nothing where it cannot happen (its hold is not in
force, or the hub runs: log entry 6), and that the end of the last hold is the row HUB_RESET_COMPLETION (log entry 7), is the model's choice. -/
def Obligations.ResetBeginsAndHolds : Prop :=
  (
    ∀ (i : Instr) (c : Cause) (s : State), s.running →
      (i = .resetLine ∧ c = .resetLine ∨ i = .supplyLow ∧ c = .supplyLow ∨ i = .powerOn ∧ c = .powerOn) →
      ∃ t, exec i s = .next t ∧
        t = { s with
          lines := t.lines, dispatch := t.dispatch, sessions := t.sessions, ports := t.ports, epoch := t.epoch, causes := t.causes
          inReset := some ⟨CauseSet.empty.insert c, CauseSet.empty.insert c⟩
          freeIdx := t.freeIdx } ∧
        (i ≠ .powerOn → t.epoch = s.epoch ∧ t.causes = s.causes ∧ t.freeIdx = s.freeIdx) ∧ (i = .powerOn → t.epoch ≠ 0) ∧
        (∀ h, (t.port h).queue = [] ∧ (t.port h).partMark = false ∧ (t.port h).overrun = (s.port h).overrun ∧
          (t.port h).noticeDropped = (s.port h).noticeDropped ∧
          (t.port h).cs = (match (s.port h).cs with
            | .live _ => .cutOff
            | cs => cs) ∧
          t.disp h = { s.disp h with claimTimer := none } ∧ t.session h = { s.session h with wakeTimer := none } ∧
          t.attn h = false ∧ t.wakeOut h = false) ∧
        ∀ l, (t.line l).raw = (s.line l).raw ∧ (t.line l).detector =
          (match (s.line l).detector with
            | .qualifying a _ _ => .steady a
            | d => d)) ∧
  (
    (∀ (s : State) (r : ResetProgress), s.inReset = some r →
      exec .resetLine s = .next { s with inReset := some ⟨r.holds.insert .resetLine, r.causes.insert .resetLine⟩ } ∧
      exec .supplyLow s = .next { s with inReset := some ⟨r.holds.insert .supplyLow, r.causes.insert .supplyLow⟩ } ∧
      (∃ t, exec .powerOn s = .next t ∧
        t = { s with
          epoch := t.epoch, causes := t.causes, freeIdx := t.freeIdx
          inReset := some ⟨r.holds.insert .powerOn, r.causes.insert .powerOn⟩ } ∧ t.epoch ≠ 0) ∧
      ∀ c,
        (r.holds.has c = true → (∃ d, d ≠ c ∧ r.holds.has d = true) →
          exec (.holdEnds c) s = .next { s with inReset := some ⟨r.holds.erase c, r.causes⟩ }) ∧
        ((r.holds.has c = false ∨ ∀ d, d ≠ c → r.holds.has d = false) → exec (.holdEnds c) s = .next s)) ∧
    ∀ (s : State) (c : Cause), s.running → exec (.holdEnds c) s = .next s)

/-- HUB_RESET_COMPLETION (R27, R165, R167, R187), when no more than one hold is in force: every block takes its reset values, the raw levels are those of the
first sample, no exchange is in progress on any port, the epoch is 1 after a reset with POWER_ON among its causes and else one more, from 65535 to 1,
every host's cause set becomes {POWER_ON} or gains the causes, and the hub runs. That a period whose CS is low stays one until CS rises is the model's
reading (log entry 21), and that the row ends the last hold in force too (log entry 7). While two holds are in force the reset stays in progress (R165):
that the row then changes nothing is the model's choice (log entry 6). -/
def Obligations.ResetCompletes : Prop :=
  (∀ (pins : BitVec 48) (s : State) (r : ResetProgress) (c d : Cause), s.inReset = some r → r.holds.has c = true → r.holds.has d = true → c ≠ d →
    exec (.hubResetCompletion pins) s = .next s) ∧
  ∀ (pins : BitVec 48) (s : State) (r : ResetProgress), s.inReset = some r →
    (∀ c d, r.holds.has c = true → r.holds.has d = true → c = d) →
    ∃ t, exec (.hubResetCompletion pins) s = .next t ∧ t.running ∧
      (∀ l, t.line l = ⟨if pins.getLsbD l.val then .high else .low, .unprimed⟩ ∧ t.entry l = State.reset.entry l) ∧
      (∀ g, t.holder g = none) ∧ (∀ n, t.record n = none ∧ t.serial n = 0) ∧ t.arrivals = [] ∧ t.loss = [] ∧
      (∀ h, t.disp h = State.reset.disp h ∧ t.session h = State.reset.session h ∧ t.missed.get h = 0 ∧ t.postedUse h = 0 ∧ t.level h = 0 ∧
        (t.port h).queue = [] ∧ (t.port h).partMark = false ∧ (t.port h).overrun = false ∧ (t.port h).noticeDropped = false ∧
        (t.port h).cs = (match (s.port h).cs with
          | .live _ => .cutOff
          | cs => cs) ∧ (∀ x, (t.port h).cs ≠ .live x) ∧ t.attn h = false ∧ t.wakeOut h = false) ∧
      (r.causes.powerOn = true → t.epoch = 1 ∧ ∀ h, t.causes.get h = ⟨true, false, false⟩) ∧
      (r.causes.powerOn = false →
        (s.epoch = 65535 → t.epoch = 1) ∧ (s.epoch ≠ 65535 → t.epoch = s.epoch + 1) ∧
        ∀ h, t.causes.get h = ⟨(s.causes.get h).powerOn, (s.causes.get h).resetLine || r.causes.resetLine,
          (s.causes.get h).supplyLow || r.causes.supplyLow⟩)

end
end

