-- ==== Sys2Proof/Laws/State.lean ====
section
/-! SUPPORT. The small lemmas of the state: one per field per update, and what reading a piece of the state after an update of one piece gives. -/

namespace Sys2Proof

@[simp] theorem PerHost.get_set_self {α : Type} (t : PerHost α) (h : HostId) (v : α) : (t.set h v).get h = v := by cases h <;> rfl

theorem PerHost.get_set_ne {α : Type} (t : PerHost α) {h k : HostId} (v : α) (hk : k ≠ h) : (t.set h v).get k = t.get k := by
  cases h <;> cases k <;> first | rfl | exact absurd rfl hk

theorem PerHost.get_set {α : Type} (t : PerHost α) (h k : HostId) (v : α) :
    (t.set h v).get k = if k = h then v else t.get k := by
  cases h <;> cases k <;> rfl

@[simp] theorem PerHost.get_fill {α : Type} (v : α) (h : HostId) : (PerHost.fill v).get h = v := by cases h <;> rfl

@[simp] theorem PerHost.get_ofFn {α : Type} (f : HostId → α) (h : HostId) : (PerHost.ofFn f).get h = f h := by cases h <;> rfl

theorem PerHost.ext_get {α : Type} {t u : PerHost α} (e : ∀ h, t.get h = u.get h) : t = u := by
  cases t; cases u
  have a := e .h0; have b := e .h1; have c := e .h2; have d := e .h3
  simp only [PerHost.get] at a b c d
  subst a b c d; rfl

@[simp] theorem PerHost.set_get {α : Type} (t : PerHost α) (h : HostId) : t.set h (t.get h) = t := by cases h <;> rfl

@[simp] theorem PerHost.set_set {α : Type} (t : PerHost α) (h : HostId) (v w : α) : (t.set h v).set h w = t.set h w := by
  cases h <;> rfl

theorem HostSet.isEmpty_eq_true {u : HostSet} : HostSet.isEmpty u = true ↔ ∀ h, u.get h = false := by
  obtain ⟨a, b, c, d⟩ := u
  constructor
  · intro e h
    cases a <;> cases b <;> cases c <;> cases d <;> cases h <;> first | rfl | cases e
  · intro e
    have ea := e .h0; have eb := e .h1; have ec := e .h2; have ed := e .h3
    simp only [PerHost.get] at ea eb ec ed
    subst ea eb ec ed; rfl

theorem HostSet.isEmpty_eq_false {u : HostSet} : HostSet.isEmpty u = false ↔ ∃ h, u.get h = true := by
  rw [← Bool.not_eq_true, HostSet.isEmpty_eq_true]
  simp

@[simp] theorem HostSet.get_empty (h : HostId) : HostSet.empty.get h = false := by cases h <;> rfl

/-- Every host is in the list of the four hosts. -/
@[simp] theorem HostId.mem_all (h : HostId) : h ∈ HostId.all := by cases h <;> decide

@[simp] theorem CauseSet.has_empty (c : Cause) : CauseSet.empty.has c = false := by cases c <;> rfl

theorem CauseSet.has_insert (u : CauseSet) (c d : Cause) : (u.insert c).has d = (decide (d = c) || u.has d) := by
  cases c <;> cases d <;> rfl

theorem CauseSet.has_erase (u : CauseSet) (c d : Cause) : (u.erase c).has d = (!decide (d = c) && u.has d) := by
  cases c <;> cases d <;> rfl

theorem CauseSet.eq_empty_iff {u : CauseSet} : u = CauseSet.empty ↔ ∀ c, u.has c = false := by
  obtain ⟨a, b, c⟩ := u
  constructor
  · intro h d; rw [h]; exact CauseSet.has_empty d
  · intro h; simpa [CauseSet.empty] using ⟨h .powerOn, h .resetLine, h .supplyLow⟩

/-- More than one hold is in force just when two different ones are (R165). -/
theorem CauseSet.one_lt_size_iff {u : CauseSet} : 1 < u.size ↔ ∃ c d, c ≠ d ∧ u.has c = true ∧ u.has d = true := by
  obtain ⟨a, b, c⟩ := u
  constructor
  · intro h
    cases a <;> cases b <;> cases c <;>
      first
      | (simp [CauseSet.size] at h; done)
      | exact ⟨.powerOn, .resetLine, by decide⟩
      | exact ⟨.powerOn, .supplyLow, by decide⟩
      | exact ⟨.resetLine, .supplyLow, by decide⟩
  · rintro ⟨c, d, hne, hc, hd⟩
    cases c <;> cases d <;> simp_all [CauseSet.has, CauseSet.size] <;> omega

/-- A hold that ends while another persists leaves one in force (R165). -/
theorem CauseSet.erase_ne_empty {u : CauseSet} (h : 1 < u.size) (c : Cause) : u.erase c ≠ CauseSet.empty := by
  obtain ⟨d, e, hne, hd, he⟩ := CauseSet.one_lt_size_iff.1 h
  intro hempty
  rw [CauseSet.eq_empty_iff] at hempty
  have h1 := hempty d
  have h2 := hempty e
  rw [CauseSet.has_erase] at h1 h2
  simp [hd, he] at h1 h2
  exact hne (h1.trans h2.symm)

namespace Machine

/-! `setRecord` changes `slots` alone. -/

@[simp] theorem State.setRecord_now (s : State) (n : SlotNo) (r : Option Record) : (s.setRecord n r).now = s.now := rfl
@[simp] theorem State.setRecord_lines (s : State) (n : SlotNo) (r : Option Record) : (s.setRecord n r).lines = s.lines := rfl
@[simp] theorem State.setRecord_table (s : State) (n : SlotNo) (r : Option Record) : (s.setRecord n r).table = s.table := rfl
@[simp] theorem State.setRecord_leases (s : State) (n : SlotNo) (r : Option Record) : (s.setRecord n r).leases = s.leases := rfl
@[simp] theorem State.setRecord_arrivals (s : State) (n : SlotNo) (r : Option Record) : (s.setRecord n r).arrivals = s.arrivals := rfl
@[simp] theorem State.setRecord_dispatch (s : State) (n : SlotNo) (r : Option Record) : (s.setRecord n r).dispatch = s.dispatch := rfl
@[simp] theorem State.setRecord_sessions (s : State) (n : SlotNo) (r : Option Record) : (s.setRecord n r).sessions = s.sessions := rfl
@[simp] theorem State.setRecord_ports (s : State) (n : SlotNo) (r : Option Record) : (s.setRecord n r).ports = s.ports := rfl
@[simp] theorem State.setRecord_loss (s : State) (n : SlotNo) (r : Option Record) : (s.setRecord n r).loss = s.loss := rfl
@[simp] theorem State.setRecord_missed (s : State) (n : SlotNo) (r : Option Record) : (s.setRecord n r).missed = s.missed := rfl
@[simp] theorem State.setRecord_epoch (s : State) (n : SlotNo) (r : Option Record) : (s.setRecord n r).epoch = s.epoch := rfl
@[simp] theorem State.setRecord_causes (s : State) (n : SlotNo) (r : Option Record) : (s.setRecord n r).causes = s.causes := rfl
@[simp] theorem State.setRecord_inReset (s : State) (n : SlotNo) (r : Option Record) : (s.setRecord n r).inReset = s.inReset := rfl
@[simp] theorem State.setRecord_freeIdx (s : State) (n : SlotNo) (r : Option Record) : (s.setRecord n r).freeIdx = s.freeIdx := rfl
@[simp] theorem State.setRecord_pending (s : State) (n : SlotNo) (r : Option Record) : (s.setRecord n r).pending = s.pending := rfl

/-! `setSerial` changes `slots` alone. -/

@[simp] theorem State.setSerial_now (s : State) (n : SlotNo) (v : Byte) : (s.setSerial n v).now = s.now := rfl
@[simp] theorem State.setSerial_lines (s : State) (n : SlotNo) (v : Byte) : (s.setSerial n v).lines = s.lines := rfl
@[simp] theorem State.setSerial_table (s : State) (n : SlotNo) (v : Byte) : (s.setSerial n v).table = s.table := rfl
@[simp] theorem State.setSerial_leases (s : State) (n : SlotNo) (v : Byte) : (s.setSerial n v).leases = s.leases := rfl
@[simp] theorem State.setSerial_arrivals (s : State) (n : SlotNo) (v : Byte) : (s.setSerial n v).arrivals = s.arrivals := rfl
@[simp] theorem State.setSerial_dispatch (s : State) (n : SlotNo) (v : Byte) : (s.setSerial n v).dispatch = s.dispatch := rfl
@[simp] theorem State.setSerial_sessions (s : State) (n : SlotNo) (v : Byte) : (s.setSerial n v).sessions = s.sessions := rfl
@[simp] theorem State.setSerial_ports (s : State) (n : SlotNo) (v : Byte) : (s.setSerial n v).ports = s.ports := rfl
@[simp] theorem State.setSerial_loss (s : State) (n : SlotNo) (v : Byte) : (s.setSerial n v).loss = s.loss := rfl
@[simp] theorem State.setSerial_missed (s : State) (n : SlotNo) (v : Byte) : (s.setSerial n v).missed = s.missed := rfl
@[simp] theorem State.setSerial_epoch (s : State) (n : SlotNo) (v : Byte) : (s.setSerial n v).epoch = s.epoch := rfl
@[simp] theorem State.setSerial_causes (s : State) (n : SlotNo) (v : Byte) : (s.setSerial n v).causes = s.causes := rfl
@[simp] theorem State.setSerial_inReset (s : State) (n : SlotNo) (v : Byte) : (s.setSerial n v).inReset = s.inReset := rfl
@[simp] theorem State.setSerial_freeIdx (s : State) (n : SlotNo) (v : Byte) : (s.setSerial n v).freeIdx = s.freeIdx := rfl
@[simp] theorem State.setSerial_pending (s : State) (n : SlotNo) (v : Byte) : (s.setSerial n v).pending = s.pending := rfl

/-! `updRecord` changes `slots` alone. -/

@[simp] theorem State.updRecord_now (s : State) (n : SlotNo) (f : Record → Record) : (s.updRecord n f).now = s.now := rfl
@[simp] theorem State.updRecord_lines (s : State) (n : SlotNo) (f : Record → Record) : (s.updRecord n f).lines = s.lines := rfl
@[simp] theorem State.updRecord_table (s : State) (n : SlotNo) (f : Record → Record) : (s.updRecord n f).table = s.table := rfl
@[simp] theorem State.updRecord_leases (s : State) (n : SlotNo) (f : Record → Record) : (s.updRecord n f).leases = s.leases := rfl
@[simp] theorem State.updRecord_arrivals (s : State) (n : SlotNo) (f : Record → Record) : (s.updRecord n f).arrivals = s.arrivals := rfl
@[simp] theorem State.updRecord_dispatch (s : State) (n : SlotNo) (f : Record → Record) : (s.updRecord n f).dispatch = s.dispatch := rfl
@[simp] theorem State.updRecord_sessions (s : State) (n : SlotNo) (f : Record → Record) : (s.updRecord n f).sessions = s.sessions := rfl
@[simp] theorem State.updRecord_ports (s : State) (n : SlotNo) (f : Record → Record) : (s.updRecord n f).ports = s.ports := rfl
@[simp] theorem State.updRecord_loss (s : State) (n : SlotNo) (f : Record → Record) : (s.updRecord n f).loss = s.loss := rfl
@[simp] theorem State.updRecord_missed (s : State) (n : SlotNo) (f : Record → Record) : (s.updRecord n f).missed = s.missed := rfl
@[simp] theorem State.updRecord_epoch (s : State) (n : SlotNo) (f : Record → Record) : (s.updRecord n f).epoch = s.epoch := rfl
@[simp] theorem State.updRecord_causes (s : State) (n : SlotNo) (f : Record → Record) : (s.updRecord n f).causes = s.causes := rfl
@[simp] theorem State.updRecord_inReset (s : State) (n : SlotNo) (f : Record → Record) : (s.updRecord n f).inReset = s.inReset := rfl
@[simp] theorem State.updRecord_freeIdx (s : State) (n : SlotNo) (f : Record → Record) : (s.updRecord n f).freeIdx = s.freeIdx := rfl
@[simp] theorem State.updRecord_pending (s : State) (n : SlotNo) (f : Record → Record) : (s.updRecord n f).pending = s.pending := rfl

/-! `updSession` changes `sessions` alone. -/

@[simp] theorem State.updSession_now (s : State) (h : HostId) (f : Session → Session) : (s.updSession h f).now = s.now := rfl
@[simp] theorem State.updSession_lines (s : State) (h : HostId) (f : Session → Session) : (s.updSession h f).lines = s.lines := rfl
@[simp] theorem State.updSession_table (s : State) (h : HostId) (f : Session → Session) : (s.updSession h f).table = s.table := rfl
@[simp] theorem State.updSession_leases (s : State) (h : HostId) (f : Session → Session) : (s.updSession h f).leases = s.leases := rfl
@[simp] theorem State.updSession_slots (s : State) (h : HostId) (f : Session → Session) : (s.updSession h f).slots = s.slots := rfl
@[simp] theorem State.updSession_arrivals (s : State) (h : HostId) (f : Session → Session) : (s.updSession h f).arrivals = s.arrivals := rfl
@[simp] theorem State.updSession_dispatch (s : State) (h : HostId) (f : Session → Session) : (s.updSession h f).dispatch = s.dispatch := rfl
@[simp] theorem State.updSession_ports (s : State) (h : HostId) (f : Session → Session) : (s.updSession h f).ports = s.ports := rfl
@[simp] theorem State.updSession_loss (s : State) (h : HostId) (f : Session → Session) : (s.updSession h f).loss = s.loss := rfl
@[simp] theorem State.updSession_missed (s : State) (h : HostId) (f : Session → Session) : (s.updSession h f).missed = s.missed := rfl
@[simp] theorem State.updSession_epoch (s : State) (h : HostId) (f : Session → Session) : (s.updSession h f).epoch = s.epoch := rfl
@[simp] theorem State.updSession_causes (s : State) (h : HostId) (f : Session → Session) : (s.updSession h f).causes = s.causes := rfl
@[simp] theorem State.updSession_inReset (s : State) (h : HostId) (f : Session → Session) : (s.updSession h f).inReset = s.inReset := rfl
@[simp] theorem State.updSession_freeIdx (s : State) (h : HostId) (f : Session → Session) : (s.updSession h f).freeIdx = s.freeIdx := rfl
@[simp] theorem State.updSession_pending (s : State) (h : HostId) (f : Session → Session) : (s.updSession h f).pending = s.pending := rfl

/-! `updDisp` changes `dispatch` alone. -/

@[simp] theorem State.updDisp_now (s : State) (h : HostId) (f : Dispatch → Dispatch) : (s.updDisp h f).now = s.now := rfl
@[simp] theorem State.updDisp_lines (s : State) (h : HostId) (f : Dispatch → Dispatch) : (s.updDisp h f).lines = s.lines := rfl
@[simp] theorem State.updDisp_table (s : State) (h : HostId) (f : Dispatch → Dispatch) : (s.updDisp h f).table = s.table := rfl
@[simp] theorem State.updDisp_leases (s : State) (h : HostId) (f : Dispatch → Dispatch) : (s.updDisp h f).leases = s.leases := rfl
@[simp] theorem State.updDisp_slots (s : State) (h : HostId) (f : Dispatch → Dispatch) : (s.updDisp h f).slots = s.slots := rfl
@[simp] theorem State.updDisp_arrivals (s : State) (h : HostId) (f : Dispatch → Dispatch) : (s.updDisp h f).arrivals = s.arrivals := rfl
@[simp] theorem State.updDisp_sessions (s : State) (h : HostId) (f : Dispatch → Dispatch) : (s.updDisp h f).sessions = s.sessions := rfl
@[simp] theorem State.updDisp_ports (s : State) (h : HostId) (f : Dispatch → Dispatch) : (s.updDisp h f).ports = s.ports := rfl
@[simp] theorem State.updDisp_loss (s : State) (h : HostId) (f : Dispatch → Dispatch) : (s.updDisp h f).loss = s.loss := rfl
@[simp] theorem State.updDisp_missed (s : State) (h : HostId) (f : Dispatch → Dispatch) : (s.updDisp h f).missed = s.missed := rfl
@[simp] theorem State.updDisp_epoch (s : State) (h : HostId) (f : Dispatch → Dispatch) : (s.updDisp h f).epoch = s.epoch := rfl
@[simp] theorem State.updDisp_causes (s : State) (h : HostId) (f : Dispatch → Dispatch) : (s.updDisp h f).causes = s.causes := rfl
@[simp] theorem State.updDisp_inReset (s : State) (h : HostId) (f : Dispatch → Dispatch) : (s.updDisp h f).inReset = s.inReset := rfl
@[simp] theorem State.updDisp_freeIdx (s : State) (h : HostId) (f : Dispatch → Dispatch) : (s.updDisp h f).freeIdx = s.freeIdx := rfl
@[simp] theorem State.updDisp_pending (s : State) (h : HostId) (f : Dispatch → Dispatch) : (s.updDisp h f).pending = s.pending := rfl

/-! `updPort` changes `ports` alone. -/

@[simp] theorem State.updPort_now (s : State) (h : HostId) (f : Port → Port) : (s.updPort h f).now = s.now := rfl
@[simp] theorem State.updPort_lines (s : State) (h : HostId) (f : Port → Port) : (s.updPort h f).lines = s.lines := rfl
@[simp] theorem State.updPort_table (s : State) (h : HostId) (f : Port → Port) : (s.updPort h f).table = s.table := rfl
@[simp] theorem State.updPort_leases (s : State) (h : HostId) (f : Port → Port) : (s.updPort h f).leases = s.leases := rfl
@[simp] theorem State.updPort_slots (s : State) (h : HostId) (f : Port → Port) : (s.updPort h f).slots = s.slots := rfl
@[simp] theorem State.updPort_arrivals (s : State) (h : HostId) (f : Port → Port) : (s.updPort h f).arrivals = s.arrivals := rfl
@[simp] theorem State.updPort_dispatch (s : State) (h : HostId) (f : Port → Port) : (s.updPort h f).dispatch = s.dispatch := rfl
@[simp] theorem State.updPort_sessions (s : State) (h : HostId) (f : Port → Port) : (s.updPort h f).sessions = s.sessions := rfl
@[simp] theorem State.updPort_loss (s : State) (h : HostId) (f : Port → Port) : (s.updPort h f).loss = s.loss := rfl
@[simp] theorem State.updPort_missed (s : State) (h : HostId) (f : Port → Port) : (s.updPort h f).missed = s.missed := rfl
@[simp] theorem State.updPort_epoch (s : State) (h : HostId) (f : Port → Port) : (s.updPort h f).epoch = s.epoch := rfl
@[simp] theorem State.updPort_causes (s : State) (h : HostId) (f : Port → Port) : (s.updPort h f).causes = s.causes := rfl
@[simp] theorem State.updPort_inReset (s : State) (h : HostId) (f : Port → Port) : (s.updPort h f).inReset = s.inReset := rfl
@[simp] theorem State.updPort_freeIdx (s : State) (h : HostId) (f : Port → Port) : (s.updPort h f).freeIdx = s.freeIdx := rfl
@[simp] theorem State.updPort_pending (s : State) (h : HostId) (f : Port → Port) : (s.updPort h f).pending = s.pending := rfl

/-! `setEntry` changes `table` alone. -/

@[simp] theorem State.setEntry_now (s : State) (l : LineNo) (e : LineEntry) : (s.setEntry l e).now = s.now := rfl
@[simp] theorem State.setEntry_lines (s : State) (l : LineNo) (e : LineEntry) : (s.setEntry l e).lines = s.lines := rfl
@[simp] theorem State.setEntry_leases (s : State) (l : LineNo) (e : LineEntry) : (s.setEntry l e).leases = s.leases := rfl
@[simp] theorem State.setEntry_slots (s : State) (l : LineNo) (e : LineEntry) : (s.setEntry l e).slots = s.slots := rfl
@[simp] theorem State.setEntry_arrivals (s : State) (l : LineNo) (e : LineEntry) : (s.setEntry l e).arrivals = s.arrivals := rfl
@[simp] theorem State.setEntry_dispatch (s : State) (l : LineNo) (e : LineEntry) : (s.setEntry l e).dispatch = s.dispatch := rfl
@[simp] theorem State.setEntry_sessions (s : State) (l : LineNo) (e : LineEntry) : (s.setEntry l e).sessions = s.sessions := rfl
@[simp] theorem State.setEntry_ports (s : State) (l : LineNo) (e : LineEntry) : (s.setEntry l e).ports = s.ports := rfl
@[simp] theorem State.setEntry_loss (s : State) (l : LineNo) (e : LineEntry) : (s.setEntry l e).loss = s.loss := rfl
@[simp] theorem State.setEntry_missed (s : State) (l : LineNo) (e : LineEntry) : (s.setEntry l e).missed = s.missed := rfl
@[simp] theorem State.setEntry_epoch (s : State) (l : LineNo) (e : LineEntry) : (s.setEntry l e).epoch = s.epoch := rfl
@[simp] theorem State.setEntry_causes (s : State) (l : LineNo) (e : LineEntry) : (s.setEntry l e).causes = s.causes := rfl
@[simp] theorem State.setEntry_inReset (s : State) (l : LineNo) (e : LineEntry) : (s.setEntry l e).inReset = s.inReset := rfl
@[simp] theorem State.setEntry_freeIdx (s : State) (l : LineNo) (e : LineEntry) : (s.setEntry l e).freeIdx = s.freeIdx := rfl
@[simp] theorem State.setEntry_pending (s : State) (l : LineNo) (e : LineEntry) : (s.setEntry l e).pending = s.pending := rfl

/-! `setLine` changes `lines` alone. -/

@[simp] theorem State.setLine_now (s : State) (l : LineNo) (v : LineState) : (s.setLine l v).now = s.now := rfl
@[simp] theorem State.setLine_table (s : State) (l : LineNo) (v : LineState) : (s.setLine l v).table = s.table := rfl
@[simp] theorem State.setLine_leases (s : State) (l : LineNo) (v : LineState) : (s.setLine l v).leases = s.leases := rfl
@[simp] theorem State.setLine_slots (s : State) (l : LineNo) (v : LineState) : (s.setLine l v).slots = s.slots := rfl
@[simp] theorem State.setLine_arrivals (s : State) (l : LineNo) (v : LineState) : (s.setLine l v).arrivals = s.arrivals := rfl
@[simp] theorem State.setLine_dispatch (s : State) (l : LineNo) (v : LineState) : (s.setLine l v).dispatch = s.dispatch := rfl
@[simp] theorem State.setLine_sessions (s : State) (l : LineNo) (v : LineState) : (s.setLine l v).sessions = s.sessions := rfl
@[simp] theorem State.setLine_ports (s : State) (l : LineNo) (v : LineState) : (s.setLine l v).ports = s.ports := rfl
@[simp] theorem State.setLine_loss (s : State) (l : LineNo) (v : LineState) : (s.setLine l v).loss = s.loss := rfl
@[simp] theorem State.setLine_missed (s : State) (l : LineNo) (v : LineState) : (s.setLine l v).missed = s.missed := rfl
@[simp] theorem State.setLine_epoch (s : State) (l : LineNo) (v : LineState) : (s.setLine l v).epoch = s.epoch := rfl
@[simp] theorem State.setLine_causes (s : State) (l : LineNo) (v : LineState) : (s.setLine l v).causes = s.causes := rfl
@[simp] theorem State.setLine_inReset (s : State) (l : LineNo) (v : LineState) : (s.setLine l v).inReset = s.inReset := rfl
@[simp] theorem State.setLine_freeIdx (s : State) (l : LineNo) (v : LineState) : (s.setLine l v).freeIdx = s.freeIdx := rfl
@[simp] theorem State.setLine_pending (s : State) (l : LineNo) (v : LineState) : (s.setLine l v).pending = s.pending := rfl

/-! `setHolder` changes `leases` alone. -/

@[simp] theorem State.setHolder_now (s : State) (g : GroupNo) (v : Option HostId) : (s.setHolder g v).now = s.now := rfl
@[simp] theorem State.setHolder_lines (s : State) (g : GroupNo) (v : Option HostId) : (s.setHolder g v).lines = s.lines := rfl
@[simp] theorem State.setHolder_table (s : State) (g : GroupNo) (v : Option HostId) : (s.setHolder g v).table = s.table := rfl
@[simp] theorem State.setHolder_slots (s : State) (g : GroupNo) (v : Option HostId) : (s.setHolder g v).slots = s.slots := rfl
@[simp] theorem State.setHolder_arrivals (s : State) (g : GroupNo) (v : Option HostId) : (s.setHolder g v).arrivals = s.arrivals := rfl
@[simp] theorem State.setHolder_dispatch (s : State) (g : GroupNo) (v : Option HostId) : (s.setHolder g v).dispatch = s.dispatch := rfl
@[simp] theorem State.setHolder_sessions (s : State) (g : GroupNo) (v : Option HostId) : (s.setHolder g v).sessions = s.sessions := rfl
@[simp] theorem State.setHolder_ports (s : State) (g : GroupNo) (v : Option HostId) : (s.setHolder g v).ports = s.ports := rfl
@[simp] theorem State.setHolder_loss (s : State) (g : GroupNo) (v : Option HostId) : (s.setHolder g v).loss = s.loss := rfl
@[simp] theorem State.setHolder_missed (s : State) (g : GroupNo) (v : Option HostId) : (s.setHolder g v).missed = s.missed := rfl
@[simp] theorem State.setHolder_epoch (s : State) (g : GroupNo) (v : Option HostId) : (s.setHolder g v).epoch = s.epoch := rfl
@[simp] theorem State.setHolder_causes (s : State) (g : GroupNo) (v : Option HostId) : (s.setHolder g v).causes = s.causes := rfl
@[simp] theorem State.setHolder_inReset (s : State) (g : GroupNo) (v : Option HostId) : (s.setHolder g v).inReset = s.inReset := rfl
@[simp] theorem State.setHolder_freeIdx (s : State) (g : GroupNo) (v : Option HostId) : (s.setHolder g v).freeIdx = s.freeIdx := rfl
@[simp] theorem State.setHolder_pending (s : State) (g : GroupNo) (v : Option HostId) : (s.setHolder g v).pending = s.pending := rfl

/-! The readings of other tables are left alone by an update. -/

@[simp] theorem State.session_setRecord (s : State) (n : SlotNo) (r : Option Record) (k : HostId) : (s.setRecord n r).session k = s.session k := rfl
@[simp] theorem State.attached_setRecord (s : State) (n : SlotNo) (r : Option Record) (k : HostId) : (s.setRecord n r).attached k = s.attached k := rfl
@[simp] theorem State.disp_setRecord (s : State) (n : SlotNo) (r : Option Record) (k : HostId) : (s.setRecord n r).disp k = s.disp k := rfl
@[simp] theorem State.level_setRecord (s : State) (n : SlotNo) (r : Option Record) (k : HostId) : (s.setRecord n r).level k = s.level k := rfl
@[simp] theorem State.port_setRecord (s : State) (n : SlotNo) (r : Option Record) (k : HostId) : (s.setRecord n r).port k = s.port k := rfl
@[simp] theorem State.entry_setRecord (s : State) (n : SlotNo) (r : Option Record) (m : LineNo) : (s.setRecord n r).entry m = s.entry m := rfl
@[simp] theorem State.line_setRecord (s : State) (n : SlotNo) (r : Option Record) (m : LineNo) : (s.setRecord n r).line m = s.line m := rfl
@[simp] theorem State.holder_setRecord (s : State) (n : SlotNo) (r : Option Record) (m : GroupNo) : (s.setRecord n r).holder m = s.holder m := rfl
@[simp] theorem State.session_setSerial (s : State) (n : SlotNo) (v : Byte) (k : HostId) : (s.setSerial n v).session k = s.session k := rfl
@[simp] theorem State.attached_setSerial (s : State) (n : SlotNo) (v : Byte) (k : HostId) : (s.setSerial n v).attached k = s.attached k := rfl
@[simp] theorem State.disp_setSerial (s : State) (n : SlotNo) (v : Byte) (k : HostId) : (s.setSerial n v).disp k = s.disp k := rfl
@[simp] theorem State.level_setSerial (s : State) (n : SlotNo) (v : Byte) (k : HostId) : (s.setSerial n v).level k = s.level k := rfl
@[simp] theorem State.port_setSerial (s : State) (n : SlotNo) (v : Byte) (k : HostId) : (s.setSerial n v).port k = s.port k := rfl
@[simp] theorem State.entry_setSerial (s : State) (n : SlotNo) (v : Byte) (m : LineNo) : (s.setSerial n v).entry m = s.entry m := rfl
@[simp] theorem State.line_setSerial (s : State) (n : SlotNo) (v : Byte) (m : LineNo) : (s.setSerial n v).line m = s.line m := rfl
@[simp] theorem State.holder_setSerial (s : State) (n : SlotNo) (v : Byte) (m : GroupNo) : (s.setSerial n v).holder m = s.holder m := rfl
@[simp] theorem State.session_updRecord (s : State) (n : SlotNo) (f : Record → Record) (k : HostId) : (s.updRecord n f).session k = s.session k := rfl
@[simp] theorem State.attached_updRecord (s : State) (n : SlotNo) (f : Record → Record) (k : HostId) : (s.updRecord n f).attached k = s.attached k := rfl
@[simp] theorem State.disp_updRecord (s : State) (n : SlotNo) (f : Record → Record) (k : HostId) : (s.updRecord n f).disp k = s.disp k := rfl
@[simp] theorem State.level_updRecord (s : State) (n : SlotNo) (f : Record → Record) (k : HostId) : (s.updRecord n f).level k = s.level k := rfl
@[simp] theorem State.port_updRecord (s : State) (n : SlotNo) (f : Record → Record) (k : HostId) : (s.updRecord n f).port k = s.port k := rfl
@[simp] theorem State.entry_updRecord (s : State) (n : SlotNo) (f : Record → Record) (m : LineNo) : (s.updRecord n f).entry m = s.entry m := rfl
@[simp] theorem State.line_updRecord (s : State) (n : SlotNo) (f : Record → Record) (m : LineNo) : (s.updRecord n f).line m = s.line m := rfl
@[simp] theorem State.holder_updRecord (s : State) (n : SlotNo) (f : Record → Record) (m : GroupNo) : (s.updRecord n f).holder m = s.holder m := rfl
@[simp] theorem State.record_updSession (s : State) (h : HostId) (f : Session → Session) (m : SlotNo) : (s.updSession h f).record m = s.record m := rfl
@[simp] theorem State.serial_updSession (s : State) (h : HostId) (f : Session → Session) (m : SlotNo) : (s.updSession h f).serial m = s.serial m := rfl
@[simp] theorem State.disp_updSession (s : State) (h : HostId) (f : Session → Session) (k : HostId) : (s.updSession h f).disp k = s.disp k := rfl
@[simp] theorem State.level_updSession (s : State) (h : HostId) (f : Session → Session) (k : HostId) : (s.updSession h f).level k = s.level k := rfl
@[simp] theorem State.port_updSession (s : State) (h : HostId) (f : Session → Session) (k : HostId) : (s.updSession h f).port k = s.port k := rfl
@[simp] theorem State.entry_updSession (s : State) (h : HostId) (f : Session → Session) (m : LineNo) : (s.updSession h f).entry m = s.entry m := rfl
@[simp] theorem State.line_updSession (s : State) (h : HostId) (f : Session → Session) (m : LineNo) : (s.updSession h f).line m = s.line m := rfl
@[simp] theorem State.holder_updSession (s : State) (h : HostId) (f : Session → Session) (m : GroupNo) : (s.updSession h f).holder m = s.holder m := rfl
@[simp] theorem State.record_updDisp (s : State) (h : HostId) (f : Dispatch → Dispatch) (m : SlotNo) : (s.updDisp h f).record m = s.record m := rfl
@[simp] theorem State.serial_updDisp (s : State) (h : HostId) (f : Dispatch → Dispatch) (m : SlotNo) : (s.updDisp h f).serial m = s.serial m := rfl
@[simp] theorem State.session_updDisp (s : State) (h : HostId) (f : Dispatch → Dispatch) (k : HostId) : (s.updDisp h f).session k = s.session k := rfl
@[simp] theorem State.attached_updDisp (s : State) (h : HostId) (f : Dispatch → Dispatch) (k : HostId) : (s.updDisp h f).attached k = s.attached k := rfl
@[simp] theorem State.port_updDisp (s : State) (h : HostId) (f : Dispatch → Dispatch) (k : HostId) : (s.updDisp h f).port k = s.port k := rfl
@[simp] theorem State.entry_updDisp (s : State) (h : HostId) (f : Dispatch → Dispatch) (m : LineNo) : (s.updDisp h f).entry m = s.entry m := rfl
@[simp] theorem State.line_updDisp (s : State) (h : HostId) (f : Dispatch → Dispatch) (m : LineNo) : (s.updDisp h f).line m = s.line m := rfl
@[simp] theorem State.holder_updDisp (s : State) (h : HostId) (f : Dispatch → Dispatch) (m : GroupNo) : (s.updDisp h f).holder m = s.holder m := rfl
@[simp] theorem State.record_updPort (s : State) (h : HostId) (f : Port → Port) (m : SlotNo) : (s.updPort h f).record m = s.record m := rfl
@[simp] theorem State.serial_updPort (s : State) (h : HostId) (f : Port → Port) (m : SlotNo) : (s.updPort h f).serial m = s.serial m := rfl
@[simp] theorem State.session_updPort (s : State) (h : HostId) (f : Port → Port) (k : HostId) : (s.updPort h f).session k = s.session k := rfl
@[simp] theorem State.attached_updPort (s : State) (h : HostId) (f : Port → Port) (k : HostId) : (s.updPort h f).attached k = s.attached k := rfl
@[simp] theorem State.disp_updPort (s : State) (h : HostId) (f : Port → Port) (k : HostId) : (s.updPort h f).disp k = s.disp k := rfl
@[simp] theorem State.level_updPort (s : State) (h : HostId) (f : Port → Port) (k : HostId) : (s.updPort h f).level k = s.level k := rfl
@[simp] theorem State.entry_updPort (s : State) (h : HostId) (f : Port → Port) (m : LineNo) : (s.updPort h f).entry m = s.entry m := rfl
@[simp] theorem State.line_updPort (s : State) (h : HostId) (f : Port → Port) (m : LineNo) : (s.updPort h f).line m = s.line m := rfl
@[simp] theorem State.holder_updPort (s : State) (h : HostId) (f : Port → Port) (m : GroupNo) : (s.updPort h f).holder m = s.holder m := rfl
@[simp] theorem State.record_setEntry (s : State) (l : LineNo) (e : LineEntry) (m : SlotNo) : (s.setEntry l e).record m = s.record m := rfl
@[simp] theorem State.serial_setEntry (s : State) (l : LineNo) (e : LineEntry) (m : SlotNo) : (s.setEntry l e).serial m = s.serial m := rfl
@[simp] theorem State.session_setEntry (s : State) (l : LineNo) (e : LineEntry) (k : HostId) : (s.setEntry l e).session k = s.session k := rfl
@[simp] theorem State.attached_setEntry (s : State) (l : LineNo) (e : LineEntry) (k : HostId) : (s.setEntry l e).attached k = s.attached k := rfl
@[simp] theorem State.disp_setEntry (s : State) (l : LineNo) (e : LineEntry) (k : HostId) : (s.setEntry l e).disp k = s.disp k := rfl
@[simp] theorem State.level_setEntry (s : State) (l : LineNo) (e : LineEntry) (k : HostId) : (s.setEntry l e).level k = s.level k := rfl
@[simp] theorem State.port_setEntry (s : State) (l : LineNo) (e : LineEntry) (k : HostId) : (s.setEntry l e).port k = s.port k := rfl
@[simp] theorem State.line_setEntry (s : State) (l : LineNo) (e : LineEntry) (m : LineNo) : (s.setEntry l e).line m = s.line m := rfl
@[simp] theorem State.holder_setEntry (s : State) (l : LineNo) (e : LineEntry) (m : GroupNo) : (s.setEntry l e).holder m = s.holder m := rfl
@[simp] theorem State.record_setLine (s : State) (l : LineNo) (v : LineState) (m : SlotNo) : (s.setLine l v).record m = s.record m := rfl
@[simp] theorem State.serial_setLine (s : State) (l : LineNo) (v : LineState) (m : SlotNo) : (s.setLine l v).serial m = s.serial m := rfl
@[simp] theorem State.session_setLine (s : State) (l : LineNo) (v : LineState) (k : HostId) : (s.setLine l v).session k = s.session k := rfl
@[simp] theorem State.attached_setLine (s : State) (l : LineNo) (v : LineState) (k : HostId) : (s.setLine l v).attached k = s.attached k := rfl
@[simp] theorem State.disp_setLine (s : State) (l : LineNo) (v : LineState) (k : HostId) : (s.setLine l v).disp k = s.disp k := rfl
@[simp] theorem State.level_setLine (s : State) (l : LineNo) (v : LineState) (k : HostId) : (s.setLine l v).level k = s.level k := rfl
@[simp] theorem State.port_setLine (s : State) (l : LineNo) (v : LineState) (k : HostId) : (s.setLine l v).port k = s.port k := rfl
@[simp] theorem State.entry_setLine (s : State) (l : LineNo) (v : LineState) (m : LineNo) : (s.setLine l v).entry m = s.entry m := rfl
@[simp] theorem State.holder_setLine (s : State) (l : LineNo) (v : LineState) (m : GroupNo) : (s.setLine l v).holder m = s.holder m := rfl
@[simp] theorem State.record_setHolder (s : State) (g : GroupNo) (v : Option HostId) (m : SlotNo) : (s.setHolder g v).record m = s.record m := rfl
@[simp] theorem State.serial_setHolder (s : State) (g : GroupNo) (v : Option HostId) (m : SlotNo) : (s.setHolder g v).serial m = s.serial m := rfl
@[simp] theorem State.session_setHolder (s : State) (g : GroupNo) (v : Option HostId) (k : HostId) : (s.setHolder g v).session k = s.session k := rfl
@[simp] theorem State.attached_setHolder (s : State) (g : GroupNo) (v : Option HostId) (k : HostId) : (s.setHolder g v).attached k = s.attached k := rfl
@[simp] theorem State.disp_setHolder (s : State) (g : GroupNo) (v : Option HostId) (k : HostId) : (s.setHolder g v).disp k = s.disp k := rfl
@[simp] theorem State.level_setHolder (s : State) (g : GroupNo) (v : Option HostId) (k : HostId) : (s.setHolder g v).level k = s.level k := rfl
@[simp] theorem State.port_setHolder (s : State) (g : GroupNo) (v : Option HostId) (k : HostId) : (s.setHolder g v).port k = s.port k := rfl
@[simp] theorem State.entry_setHolder (s : State) (g : GroupNo) (v : Option HostId) (m : LineNo) : (s.setHolder g v).entry m = s.entry m := rfl
@[simp] theorem State.line_setHolder (s : State) (g : GroupNo) (v : Option HostId) (m : LineNo) : (s.setHolder g v).line m = s.line m := rfl

/-! Reading the piece that an update writes, and the other pieces of the same table. -/

@[simp] theorem State.record_setRecord_self (s : State) (n : SlotNo) (r : Option Record) : (s.setRecord n r).record n = r := by
  simp [State.record, State.setRecord]

theorem State.record_setRecord (s : State) (n m : SlotNo) (r : Option Record) :
    (s.setRecord n r).record m = if m = n then r else s.record m := by
  by_cases e : m = n
  · subst e; simp
  · simp [State.record, State.setRecord, e, Fin.val_ne_of_ne (Ne.symm e)]

@[simp] theorem State.serial_setRecord (s : State) (n m : SlotNo) (r : Option Record) : (s.setRecord n r).serial m = s.serial m := by
  by_cases e : m = n
  · subst e; simp [State.serial, State.setRecord]
  · simp [State.serial, State.setRecord, Fin.val_ne_of_ne (Ne.symm e)]

@[simp] theorem State.record_setSerial (s : State) (n m : SlotNo) (v : Byte) : (s.setSerial n v).record m = s.record m := by
  by_cases e : m = n
  · subst e; simp [State.record, State.setSerial]
  · simp [State.record, State.setSerial, Fin.val_ne_of_ne (Ne.symm e)]

theorem State.serial_setSerial (s : State) (n m : SlotNo) (v : Byte) :
    (s.setSerial n v).serial m = if m = n then v else s.serial m := by
  by_cases e : m = n
  · subst e; simp [State.serial, State.setSerial]
  · simp [State.serial, State.setSerial, e, Fin.val_ne_of_ne (Ne.symm e)]

theorem State.record_updRecord (s : State) (n m : SlotNo) (f : Record → Record) :
    (s.updRecord n f).record m = if m = n then (s.record n).map f else s.record m := by
  simp [State.updRecord, State.record_setRecord]

@[simp] theorem State.serial_updRecord (s : State) (n m : SlotNo) (f : Record → Record) : (s.updRecord n f).serial m = s.serial m := by
  simp [State.updRecord]

theorem State.session_updSession (s : State) (h k : HostId) (f : Session → Session) :
    (s.updSession h f).session k = if k = h then f (s.session h) else s.session k := by
  simp [State.session, State.updSession, PerHost.get_set]

theorem State.disp_updDisp (s : State) (h k : HostId) (f : Dispatch → Dispatch) :
    (s.updDisp h f).disp k = if k = h then f (s.disp h) else s.disp k := by
  simp [State.disp, State.updDisp, PerHost.get_set]

theorem State.port_updPort (s : State) (h k : HostId) (f : Port → Port) :
    (s.updPort h f).port k = if k = h then f (s.port h) else s.port k := by
  simp [State.port, State.updPort, PerHost.get_set]

theorem State.entry_setEntry (s : State) (l m : LineNo) (e : LineEntry) :
    (s.setEntry l e).entry m = if m = l then e else s.entry m := by
  by_cases h : m = l
  · subst h; simp [State.entry, State.setEntry]
  · simp [State.entry, State.setEntry, h, Fin.val_ne_of_ne (Ne.symm h)]

theorem State.line_setLine (s : State) (l m : LineNo) (v : LineState) :
    (s.setLine l v).line m = if m = l then v else s.line m := by
  by_cases h : m = l
  · subst h; simp [State.line, State.setLine]
  · simp [State.line, State.setLine, h, Fin.val_ne_of_ne (Ne.symm h)]

theorem State.holder_setHolder (s : State) (g m : GroupNo) (v : Option HostId) :
    (s.setHolder g v).holder m = if m = g then v else s.holder m := by
  by_cases h : m = g
  · subst h; simp [State.holder, State.setHolder]
  · simp [State.holder, State.setHolder, h, Fin.val_ne_of_ne (Ne.symm h)]

/-! A reading depends on its own table alone. -/

theorem State.record_congr {s t : State} (e : t.slots = s.slots) : t.record = s.record := by unfold State.record; rw [e]

theorem State.serial_congr {s t : State} (e : t.slots = s.slots) : t.serial = s.serial := by unfold State.serial; rw [e]

theorem State.session_congr {s t : State} (e : t.sessions = s.sessions) : t.session = s.session := by unfold State.session; rw [e]

theorem State.disp_congr {s t : State} (e : t.dispatch = s.dispatch) : t.disp = s.disp := by unfold State.disp; rw [e]

theorem State.port_congr {s t : State} (e : t.ports = s.ports) : t.port = s.port := by unfold State.port; rw [e]

theorem State.entry_congr {s t : State} (e : t.table = s.table) : t.entry = s.entry := by unfold State.entry; rw [e]

theorem State.line_congr {s t : State} (e : t.lines = s.lines) : t.line = s.line := by unfold State.line; rw [e]

theorem State.holder_congr {s t : State} (e : t.leases = s.leases) : t.holder = s.holder := by unfold State.holder; rw [e]

theorem getElem_mapTable {α β : Type} {n : Nat} (f : α → β) (v : Vector α n) (i : Nat) (h : i < n) : (mapTable f v)[i] = f v[i] := by
  simp [mapTable]

theorem getElem_tableOf {α : Type} {n : Nat} (f : Fin n → α) (i : Nat) (h : i < n) : (tableOf f)[i] = f ⟨i, h⟩ := by
  simp [tableOf]

end Machine

end Sys2Proof
end

