-- ==== Sys2Proof/Laws/Exchange.lean ====
section
/-! SUPPORT. What a full exchange comes to: the state in which its command is judged, and one equation for each way a command is answered. -/

namespace Sys2Proof.Machine

@[simp] theorem State.setCs_port (s : State) (p h : HostId) (cs : ChipSelect) :
    (s.setCs p cs).port h = if h = p then { s.port p with cs := cs } else s.port h := by
  simp [State.setCs, State.port_updPort]

theorem State.csFall_eq {s : State} {p : HostId} (hr : s.inReset = none) (hc : (s.port p).cs = .idle) :
    s.csFall p = { s.setCs p (.live (s.newExchange p)) with freeIdx := s.freeIdx + 1 } := by
  simp [State.csFall, hr, hc]

/-- The exchange of a full exchange in which the command is judged. -/
def State.exchangeOf (s : State) (p : HostId) : Exchange :=
  match (s.port p).cs with
  | .live x => { x with bytes := 12 }
  | .idle | .cutOff | .notReady => { s.newExchange p with bytes := 12 }

/-- The port in which the command of a full exchange is judged. -/
def State.judgedPort (s : State) (p : HostId) : Port :=
  { s.port p with
    cs := .live (s.exchangeOf p)
    overrun := (s.port p).overrun && !(s.exchangeOf p).shownOverrun
    noticeDropped := (s.port p).noticeDropped && !(s.exchangeOf p).shownNotice }

/-- `judged` changes the port of the exchange and the count of formed frames alone. -/
theorem State.judged_eq {s : State} {p : HostId} (h : s.canExchange p) :
    s.judged p = { s with ports := s.ports.set p (s.judgedPort p), freeIdx := (s.judged p).freeIdx } := by
  obtain ⟨hr, h1, h2⟩ := h
  have hr' : s.inReset = none := hr
  unfold State.judged State.ensureExchange
  rcases hc : (s.port p).cs with _ | x | _ | _
  · simp only [State.csFall_eq hr' hc, State.clearMarks, State.setCs, State.updPort, State.port, PerHost.get_set_self]
    simp only [State.port] at hc
    simp [State.judgedPort, State.exchangeOf, State.port, hc, Port.clearShown]
  · simp only [State.clearMarks, hc]
    simp only [State.port] at hc
    simp [State.judgedPort, State.exchangeOf, State.port, hc, Port.clearShown, State.updPort]
  · exact absurd hc h1
  · exact absurd hc h2

section judged
variable {s : State} {p : HostId} (h : s.canExchange p)
include h

theorem State.judged_now : (s.judged p).now = s.now := by rw [State.judged_eq h]
theorem State.judged_lines : (s.judged p).lines = s.lines := by rw [State.judged_eq h]
theorem State.judged_table : (s.judged p).table = s.table := by rw [State.judged_eq h]
theorem State.judged_leases : (s.judged p).leases = s.leases := by rw [State.judged_eq h]
theorem State.judged_slots : (s.judged p).slots = s.slots := by rw [State.judged_eq h]
theorem State.judged_arrivals : (s.judged p).arrivals = s.arrivals := by rw [State.judged_eq h]
theorem State.judged_dispatch : (s.judged p).dispatch = s.dispatch := by rw [State.judged_eq h]
theorem State.judged_sessions : (s.judged p).sessions = s.sessions := by rw [State.judged_eq h]
theorem State.judged_ports : (s.judged p).ports = s.ports.set p (s.judgedPort p) := by rw [State.judged_eq h]
theorem State.judged_loss : (s.judged p).loss = s.loss := by rw [State.judged_eq h]
theorem State.judged_missed : (s.judged p).missed = s.missed := by rw [State.judged_eq h]
theorem State.judged_epoch : (s.judged p).epoch = s.epoch := by rw [State.judged_eq h]
theorem State.judged_causes : (s.judged p).causes = s.causes := by rw [State.judged_eq h]
theorem State.judged_inReset : (s.judged p).inReset = s.inReset := by rw [State.judged_eq h]
theorem State.judged_pending : (s.judged p).pending = s.pending := by rw [State.judged_eq h]
theorem State.judged_record (n : SlotNo) : (s.judged p).record n = s.record n := by rw [State.record_congr (State.judged_slots h)]
theorem State.judged_serial (n : SlotNo) : (s.judged p).serial n = s.serial n := by rw [State.serial_congr (State.judged_slots h)]
theorem State.judged_disp (k : HostId) : (s.judged p).disp k = s.disp k := by rw [State.disp_congr (State.judged_dispatch h)]
theorem State.judged_session (k : HostId) : (s.judged p).session k = s.session k := by
  rw [State.session_congr (State.judged_sessions h)]
theorem State.judged_attached (k : HostId) : (s.judged p).attached k = s.attached k := by
  simp only [State.attached, State.judged_session h]
theorem State.judged_entry (l : LineNo) : (s.judged p).entry l = s.entry l := by rw [State.entry_congr (State.judged_table h)]
theorem State.judged_line (l : LineNo) : (s.judged p).line l = s.line l := by rw [State.line_congr (State.judged_lines h)]
theorem State.judged_holder (g : GroupNo) : (s.judged p).holder g = s.holder g := by rw [State.holder_congr (State.judged_leases h)]
theorem State.judged_sleeps : (s.judged p).sleeps p = s.sleeps p := by simp only [State.sleeps, State.judged_session h]
theorem State.judged_port_self : (s.judged p).port p = s.judgedPort p := by
  simp [State.port, State.judged_ports h]
theorem State.judged_port_ne {k : HostId} (hk : k ≠ p) : (s.judged p).port k = s.port k := by
  simp [State.port, State.judged_ports h, PerHost.get_set_ne _ _ hk]
theorem State.judged_hasReplyRoom : ((s.judged p).port p).hasReplyRoom = (s.port p).hasReplyRoom := by
  rw [State.judged_port_self h]; rfl

end judged

/-- The return to AWAKE changes the caller's session alone (R127). -/
theorem State.wakeUp_eq (s : State) (p : HostId) : s.wakeUp p = { s with sessions := (s.wakeUp p).sessions } := by
  unfold State.wakeUp; split <;> rfl

theorem State.wakeUp_session (s : State) (p k : HostId) :
    (s.wakeUp p).session k =
      if k = p ∧ s.sleeps p = true then { s.session p with state := .awake, wakeTimer := none } else s.session k := by
  unfold State.wakeUp State.sleeps
  by_cases hk : k = p
  · subst hk
    split <;> simp_all [State.session_updSession]
  · split <;> simp [State.session_updSession, hk]

theorem State.wakeUp_attached (s : State) (p k : HostId) : (s.wakeUp p).attached k = s.attached k := by
  unfold State.attached
  rw [State.wakeUp_session]
  split
  · rename_i h
    obtain ⟨rfl, h⟩ := h
    unfold State.sleeps at h
    split at h <;> simp_all [HostState.attached]
  · rfl

section wakeUp
variable (s : State) (p : HostId)

@[simp] theorem State.wakeUp_now : (s.wakeUp p).now = s.now := by rw [State.wakeUp_eq]
@[simp] theorem State.wakeUp_lines : (s.wakeUp p).lines = s.lines := by rw [State.wakeUp_eq]
@[simp] theorem State.wakeUp_table : (s.wakeUp p).table = s.table := by rw [State.wakeUp_eq]
@[simp] theorem State.wakeUp_leases : (s.wakeUp p).leases = s.leases := by rw [State.wakeUp_eq]
@[simp] theorem State.wakeUp_slots : (s.wakeUp p).slots = s.slots := by rw [State.wakeUp_eq]
@[simp] theorem State.wakeUp_arrivals : (s.wakeUp p).arrivals = s.arrivals := by rw [State.wakeUp_eq]
@[simp] theorem State.wakeUp_dispatch : (s.wakeUp p).dispatch = s.dispatch := by rw [State.wakeUp_eq]
@[simp] theorem State.wakeUp_ports : (s.wakeUp p).ports = s.ports := by rw [State.wakeUp_eq]
@[simp] theorem State.wakeUp_loss : (s.wakeUp p).loss = s.loss := by rw [State.wakeUp_eq]
@[simp] theorem State.wakeUp_missed : (s.wakeUp p).missed = s.missed := by rw [State.wakeUp_eq]
@[simp] theorem State.wakeUp_epoch : (s.wakeUp p).epoch = s.epoch := by rw [State.wakeUp_eq]
@[simp] theorem State.wakeUp_causes : (s.wakeUp p).causes = s.causes := by rw [State.wakeUp_eq]
@[simp] theorem State.wakeUp_inReset : (s.wakeUp p).inReset = s.inReset := by rw [State.wakeUp_eq]
@[simp] theorem State.wakeUp_freeIdx : (s.wakeUp p).freeIdx = s.freeIdx := by rw [State.wakeUp_eq]
@[simp] theorem State.wakeUp_pending : (s.wakeUp p).pending = s.pending := by rw [State.wakeUp_eq]
@[simp] theorem State.wakeUp_record (n : SlotNo) : (s.wakeUp p).record n = s.record n := by rw [State.record_congr (State.wakeUp_slots s p)]
@[simp] theorem State.wakeUp_serial (n : SlotNo) : (s.wakeUp p).serial n = s.serial n := by rw [State.serial_congr (State.wakeUp_slots s p)]
@[simp] theorem State.wakeUp_disp (k : HostId) : (s.wakeUp p).disp k = s.disp k := by rw [State.disp_congr (State.wakeUp_dispatch s p)]
@[simp] theorem State.wakeUp_port (k : HostId) : (s.wakeUp p).port k = s.port k := by rw [State.port_congr (State.wakeUp_ports s p)]
@[simp] theorem State.wakeUp_entry (l : LineNo) : (s.wakeUp p).entry l = s.entry l := by rw [State.entry_congr (State.wakeUp_table s p)]
@[simp] theorem State.wakeUp_line (l : LineNo) : (s.wakeUp p).line l = s.line l := by rw [State.line_congr (State.wakeUp_lines s p)]
@[simp] theorem State.wakeUp_holder (g : GroupNo) : (s.wakeUp p).holder g = s.holder g := by
  rw [State.holder_congr (State.wakeUp_leases s p)]

end wakeUp

/-! ### The command of a full exchange -/

/-- A full exchange whose command is judged: step 2 acts on `judged`, step 3 follows (R173). -/
theorem State.fullExchange_eq {s : State} {p : HostId} (h : s.canExchange p) (take : State → State) :
    s.fullExchange p take = (take (s.judged p)).finishExchange p := by
  have hr : (s.ensureExchange p).inReset = none := by
    obtain ⟨hr, h1, h2⟩ := h
    have hr' : s.inReset = none := hr
    unfold State.ensureExchange
    rcases hc : (s.port p).cs with _ | x | _ | _ <;> simp [hr', State.csFall_eq, hc, State.setCs]
  have hx : ∃ x, ((s.ensureExchange p).port p).cs = .live x := by
    obtain ⟨hr, h1, h2⟩ := h
    have hr' : s.inReset = none := hr
    unfold State.ensureExchange
    rcases hc : (s.port p).cs with _ | x | _ | _
    · exact ⟨s.newExchange p, by rw [State.csFall_eq hr' hc]; simp [State.port, State.setCs, State.updPort]⟩
    · exact ⟨x, by simp [hc]⟩
    · exact absurd hc h1
    · exact absurd hc h2
  obtain ⟨x, hx⟩ := hx
  simp [State.fullExchange, State.csRise, hr, hx, State.judged]

/-- A command with no place for its REPLY (R178). -/
theorem State.withReplyRoom_full {s : State} {p : HostId} (h : (s.port p).hasReplyRoom = false) (take : State → State) :
    s.withReplyRoom p take = s.updPort p fun q => { q with overrun := true } := by
  simp [State.withReplyRoom, h]

/-- A command with a place for its REPLY (R178). -/
theorem State.withReplyRoom_room {s : State} {p : HostId} (h : (s.port p).hasReplyRoom = true) (take : State → State) :
    s.withReplyRoom p take = take s := by
  simp [State.withReplyRoom, h]

/-- The exchange of a taken command: step 2 acts on `judged`. -/
theorem State.fullExchange_room {s : State} {p : HostId} (h : s.takes p) (take : State → State) :
    (s.fullExchange p fun s => s.withReplyRoom p take) = (take (s.judged p)).finishExchange p := by
  rw [State.fullExchange_eq h.1, State.withReplyRoom_room (by rw [State.judged_hasReplyRoom h.1]; exact h.2)]

/-- A taken command of an attached host (R127, R173). -/
theorem State.fullExchange_command {s : State} {p : HostId} (h : s.takes p) (ha : s.attached p = true) (seq : Byte)
    (act : State → Effect) :
    (s.fullExchange p fun s => s.command p seq act) = s.ended p (act (s.heard p)).routed (act (s.heard p)).state := by
  have hj : (s.judged p).attached p = true := by rw [State.judged_attached h.1]; exact ha
  unfold State.command
  rw [State.fullExchange_room h]
  simp [hj, State.ended, State.heard, State.judged_sleeps h.1]

/-- A taken command of a host that is not attached (R126). -/
theorem State.fullExchange_notAttached {s : State} {p : HostId} (h : s.takes p) (ha : s.attached p = false) (seq : Byte)
    (act : State → Effect) :
    (s.fullExchange p fun s => s.command p seq act) = ((s.judged p).reply p seq .notAttached .empty).finishExchange p := by
  have hj : (s.judged p).attached p = false := by rw [State.judged_attached h.1]; exact ha
  unfold State.command
  rw [State.fullExchange_room h]
  simp [hj]

section heard
variable {s : State} {p : HostId} (h : s.canExchange p)
include h

theorem State.heard_record (n : SlotNo) : (s.heard p).record n = s.record n := by simp [State.heard, State.judged_record h]
theorem State.heard_serial (n : SlotNo) : (s.heard p).serial n = s.serial n := by simp [State.heard, State.judged_serial h]
theorem State.heard_disp (k : HostId) : (s.heard p).disp k = s.disp k := by simp [State.heard, State.judged_disp h]
theorem State.heard_entry (l : LineNo) : (s.heard p).entry l = s.entry l := by simp [State.heard, State.judged_entry h]
theorem State.heard_line (l : LineNo) : (s.heard p).line l = s.line l := by simp [State.heard, State.judged_line h]
theorem State.heard_holder (g : GroupNo) : (s.heard p).holder g = s.holder g := by simp [State.heard, State.judged_holder h]
theorem State.heard_arrivals : (s.heard p).arrivals = s.arrivals := by simp [State.heard, State.judged_arrivals h]
theorem State.heard_slots : (s.heard p).slots = s.slots := by simp [State.heard, State.judged_slots h]
theorem State.heard_loss : (s.heard p).loss = s.loss := by simp [State.heard, State.judged_loss h]
theorem State.heard_missed : (s.heard p).missed = s.missed := by simp [State.heard, State.judged_missed h]
theorem State.heard_epoch : (s.heard p).epoch = s.epoch := by simp [State.heard, State.judged_epoch h]
theorem State.heard_causes : (s.heard p).causes = s.causes := by simp [State.heard, State.judged_causes h]
theorem State.heard_now : (s.heard p).now = s.now := by simp [State.heard, State.judged_now h]
theorem State.heard_table : (s.heard p).table = s.table := by simp [State.heard, State.judged_table h]
theorem State.heard_lines : (s.heard p).lines = s.lines := by simp [State.heard, State.judged_lines h]
theorem State.heard_leases : (s.heard p).leases = s.leases := by simp [State.heard, State.judged_leases h]
theorem State.heard_dispatch : (s.heard p).dispatch = s.dispatch := by simp [State.heard, State.judged_dispatch h]
theorem State.heard_inReset : (s.heard p).inReset = s.inReset := by simp [State.heard, State.judged_inReset h]
theorem State.heard_pending : (s.heard p).pending = s.pending := by simp [State.heard, State.judged_pending h]
theorem State.heard_port (k : HostId) : (s.heard p).port k = if k = p then s.judgedPort p else s.port k := by
  unfold State.heard
  rw [State.wakeUp_port]
  by_cases hk : k = p
  · subst hk; simp [State.judged_port_self h]
  · simp [hk, State.judged_port_ne h hk]
theorem State.heard_session (k : HostId) : (s.heard p).session k =
    if k = p ∧ s.sleeps p = true then { s.session p with state := .awake, wakeTimer := none } else s.session k := by
  unfold State.heard
  rw [State.wakeUp_session, State.judged_session h, State.judged_session h, State.judged_sleeps h]
theorem State.heard_attached (k : HostId) : (s.heard p).attached k = s.attached k := by
  unfold State.heard
  rw [State.wakeUp_attached, State.judged_attached h]

end heard

end Sys2Proof.Machine
end

