-- ==== Sys2Proof/Laws/Operands.lean ====
section
/-! SUPPORT. What each operand form of Machine/Operands.lean answers, by the number its byte holds. -/

namespace Sys2Proof.Machine

theorem boundedByte_eq {n : Nat} {b : Byte} {k : Fin n} : boundedByte n b = some k ↔ b.toNat = k.val := by
  simp only [boundedByte, Option.dite_none_right_eq_some, Option.some.injEq]
  constructor
  · rintro ⟨_, rfl⟩; rfl
  · intro e; exact ⟨e ▸ k.isLt, Fin.ext e⟩

theorem boundedByte_none {n : Nat} {b : Byte} : boundedByte n b = none ↔ n ≤ b.toNat := by
  simp [boundedByte]

theorem parseLine_eq {b : Byte} {l : LineNo} : parseLine b = some l ↔ b.toNat = l.val := boundedByte_eq
theorem parseSlot_eq {b : Byte} {n : SlotNo} : parseSlot b = some n ↔ b.toNat = n.val := boundedByte_eq
theorem parseGroup_eq {b : Byte} {g : GroupNo} : parseGroup b = some g ↔ b.toNat = g.val := boundedByte_eq
theorem parseLine_none {b : Byte} : parseLine b = none ↔ 48 ≤ b.toNat := boundedByte_none
theorem parseSlot_none {b : Byte} : parseSlot b = none ↔ 96 ≤ b.toNat := boundedByte_none
theorem parseGroup_none {b : Byte} : parseGroup b = none ↔ 8 ≤ b.toNat := boundedByte_none

theorem HostId.ofNat?_toNat (h : HostId) : HostId.ofNat? h.toNat = some h := by cases h <;> rfl

theorem HostId.ofNat?_eq {n : Nat} {h : HostId} : HostId.ofNat? n = some h ↔ n = h.toNat := by
  constructor
  · intro e
    match n, e with
    | 0, e => cases e; rfl
    | 1, e => cases e; rfl
    | 2, e => cases e; rfl
    | 3, e => cases e; rfl
  · rintro rfl; exact HostId.ofNat?_toNat h

theorem HostId.ofNat?_none {n : Nat} : HostId.ofNat? n = none ↔ 4 ≤ n := by
  match n with
  | 0 | 1 | 2 | 3 => simp [HostId.ofNat?]
  | k + 4 => simp [HostId.ofNat?]

theorem parseHost_eq {b : Byte} {h : HostId} : parseHost b = some h ↔ b.toNat = h.toNat := HostId.ofNat?_eq
theorem parseHost_none {b : Byte} : parseHost b = none ↔ 4 ≤ b.toNat := HostId.ofNat?_none

theorem parseRange_eq {lo hi : Nat} {b : Byte} {v : Nat} : parseRange lo hi b = some v ↔ b.toNat = v ∧ lo ≤ v ∧ v ≤ hi := by
  simp only [parseRange, Option.ite_none_right_eq_some, Option.some.injEq]
  constructor
  · rintro ⟨⟨h, h'⟩, rfl⟩; exact ⟨rfl, h, h'⟩
  · rintro ⟨rfl, h, h'⟩; exact ⟨⟨h, h'⟩, rfl⟩

theorem parseRange_none {lo hi : Nat} {b : Byte} : parseRange lo hi b = none ↔ b.toNat < lo ∨ hi < b.toNat := by
  simp only [parseRange, ite_eq_right_iff, reduceCtorEq, imp_false]
  omega

theorem parseMode_eq {b : Byte} {m : Mode} : parseMode b = some m ↔ b.toNat = m.code := by
  unfold parseMode
  split <;> cases m <;> simp_all [Mode.code]

theorem parseMode_none {b : Byte} : parseMode b = none ↔ 2 ≤ b.toNat := by
  unfold parseMode
  split <;> simp_all
  omega

theorem parseFlag_eq {b : Byte} {v : Bool} : parseFlag b = some v ↔ b.toNat = v.toNat := by
  unfold parseFlag
  split <;> cases v <;> simp_all

theorem parseFlag_none {b : Byte} : parseFlag b = none ↔ 2 ≤ b.toNat := by
  unfold parseFlag
  split <;> simp_all
  omega

theorem parseSense_eq {b : Byte} {v : Sense} : parseSense b = some v ↔ b.toNat = v.code := by
  unfold parseSense
  split <;> cases v <;> simp_all [Sense.code]

theorem parseSense_none {b : Byte} : parseSense b = none ↔ 5 ≤ b.toNat := by
  unfold parseSense
  split <;> simp_all
  omega

/-- A handle is read from its slot and serial bytes (R176). -/
theorem parseHandle_eq {slot serial : Byte} {hd : Handle} :
    parseHandle slot serial = some hd ↔ slot.toNat = hd.slot.val ∧ serial = hd.serial := by
  obtain ⟨n, v⟩ := hd
  simp only [parseHandle, Option.map_eq_some_iff, parseSlot_eq, Handle.mk.injEq]
  constructor
  · rintro ⟨_, e, rfl, rfl⟩; exact ⟨e, rfl⟩
  · rintro ⟨e, rfl⟩; exact ⟨n, e, rfl, rfl⟩

/-- The two bytes of a handle read back as the handle. -/
@[simp] theorem parseHandle_self (hd : Handle) : parseHandle (BitVec.ofNat 8 hd.slot.val) hd.serial = some hd := by
  rw [parseHandle_eq]
  have := hd.slot.isLt
  exact ⟨by simp; omega, rfl⟩

/-- The values that SET_HOST refuses (R139). -/
theorem setParameter_none (e : Session) (param : Byte) (value : BitVec 16)
    (h : 5 < param.toNat ∨ param = 0 ∧ value.toNat < 16 ∨ param = 2 ∧ value.toNat < 50 ∨
      param = 3 ∧ (value.toNat = 0 ∨ 15 < value.toNat) ∨ param = 4 ∧ (value.toNat = 0 ∨ 8 < value.toNat) ∨
      param = 5 ∧ (value.toNat = 0 ∨ 32 < value.toNat)) : setParameter e param value = none := by
  unfold setParameter
  generalize value.toNat = v at *
  rcases h with h | ⟨rfl, h⟩ | ⟨rfl, h⟩ | ⟨rfl, h⟩ | ⟨rfl, h⟩ | ⟨rfl, h⟩
  · generalize param.toNat = n at *
    match n, h with
    | _ + 6, _ => rfl
  all_goals simp
  all_goals omega

section heard
variable {s : State} {p : HostId} (h : s.canExchange p)
include h

theorem State.heard_level (k : HostId) : (s.heard p).level k = s.level k := by simp [State.level, State.heard_disp h]
theorem State.heard_postedUse (k : HostId) : (s.heard p).postedUse k = s.postedUse k := by simp [State.postedUse, State.heard_slots h]
theorem State.heard_phase (n : SlotNo) : (s.heard p).phase n = s.phase n := by simp [State.phase, State.heard_record h]
theorem State.heard_quota (k : HostId) : ((s.heard p).session k).quota = (s.session k).quota := by
  rw [State.heard_session h]
  split
  · rename_i e; rw [e.1]
  · rfl
theorem State.heard_quotaSum : (s.heard p).quotaSum = s.quotaSum := by simp [State.quotaSum, State.heard_quota h]
theorem State.heard_lowestFreePosted : (s.heard p).lowestFreePosted = s.lowestFreePosted := by
  simp [State.lowestFreePosted, State.heard_record h]

end heard

/-- The sum of the quotas after one of them is replaced (R111). -/
theorem State.quotaSum_updSession (s : State) (p : HostId) (f : Session → Session) :
    (s.updSession p f).quotaSum = s.quotaSum - (s.session p).quota + (f (s.session p)).quota := by
  cases p <;> simp only [State.quotaSum, State.session_updSession] <;> simp <;> omega

end Sys2Proof.Machine
end

