-- ==== Sys2Proof/Laws/Commands.lean ====
section
/-! SUPPORT. The commands of an attached host once their operands are read: the shared operation that each then runs. -/

namespace Sys2Proof.Machine

theorem State.matchOffer_self {s : State} {p : HostId} {o : Offer} (h : (s.disp p).offer = some o) :
    s.matchOffer p (BitVec.ofNat 8 o.handle.slot.val) o.handle.serial = some o := by
  simp [State.matchOffer, h]

section
variable {s : State} {p : HostId} (ht : s.takes p) (ha : s.attached p = true)
include ht ha

/-- A CLAIM of the outstanding offer (R70). -/
theorem exec_claim_taken {o : Offer} {r : Record} (q : Byte) (ho : (s.disp p).offer = some o) (hr : s.record o.handle.slot = some r) :
    exec (.claim p q (BitVec.ofNat 8 o.handle.slot.val) o.handle.serial) s = .next (s.ended p true ((s.heard p).claimOffer p q o r)) := by
  have ho' : ((s.heard p).disp p).offer = some o := by rw [State.heard_disp ht.1]; exact ho
  have hr' : (s.heard p).record o.handle.slot = some r := by rw [State.heard_record ht.1]; exact hr
  simp only [exec, execClaim, State.fullExchange_command ht ha, State.matchOffer_self ho', Option.bind_some, hr', Option.map_some]

/-- A DECLINE of the outstanding offer (R72). -/
theorem exec_decline_taken {o : Offer} {r : Record} (q : Byte) (ho : (s.disp p).offer = some o) (hr : s.record o.handle.slot = some r) :
    exec (.decline p q (BitVec.ofNat 8 o.handle.slot.val) o.handle.serial) s =
      .next (s.ended p true ((s.heard p).declineOffer p q o r)) := by
  have ho' : ((s.heard p).disp p).offer = some o := by rw [State.heard_disp ht.1]; exact ho
  have hr' : (s.heard p).record o.handle.slot = some r := by rw [State.heard_record ht.1]; exact hr
  simp only [exec, execDecline, State.fullExchange_command ht ha, State.matchOffer_self ho', Option.bind_some, hr', Option.map_some]

/-- A DONE of the newest entry (R92). -/
theorem exec_done_newest {es : List StackEntry} {e : StackEntry} (q : Byte) (hs : (s.disp p).stack = es ++ [e]) :
    exec (.done p q (BitVec.ofNat 8 e.handle.slot.val) e.handle.serial) s =
      .next (s.ended p true ((s.heard p).finishService p q e)) := by
  have hs' : ((s.heard p).disp p).stack = es ++ [e] := by rw [State.heard_disp ht.1]; exact hs
  simp [exec, execDone, State.fullExchange_command ht ha, hs']

/-- A DETACH (R134). -/
theorem exec_detach_taken (q : Byte) : exec (.detach p q) s = .next (((s.heard p).closeSession p q).finishExchange p) := by
  have hj : (s.judged p).attached p = true := by rw [State.judged_attached ht.1]; exact ha
  simp only [exec, execDetach, State.fullExchange_room ht, hj, if_true, State.heard]

/-- A FETCH_LOSS (R162). -/
theorem exec_fetchLoss_taken (q : Byte) : exec (.fetchLoss p q) s = .next (s.ended p false ((s.heard p).fetchLoss p q)) := by
  simp only [exec, execFetchLoss, State.fullExchange_command ht ha]

/-- A CONFIG_LINE that passes its checks (R147, R148). -/
theorem exec_configLine_taken {line flags sense qual band mode rc rh : Byte} {l : LineNo} {new : LineEntry} {apply : Bool} (q : Byte)
    (hl : line.toNat = l.val) (hh : s.holder (groupOfLine l) = some p)
    (he : parseLineEntry flags sense qual band mode rc rh = some (new, apply)) :
    exec (.configLine p q line flags sense qual band mode rc rh) s =
      .next (s.ended p true ((s.heard p).configure p q l new apply)) := by
  have hh' : (s.heard p).holder (groupOfLine l) = some p := by rw [State.heard_holder ht.1]; exact hh
  simp only [exec, execConfigLine, State.fullExchange_command ht ha, parseLine_eq.2 hl, hh', if_true, he]

/-- A RETRACT of an ANY record of the caller (R114). -/
theorem exec_retract_any {slot : Byte} {n : SlotNo} {r : Record} (q : Byte) (hn : slot.toNat = n.val) (hp : 48 ≤ n.val)
    (hr : s.record n = some r) (hs : r.source = .host p) (hm : r.mode = .any) :
    exec (.retract p q slot) s =
      .next (s.ended p ((s.heard p).retractAny p q n r).routed ((s.heard p).retractAny p q n r).state) := by
  have hr' : (s.heard p).record n = some r := by rw [State.heard_record ht.1]; exact hr
  simp only [exec, execRetract, State.fullExchange_command ht ha, parseSlot_eq.2 hn, Option.filter_some, isPostedSlot, hp, decide_true,
    if_true, hr', hs, hm]

/-- A RETRACT of an EACH record of the caller (R115). -/
theorem exec_retract_each {slot : Byte} {n : SlotNo} {r : Record} (q : Byte) (hn : slot.toNat = n.val) (hp : 48 ≤ n.val)
    (hr : s.record n = some r) (hs : r.source = .host p) (hm : r.mode = .each) :
    exec (.retract p q slot) s =
      .next (s.ended p ((s.heard p).retractEach p q n r).routed ((s.heard p).retractEach p q n r).state) := by
  have hr' : (s.heard p).record n = some r := by rw [State.heard_record ht.1]; exact hr
  simp only [exec, execRetract, State.fullExchange_command ht ha, parseSlot_eq.2 hn, Option.filter_some, isPostedSlot, hp, decide_true,
    if_true, hr', hs, hm]

end

end Sys2Proof.Machine
end

