-- ==== Sys2Proof/Laws/Frames.lean ====
section
/-! SUPPORT. The frame of each shared operation: one lemma for each field, and for each reading, that it leaves alone. -/

namespace Sys2Proof.Machine

theorem State.attached_congr {s t : State} (e : t.sessions = s.sessions) : t.attached = s.attached := by
  funext k; simp only [State.attached, State.session_congr e]

/-- A fold keeps what each of its steps keeps. -/
theorem foldl_keeps {α β γ : Type} (g : β → γ) {f : β → α → β} (h : ∀ b a, g (f b a) = g b) (l : List α) (b : β) :
    g (l.foldl f b) = g b := by
  induction l generalizing b with
  | nil => rfl
  | cons a l ih => rw [List.foldl_cons, ih, h]

/-- `enqueue` changes ports at most. -/
@[simp] theorem State.enqueue_frame (s : State) (h : HostId) (m : Msg) :
    (s.enqueue h m).now = s.now ∧ (s.enqueue h m).lines = s.lines ∧ (s.enqueue h m).table = s.table ∧ (s.enqueue h m).leases = s.leases ∧
    (s.enqueue h m).slots = s.slots ∧ (s.enqueue h m).arrivals = s.arrivals ∧ (s.enqueue h m).dispatch = s.dispatch ∧
    (s.enqueue h m).sessions = s.sessions ∧ (s.enqueue h m).loss = s.loss ∧ (s.enqueue h m).missed = s.missed ∧ (s.enqueue h m).epoch = s.epoch ∧
    (s.enqueue h m).causes = s.causes ∧ (s.enqueue h m).inReset = s.inReset ∧ (s.enqueue h m).freeIdx = s.freeIdx ∧
    (s.enqueue h m).pending = s.pending ∧ (∀ x, (s.enqueue h m).record x = s.record x) ∧ (∀ x, (s.enqueue h m).serial x = s.serial x) ∧
    (∀ x, (s.enqueue h m).session x = s.session x) ∧ (∀ x, (s.enqueue h m).attached x = s.attached x) ∧ (∀ x, (s.enqueue h m).disp x = s.disp x) ∧
    (∀ x, (s.enqueue h m).entry x = s.entry x) ∧ (∀ x, (s.enqueue h m).line x = s.line x) ∧ (∀ x, (s.enqueue h m).holder x = s.holder x) := by
  exact ⟨rfl, rfl, rfl, rfl, rfl, rfl, rfl, rfl, rfl, rfl, rfl, rfl, rfl, rfl, rfl, fun _ => rfl, fun _ => rfl, fun _ => rfl, fun _ => rfl, fun _ => rfl, fun _ => rfl, fun _ => rfl, fun _ => rfl⟩

/-- `reply` changes ports at most. -/
@[simp] theorem State.reply_frame (s : State) (h : HostId) (q : Byte) (r : ResultCode) (d : ReplyData) :
    (s.reply h q r d).now = s.now ∧ (s.reply h q r d).lines = s.lines ∧ (s.reply h q r d).table = s.table ∧ (s.reply h q r d).leases = s.leases ∧
    (s.reply h q r d).slots = s.slots ∧ (s.reply h q r d).arrivals = s.arrivals ∧ (s.reply h q r d).dispatch = s.dispatch ∧
    (s.reply h q r d).sessions = s.sessions ∧ (s.reply h q r d).loss = s.loss ∧ (s.reply h q r d).missed = s.missed ∧
    (s.reply h q r d).epoch = s.epoch ∧ (s.reply h q r d).causes = s.causes ∧ (s.reply h q r d).inReset = s.inReset ∧
    (s.reply h q r d).freeIdx = s.freeIdx ∧ (s.reply h q r d).pending = s.pending ∧ (∀ x, (s.reply h q r d).record x = s.record x) ∧
    (∀ x, (s.reply h q r d).serial x = s.serial x) ∧ (∀ x, (s.reply h q r d).session x = s.session x) ∧
    (∀ x, (s.reply h q r d).attached x = s.attached x) ∧ (∀ x, (s.reply h q r d).disp x = s.disp x) ∧ (∀ x, (s.reply h q r d).entry x = s.entry x) ∧
    (∀ x, (s.reply h q r d).line x = s.line x) ∧ (∀ x, (s.reply h q r d).holder x = s.holder x) := by
  exact ⟨rfl, rfl, rfl, rfl, rfl, rfl, rfl, rfl, rfl, rfl, rfl, rfl, rfl, rfl, rfl, fun _ => rfl, fun _ => rfl, fun _ => rfl, fun _ => rfl, fun _ => rfl, fun _ => rfl, fun _ => rfl, fun _ => rfl⟩

/-- `setCs` changes ports at most. -/
@[simp] theorem State.setCs_frame (s : State) (h : HostId) (cs : ChipSelect) :
    (s.setCs h cs).now = s.now ∧ (s.setCs h cs).lines = s.lines ∧ (s.setCs h cs).table = s.table ∧ (s.setCs h cs).leases = s.leases ∧
    (s.setCs h cs).slots = s.slots ∧ (s.setCs h cs).arrivals = s.arrivals ∧ (s.setCs h cs).dispatch = s.dispatch ∧
    (s.setCs h cs).sessions = s.sessions ∧ (s.setCs h cs).loss = s.loss ∧ (s.setCs h cs).missed = s.missed ∧ (s.setCs h cs).epoch = s.epoch ∧
    (s.setCs h cs).causes = s.causes ∧ (s.setCs h cs).inReset = s.inReset ∧ (s.setCs h cs).freeIdx = s.freeIdx ∧ (s.setCs h cs).pending = s.pending ∧
    (∀ x, (s.setCs h cs).record x = s.record x) ∧ (∀ x, (s.setCs h cs).serial x = s.serial x) ∧ (∀ x, (s.setCs h cs).session x = s.session x) ∧
    (∀ x, (s.setCs h cs).attached x = s.attached x) ∧ (∀ x, (s.setCs h cs).disp x = s.disp x) ∧ (∀ x, (s.setCs h cs).entry x = s.entry x) ∧
    (∀ x, (s.setCs h cs).line x = s.line x) ∧ (∀ x, (s.setCs h cs).holder x = s.holder x) := by
  exact ⟨rfl, rfl, rfl, rfl, rfl, rfl, rfl, rfl, rfl, rfl, rfl, rfl, rfl, rfl, rfl, fun _ => rfl, fun _ => rfl, fun _ => rfl, fun _ => rfl, fun _ => rfl, fun _ => rfl, fun _ => rfl, fun _ => rfl⟩

/-- `deliver` changes ports at most. -/
@[simp] theorem State.deliver_frame (s : State) (n : Notice) :
    (s.deliver n).now = s.now ∧ (s.deliver n).lines = s.lines ∧ (s.deliver n).table = s.table ∧ (s.deliver n).leases = s.leases ∧
    (s.deliver n).slots = s.slots ∧ (s.deliver n).arrivals = s.arrivals ∧ (s.deliver n).dispatch = s.dispatch ∧ (s.deliver n).sessions = s.sessions ∧
    (s.deliver n).loss = s.loss ∧ (s.deliver n).missed = s.missed ∧ (s.deliver n).epoch = s.epoch ∧ (s.deliver n).causes = s.causes ∧
    (s.deliver n).inReset = s.inReset ∧ (s.deliver n).freeIdx = s.freeIdx ∧ (s.deliver n).pending = s.pending ∧
    (∀ x, (s.deliver n).record x = s.record x) ∧ (∀ x, (s.deliver n).serial x = s.serial x) ∧ (∀ x, (s.deliver n).session x = s.session x) ∧
    (∀ x, (s.deliver n).attached x = s.attached x) ∧ (∀ x, (s.deliver n).disp x = s.disp x) ∧ (∀ x, (s.deliver n).entry x = s.entry x) ∧
    (∀ x, (s.deliver n).line x = s.line x) ∧ (∀ x, (s.deliver n).holder x = s.holder x) := by
  have base : (s.deliver n).now = s.now ∧ (s.deliver n).lines = s.lines ∧ (s.deliver n).table = s.table ∧ (s.deliver n).leases = s.leases ∧ (s.deliver n).slots = s.slots ∧ (s.deliver n).arrivals = s.arrivals ∧ (s.deliver n).dispatch = s.dispatch ∧ (s.deliver n).sessions = s.sessions ∧ (s.deliver n).loss = s.loss ∧ (s.deliver n).missed = s.missed ∧ (s.deliver n).epoch = s.epoch ∧ (s.deliver n).causes = s.causes ∧ (s.deliver n).inReset = s.inReset ∧ (s.deliver n).freeIdx = s.freeIdx ∧ (s.deliver n).pending = s.pending := by
    unfold State.deliver; (repeat' split) <;> simp
  obtain ⟨hnow, hlines, htable, hleases, hslots, harrivals, hdispatch, hsessions, hloss, hmissed, hepoch, hcauses, hinReset, hfreeIdx, hpending⟩ := base
  exact ⟨hnow, hlines, htable, hleases, hslots, harrivals, hdispatch, hsessions, hloss, hmissed, hepoch, hcauses, hinReset, hfreeIdx, hpending, congrFun (State.record_congr hslots), congrFun (State.serial_congr hslots), congrFun (State.session_congr hsessions), congrFun (State.attached_congr hsessions), congrFun (State.disp_congr hdispatch), congrFun (State.entry_congr htable), congrFun (State.line_congr hlines), congrFun (State.holder_congr hleases)⟩

/-- `deliver?` changes ports at most. -/
@[simp] theorem State.deliverOpt_frame (s : State) (n : Option Notice) :
    (s.deliver? n).now = s.now ∧ (s.deliver? n).lines = s.lines ∧ (s.deliver? n).table = s.table ∧ (s.deliver? n).leases = s.leases ∧
    (s.deliver? n).slots = s.slots ∧ (s.deliver? n).arrivals = s.arrivals ∧ (s.deliver? n).dispatch = s.dispatch ∧
    (s.deliver? n).sessions = s.sessions ∧ (s.deliver? n).loss = s.loss ∧ (s.deliver? n).missed = s.missed ∧ (s.deliver? n).epoch = s.epoch ∧
    (s.deliver? n).causes = s.causes ∧ (s.deliver? n).inReset = s.inReset ∧ (s.deliver? n).freeIdx = s.freeIdx ∧ (s.deliver? n).pending = s.pending ∧
    (∀ x, (s.deliver? n).record x = s.record x) ∧ (∀ x, (s.deliver? n).serial x = s.serial x) ∧ (∀ x, (s.deliver? n).session x = s.session x) ∧
    (∀ x, (s.deliver? n).attached x = s.attached x) ∧ (∀ x, (s.deliver? n).disp x = s.disp x) ∧ (∀ x, (s.deliver? n).entry x = s.entry x) ∧
    (∀ x, (s.deliver? n).line x = s.line x) ∧ (∀ x, (s.deliver? n).holder x = s.holder x) := by
  have base : (s.deliver? n).now = s.now ∧ (s.deliver? n).lines = s.lines ∧ (s.deliver? n).table = s.table ∧ (s.deliver? n).leases = s.leases ∧ (s.deliver? n).slots = s.slots ∧ (s.deliver? n).arrivals = s.arrivals ∧ (s.deliver? n).dispatch = s.dispatch ∧ (s.deliver? n).sessions = s.sessions ∧ (s.deliver? n).loss = s.loss ∧ (s.deliver? n).missed = s.missed ∧ (s.deliver? n).epoch = s.epoch ∧ (s.deliver? n).causes = s.causes ∧ (s.deliver? n).inReset = s.inReset ∧ (s.deliver? n).freeIdx = s.freeIdx ∧ (s.deliver? n).pending = s.pending := by
    cases n <;> simp [State.deliver?]
  obtain ⟨hnow, hlines, htable, hleases, hslots, harrivals, hdispatch, hsessions, hloss, hmissed, hepoch, hcauses, hinReset, hfreeIdx, hpending⟩ := base
  exact ⟨hnow, hlines, htable, hleases, hslots, harrivals, hdispatch, hsessions, hloss, hmissed, hepoch, hcauses, hinReset, hfreeIdx, hpending, congrFun (State.record_congr hslots), congrFun (State.serial_congr hslots), congrFun (State.session_congr hsessions), congrFun (State.attached_congr hsessions), congrFun (State.disp_congr hdispatch), congrFun (State.entry_congr htable), congrFun (State.line_congr hlines), congrFun (State.holder_congr hleases)⟩

/-- `makeLoss` changes loss, missed at most. -/
@[simp] theorem State.makeLoss_frame (s : State) (c : LossCause) (n : SlotNo) (r : Record) (h : Option HostId) :
    (s.makeLoss c n r h).now = s.now ∧ (s.makeLoss c n r h).lines = s.lines ∧ (s.makeLoss c n r h).table = s.table ∧
    (s.makeLoss c n r h).leases = s.leases ∧ (s.makeLoss c n r h).slots = s.slots ∧ (s.makeLoss c n r h).arrivals = s.arrivals ∧
    (s.makeLoss c n r h).dispatch = s.dispatch ∧ (s.makeLoss c n r h).sessions = s.sessions ∧ (s.makeLoss c n r h).ports = s.ports ∧
    (s.makeLoss c n r h).epoch = s.epoch ∧ (s.makeLoss c n r h).causes = s.causes ∧ (s.makeLoss c n r h).inReset = s.inReset ∧
    (s.makeLoss c n r h).freeIdx = s.freeIdx ∧ (s.makeLoss c n r h).pending = s.pending ∧ (∀ x, (s.makeLoss c n r h).record x = s.record x) ∧
    (∀ x, (s.makeLoss c n r h).serial x = s.serial x) ∧ (∀ x, (s.makeLoss c n r h).session x = s.session x) ∧
    (∀ x, (s.makeLoss c n r h).attached x = s.attached x) ∧ (∀ x, (s.makeLoss c n r h).disp x = s.disp x) ∧
    (∀ x, (s.makeLoss c n r h).port x = s.port x) ∧ (∀ x, (s.makeLoss c n r h).entry x = s.entry x) ∧ (∀ x, (s.makeLoss c n r h).line x = s.line x) ∧
    (∀ x, (s.makeLoss c n r h).holder x = s.holder x) := by
  have base : (s.makeLoss c n r h).now = s.now ∧ (s.makeLoss c n r h).lines = s.lines ∧ (s.makeLoss c n r h).table = s.table ∧ (s.makeLoss c n r h).leases = s.leases ∧ (s.makeLoss c n r h).slots = s.slots ∧ (s.makeLoss c n r h).arrivals = s.arrivals ∧ (s.makeLoss c n r h).dispatch = s.dispatch ∧ (s.makeLoss c n r h).sessions = s.sessions ∧ (s.makeLoss c n r h).ports = s.ports ∧ (s.makeLoss c n r h).epoch = s.epoch ∧ (s.makeLoss c n r h).causes = s.causes ∧ (s.makeLoss c n r h).inReset = s.inReset ∧ (s.makeLoss c n r h).freeIdx = s.freeIdx ∧ (s.makeLoss c n r h).pending = s.pending := by
    unfold State.makeLoss; dsimp only; (repeat' split) <;> simp
  obtain ⟨hnow, hlines, htable, hleases, hslots, harrivals, hdispatch, hsessions, hports, hepoch, hcauses, hinReset, hfreeIdx, hpending⟩ := base
  exact ⟨hnow, hlines, htable, hleases, hslots, harrivals, hdispatch, hsessions, hports, hepoch, hcauses, hinReset, hfreeIdx, hpending, congrFun (State.record_congr hslots), congrFun (State.serial_congr hslots), congrFun (State.session_congr hsessions), congrFun (State.attached_congr hsessions), congrFun (State.disp_congr hdispatch), congrFun (State.port_congr hports), congrFun (State.entry_congr htable), congrFun (State.line_congr hlines), congrFun (State.holder_congr hleases)⟩

/-- `openRecord` changes slots, arrivals at most. -/
@[simp] theorem State.openRecord_frame (s : State) (n : SlotNo) (r : Record) :
    (s.openRecord n r).now = s.now ∧ (s.openRecord n r).lines = s.lines ∧ (s.openRecord n r).table = s.table ∧ (s.openRecord n r).leases = s.leases ∧
    (s.openRecord n r).dispatch = s.dispatch ∧ (s.openRecord n r).sessions = s.sessions ∧ (s.openRecord n r).ports = s.ports ∧
    (s.openRecord n r).loss = s.loss ∧ (s.openRecord n r).missed = s.missed ∧ (s.openRecord n r).epoch = s.epoch ∧
    (s.openRecord n r).causes = s.causes ∧ (s.openRecord n r).inReset = s.inReset ∧ (s.openRecord n r).freeIdx = s.freeIdx ∧
    (s.openRecord n r).pending = s.pending ∧ (∀ x, (s.openRecord n r).session x = s.session x) ∧
    (∀ x, (s.openRecord n r).attached x = s.attached x) ∧ (∀ x, (s.openRecord n r).disp x = s.disp x) ∧ (∀ x, (s.openRecord n r).port x = s.port x) ∧
    (∀ x, (s.openRecord n r).entry x = s.entry x) ∧ (∀ x, (s.openRecord n r).line x = s.line x) ∧
    (∀ x, (s.openRecord n r).holder x = s.holder x) := by
  exact ⟨rfl, rfl, rfl, rfl, rfl, rfl, rfl, rfl, rfl, rfl, rfl, rfl, rfl, rfl, fun _ => rfl, fun _ => rfl, fun _ => rfl, fun _ => rfl, fun _ => rfl, fun _ => rfl, fun _ => rfl⟩

/-- `freeSlot` changes slots, arrivals at most. -/
@[simp] theorem State.freeSlot_frame (s : State) (n : SlotNo) :
    (s.freeSlot n).now = s.now ∧ (s.freeSlot n).lines = s.lines ∧ (s.freeSlot n).table = s.table ∧ (s.freeSlot n).leases = s.leases ∧
    (s.freeSlot n).dispatch = s.dispatch ∧ (s.freeSlot n).sessions = s.sessions ∧ (s.freeSlot n).ports = s.ports ∧ (s.freeSlot n).loss = s.loss ∧
    (s.freeSlot n).missed = s.missed ∧ (s.freeSlot n).epoch = s.epoch ∧ (s.freeSlot n).causes = s.causes ∧ (s.freeSlot n).inReset = s.inReset ∧
    (s.freeSlot n).freeIdx = s.freeIdx ∧ (s.freeSlot n).pending = s.pending ∧ (∀ x, (s.freeSlot n).session x = s.session x) ∧
    (∀ x, (s.freeSlot n).attached x = s.attached x) ∧ (∀ x, (s.freeSlot n).disp x = s.disp x) ∧ (∀ x, (s.freeSlot n).port x = s.port x) ∧
    (∀ x, (s.freeSlot n).entry x = s.entry x) ∧ (∀ x, (s.freeSlot n).line x = s.line x) ∧ (∀ x, (s.freeSlot n).holder x = s.holder x) := by
  exact ⟨rfl, rfl, rfl, rfl, rfl, rfl, rfl, rfl, rfl, rfl, rfl, rfl, rfl, rfl, fun _ => rfl, fun _ => rfl, fun _ => rfl, fun _ => rfl, fun _ => rfl, fun _ => rfl, fun _ => rfl⟩

/-- `reopenRecord` changes slots, arrivals at most. -/
@[simp] theorem State.reopenRecord_frame (s : State) (n : SlotNo) (r : Record) :
    (s.reopenRecord n r).now = s.now ∧ (s.reopenRecord n r).lines = s.lines ∧ (s.reopenRecord n r).table = s.table ∧
    (s.reopenRecord n r).leases = s.leases ∧ (s.reopenRecord n r).dispatch = s.dispatch ∧ (s.reopenRecord n r).sessions = s.sessions ∧
    (s.reopenRecord n r).ports = s.ports ∧ (s.reopenRecord n r).loss = s.loss ∧ (s.reopenRecord n r).missed = s.missed ∧
    (s.reopenRecord n r).epoch = s.epoch ∧ (s.reopenRecord n r).causes = s.causes ∧ (s.reopenRecord n r).inReset = s.inReset ∧
    (s.reopenRecord n r).freeIdx = s.freeIdx ∧ (s.reopenRecord n r).pending = s.pending ∧ (∀ x, (s.reopenRecord n r).session x = s.session x) ∧
    (∀ x, (s.reopenRecord n r).attached x = s.attached x) ∧ (∀ x, (s.reopenRecord n r).disp x = s.disp x) ∧
    (∀ x, (s.reopenRecord n r).port x = s.port x) ∧ (∀ x, (s.reopenRecord n r).entry x = s.entry x) ∧ (∀ x, (s.reopenRecord n r).line x = s.line x) ∧
    (∀ x, (s.reopenRecord n r).holder x = s.holder x) := by
  exact ⟨rfl, rfl, rfl, rfl, rfl, rfl, rfl, rfl, rfl, rfl, rfl, rfl, rfl, rfl, fun _ => rfl, fun _ => rfl, fun _ => rfl, fun _ => rfl, fun _ => rfl, fun _ => rfl, fun _ => rfl⟩

/-- `complete_state` changes slots, arrivals at most. -/
@[simp] theorem State.complete_state_frame (s : State) (n : SlotNo) (r : Record) (o : CompletionOutcome) :
    ((s.complete n r o).state).now = s.now ∧ ((s.complete n r o).state).lines = s.lines ∧ ((s.complete n r o).state).table = s.table ∧
    ((s.complete n r o).state).leases = s.leases ∧ ((s.complete n r o).state).dispatch = s.dispatch ∧
    ((s.complete n r o).state).sessions = s.sessions ∧ ((s.complete n r o).state).ports = s.ports ∧ ((s.complete n r o).state).loss = s.loss ∧
    ((s.complete n r o).state).missed = s.missed ∧ ((s.complete n r o).state).epoch = s.epoch ∧ ((s.complete n r o).state).causes = s.causes ∧
    ((s.complete n r o).state).inReset = s.inReset ∧ ((s.complete n r o).state).freeIdx = s.freeIdx ∧
    ((s.complete n r o).state).pending = s.pending ∧ (∀ x, ((s.complete n r o).state).session x = s.session x) ∧
    (∀ x, ((s.complete n r o).state).attached x = s.attached x) ∧ (∀ x, ((s.complete n r o).state).disp x = s.disp x) ∧
    (∀ x, ((s.complete n r o).state).port x = s.port x) ∧ (∀ x, ((s.complete n r o).state).entry x = s.entry x) ∧
    (∀ x, ((s.complete n r o).state).line x = s.line x) ∧ (∀ x, ((s.complete n r o).state).holder x = s.holder x) := by
  have base : ((s.complete n r o).state).now = s.now ∧ ((s.complete n r o).state).lines = s.lines ∧ ((s.complete n r o).state).table = s.table ∧ ((s.complete n r o).state).leases = s.leases ∧ ((s.complete n r o).state).dispatch = s.dispatch ∧ ((s.complete n r o).state).sessions = s.sessions ∧ ((s.complete n r o).state).ports = s.ports ∧ ((s.complete n r o).state).loss = s.loss ∧ ((s.complete n r o).state).missed = s.missed ∧ ((s.complete n r o).state).epoch = s.epoch ∧ ((s.complete n r o).state).causes = s.causes ∧ ((s.complete n r o).state).inReset = s.inReset ∧ ((s.complete n r o).state).freeIdx = s.freeIdx ∧ ((s.complete n r o).state).pending = s.pending := by
    unfold State.complete; (repeat' split) <;> simp
  obtain ⟨hnow, hlines, htable, hleases, hdispatch, hsessions, hports, hloss, hmissed, hepoch, hcauses, hinReset, hfreeIdx, hpending⟩ := base
  exact ⟨hnow, hlines, htable, hleases, hdispatch, hsessions, hports, hloss, hmissed, hepoch, hcauses, hinReset, hfreeIdx, hpending, congrFun (State.session_congr hsessions), congrFun (State.attached_congr hsessions), congrFun (State.disp_congr hdispatch), congrFun (State.port_congr hports), congrFun (State.entry_congr htable), congrFun (State.line_congr hlines), congrFun (State.holder_congr hleases)⟩

/-- `removeCopy_state` changes slots, arrivals at most. -/
@[simp] theorem State.removeCopy_state_frame (s : State) (n : SlotNo) (h : HostId) :
    ((s.removeCopy n h).state).now = s.now ∧ ((s.removeCopy n h).state).lines = s.lines ∧ ((s.removeCopy n h).state).table = s.table ∧
    ((s.removeCopy n h).state).leases = s.leases ∧ ((s.removeCopy n h).state).dispatch = s.dispatch ∧
    ((s.removeCopy n h).state).sessions = s.sessions ∧ ((s.removeCopy n h).state).ports = s.ports ∧ ((s.removeCopy n h).state).loss = s.loss ∧
    ((s.removeCopy n h).state).missed = s.missed ∧ ((s.removeCopy n h).state).epoch = s.epoch ∧ ((s.removeCopy n h).state).causes = s.causes ∧
    ((s.removeCopy n h).state).inReset = s.inReset ∧ ((s.removeCopy n h).state).freeIdx = s.freeIdx ∧
    ((s.removeCopy n h).state).pending = s.pending ∧ (∀ x, ((s.removeCopy n h).state).session x = s.session x) ∧
    (∀ x, ((s.removeCopy n h).state).attached x = s.attached x) ∧ (∀ x, ((s.removeCopy n h).state).disp x = s.disp x) ∧
    (∀ x, ((s.removeCopy n h).state).port x = s.port x) ∧ (∀ x, ((s.removeCopy n h).state).entry x = s.entry x) ∧
    (∀ x, ((s.removeCopy n h).state).line x = s.line x) ∧ (∀ x, ((s.removeCopy n h).state).holder x = s.holder x) := by
  have base : ((s.removeCopy n h).state).now = s.now ∧ ((s.removeCopy n h).state).lines = s.lines ∧ ((s.removeCopy n h).state).table = s.table ∧ ((s.removeCopy n h).state).leases = s.leases ∧ ((s.removeCopy n h).state).dispatch = s.dispatch ∧ ((s.removeCopy n h).state).sessions = s.sessions ∧ ((s.removeCopy n h).state).ports = s.ports ∧ ((s.removeCopy n h).state).loss = s.loss ∧ ((s.removeCopy n h).state).missed = s.missed ∧ ((s.removeCopy n h).state).epoch = s.epoch ∧ ((s.removeCopy n h).state).causes = s.causes ∧ ((s.removeCopy n h).state).inReset = s.inReset ∧ ((s.removeCopy n h).state).freeIdx = s.freeIdx ∧ ((s.removeCopy n h).state).pending = s.pending := by
    unfold State.removeCopy; split <;> dsimp only <;> (try split) <;> simp
  obtain ⟨hnow, hlines, htable, hleases, hdispatch, hsessions, hports, hloss, hmissed, hepoch, hcauses, hinReset, hfreeIdx, hpending⟩ := base
  exact ⟨hnow, hlines, htable, hleases, hdispatch, hsessions, hports, hloss, hmissed, hepoch, hcauses, hinReset, hfreeIdx, hpending, congrFun (State.session_congr hsessions), congrFun (State.attached_congr hsessions), congrFun (State.disp_congr hdispatch), congrFun (State.port_congr hports), congrFun (State.entry_congr htable), congrFun (State.line_congr hlines), congrFun (State.holder_congr hleases)⟩

/-- `saturate` changes slots, loss, missed at most. -/
@[simp] theorem State.saturate_frame (s : State) (n : SlotNo) (r : Record) :
    (s.saturate n r).now = s.now ∧ (s.saturate n r).lines = s.lines ∧ (s.saturate n r).table = s.table ∧ (s.saturate n r).leases = s.leases ∧
    (s.saturate n r).arrivals = s.arrivals ∧ (s.saturate n r).dispatch = s.dispatch ∧ (s.saturate n r).sessions = s.sessions ∧
    (s.saturate n r).ports = s.ports ∧ (s.saturate n r).epoch = s.epoch ∧ (s.saturate n r).causes = s.causes ∧ (s.saturate n r).inReset = s.inReset ∧
    (s.saturate n r).freeIdx = s.freeIdx ∧ (s.saturate n r).pending = s.pending ∧ (∀ x, (s.saturate n r).session x = s.session x) ∧
    (∀ x, (s.saturate n r).attached x = s.attached x) ∧ (∀ x, (s.saturate n r).disp x = s.disp x) ∧ (∀ x, (s.saturate n r).port x = s.port x) ∧
    (∀ x, (s.saturate n r).entry x = s.entry x) ∧ (∀ x, (s.saturate n r).line x = s.line x) ∧ (∀ x, (s.saturate n r).holder x = s.holder x) := by
  have base : (s.saturate n r).now = s.now ∧ (s.saturate n r).lines = s.lines ∧ (s.saturate n r).table = s.table ∧ (s.saturate n r).leases = s.leases ∧ (s.saturate n r).arrivals = s.arrivals ∧ (s.saturate n r).dispatch = s.dispatch ∧ (s.saturate n r).sessions = s.sessions ∧ (s.saturate n r).ports = s.ports ∧ (s.saturate n r).epoch = s.epoch ∧ (s.saturate n r).causes = s.causes ∧ (s.saturate n r).inReset = s.inReset ∧ (s.saturate n r).freeIdx = s.freeIdx ∧ (s.saturate n r).pending = s.pending := by
    unfold State.saturate; dsimp only; (repeat' split) <;> simp
  obtain ⟨hnow, hlines, htable, hleases, harrivals, hdispatch, hsessions, hports, hepoch, hcauses, hinReset, hfreeIdx, hpending⟩ := base
  exact ⟨hnow, hlines, htable, hleases, harrivals, hdispatch, hsessions, hports, hepoch, hcauses, hinReset, hfreeIdx, hpending, congrFun (State.session_congr hsessions), congrFun (State.attached_congr hsessions), congrFun (State.disp_congr hdispatch), congrFun (State.port_congr hports), congrFun (State.entry_congr htable), congrFun (State.line_congr hlines), congrFun (State.holder_congr hleases)⟩

/-- `arrive` changes slots, arrivals, loss, missed at most. -/
@[simp] theorem State.arrive_frame (s : State) (l : LineNo) :
    (s.arrive l).now = s.now ∧ (s.arrive l).lines = s.lines ∧ (s.arrive l).table = s.table ∧ (s.arrive l).leases = s.leases ∧
    (s.arrive l).dispatch = s.dispatch ∧ (s.arrive l).sessions = s.sessions ∧ (s.arrive l).ports = s.ports ∧ (s.arrive l).epoch = s.epoch ∧
    (s.arrive l).causes = s.causes ∧ (s.arrive l).inReset = s.inReset ∧ (s.arrive l).freeIdx = s.freeIdx ∧ (s.arrive l).pending = s.pending ∧
    (∀ x, (s.arrive l).session x = s.session x) ∧ (∀ x, (s.arrive l).attached x = s.attached x) ∧ (∀ x, (s.arrive l).disp x = s.disp x) ∧
    (∀ x, (s.arrive l).port x = s.port x) ∧ (∀ x, (s.arrive l).entry x = s.entry x) ∧ (∀ x, (s.arrive l).line x = s.line x) ∧
    (∀ x, (s.arrive l).holder x = s.holder x) := by
  have base : (s.arrive l).now = s.now ∧ (s.arrive l).lines = s.lines ∧ (s.arrive l).table = s.table ∧ (s.arrive l).leases = s.leases ∧ (s.arrive l).dispatch = s.dispatch ∧ (s.arrive l).sessions = s.sessions ∧ (s.arrive l).ports = s.ports ∧ (s.arrive l).epoch = s.epoch ∧ (s.arrive l).causes = s.causes ∧ (s.arrive l).inReset = s.inReset ∧ (s.arrive l).freeIdx = s.freeIdx ∧ (s.arrive l).pending = s.pending := by
    unfold State.arrive; dsimp only; (repeat' split) <;> simp
  obtain ⟨hnow, hlines, htable, hleases, hdispatch, hsessions, hports, hepoch, hcauses, hinReset, hfreeIdx, hpending⟩ := base
  exact ⟨hnow, hlines, htable, hleases, hdispatch, hsessions, hports, hepoch, hcauses, hinReset, hfreeIdx, hpending, congrFun (State.session_congr hsessions), congrFun (State.attached_congr hsessions), congrFun (State.disp_congr hdispatch), congrFun (State.port_congr hports), congrFun (State.entry_congr htable), congrFun (State.line_congr hlines), congrFun (State.holder_congr hleases)⟩

/-- `roundEnd_fst` changes slots, arrivals, loss, missed at most. -/
@[simp] theorem State.roundEnd_fst_frame (s : State) (n : SlotNo) :
    ((s.roundEnd n).1).now = s.now ∧ ((s.roundEnd n).1).lines = s.lines ∧ ((s.roundEnd n).1).table = s.table ∧ ((s.roundEnd n).1).leases = s.leases ∧
    ((s.roundEnd n).1).dispatch = s.dispatch ∧ ((s.roundEnd n).1).sessions = s.sessions ∧ ((s.roundEnd n).1).ports = s.ports ∧
    ((s.roundEnd n).1).epoch = s.epoch ∧ ((s.roundEnd n).1).causes = s.causes ∧ ((s.roundEnd n).1).inReset = s.inReset ∧
    ((s.roundEnd n).1).freeIdx = s.freeIdx ∧ ((s.roundEnd n).1).pending = s.pending ∧ (∀ x, ((s.roundEnd n).1).session x = s.session x) ∧
    (∀ x, ((s.roundEnd n).1).attached x = s.attached x) ∧ (∀ x, ((s.roundEnd n).1).disp x = s.disp x) ∧ (∀ x, ((s.roundEnd n).1).port x = s.port x) ∧
    (∀ x, ((s.roundEnd n).1).entry x = s.entry x) ∧ (∀ x, ((s.roundEnd n).1).line x = s.line x) ∧
    (∀ x, ((s.roundEnd n).1).holder x = s.holder x) := by
  have base : ((s.roundEnd n).1).now = s.now ∧ ((s.roundEnd n).1).lines = s.lines ∧ ((s.roundEnd n).1).table = s.table ∧ ((s.roundEnd n).1).leases = s.leases ∧ ((s.roundEnd n).1).dispatch = s.dispatch ∧ ((s.roundEnd n).1).sessions = s.sessions ∧ ((s.roundEnd n).1).ports = s.ports ∧ ((s.roundEnd n).1).epoch = s.epoch ∧ ((s.roundEnd n).1).causes = s.causes ∧ ((s.roundEnd n).1).inReset = s.inReset ∧ ((s.roundEnd n).1).freeIdx = s.freeIdx ∧ ((s.roundEnd n).1).pending = s.pending := by
    unfold State.roundEnd; (repeat' split) <;> simp
  obtain ⟨hnow, hlines, htable, hleases, hdispatch, hsessions, hports, hepoch, hcauses, hinReset, hfreeIdx, hpending⟩ := base
  exact ⟨hnow, hlines, htable, hleases, hdispatch, hsessions, hports, hepoch, hcauses, hinReset, hfreeIdx, hpending, congrFun (State.session_congr hsessions), congrFun (State.attached_congr hsessions), congrFun (State.disp_congr hdispatch), congrFun (State.port_congr hports), congrFun (State.entry_congr htable), congrFun (State.line_congr hlines), congrFun (State.holder_congr hleases)⟩

/-- `roundEndDelivered` changes slots, arrivals, loss, missed, ports at most. -/
@[simp] theorem State.roundEndDelivered_frame (s : State) (n : SlotNo) :
    (s.roundEndDelivered n).now = s.now ∧ (s.roundEndDelivered n).lines = s.lines ∧ (s.roundEndDelivered n).table = s.table ∧
    (s.roundEndDelivered n).leases = s.leases ∧ (s.roundEndDelivered n).dispatch = s.dispatch ∧ (s.roundEndDelivered n).sessions = s.sessions ∧
    (s.roundEndDelivered n).epoch = s.epoch ∧ (s.roundEndDelivered n).causes = s.causes ∧ (s.roundEndDelivered n).inReset = s.inReset ∧
    (s.roundEndDelivered n).freeIdx = s.freeIdx ∧ (s.roundEndDelivered n).pending = s.pending ∧
    (∀ x, (s.roundEndDelivered n).session x = s.session x) ∧ (∀ x, (s.roundEndDelivered n).attached x = s.attached x) ∧
    (∀ x, (s.roundEndDelivered n).disp x = s.disp x) ∧ (∀ x, (s.roundEndDelivered n).entry x = s.entry x) ∧
    (∀ x, (s.roundEndDelivered n).line x = s.line x) ∧ (∀ x, (s.roundEndDelivered n).holder x = s.holder x) := by
  have base : (s.roundEndDelivered n).now = s.now ∧ (s.roundEndDelivered n).lines = s.lines ∧ (s.roundEndDelivered n).table = s.table ∧ (s.roundEndDelivered n).leases = s.leases ∧ (s.roundEndDelivered n).dispatch = s.dispatch ∧ (s.roundEndDelivered n).sessions = s.sessions ∧ (s.roundEndDelivered n).epoch = s.epoch ∧ (s.roundEndDelivered n).causes = s.causes ∧ (s.roundEndDelivered n).inReset = s.inReset ∧ (s.roundEndDelivered n).freeIdx = s.freeIdx ∧ (s.roundEndDelivered n).pending = s.pending := by
    unfold State.roundEndDelivered; simp
  obtain ⟨hnow, hlines, htable, hleases, hdispatch, hsessions, hepoch, hcauses, hinReset, hfreeIdx, hpending⟩ := base
  exact ⟨hnow, hlines, htable, hleases, hdispatch, hsessions, hepoch, hcauses, hinReset, hfreeIdx, hpending, congrFun (State.session_congr hsessions), congrFun (State.attached_congr hsessions), congrFun (State.disp_congr hdispatch), congrFun (State.entry_congr htable), congrFun (State.line_congr hlines), congrFun (State.holder_congr hleases)⟩

/-- `roundEnds` changes slots, arrivals, loss, missed, ports at most. -/
@[simp] theorem State.roundEnds_frame (s : State) :
    (s.roundEnds).now = s.now ∧ (s.roundEnds).lines = s.lines ∧ (s.roundEnds).table = s.table ∧ (s.roundEnds).leases = s.leases ∧
    (s.roundEnds).dispatch = s.dispatch ∧ (s.roundEnds).sessions = s.sessions ∧ (s.roundEnds).epoch = s.epoch ∧ (s.roundEnds).causes = s.causes ∧
    (s.roundEnds).inReset = s.inReset ∧ (s.roundEnds).freeIdx = s.freeIdx ∧ (s.roundEnds).pending = s.pending ∧
    (∀ x, (s.roundEnds).session x = s.session x) ∧ (∀ x, (s.roundEnds).attached x = s.attached x) ∧ (∀ x, (s.roundEnds).disp x = s.disp x) ∧
    (∀ x, (s.roundEnds).entry x = s.entry x) ∧ (∀ x, (s.roundEnds).line x = s.line x) ∧ (∀ x, (s.roundEnds).holder x = s.holder x) := by
  have base : (s.roundEnds).now = s.now ∧ (s.roundEnds).lines = s.lines ∧ (s.roundEnds).table = s.table ∧ (s.roundEnds).leases = s.leases ∧ (s.roundEnds).dispatch = s.dispatch ∧ (s.roundEnds).sessions = s.sessions ∧ (s.roundEnds).epoch = s.epoch ∧ (s.roundEnds).causes = s.causes ∧ (s.roundEnds).inReset = s.inReset ∧ (s.roundEnds).freeIdx = s.freeIdx ∧ (s.roundEnds).pending = s.pending := by
    refine ⟨?_, ?_, ?_, ?_, ?_, ?_, ?_, ?_, ?_, ?_, ?_⟩
    · unfold State.roundEnds; exact foldl_keeps (fun t : State => t.now) (fun t n => by simp) _ _
    · unfold State.roundEnds; exact foldl_keeps (fun t : State => t.lines) (fun t n => by simp) _ _
    · unfold State.roundEnds; exact foldl_keeps (fun t : State => t.table) (fun t n => by simp) _ _
    · unfold State.roundEnds; exact foldl_keeps (fun t : State => t.leases) (fun t n => by simp) _ _
    · unfold State.roundEnds; exact foldl_keeps (fun t : State => t.dispatch) (fun t n => by simp) _ _
    · unfold State.roundEnds; exact foldl_keeps (fun t : State => t.sessions) (fun t n => by simp) _ _
    · unfold State.roundEnds; exact foldl_keeps (fun t : State => t.epoch) (fun t n => by simp) _ _
    · unfold State.roundEnds; exact foldl_keeps (fun t : State => t.causes) (fun t n => by simp) _ _
    · unfold State.roundEnds; exact foldl_keeps (fun t : State => t.inReset) (fun t n => by simp) _ _
    · unfold State.roundEnds; exact foldl_keeps (fun t : State => t.freeIdx) (fun t n => by simp) _ _
    · unfold State.roundEnds; exact foldl_keeps (fun t : State => t.pending) (fun t n => by simp) _ _
  obtain ⟨hnow, hlines, htable, hleases, hdispatch, hsessions, hepoch, hcauses, hinReset, hfreeIdx, hpending⟩ := base
  exact ⟨hnow, hlines, htable, hleases, hdispatch, hsessions, hepoch, hcauses, hinReset, hfreeIdx, hpending, congrFun (State.session_congr hsessions), congrFun (State.attached_congr hsessions), congrFun (State.disp_congr hdispatch), congrFun (State.entry_congr htable), congrFun (State.line_congr hlines), congrFun (State.holder_congr hleases)⟩

/-- `makeOffer` changes slots, dispatch, ports at most. -/
@[simp] theorem State.makeOffer_frame (s : State) (h : HostId) (n : SlotNo) :
    (s.makeOffer h n).now = s.now ∧ (s.makeOffer h n).lines = s.lines ∧ (s.makeOffer h n).table = s.table ∧ (s.makeOffer h n).leases = s.leases ∧
    (s.makeOffer h n).arrivals = s.arrivals ∧ (s.makeOffer h n).sessions = s.sessions ∧ (s.makeOffer h n).loss = s.loss ∧
    (s.makeOffer h n).missed = s.missed ∧ (s.makeOffer h n).epoch = s.epoch ∧ (s.makeOffer h n).causes = s.causes ∧
    (s.makeOffer h n).inReset = s.inReset ∧ (s.makeOffer h n).freeIdx = s.freeIdx ∧ (s.makeOffer h n).pending = s.pending ∧
    (∀ x, (s.makeOffer h n).session x = s.session x) ∧ (∀ x, (s.makeOffer h n).attached x = s.attached x) ∧
    (∀ x, (s.makeOffer h n).entry x = s.entry x) ∧ (∀ x, (s.makeOffer h n).line x = s.line x) ∧ (∀ x, (s.makeOffer h n).holder x = s.holder x) := by
  have base : (s.makeOffer h n).now = s.now ∧ (s.makeOffer h n).lines = s.lines ∧ (s.makeOffer h n).table = s.table ∧ (s.makeOffer h n).leases = s.leases ∧ (s.makeOffer h n).arrivals = s.arrivals ∧ (s.makeOffer h n).sessions = s.sessions ∧ (s.makeOffer h n).loss = s.loss ∧ (s.makeOffer h n).missed = s.missed ∧ (s.makeOffer h n).epoch = s.epoch ∧ (s.makeOffer h n).causes = s.causes ∧ (s.makeOffer h n).inReset = s.inReset ∧ (s.makeOffer h n).freeIdx = s.freeIdx ∧ (s.makeOffer h n).pending = s.pending := by
    unfold State.makeOffer; split <;> simp
  obtain ⟨hnow, hlines, htable, hleases, harrivals, hsessions, hloss, hmissed, hepoch, hcauses, hinReset, hfreeIdx, hpending⟩ := base
  exact ⟨hnow, hlines, htable, hleases, harrivals, hsessions, hloss, hmissed, hepoch, hcauses, hinReset, hfreeIdx, hpending, congrFun (State.session_congr hsessions), congrFun (State.attached_congr hsessions), congrFun (State.entry_congr htable), congrFun (State.line_congr hlines), congrFun (State.holder_congr hleases)⟩

/-- `arbiterFill` changes slots, dispatch, ports at most. -/
@[simp] theorem State.arbiterFill_frame (s : State) (h : HostId) :
    (s.arbiterFill h).now = s.now ∧ (s.arbiterFill h).lines = s.lines ∧ (s.arbiterFill h).table = s.table ∧ (s.arbiterFill h).leases = s.leases ∧
    (s.arbiterFill h).arrivals = s.arrivals ∧ (s.arbiterFill h).sessions = s.sessions ∧ (s.arbiterFill h).loss = s.loss ∧
    (s.arbiterFill h).missed = s.missed ∧ (s.arbiterFill h).epoch = s.epoch ∧ (s.arbiterFill h).causes = s.causes ∧
    (s.arbiterFill h).inReset = s.inReset ∧ (s.arbiterFill h).freeIdx = s.freeIdx ∧ (s.arbiterFill h).pending = s.pending ∧
    (∀ x, (s.arbiterFill h).session x = s.session x) ∧ (∀ x, (s.arbiterFill h).attached x = s.attached x) ∧
    (∀ x, (s.arbiterFill h).entry x = s.entry x) ∧ (∀ x, (s.arbiterFill h).line x = s.line x) ∧ (∀ x, (s.arbiterFill h).holder x = s.holder x) := by
  have base : (s.arbiterFill h).now = s.now ∧ (s.arbiterFill h).lines = s.lines ∧ (s.arbiterFill h).table = s.table ∧ (s.arbiterFill h).leases = s.leases ∧ (s.arbiterFill h).arrivals = s.arrivals ∧ (s.arbiterFill h).sessions = s.sessions ∧ (s.arbiterFill h).loss = s.loss ∧ (s.arbiterFill h).missed = s.missed ∧ (s.arbiterFill h).epoch = s.epoch ∧ (s.arbiterFill h).causes = s.causes ∧ (s.arbiterFill h).inReset = s.inReset ∧ (s.arbiterFill h).freeIdx = s.freeIdx ∧ (s.arbiterFill h).pending = s.pending := by
    unfold State.arbiterFill; (repeat' split) <;> simp
  obtain ⟨hnow, hlines, htable, hleases, harrivals, hsessions, hloss, hmissed, hepoch, hcauses, hinReset, hfreeIdx, hpending⟩ := base
  exact ⟨hnow, hlines, htable, hleases, harrivals, hsessions, hloss, hmissed, hepoch, hcauses, hinReset, hfreeIdx, hpending, congrFun (State.session_congr hsessions), congrFun (State.attached_congr hsessions), congrFun (State.entry_congr htable), congrFun (State.line_congr hlines), congrFun (State.holder_congr hleases)⟩

/-- `fillDue` changes slots, dispatch, ports at most. -/
@[simp] theorem State.fillDue_frame (s : State) (o : HostId × SlotNo) :
    (s.fillDue o).now = s.now ∧ (s.fillDue o).lines = s.lines ∧ (s.fillDue o).table = s.table ∧ (s.fillDue o).leases = s.leases ∧
    (s.fillDue o).arrivals = s.arrivals ∧ (s.fillDue o).sessions = s.sessions ∧ (s.fillDue o).loss = s.loss ∧ (s.fillDue o).missed = s.missed ∧
    (s.fillDue o).epoch = s.epoch ∧ (s.fillDue o).causes = s.causes ∧ (s.fillDue o).inReset = s.inReset ∧ (s.fillDue o).freeIdx = s.freeIdx ∧
    (s.fillDue o).pending = s.pending ∧ (∀ x, (s.fillDue o).session x = s.session x) ∧ (∀ x, (s.fillDue o).attached x = s.attached x) ∧
    (∀ x, (s.fillDue o).entry x = s.entry x) ∧ (∀ x, (s.fillDue o).line x = s.line x) ∧ (∀ x, (s.fillDue o).holder x = s.holder x) := by
  have base : (s.fillDue o).now = s.now ∧ (s.fillDue o).lines = s.lines ∧ (s.fillDue o).table = s.table ∧ (s.fillDue o).leases = s.leases ∧ (s.fillDue o).arrivals = s.arrivals ∧ (s.fillDue o).sessions = s.sessions ∧ (s.fillDue o).loss = s.loss ∧ (s.fillDue o).missed = s.missed ∧ (s.fillDue o).epoch = s.epoch ∧ (s.fillDue o).causes = s.causes ∧ (s.fillDue o).inReset = s.inReset ∧ (s.fillDue o).freeIdx = s.freeIdx ∧ (s.fillDue o).pending = s.pending := by
    unfold State.fillDue; (repeat' split) <;> simp
  obtain ⟨hnow, hlines, htable, hleases, harrivals, hsessions, hloss, hmissed, hepoch, hcauses, hinReset, hfreeIdx, hpending⟩ := base
  exact ⟨hnow, hlines, htable, hleases, harrivals, hsessions, hloss, hmissed, hepoch, hcauses, hinReset, hfreeIdx, hpending, congrFun (State.session_congr hsessions), congrFun (State.attached_congr hsessions), congrFun (State.entry_congr htable), congrFun (State.line_congr hlines), congrFun (State.holder_congr hleases)⟩

/-- `fillAll` changes slots, dispatch, ports at most. -/
@[simp] theorem State.fillAll_frame (s : State) :
    (s.fillAll).now = s.now ∧ (s.fillAll).lines = s.lines ∧ (s.fillAll).table = s.table ∧ (s.fillAll).leases = s.leases ∧
    (s.fillAll).arrivals = s.arrivals ∧ (s.fillAll).sessions = s.sessions ∧ (s.fillAll).loss = s.loss ∧ (s.fillAll).missed = s.missed ∧
    (s.fillAll).epoch = s.epoch ∧ (s.fillAll).causes = s.causes ∧ (s.fillAll).inReset = s.inReset ∧ (s.fillAll).freeIdx = s.freeIdx ∧
    (s.fillAll).pending = s.pending ∧ (∀ x, (s.fillAll).session x = s.session x) ∧ (∀ x, (s.fillAll).attached x = s.attached x) ∧
    (∀ x, (s.fillAll).entry x = s.entry x) ∧ (∀ x, (s.fillAll).line x = s.line x) ∧ (∀ x, (s.fillAll).holder x = s.holder x) := by
  have base : (s.fillAll).now = s.now ∧ (s.fillAll).lines = s.lines ∧ (s.fillAll).table = s.table ∧ (s.fillAll).leases = s.leases ∧ (s.fillAll).arrivals = s.arrivals ∧ (s.fillAll).sessions = s.sessions ∧ (s.fillAll).loss = s.loss ∧ (s.fillAll).missed = s.missed ∧ (s.fillAll).epoch = s.epoch ∧ (s.fillAll).causes = s.causes ∧ (s.fillAll).inReset = s.inReset ∧ (s.fillAll).freeIdx = s.freeIdx ∧ (s.fillAll).pending = s.pending := by
    refine ⟨?_, ?_, ?_, ?_, ?_, ?_, ?_, ?_, ?_, ?_, ?_, ?_, ?_⟩
    · unfold State.fillAll; exact foldl_keeps (fun t : State => t.now) (fun t n => by simp) _ _
    · unfold State.fillAll; exact foldl_keeps (fun t : State => t.lines) (fun t n => by simp) _ _
    · unfold State.fillAll; exact foldl_keeps (fun t : State => t.table) (fun t n => by simp) _ _
    · unfold State.fillAll; exact foldl_keeps (fun t : State => t.leases) (fun t n => by simp) _ _
    · unfold State.fillAll; exact foldl_keeps (fun t : State => t.arrivals) (fun t n => by simp) _ _
    · unfold State.fillAll; exact foldl_keeps (fun t : State => t.sessions) (fun t n => by simp) _ _
    · unfold State.fillAll; exact foldl_keeps (fun t : State => t.loss) (fun t n => by simp) _ _
    · unfold State.fillAll; exact foldl_keeps (fun t : State => t.missed) (fun t n => by simp) _ _
    · unfold State.fillAll; exact foldl_keeps (fun t : State => t.epoch) (fun t n => by simp) _ _
    · unfold State.fillAll; exact foldl_keeps (fun t : State => t.causes) (fun t n => by simp) _ _
    · unfold State.fillAll; exact foldl_keeps (fun t : State => t.inReset) (fun t n => by simp) _ _
    · unfold State.fillAll; exact foldl_keeps (fun t : State => t.freeIdx) (fun t n => by simp) _ _
    · unfold State.fillAll; exact foldl_keeps (fun t : State => t.pending) (fun t n => by simp) _ _
  obtain ⟨hnow, hlines, htable, hleases, harrivals, hsessions, hloss, hmissed, hepoch, hcauses, hinReset, hfreeIdx, hpending⟩ := base
  exact ⟨hnow, hlines, htable, hleases, harrivals, hsessions, hloss, hmissed, hepoch, hcauses, hinReset, hfreeIdx, hpending, congrFun (State.session_congr hsessions), congrFun (State.attached_congr hsessions), congrFun (State.entry_congr htable), congrFun (State.line_congr hlines), congrFun (State.holder_congr hleases)⟩

/-- `withdraw` changes slots, dispatch, ports at most. -/
@[simp] theorem State.withdraw_frame (s : State) (h : HostId) (r : Reason) :
    (s.withdraw h r).now = s.now ∧ (s.withdraw h r).lines = s.lines ∧ (s.withdraw h r).table = s.table ∧ (s.withdraw h r).leases = s.leases ∧
    (s.withdraw h r).arrivals = s.arrivals ∧ (s.withdraw h r).sessions = s.sessions ∧ (s.withdraw h r).loss = s.loss ∧
    (s.withdraw h r).missed = s.missed ∧ (s.withdraw h r).epoch = s.epoch ∧ (s.withdraw h r).causes = s.causes ∧
    (s.withdraw h r).inReset = s.inReset ∧ (s.withdraw h r).freeIdx = s.freeIdx ∧ (s.withdraw h r).pending = s.pending ∧
    (∀ x, (s.withdraw h r).session x = s.session x) ∧ (∀ x, (s.withdraw h r).attached x = s.attached x) ∧
    (∀ x, (s.withdraw h r).entry x = s.entry x) ∧ (∀ x, (s.withdraw h r).line x = s.line x) ∧ (∀ x, (s.withdraw h r).holder x = s.holder x) := by
  have base : (s.withdraw h r).now = s.now ∧ (s.withdraw h r).lines = s.lines ∧ (s.withdraw h r).table = s.table ∧ (s.withdraw h r).leases = s.leases ∧ (s.withdraw h r).arrivals = s.arrivals ∧ (s.withdraw h r).sessions = s.sessions ∧ (s.withdraw h r).loss = s.loss ∧ (s.withdraw h r).missed = s.missed ∧ (s.withdraw h r).epoch = s.epoch ∧ (s.withdraw h r).causes = s.causes ∧ (s.withdraw h r).inReset = s.inReset ∧ (s.withdraw h r).freeIdx = s.freeIdx ∧ (s.withdraw h r).pending = s.pending := by
    unfold State.withdraw; split <;> simp
  obtain ⟨hnow, hlines, htable, hleases, harrivals, hsessions, hloss, hmissed, hepoch, hcauses, hinReset, hfreeIdx, hpending⟩ := base
  exact ⟨hnow, hlines, htable, hleases, harrivals, hsessions, hloss, hmissed, hepoch, hcauses, hinReset, hfreeIdx, hpending, congrFun (State.session_congr hsessions), congrFun (State.attached_congr hsessions), congrFun (State.entry_congr htable), congrFun (State.line_congr hlines), congrFun (State.holder_congr hleases)⟩

/-- `withdrawAll` changes slots, dispatch, ports at most. -/
@[simp] theorem State.withdrawAll_frame (s : State) (n : SlotNo) (r : Reason) :
    (s.withdrawAll n r).now = s.now ∧ (s.withdrawAll n r).lines = s.lines ∧ (s.withdrawAll n r).table = s.table ∧
    (s.withdrawAll n r).leases = s.leases ∧ (s.withdrawAll n r).arrivals = s.arrivals ∧ (s.withdrawAll n r).sessions = s.sessions ∧
    (s.withdrawAll n r).loss = s.loss ∧ (s.withdrawAll n r).missed = s.missed ∧ (s.withdrawAll n r).epoch = s.epoch ∧
    (s.withdrawAll n r).causes = s.causes ∧ (s.withdrawAll n r).inReset = s.inReset ∧ (s.withdrawAll n r).freeIdx = s.freeIdx ∧
    (s.withdrawAll n r).pending = s.pending ∧ (∀ x, (s.withdrawAll n r).session x = s.session x) ∧
    (∀ x, (s.withdrawAll n r).attached x = s.attached x) ∧ (∀ x, (s.withdrawAll n r).entry x = s.entry x) ∧
    (∀ x, (s.withdrawAll n r).line x = s.line x) ∧ (∀ x, (s.withdrawAll n r).holder x = s.holder x) := by
  have base : (s.withdrawAll n r).now = s.now ∧ (s.withdrawAll n r).lines = s.lines ∧ (s.withdrawAll n r).table = s.table ∧ (s.withdrawAll n r).leases = s.leases ∧ (s.withdrawAll n r).arrivals = s.arrivals ∧ (s.withdrawAll n r).sessions = s.sessions ∧ (s.withdrawAll n r).loss = s.loss ∧ (s.withdrawAll n r).missed = s.missed ∧ (s.withdrawAll n r).epoch = s.epoch ∧ (s.withdrawAll n r).causes = s.causes ∧ (s.withdrawAll n r).inReset = s.inReset ∧ (s.withdrawAll n r).freeIdx = s.freeIdx ∧ (s.withdrawAll n r).pending = s.pending := by
    refine ⟨?_, ?_, ?_, ?_, ?_, ?_, ?_, ?_, ?_, ?_, ?_, ?_, ?_⟩
    · unfold State.withdrawAll; exact foldl_keeps (fun t : State => t.now) (fun t n => by simp) _ _
    · unfold State.withdrawAll; exact foldl_keeps (fun t : State => t.lines) (fun t n => by simp) _ _
    · unfold State.withdrawAll; exact foldl_keeps (fun t : State => t.table) (fun t n => by simp) _ _
    · unfold State.withdrawAll; exact foldl_keeps (fun t : State => t.leases) (fun t n => by simp) _ _
    · unfold State.withdrawAll; exact foldl_keeps (fun t : State => t.arrivals) (fun t n => by simp) _ _
    · unfold State.withdrawAll; exact foldl_keeps (fun t : State => t.sessions) (fun t n => by simp) _ _
    · unfold State.withdrawAll; exact foldl_keeps (fun t : State => t.loss) (fun t n => by simp) _ _
    · unfold State.withdrawAll; exact foldl_keeps (fun t : State => t.missed) (fun t n => by simp) _ _
    · unfold State.withdrawAll; exact foldl_keeps (fun t : State => t.epoch) (fun t n => by simp) _ _
    · unfold State.withdrawAll; exact foldl_keeps (fun t : State => t.causes) (fun t n => by simp) _ _
    · unfold State.withdrawAll; exact foldl_keeps (fun t : State => t.inReset) (fun t n => by simp) _ _
    · unfold State.withdrawAll; exact foldl_keeps (fun t : State => t.freeIdx) (fun t n => by simp) _ _
    · unfold State.withdrawAll; exact foldl_keeps (fun t : State => t.pending) (fun t n => by simp) _ _
  obtain ⟨hnow, hlines, htable, hleases, harrivals, hsessions, hloss, hmissed, hepoch, hcauses, hinReset, hfreeIdx, hpending⟩ := base
  exact ⟨hnow, hlines, htable, hleases, harrivals, hsessions, hloss, hmissed, hepoch, hcauses, hinReset, hfreeIdx, hpending, congrFun (State.session_congr hsessions), congrFun (State.attached_congr hsessions), congrFun (State.entry_congr htable), congrFun (State.line_congr hlines), congrFun (State.holder_congr hleases)⟩

/-- `preemptAt` changes slots, dispatch, ports at most. -/
@[simp] theorem State.preemptAt_frame (s : State) (h : HostId) :
    (s.preemptAt h).now = s.now ∧ (s.preemptAt h).lines = s.lines ∧ (s.preemptAt h).table = s.table ∧ (s.preemptAt h).leases = s.leases ∧
    (s.preemptAt h).arrivals = s.arrivals ∧ (s.preemptAt h).sessions = s.sessions ∧ (s.preemptAt h).loss = s.loss ∧
    (s.preemptAt h).missed = s.missed ∧ (s.preemptAt h).epoch = s.epoch ∧ (s.preemptAt h).causes = s.causes ∧ (s.preemptAt h).inReset = s.inReset ∧
    (s.preemptAt h).freeIdx = s.freeIdx ∧ (s.preemptAt h).pending = s.pending ∧ (∀ x, (s.preemptAt h).session x = s.session x) ∧
    (∀ x, (s.preemptAt h).attached x = s.attached x) ∧ (∀ x, (s.preemptAt h).entry x = s.entry x) ∧ (∀ x, (s.preemptAt h).line x = s.line x) ∧
    (∀ x, (s.preemptAt h).holder x = s.holder x) := by
  have base : (s.preemptAt h).now = s.now ∧ (s.preemptAt h).lines = s.lines ∧ (s.preemptAt h).table = s.table ∧ (s.preemptAt h).leases = s.leases ∧ (s.preemptAt h).arrivals = s.arrivals ∧ (s.preemptAt h).sessions = s.sessions ∧ (s.preemptAt h).loss = s.loss ∧ (s.preemptAt h).missed = s.missed ∧ (s.preemptAt h).epoch = s.epoch ∧ (s.preemptAt h).causes = s.causes ∧ (s.preemptAt h).inReset = s.inReset ∧ (s.preemptAt h).freeIdx = s.freeIdx ∧ (s.preemptAt h).pending = s.pending := by
    unfold State.preemptAt; (repeat' split) <;> simp
  obtain ⟨hnow, hlines, htable, hleases, harrivals, hsessions, hloss, hmissed, hepoch, hcauses, hinReset, hfreeIdx, hpending⟩ := base
  exact ⟨hnow, hlines, htable, hleases, harrivals, hsessions, hloss, hmissed, hepoch, hcauses, hinReset, hfreeIdx, hpending, congrFun (State.session_congr hsessions), congrFun (State.attached_congr hsessions), congrFun (State.entry_congr htable), congrFun (State.line_congr hlines), congrFun (State.holder_congr hleases)⟩

/-- `preemptPass` changes slots, dispatch, ports at most. -/
@[simp] theorem State.preemptPass_frame (s : State) :
    (s.preemptPass).now = s.now ∧ (s.preemptPass).lines = s.lines ∧ (s.preemptPass).table = s.table ∧ (s.preemptPass).leases = s.leases ∧
    (s.preemptPass).arrivals = s.arrivals ∧ (s.preemptPass).sessions = s.sessions ∧ (s.preemptPass).loss = s.loss ∧
    (s.preemptPass).missed = s.missed ∧ (s.preemptPass).epoch = s.epoch ∧ (s.preemptPass).causes = s.causes ∧ (s.preemptPass).inReset = s.inReset ∧
    (s.preemptPass).freeIdx = s.freeIdx ∧ (s.preemptPass).pending = s.pending ∧ (∀ x, (s.preemptPass).session x = s.session x) ∧
    (∀ x, (s.preemptPass).attached x = s.attached x) ∧ (∀ x, (s.preemptPass).entry x = s.entry x) ∧ (∀ x, (s.preemptPass).line x = s.line x) ∧
    (∀ x, (s.preemptPass).holder x = s.holder x) := by
  have base : (s.preemptPass).now = s.now ∧ (s.preemptPass).lines = s.lines ∧ (s.preemptPass).table = s.table ∧ (s.preemptPass).leases = s.leases ∧ (s.preemptPass).arrivals = s.arrivals ∧ (s.preemptPass).sessions = s.sessions ∧ (s.preemptPass).loss = s.loss ∧ (s.preemptPass).missed = s.missed ∧ (s.preemptPass).epoch = s.epoch ∧ (s.preemptPass).causes = s.causes ∧ (s.preemptPass).inReset = s.inReset ∧ (s.preemptPass).freeIdx = s.freeIdx ∧ (s.preemptPass).pending = s.pending := by
    refine ⟨?_, ?_, ?_, ?_, ?_, ?_, ?_, ?_, ?_, ?_, ?_, ?_, ?_⟩
    · unfold State.preemptPass; exact foldl_keeps (fun t : State => t.now) (fun t n => by simp) _ _
    · unfold State.preemptPass; exact foldl_keeps (fun t : State => t.lines) (fun t n => by simp) _ _
    · unfold State.preemptPass; exact foldl_keeps (fun t : State => t.table) (fun t n => by simp) _ _
    · unfold State.preemptPass; exact foldl_keeps (fun t : State => t.leases) (fun t n => by simp) _ _
    · unfold State.preemptPass; exact foldl_keeps (fun t : State => t.arrivals) (fun t n => by simp) _ _
    · unfold State.preemptPass; exact foldl_keeps (fun t : State => t.sessions) (fun t n => by simp) _ _
    · unfold State.preemptPass; exact foldl_keeps (fun t : State => t.loss) (fun t n => by simp) _ _
    · unfold State.preemptPass; exact foldl_keeps (fun t : State => t.missed) (fun t n => by simp) _ _
    · unfold State.preemptPass; exact foldl_keeps (fun t : State => t.epoch) (fun t n => by simp) _ _
    · unfold State.preemptPass; exact foldl_keeps (fun t : State => t.causes) (fun t n => by simp) _ _
    · unfold State.preemptPass; exact foldl_keeps (fun t : State => t.inReset) (fun t n => by simp) _ _
    · unfold State.preemptPass; exact foldl_keeps (fun t : State => t.freeIdx) (fun t n => by simp) _ _
    · unfold State.preemptPass; exact foldl_keeps (fun t : State => t.pending) (fun t n => by simp) _ _
  obtain ⟨hnow, hlines, htable, hleases, harrivals, hsessions, hloss, hmissed, hepoch, hcauses, hinReset, hfreeIdx, hpending⟩ := base
  exact ⟨hnow, hlines, htable, hleases, harrivals, hsessions, hloss, hmissed, hepoch, hcauses, hinReset, hfreeIdx, hpending, congrFun (State.session_congr hsessions), congrFun (State.attached_congr hsessions), congrFun (State.entry_congr htable), congrFun (State.line_congr hlines), congrFun (State.holder_congr hleases)⟩

/-- `preemptAll` changes slots, dispatch, ports at most. -/
@[simp] theorem State.preemptAll_frame (s : State) :
    (s.preemptAll).now = s.now ∧ (s.preemptAll).lines = s.lines ∧ (s.preemptAll).table = s.table ∧ (s.preemptAll).leases = s.leases ∧
    (s.preemptAll).arrivals = s.arrivals ∧ (s.preemptAll).sessions = s.sessions ∧ (s.preemptAll).loss = s.loss ∧ (s.preemptAll).missed = s.missed ∧
    (s.preemptAll).epoch = s.epoch ∧ (s.preemptAll).causes = s.causes ∧ (s.preemptAll).inReset = s.inReset ∧ (s.preemptAll).freeIdx = s.freeIdx ∧
    (s.preemptAll).pending = s.pending ∧ (∀ x, (s.preemptAll).session x = s.session x) ∧ (∀ x, (s.preemptAll).attached x = s.attached x) ∧
    (∀ x, (s.preemptAll).entry x = s.entry x) ∧ (∀ x, (s.preemptAll).line x = s.line x) ∧ (∀ x, (s.preemptAll).holder x = s.holder x) := by
  have base : (s.preemptAll).now = s.now ∧ (s.preemptAll).lines = s.lines ∧ (s.preemptAll).table = s.table ∧ (s.preemptAll).leases = s.leases ∧ (s.preemptAll).arrivals = s.arrivals ∧ (s.preemptAll).sessions = s.sessions ∧ (s.preemptAll).loss = s.loss ∧ (s.preemptAll).missed = s.missed ∧ (s.preemptAll).epoch = s.epoch ∧ (s.preemptAll).causes = s.causes ∧ (s.preemptAll).inReset = s.inReset ∧ (s.preemptAll).freeIdx = s.freeIdx ∧ (s.preemptAll).pending = s.pending := by
    simp [State.preemptAll]
  obtain ⟨hnow, hlines, htable, hleases, harrivals, hsessions, hloss, hmissed, hepoch, hcauses, hinReset, hfreeIdx, hpending⟩ := base
  exact ⟨hnow, hlines, htable, hleases, harrivals, hsessions, hloss, hmissed, hepoch, hcauses, hinReset, hfreeIdx, hpending, congrFun (State.session_congr hsessions), congrFun (State.attached_congr hsessions), congrFun (State.entry_congr htable), congrFun (State.line_congr hlines), congrFun (State.holder_congr hleases)⟩

/-- `takeWake` changes sessions at most. -/
@[simp] theorem State.takeWake_frame (s : State) (h : HostId) :
    (s.takeWake h).now = s.now ∧ (s.takeWake h).lines = s.lines ∧ (s.takeWake h).table = s.table ∧ (s.takeWake h).leases = s.leases ∧
    (s.takeWake h).slots = s.slots ∧ (s.takeWake h).arrivals = s.arrivals ∧ (s.takeWake h).dispatch = s.dispatch ∧ (s.takeWake h).ports = s.ports ∧
    (s.takeWake h).loss = s.loss ∧ (s.takeWake h).missed = s.missed ∧ (s.takeWake h).epoch = s.epoch ∧ (s.takeWake h).causes = s.causes ∧
    (s.takeWake h).inReset = s.inReset ∧ (s.takeWake h).freeIdx = s.freeIdx ∧ (s.takeWake h).pending = s.pending ∧
    (∀ x, (s.takeWake h).record x = s.record x) ∧ (∀ x, (s.takeWake h).serial x = s.serial x) ∧ (∀ x, (s.takeWake h).disp x = s.disp x) ∧
    (∀ x, (s.takeWake h).port x = s.port x) ∧ (∀ x, (s.takeWake h).entry x = s.entry x) ∧ (∀ x, (s.takeWake h).line x = s.line x) ∧
    (∀ x, (s.takeWake h).holder x = s.holder x) := by
  have base : (s.takeWake h).now = s.now ∧ (s.takeWake h).lines = s.lines ∧ (s.takeWake h).table = s.table ∧ (s.takeWake h).leases = s.leases ∧ (s.takeWake h).slots = s.slots ∧ (s.takeWake h).arrivals = s.arrivals ∧ (s.takeWake h).dispatch = s.dispatch ∧ (s.takeWake h).ports = s.ports ∧ (s.takeWake h).loss = s.loss ∧ (s.takeWake h).missed = s.missed ∧ (s.takeWake h).epoch = s.epoch ∧ (s.takeWake h).causes = s.causes ∧ (s.takeWake h).inReset = s.inReset ∧ (s.takeWake h).freeIdx = s.freeIdx ∧ (s.takeWake h).pending = s.pending := by
    unfold State.takeWake; (repeat' split) <;> simp
  obtain ⟨hnow, hlines, htable, hleases, hslots, harrivals, hdispatch, hports, hloss, hmissed, hepoch, hcauses, hinReset, hfreeIdx, hpending⟩ := base
  exact ⟨hnow, hlines, htable, hleases, hslots, harrivals, hdispatch, hports, hloss, hmissed, hepoch, hcauses, hinReset, hfreeIdx, hpending, congrFun (State.record_congr hslots), congrFun (State.serial_congr hslots), congrFun (State.disp_congr hdispatch), congrFun (State.port_congr hports), congrFun (State.entry_congr htable), congrFun (State.line_congr hlines), congrFun (State.holder_congr hleases)⟩

/-- `takeWakes` changes sessions at most. -/
@[simp] theorem State.takeWakes_frame (s : State) :
    (s.takeWakes).now = s.now ∧ (s.takeWakes).lines = s.lines ∧ (s.takeWakes).table = s.table ∧ (s.takeWakes).leases = s.leases ∧
    (s.takeWakes).slots = s.slots ∧ (s.takeWakes).arrivals = s.arrivals ∧ (s.takeWakes).dispatch = s.dispatch ∧ (s.takeWakes).ports = s.ports ∧
    (s.takeWakes).loss = s.loss ∧ (s.takeWakes).missed = s.missed ∧ (s.takeWakes).epoch = s.epoch ∧ (s.takeWakes).causes = s.causes ∧
    (s.takeWakes).inReset = s.inReset ∧ (s.takeWakes).freeIdx = s.freeIdx ∧ (s.takeWakes).pending = s.pending ∧
    (∀ x, (s.takeWakes).record x = s.record x) ∧ (∀ x, (s.takeWakes).serial x = s.serial x) ∧ (∀ x, (s.takeWakes).disp x = s.disp x) ∧
    (∀ x, (s.takeWakes).port x = s.port x) ∧ (∀ x, (s.takeWakes).entry x = s.entry x) ∧ (∀ x, (s.takeWakes).line x = s.line x) ∧
    (∀ x, (s.takeWakes).holder x = s.holder x) := by
  have base : (s.takeWakes).now = s.now ∧ (s.takeWakes).lines = s.lines ∧ (s.takeWakes).table = s.table ∧ (s.takeWakes).leases = s.leases ∧ (s.takeWakes).slots = s.slots ∧ (s.takeWakes).arrivals = s.arrivals ∧ (s.takeWakes).dispatch = s.dispatch ∧ (s.takeWakes).ports = s.ports ∧ (s.takeWakes).loss = s.loss ∧ (s.takeWakes).missed = s.missed ∧ (s.takeWakes).epoch = s.epoch ∧ (s.takeWakes).causes = s.causes ∧ (s.takeWakes).inReset = s.inReset ∧ (s.takeWakes).freeIdx = s.freeIdx ∧ (s.takeWakes).pending = s.pending := by
    refine ⟨?_, ?_, ?_, ?_, ?_, ?_, ?_, ?_, ?_, ?_, ?_, ?_, ?_, ?_, ?_⟩
    · unfold State.takeWakes; exact foldl_keeps (fun t : State => t.now) (fun t n => by simp) _ _
    · unfold State.takeWakes; exact foldl_keeps (fun t : State => t.lines) (fun t n => by simp) _ _
    · unfold State.takeWakes; exact foldl_keeps (fun t : State => t.table) (fun t n => by simp) _ _
    · unfold State.takeWakes; exact foldl_keeps (fun t : State => t.leases) (fun t n => by simp) _ _
    · unfold State.takeWakes; exact foldl_keeps (fun t : State => t.slots) (fun t n => by simp) _ _
    · unfold State.takeWakes; exact foldl_keeps (fun t : State => t.arrivals) (fun t n => by simp) _ _
    · unfold State.takeWakes; exact foldl_keeps (fun t : State => t.dispatch) (fun t n => by simp) _ _
    · unfold State.takeWakes; exact foldl_keeps (fun t : State => t.ports) (fun t n => by simp) _ _
    · unfold State.takeWakes; exact foldl_keeps (fun t : State => t.loss) (fun t n => by simp) _ _
    · unfold State.takeWakes; exact foldl_keeps (fun t : State => t.missed) (fun t n => by simp) _ _
    · unfold State.takeWakes; exact foldl_keeps (fun t : State => t.epoch) (fun t n => by simp) _ _
    · unfold State.takeWakes; exact foldl_keeps (fun t : State => t.causes) (fun t n => by simp) _ _
    · unfold State.takeWakes; exact foldl_keeps (fun t : State => t.inReset) (fun t n => by simp) _ _
    · unfold State.takeWakes; exact foldl_keeps (fun t : State => t.freeIdx) (fun t n => by simp) _ _
    · unfold State.takeWakes; exact foldl_keeps (fun t : State => t.pending) (fun t n => by simp) _ _
  obtain ⟨hnow, hlines, htable, hleases, hslots, harrivals, hdispatch, hports, hloss, hmissed, hepoch, hcauses, hinReset, hfreeIdx, hpending⟩ := base
  exact ⟨hnow, hlines, htable, hleases, hslots, harrivals, hdispatch, hports, hloss, hmissed, hepoch, hcauses, hinReset, hfreeIdx, hpending, congrFun (State.record_congr hslots), congrFun (State.serial_congr hslots), congrFun (State.disp_congr hdispatch), congrFun (State.port_congr hports), congrFun (State.entry_congr htable), congrFun (State.line_congr hlines), congrFun (State.holder_congr hleases)⟩

/-- `recompute` changes slots, dispatch, ports, sessions at most. -/
@[simp] theorem State.recompute_frame (s : State) :
    (s.recompute).now = s.now ∧ (s.recompute).lines = s.lines ∧ (s.recompute).table = s.table ∧ (s.recompute).leases = s.leases ∧
    (s.recompute).arrivals = s.arrivals ∧ (s.recompute).loss = s.loss ∧ (s.recompute).missed = s.missed ∧ (s.recompute).epoch = s.epoch ∧
    (s.recompute).causes = s.causes ∧ (s.recompute).inReset = s.inReset ∧ (s.recompute).freeIdx = s.freeIdx ∧ (s.recompute).pending = s.pending ∧
    (∀ x, (s.recompute).entry x = s.entry x) ∧ (∀ x, (s.recompute).line x = s.line x) ∧ (∀ x, (s.recompute).holder x = s.holder x) := by
  have base : (s.recompute).now = s.now ∧ (s.recompute).lines = s.lines ∧ (s.recompute).table = s.table ∧ (s.recompute).leases = s.leases ∧ (s.recompute).arrivals = s.arrivals ∧ (s.recompute).loss = s.loss ∧ (s.recompute).missed = s.missed ∧ (s.recompute).epoch = s.epoch ∧ (s.recompute).causes = s.causes ∧ (s.recompute).inReset = s.inReset ∧ (s.recompute).freeIdx = s.freeIdx ∧ (s.recompute).pending = s.pending := by
    simp [State.recompute]
  obtain ⟨hnow, hlines, htable, hleases, harrivals, hloss, hmissed, hepoch, hcauses, hinReset, hfreeIdx, hpending⟩ := base
  exact ⟨hnow, hlines, htable, hleases, harrivals, hloss, hmissed, hepoch, hcauses, hinReset, hfreeIdx, hpending, congrFun (State.entry_congr htable), congrFun (State.line_congr hlines), congrFun (State.holder_congr hleases)⟩

/-- `finishExchange` changes slots, dispatch, ports at most. -/
@[simp] theorem State.finishExchange_frame (s : State) (p : HostId) :
    (s.finishExchange p).now = s.now ∧ (s.finishExchange p).lines = s.lines ∧ (s.finishExchange p).table = s.table ∧
    (s.finishExchange p).leases = s.leases ∧ (s.finishExchange p).arrivals = s.arrivals ∧ (s.finishExchange p).sessions = s.sessions ∧
    (s.finishExchange p).loss = s.loss ∧ (s.finishExchange p).missed = s.missed ∧ (s.finishExchange p).epoch = s.epoch ∧
    (s.finishExchange p).causes = s.causes ∧ (s.finishExchange p).inReset = s.inReset ∧ (s.finishExchange p).freeIdx = s.freeIdx ∧
    (s.finishExchange p).pending = s.pending ∧ (∀ x, (s.finishExchange p).session x = s.session x) ∧
    (∀ x, (s.finishExchange p).attached x = s.attached x) ∧ (∀ x, (s.finishExchange p).entry x = s.entry x) ∧
    (∀ x, (s.finishExchange p).line x = s.line x) ∧ (∀ x, (s.finishExchange p).holder x = s.holder x) := by
  have base : (s.finishExchange p).now = s.now ∧ (s.finishExchange p).lines = s.lines ∧ (s.finishExchange p).table = s.table ∧ (s.finishExchange p).leases = s.leases ∧ (s.finishExchange p).arrivals = s.arrivals ∧ (s.finishExchange p).sessions = s.sessions ∧ (s.finishExchange p).loss = s.loss ∧ (s.finishExchange p).missed = s.missed ∧ (s.finishExchange p).epoch = s.epoch ∧ (s.finishExchange p).causes = s.causes ∧ (s.finishExchange p).inReset = s.inReset ∧ (s.finishExchange p).freeIdx = s.freeIdx ∧ (s.finishExchange p).pending = s.pending := by
    unfold State.finishExchange; dsimp only; split <;> simp
  obtain ⟨hnow, hlines, htable, hleases, harrivals, hsessions, hloss, hmissed, hepoch, hcauses, hinReset, hfreeIdx, hpending⟩ := base
  exact ⟨hnow, hlines, htable, hleases, harrivals, hsessions, hloss, hmissed, hepoch, hcauses, hinReset, hfreeIdx, hpending, congrFun (State.session_congr hsessions), congrFun (State.attached_congr hsessions), congrFun (State.entry_congr htable), congrFun (State.line_congr hlines), congrFun (State.holder_congr hleases)⟩

/-- `reclaim` changes slots, loss, missed at most. -/
@[simp] theorem State.reclaim_frame (s : State) (h : HostId) (n : SlotNo) (r : Record) :
    (s.reclaim h n r).now = s.now ∧ (s.reclaim h n r).lines = s.lines ∧ (s.reclaim h n r).table = s.table ∧ (s.reclaim h n r).leases = s.leases ∧
    (s.reclaim h n r).arrivals = s.arrivals ∧ (s.reclaim h n r).dispatch = s.dispatch ∧ (s.reclaim h n r).sessions = s.sessions ∧
    (s.reclaim h n r).ports = s.ports ∧ (s.reclaim h n r).epoch = s.epoch ∧ (s.reclaim h n r).causes = s.causes ∧
    (s.reclaim h n r).inReset = s.inReset ∧ (s.reclaim h n r).freeIdx = s.freeIdx ∧ (s.reclaim h n r).pending = s.pending ∧
    (∀ x, (s.reclaim h n r).session x = s.session x) ∧ (∀ x, (s.reclaim h n r).attached x = s.attached x) ∧
    (∀ x, (s.reclaim h n r).disp x = s.disp x) ∧ (∀ x, (s.reclaim h n r).port x = s.port x) ∧ (∀ x, (s.reclaim h n r).entry x = s.entry x) ∧
    (∀ x, (s.reclaim h n r).line x = s.line x) ∧ (∀ x, (s.reclaim h n r).holder x = s.holder x) := by
  have base : (s.reclaim h n r).now = s.now ∧ (s.reclaim h n r).lines = s.lines ∧ (s.reclaim h n r).table = s.table ∧ (s.reclaim h n r).leases = s.leases ∧ (s.reclaim h n r).arrivals = s.arrivals ∧ (s.reclaim h n r).dispatch = s.dispatch ∧ (s.reclaim h n r).sessions = s.sessions ∧ (s.reclaim h n r).ports = s.ports ∧ (s.reclaim h n r).epoch = s.epoch ∧ (s.reclaim h n r).causes = s.causes ∧ (s.reclaim h n r).inReset = s.inReset ∧ (s.reclaim h n r).freeIdx = s.freeIdx ∧ (s.reclaim h n r).pending = s.pending := by
    unfold State.reclaim; dsimp only; (repeat' split) <;> simp
  obtain ⟨hnow, hlines, htable, hleases, harrivals, hdispatch, hsessions, hports, hepoch, hcauses, hinReset, hfreeIdx, hpending⟩ := base
  exact ⟨hnow, hlines, htable, hleases, harrivals, hdispatch, hsessions, hports, hepoch, hcauses, hinReset, hfreeIdx, hpending, congrFun (State.session_congr hsessions), congrFun (State.attached_congr hsessions), congrFun (State.disp_congr hdispatch), congrFun (State.port_congr hports), congrFun (State.entry_congr htable), congrFun (State.line_congr hlines), congrFun (State.holder_congr hleases)⟩

/-- `releaseLeases` changes leases at most. -/
@[simp] theorem State.releaseLeases_frame (s : State) (h : HostId) :
    (s.releaseLeases h).now = s.now ∧ (s.releaseLeases h).lines = s.lines ∧ (s.releaseLeases h).table = s.table ∧
    (s.releaseLeases h).slots = s.slots ∧ (s.releaseLeases h).arrivals = s.arrivals ∧ (s.releaseLeases h).dispatch = s.dispatch ∧
    (s.releaseLeases h).sessions = s.sessions ∧ (s.releaseLeases h).ports = s.ports ∧ (s.releaseLeases h).loss = s.loss ∧
    (s.releaseLeases h).missed = s.missed ∧ (s.releaseLeases h).epoch = s.epoch ∧ (s.releaseLeases h).causes = s.causes ∧
    (s.releaseLeases h).inReset = s.inReset ∧ (s.releaseLeases h).freeIdx = s.freeIdx ∧ (s.releaseLeases h).pending = s.pending ∧
    (∀ x, (s.releaseLeases h).record x = s.record x) ∧ (∀ x, (s.releaseLeases h).serial x = s.serial x) ∧
    (∀ x, (s.releaseLeases h).session x = s.session x) ∧ (∀ x, (s.releaseLeases h).attached x = s.attached x) ∧
    (∀ x, (s.releaseLeases h).disp x = s.disp x) ∧ (∀ x, (s.releaseLeases h).port x = s.port x) ∧ (∀ x, (s.releaseLeases h).entry x = s.entry x) ∧
    (∀ x, (s.releaseLeases h).line x = s.line x) := by
  exact ⟨rfl, rfl, rfl, rfl, rfl, rfl, rfl, rfl, rfl, rfl, rfl, rfl, rfl, rfl, rfl, fun _ => rfl, fun _ => rfl, fun _ => rfl, fun _ => rfl, fun _ => rfl, fun _ => rfl, fun _ => rfl, fun _ => rfl⟩

/-- `forgetLosses` changes loss, missed at most. -/
@[simp] theorem State.forgetLosses_frame (s : State) (h : HostId) :
    (s.forgetLosses h).now = s.now ∧ (s.forgetLosses h).lines = s.lines ∧ (s.forgetLosses h).table = s.table ∧ (s.forgetLosses h).leases = s.leases ∧
    (s.forgetLosses h).slots = s.slots ∧ (s.forgetLosses h).arrivals = s.arrivals ∧ (s.forgetLosses h).dispatch = s.dispatch ∧
    (s.forgetLosses h).sessions = s.sessions ∧ (s.forgetLosses h).ports = s.ports ∧ (s.forgetLosses h).epoch = s.epoch ∧
    (s.forgetLosses h).causes = s.causes ∧ (s.forgetLosses h).inReset = s.inReset ∧ (s.forgetLosses h).freeIdx = s.freeIdx ∧
    (s.forgetLosses h).pending = s.pending ∧ (∀ x, (s.forgetLosses h).record x = s.record x) ∧ (∀ x, (s.forgetLosses h).serial x = s.serial x) ∧
    (∀ x, (s.forgetLosses h).session x = s.session x) ∧ (∀ x, (s.forgetLosses h).attached x = s.attached x) ∧
    (∀ x, (s.forgetLosses h).disp x = s.disp x) ∧ (∀ x, (s.forgetLosses h).port x = s.port x) ∧ (∀ x, (s.forgetLosses h).entry x = s.entry x) ∧
    (∀ x, (s.forgetLosses h).line x = s.line x) ∧ (∀ x, (s.forgetLosses h).holder x = s.holder x) := by
  exact ⟨rfl, rfl, rfl, rfl, rfl, rfl, rfl, rfl, rfl, rfl, rfl, rfl, rfl, rfl, fun _ => rfl, fun _ => rfl, fun _ => rfl, fun _ => rfl, fun _ => rfl, fun _ => rfl, fun _ => rfl, fun _ => rfl, fun _ => rfl⟩

/-- `clearPort` changes ports at most. -/
@[simp] theorem State.clearPort_frame (s : State) (h : HostId) :
    (s.clearPort h).now = s.now ∧ (s.clearPort h).lines = s.lines ∧ (s.clearPort h).table = s.table ∧ (s.clearPort h).leases = s.leases ∧
    (s.clearPort h).slots = s.slots ∧ (s.clearPort h).arrivals = s.arrivals ∧ (s.clearPort h).dispatch = s.dispatch ∧
    (s.clearPort h).sessions = s.sessions ∧ (s.clearPort h).loss = s.loss ∧ (s.clearPort h).missed = s.missed ∧ (s.clearPort h).epoch = s.epoch ∧
    (s.clearPort h).causes = s.causes ∧ (s.clearPort h).inReset = s.inReset ∧ (s.clearPort h).freeIdx = s.freeIdx ∧
    (s.clearPort h).pending = s.pending ∧ (∀ x, (s.clearPort h).record x = s.record x) ∧ (∀ x, (s.clearPort h).serial x = s.serial x) ∧
    (∀ x, (s.clearPort h).session x = s.session x) ∧ (∀ x, (s.clearPort h).attached x = s.attached x) ∧ (∀ x, (s.clearPort h).disp x = s.disp x) ∧
    (∀ x, (s.clearPort h).entry x = s.entry x) ∧ (∀ x, (s.clearPort h).line x = s.line x) ∧ (∀ x, (s.clearPort h).holder x = s.holder x) := by
  exact ⟨rfl, rfl, rfl, rfl, rfl, rfl, rfl, rfl, rfl, rfl, rfl, rfl, rfl, rfl, rfl, fun _ => rfl, fun _ => rfl, fun _ => rfl, fun _ => rfl, fun _ => rfl, fun _ => rfl, fun _ => rfl, fun _ => rfl⟩

/-- `abandon` changes slots, arrivals, loss, missed, ports at most. -/
@[simp] theorem TeardownWork.abandon_frame (w : TeardownWork) (h : HostId) (n : SlotNo) (r : Record) :
    ((w.abandon h n r).state).now = w.state.now ∧ ((w.abandon h n r).state).lines = w.state.lines ∧ ((w.abandon h n r).state).table = w.state.table ∧
    ((w.abandon h n r).state).leases = w.state.leases ∧ ((w.abandon h n r).state).dispatch = w.state.dispatch ∧
    ((w.abandon h n r).state).sessions = w.state.sessions ∧ ((w.abandon h n r).state).epoch = w.state.epoch ∧
    ((w.abandon h n r).state).causes = w.state.causes ∧ ((w.abandon h n r).state).inReset = w.state.inReset ∧
    ((w.abandon h n r).state).freeIdx = w.state.freeIdx ∧ ((w.abandon h n r).state).pending = w.state.pending ∧
    (∀ x, ((w.abandon h n r).state).session x = w.state.session x) ∧ (∀ x, ((w.abandon h n r).state).attached x = w.state.attached x) ∧
    (∀ x, ((w.abandon h n r).state).disp x = w.state.disp x) ∧ (∀ x, ((w.abandon h n r).state).entry x = w.state.entry x) ∧
    (∀ x, ((w.abandon h n r).state).line x = w.state.line x) ∧ (∀ x, ((w.abandon h n r).state).holder x = w.state.holder x) := by
  have base : ((w.abandon h n r).state).now = w.state.now ∧ ((w.abandon h n r).state).lines = w.state.lines ∧ ((w.abandon h n r).state).table = w.state.table ∧ ((w.abandon h n r).state).leases = w.state.leases ∧ ((w.abandon h n r).state).dispatch = w.state.dispatch ∧ ((w.abandon h n r).state).sessions = w.state.sessions ∧ ((w.abandon h n r).state).epoch = w.state.epoch ∧ ((w.abandon h n r).state).causes = w.state.causes ∧ ((w.abandon h n r).state).inReset = w.state.inReset ∧ ((w.abandon h n r).state).freeIdx = w.state.freeIdx ∧ ((w.abandon h n r).state).pending = w.state.pending := by
    unfold TeardownWork.abandon; simp
  obtain ⟨hnow, hlines, htable, hleases, hdispatch, hsessions, hepoch, hcauses, hinReset, hfreeIdx, hpending⟩ := base
  exact ⟨hnow, hlines, htable, hleases, hdispatch, hsessions, hepoch, hcauses, hinReset, hfreeIdx, hpending, congrFun (State.session_congr hsessions), congrFun (State.attached_congr hsessions), congrFun (State.disp_congr hdispatch), congrFun (State.entry_congr htable), congrFun (State.line_congr hlines), congrFun (State.holder_congr hleases)⟩

/-- `endOffer` changes slots, arrivals, loss, missed, ports, dispatch at most. -/
@[simp] theorem TeardownWork.endOffer_frame (w : TeardownWork) (h : HostId) :
    ((w.endOffer h).state).now = w.state.now ∧ ((w.endOffer h).state).lines = w.state.lines ∧ ((w.endOffer h).state).table = w.state.table ∧
    ((w.endOffer h).state).leases = w.state.leases ∧ ((w.endOffer h).state).sessions = w.state.sessions ∧
    ((w.endOffer h).state).epoch = w.state.epoch ∧ ((w.endOffer h).state).causes = w.state.causes ∧
    ((w.endOffer h).state).inReset = w.state.inReset ∧ ((w.endOffer h).state).freeIdx = w.state.freeIdx ∧
    ((w.endOffer h).state).pending = w.state.pending ∧ (∀ x, ((w.endOffer h).state).session x = w.state.session x) ∧
    (∀ x, ((w.endOffer h).state).attached x = w.state.attached x) ∧ (∀ x, ((w.endOffer h).state).entry x = w.state.entry x) ∧
    (∀ x, ((w.endOffer h).state).line x = w.state.line x) ∧ (∀ x, ((w.endOffer h).state).holder x = w.state.holder x) := by
  have base : ((w.endOffer h).state).now = w.state.now ∧ ((w.endOffer h).state).lines = w.state.lines ∧ ((w.endOffer h).state).table = w.state.table ∧ ((w.endOffer h).state).leases = w.state.leases ∧ ((w.endOffer h).state).sessions = w.state.sessions ∧ ((w.endOffer h).state).epoch = w.state.epoch ∧ ((w.endOffer h).state).causes = w.state.causes ∧ ((w.endOffer h).state).inReset = w.state.inReset ∧ ((w.endOffer h).state).freeIdx = w.state.freeIdx ∧ ((w.endOffer h).state).pending = w.state.pending := by
    unfold TeardownWork.endOffer; dsimp only; (repeat' split) <;> simp
  obtain ⟨hnow, hlines, htable, hleases, hsessions, hepoch, hcauses, hinReset, hfreeIdx, hpending⟩ := base
  exact ⟨hnow, hlines, htable, hleases, hsessions, hepoch, hcauses, hinReset, hfreeIdx, hpending, congrFun (State.session_congr hsessions), congrFun (State.attached_congr hsessions), congrFun (State.entry_congr htable), congrFun (State.line_congr hlines), congrFun (State.holder_congr hleases)⟩

/-- `popEntry` changes slots, arrivals, loss, missed, ports at most. -/
@[simp] theorem TeardownWork.popEntry_frame (w : TeardownWork) (h : HostId) (e : StackEntry) :
    ((TeardownWork.popEntry h w e).state).now = w.state.now ∧ ((TeardownWork.popEntry h w e).state).lines = w.state.lines ∧
    ((TeardownWork.popEntry h w e).state).table = w.state.table ∧ ((TeardownWork.popEntry h w e).state).leases = w.state.leases ∧
    ((TeardownWork.popEntry h w e).state).dispatch = w.state.dispatch ∧ ((TeardownWork.popEntry h w e).state).sessions = w.state.sessions ∧
    ((TeardownWork.popEntry h w e).state).epoch = w.state.epoch ∧ ((TeardownWork.popEntry h w e).state).causes = w.state.causes ∧
    ((TeardownWork.popEntry h w e).state).inReset = w.state.inReset ∧ ((TeardownWork.popEntry h w e).state).freeIdx = w.state.freeIdx ∧
    ((TeardownWork.popEntry h w e).state).pending = w.state.pending ∧ (∀ x, ((TeardownWork.popEntry h w e).state).session x = w.state.session x) ∧
    (∀ x, ((TeardownWork.popEntry h w e).state).attached x = w.state.attached x) ∧
    (∀ x, ((TeardownWork.popEntry h w e).state).disp x = w.state.disp x) ∧ (∀ x, ((TeardownWork.popEntry h w e).state).entry x = w.state.entry x) ∧
    (∀ x, ((TeardownWork.popEntry h w e).state).line x = w.state.line x) ∧
    (∀ x, ((TeardownWork.popEntry h w e).state).holder x = w.state.holder x) := by
  have base : ((TeardownWork.popEntry h w e).state).now = w.state.now ∧ ((TeardownWork.popEntry h w e).state).lines = w.state.lines ∧ ((TeardownWork.popEntry h w e).state).table = w.state.table ∧ ((TeardownWork.popEntry h w e).state).leases = w.state.leases ∧ ((TeardownWork.popEntry h w e).state).dispatch = w.state.dispatch ∧ ((TeardownWork.popEntry h w e).state).sessions = w.state.sessions ∧ ((TeardownWork.popEntry h w e).state).epoch = w.state.epoch ∧ ((TeardownWork.popEntry h w e).state).causes = w.state.causes ∧ ((TeardownWork.popEntry h w e).state).inReset = w.state.inReset ∧ ((TeardownWork.popEntry h w e).state).freeIdx = w.state.freeIdx ∧ ((TeardownWork.popEntry h w e).state).pending = w.state.pending := by
    unfold TeardownWork.popEntry; (repeat' split) <;> simp
  obtain ⟨hnow, hlines, htable, hleases, hdispatch, hsessions, hepoch, hcauses, hinReset, hfreeIdx, hpending⟩ := base
  exact ⟨hnow, hlines, htable, hleases, hdispatch, hsessions, hepoch, hcauses, hinReset, hfreeIdx, hpending, congrFun (State.session_congr hsessions), congrFun (State.attached_congr hsessions), congrFun (State.disp_congr hdispatch), congrFun (State.entry_congr htable), congrFun (State.line_congr hlines), congrFun (State.holder_congr hleases)⟩

/-- `dropOwed` changes slots, arrivals, loss, missed, ports at most. -/
@[simp] theorem TeardownWork.dropOwed_frame (w : TeardownWork) (h : HostId) (n : SlotNo) :
    ((TeardownWork.dropOwed h w n).state).now = w.state.now ∧ ((TeardownWork.dropOwed h w n).state).lines = w.state.lines ∧
    ((TeardownWork.dropOwed h w n).state).table = w.state.table ∧ ((TeardownWork.dropOwed h w n).state).leases = w.state.leases ∧
    ((TeardownWork.dropOwed h w n).state).dispatch = w.state.dispatch ∧ ((TeardownWork.dropOwed h w n).state).sessions = w.state.sessions ∧
    ((TeardownWork.dropOwed h w n).state).epoch = w.state.epoch ∧ ((TeardownWork.dropOwed h w n).state).causes = w.state.causes ∧
    ((TeardownWork.dropOwed h w n).state).inReset = w.state.inReset ∧ ((TeardownWork.dropOwed h w n).state).freeIdx = w.state.freeIdx ∧
    ((TeardownWork.dropOwed h w n).state).pending = w.state.pending ∧ (∀ x, ((TeardownWork.dropOwed h w n).state).session x = w.state.session x) ∧
    (∀ x, ((TeardownWork.dropOwed h w n).state).attached x = w.state.attached x) ∧
    (∀ x, ((TeardownWork.dropOwed h w n).state).disp x = w.state.disp x) ∧ (∀ x, ((TeardownWork.dropOwed h w n).state).entry x = w.state.entry x) ∧
    (∀ x, ((TeardownWork.dropOwed h w n).state).line x = w.state.line x) ∧
    (∀ x, ((TeardownWork.dropOwed h w n).state).holder x = w.state.holder x) := by
  have base : ((TeardownWork.dropOwed h w n).state).now = w.state.now ∧ ((TeardownWork.dropOwed h w n).state).lines = w.state.lines ∧ ((TeardownWork.dropOwed h w n).state).table = w.state.table ∧ ((TeardownWork.dropOwed h w n).state).leases = w.state.leases ∧ ((TeardownWork.dropOwed h w n).state).dispatch = w.state.dispatch ∧ ((TeardownWork.dropOwed h w n).state).sessions = w.state.sessions ∧ ((TeardownWork.dropOwed h w n).state).epoch = w.state.epoch ∧ ((TeardownWork.dropOwed h w n).state).causes = w.state.causes ∧ ((TeardownWork.dropOwed h w n).state).inReset = w.state.inReset ∧ ((TeardownWork.dropOwed h w n).state).freeIdx = w.state.freeIdx ∧ ((TeardownWork.dropOwed h w n).state).pending = w.state.pending := by
    unfold TeardownWork.dropOwed; split <;> simp
  obtain ⟨hnow, hlines, htable, hleases, hdispatch, hsessions, hepoch, hcauses, hinReset, hfreeIdx, hpending⟩ := base
  exact ⟨hnow, hlines, htable, hleases, hdispatch, hsessions, hepoch, hcauses, hinReset, hfreeIdx, hpending, congrFun (State.session_congr hsessions), congrFun (State.attached_congr hsessions), congrFun (State.disp_congr hdispatch), congrFun (State.entry_congr htable), congrFun (State.line_congr hlines), congrFun (State.holder_congr hleases)⟩

/-- `releaseCopies_state` changes slots, arrivals, loss, missed, ports, dispatch at most. -/
@[simp] theorem State.releaseCopies_state_frame (s : State) (h : HostId) :
    ((s.releaseCopies h).state).now = s.now ∧ ((s.releaseCopies h).state).lines = s.lines ∧ ((s.releaseCopies h).state).table = s.table ∧
    ((s.releaseCopies h).state).leases = s.leases ∧ ((s.releaseCopies h).state).sessions = s.sessions ∧ ((s.releaseCopies h).state).epoch = s.epoch ∧
    ((s.releaseCopies h).state).causes = s.causes ∧ ((s.releaseCopies h).state).inReset = s.inReset ∧
    ((s.releaseCopies h).state).freeIdx = s.freeIdx ∧ ((s.releaseCopies h).state).pending = s.pending ∧
    (∀ x, ((s.releaseCopies h).state).session x = s.session x) ∧ (∀ x, ((s.releaseCopies h).state).attached x = s.attached x) ∧
    (∀ x, ((s.releaseCopies h).state).entry x = s.entry x) ∧ (∀ x, ((s.releaseCopies h).state).line x = s.line x) ∧
    (∀ x, ((s.releaseCopies h).state).holder x = s.holder x) := by
  have base : ((s.releaseCopies h).state).now = s.now ∧ ((s.releaseCopies h).state).lines = s.lines ∧ ((s.releaseCopies h).state).table = s.table ∧ ((s.releaseCopies h).state).leases = s.leases ∧ ((s.releaseCopies h).state).sessions = s.sessions ∧ ((s.releaseCopies h).state).epoch = s.epoch ∧ ((s.releaseCopies h).state).causes = s.causes ∧ ((s.releaseCopies h).state).inReset = s.inReset ∧ ((s.releaseCopies h).state).freeIdx = s.freeIdx ∧ ((s.releaseCopies h).state).pending = s.pending := by
    refine ⟨?_, ?_, ?_, ?_, ?_, ?_, ?_, ?_, ?_, ?_⟩
    · unfold State.releaseCopies; dsimp only; rw [foldl_keeps (fun t : TeardownWork => t.state.now) (fun t n => by simp), foldl_keeps (fun t : TeardownWork => t.state.now) (fun t n => by simp)]; simp
    · unfold State.releaseCopies; dsimp only; rw [foldl_keeps (fun t : TeardownWork => t.state.lines) (fun t n => by simp), foldl_keeps (fun t : TeardownWork => t.state.lines) (fun t n => by simp)]; simp
    · unfold State.releaseCopies; dsimp only; rw [foldl_keeps (fun t : TeardownWork => t.state.table) (fun t n => by simp), foldl_keeps (fun t : TeardownWork => t.state.table) (fun t n => by simp)]; simp
    · unfold State.releaseCopies; dsimp only; rw [foldl_keeps (fun t : TeardownWork => t.state.leases) (fun t n => by simp), foldl_keeps (fun t : TeardownWork => t.state.leases) (fun t n => by simp)]; simp
    · unfold State.releaseCopies; dsimp only; rw [foldl_keeps (fun t : TeardownWork => t.state.sessions) (fun t n => by simp), foldl_keeps (fun t : TeardownWork => t.state.sessions) (fun t n => by simp)]; simp
    · unfold State.releaseCopies; dsimp only; rw [foldl_keeps (fun t : TeardownWork => t.state.epoch) (fun t n => by simp), foldl_keeps (fun t : TeardownWork => t.state.epoch) (fun t n => by simp)]; simp
    · unfold State.releaseCopies; dsimp only; rw [foldl_keeps (fun t : TeardownWork => t.state.causes) (fun t n => by simp), foldl_keeps (fun t : TeardownWork => t.state.causes) (fun t n => by simp)]; simp
    · unfold State.releaseCopies; dsimp only; rw [foldl_keeps (fun t : TeardownWork => t.state.inReset) (fun t n => by simp), foldl_keeps (fun t : TeardownWork => t.state.inReset) (fun t n => by simp)]; simp
    · unfold State.releaseCopies; dsimp only; rw [foldl_keeps (fun t : TeardownWork => t.state.freeIdx) (fun t n => by simp), foldl_keeps (fun t : TeardownWork => t.state.freeIdx) (fun t n => by simp)]; simp
    · unfold State.releaseCopies; dsimp only; rw [foldl_keeps (fun t : TeardownWork => t.state.pending) (fun t n => by simp), foldl_keeps (fun t : TeardownWork => t.state.pending) (fun t n => by simp)]; simp
  obtain ⟨hnow, hlines, htable, hleases, hsessions, hepoch, hcauses, hinReset, hfreeIdx, hpending⟩ := base
  exact ⟨hnow, hlines, htable, hleases, hsessions, hepoch, hcauses, hinReset, hfreeIdx, hpending, congrFun (State.session_congr hsessions), congrFun (State.attached_congr hsessions), congrFun (State.entry_congr htable), congrFun (State.line_congr hlines), congrFun (State.holder_congr hleases)⟩

/-- `teardown_state` changes slots, arrivals, loss, missed, ports, dispatch, sessions, leases at most. -/
@[simp] theorem State.teardown_state_frame (s : State) (h : HostId) (f : HostState) :
    ((s.teardown h f).state).now = s.now ∧ ((s.teardown h f).state).lines = s.lines ∧ ((s.teardown h f).state).table = s.table ∧
    ((s.teardown h f).state).epoch = s.epoch ∧ ((s.teardown h f).state).causes = s.causes ∧ ((s.teardown h f).state).inReset = s.inReset ∧
    ((s.teardown h f).state).freeIdx = s.freeIdx ∧ ((s.teardown h f).state).pending = s.pending ∧
    (∀ x, ((s.teardown h f).state).entry x = s.entry x) ∧ (∀ x, ((s.teardown h f).state).line x = s.line x) := by
  have base : ((s.teardown h f).state).now = s.now ∧ ((s.teardown h f).state).lines = s.lines ∧ ((s.teardown h f).state).table = s.table ∧ ((s.teardown h f).state).epoch = s.epoch ∧ ((s.teardown h f).state).causes = s.causes ∧ ((s.teardown h f).state).inReset = s.inReset ∧ ((s.teardown h f).state).freeIdx = s.freeIdx ∧ ((s.teardown h f).state).pending = s.pending := by
    unfold State.teardown; simp
  obtain ⟨hnow, hlines, htable, hepoch, hcauses, hinReset, hfreeIdx, hpending⟩ := base
  exact ⟨hnow, hlines, htable, hepoch, hcauses, hinReset, hfreeIdx, hpending, congrFun (State.entry_congr htable), congrFun (State.line_congr hlines)⟩

/-- `lose` changes slots, arrivals, loss, missed, ports, dispatch, sessions, leases at most. -/
@[simp] theorem State.lose_frame (s : State) (h : HostId) (c : EvictCause) :
    (s.lose h c).now = s.now ∧ (s.lose h c).lines = s.lines ∧ (s.lose h c).table = s.table ∧ (s.lose h c).epoch = s.epoch ∧
    (s.lose h c).causes = s.causes ∧ (s.lose h c).inReset = s.inReset ∧ (s.lose h c).freeIdx = s.freeIdx ∧ (s.lose h c).pending = s.pending ∧
    (∀ x, (s.lose h c).entry x = s.entry x) ∧ (∀ x, (s.lose h c).line x = s.line x) := by
  have base : (s.lose h c).now = s.now ∧ (s.lose h c).lines = s.lines ∧ (s.lose h c).table = s.table ∧ (s.lose h c).epoch = s.epoch ∧ (s.lose h c).causes = s.causes ∧ (s.lose h c).inReset = s.inReset ∧ (s.lose h c).freeIdx = s.freeIdx ∧ (s.lose h c).pending = s.pending := by
    unfold State.lose; simp
  obtain ⟨hnow, hlines, htable, hepoch, hcauses, hinReset, hfreeIdx, hpending⟩ := base
  exact ⟨hnow, hlines, htable, hepoch, hcauses, hinReset, hfreeIdx, hpending, congrFun (State.entry_congr htable), congrFun (State.line_congr hlines)⟩

/-- `takeOffer` changes dispatch, sessions, ports at most. -/
@[simp] theorem State.takeOffer_frame (s : State) (h : HostId) (o : Offer) :
    (s.takeOffer h o).now = s.now ∧ (s.takeOffer h o).lines = s.lines ∧ (s.takeOffer h o).table = s.table ∧ (s.takeOffer h o).leases = s.leases ∧
    (s.takeOffer h o).slots = s.slots ∧ (s.takeOffer h o).arrivals = s.arrivals ∧ (s.takeOffer h o).loss = s.loss ∧
    (s.takeOffer h o).missed = s.missed ∧ (s.takeOffer h o).epoch = s.epoch ∧ (s.takeOffer h o).causes = s.causes ∧
    (s.takeOffer h o).inReset = s.inReset ∧ (s.takeOffer h o).freeIdx = s.freeIdx ∧ (s.takeOffer h o).pending = s.pending ∧
    (∀ x, (s.takeOffer h o).record x = s.record x) ∧ (∀ x, (s.takeOffer h o).serial x = s.serial x) ∧ (∀ x, (s.takeOffer h o).entry x = s.entry x) ∧
    (∀ x, (s.takeOffer h o).line x = s.line x) ∧ (∀ x, (s.takeOffer h o).holder x = s.holder x) := by
  exact ⟨rfl, rfl, rfl, rfl, rfl, rfl, rfl, rfl, rfl, rfl, rfl, rfl, rfl, fun _ => rfl, fun _ => rfl, fun _ => rfl, fun _ => rfl, fun _ => rfl⟩


end Sys2Proof.Machine
end

