-- ==== Sys2Proof/Laws/Ops.lean ====
section
/-! SUPPORT. What the operations on a slot write, and on which parts of the state each answer of the Router depends. -/

namespace Sys2Proof.Machine

/-! ### The slot of a record -/

theorem State.record_openRecord (s : State) (n m : SlotNo) (r : Record) :
    (s.openRecord n r).record m = if m = n then some r else s.record m := State.record_setRecord s n m (some r)

@[simp] theorem State.serial_openRecord (s : State) (n m : SlotNo) (r : Record) : (s.openRecord n r).serial m = s.serial m :=
  State.serial_setRecord s n m (some r)

@[simp] theorem State.arrivals_openRecord (s : State) (n : SlotNo) (r : Record) : (s.openRecord n r).arrivals = s.arrivals ++ [n] := rfl

theorem State.record_freeSlot (s : State) (n m : SlotNo) : (s.freeSlot n).record m = if m = n then none else s.record m :=
  State.record_setRecord s n m none

@[simp] theorem State.serial_freeSlot (s : State) (n m : SlotNo) : (s.freeSlot n).serial m = s.serial m := State.serial_setRecord s n m none

@[simp] theorem State.arrivals_freeSlot (s : State) (n : SlotNo) :
    (s.freeSlot n).arrivals = s.arrivals.filter fun m => decide (m ≠ n) := rfl

theorem State.record_reopenRecord (s : State) (n m : SlotNo) (r : Record) :
    (s.reopenRecord n r).record m = if m = n then some r else s.record m := State.record_setRecord s n m (some r)

@[simp] theorem State.serial_reopenRecord (s : State) (n m : SlotNo) (r : Record) : (s.reopenRecord n r).serial m = s.serial m :=
  State.serial_setRecord s n m (some r)

@[simp] theorem State.arrivals_reopenRecord (s : State) (n : SlotNo) (r : Record) :
    (s.reopenRecord n r).arrivals = (s.arrivals.filter fun m => decide (m ≠ n)) ++ [n] := rfl

/-- The posted use counts slots (R10). -/
theorem State.postedUse_eq (s : State) (h : HostId) :
    s.postedUse h = (List.finRange 96).countP fun n =>
      match s.record n with
      | some r => decide (r.source = .host h)
      | none => false := by
  have e : s.slots.toList = (List.finRange 96).map fun n => s.slots[n] := by
    apply List.ext_getElem <;> simp
  unfold State.postedUse
  rw [e, List.countP_map]
  rfl

/-- A count rises by one when one element of a list without repeats comes to be counted. -/
theorem countP_eq_add_one {α : Type} [DecidableEq α] {l : List α} {n : α} (hl : l.Nodup) (hn : n ∈ l) {f g : α → Bool}
    (h : ∀ m, m ≠ n → f m = g m) (hf : f n = true) (hg : g n = false) : l.countP f = l.countP g + 1 := by
  induction l with
  | nil => cases hn
  | cons a l ih =>
    rw [List.nodup_cons] at hl
    by_cases e : a = n
    · subst e
      have : l.countP f = l.countP g := List.countP_congr fun x hx => by rw [h x fun e => hl.1 (e ▸ hx)]
      simp [hf, hg, this]
    · have := ih hl.2 (by simpa [Ne.symm e] using hn)
      simp [List.countP_cons, this, h a e]
      omega

/-- The posted use of the sender rises by one with the record of a POST (R10). -/
theorem State.postedUse_openRecord (s : State) {n : SlotNo} {r : Record} {h : HostId} (hr : s.record n = none)
    (hs : r.source = .host h) : (s.openRecord n r).postedUse h = s.postedUse h + 1 := by
  rw [State.postedUse_eq, State.postedUse_eq]
  apply countP_eq_add_one (n := n) (List.nodup_finRange 96) (by simp)
  · intro m hm; rw [State.record_openRecord]; simp [hm]
  · simp [State.record_openRecord, hs]
  · simp [hr]

/-! ### On what the Router's answers depend (R50) -/

section
variable {s t : State} (es : t.sessions = s.sessions) (ed : t.dispatch = s.dispatch)

include ed in
theorem State.level_congr : t.level = s.level := by
  funext h
  simp only [State.level, State.disp_congr ed]

include es ed

theorem State.hasRoomFor_congr : t.hasRoomFor = s.hasRoomFor := by
  funext h band
  simp only [State.hasRoomFor, State.session_congr es, State.level_congr ed, State.disp_congr ed]

theorem State.eligible_congr : t.eligible = s.eligible := by
  funext h band
  simp only [State.eligible, State.session_congr es, State.hasRoomFor_congr es ed]

theorem State.wouldAccept_congr : t.wouldAccept = s.wouldAccept := by
  funext h band
  simp only [State.wouldAccept, State.session_congr es, State.hasRoomFor_congr es ed]

theorem State.candidate_congr : t.candidate = s.candidate := by
  funext r c
  simp only [State.candidate, State.eligible_congr es ed]

theorem State.wakeTarget_congr : t.wakeTarget = s.wakeTarget := by
  funext r c
  simp only [State.wakeTarget, State.candidate_congr es ed, State.wouldAccept_congr es ed]

end

section
variable {s t : State} (ea : t.arrivals = s.arrivals) (er : t.slots = s.slots)
include ea er

theorem State.placedCopies_congr : t.placedCopies = s.placedCopies := by
  simp only [State.placedCopies, ea, State.record_congr er]

variable (es : t.sessions = s.sessions) (ed : t.dispatch = s.dispatch)
include es ed

theorem State.candidatesOf_congr : t.candidatesOf = s.candidatesOf := by
  funext h
  simp only [State.candidatesOf, State.placedCopies_congr ea er, State.candidate_congr es ed]

theorem State.choose_congr : t.choose = s.choose := by
  funext h
  simp only [State.choose, State.candidatesOf_congr ea er es ed]

theorem State.wakeCopies_congr : t.wakeCopies = s.wakeCopies := by
  funext h
  simp only [State.wakeCopies, State.placedCopies_congr ea er, State.wakeTarget_congr es ed]

theorem State.batchTally_congr : t.batchTally = s.batchTally := by
  funext h
  simp only [State.batchTally, State.session_congr es, State.wakeCopies_congr ea er es ed]

end

/-- A copy is placed just when its record is in a slot of the arrival list. -/
theorem State.mem_placedCopies {s : State} {w : PlacedCopy} :
    w ∈ s.placedCopies ↔ w.slot ∈ s.arrivals ∧ s.record w.slot = some w.record ∧ w.copy ∈ w.record.copies := by
  obtain ⟨n, r, c⟩ := w
  simp only [State.placedCopies, List.mem_flatMap]
  constructor
  · rintro ⟨m, hm, h⟩
    split at h
    · rename_i v hv
      obtain ⟨d, hd, e⟩ := List.mem_map.1 h
      cases e
      exact ⟨hm, hv, hd⟩
    · cases h
  · rintro ⟨hn, hr, hc⟩
    refine ⟨n, hn, ?_⟩
    rw [hr]
    exact List.mem_map_of_mem hc

end Sys2Proof.Machine
end

