-- ==== Sys2Proof/Tests/Slice0.lean ====
section
/-! SUPPORT. Small tests: well-formedness, command frames written out byte by byte from R175 and R176, one step of each command on a small state, and a
witness for the hypotheses of each statement. Expected values come from the rules named. -/

namespace Sys2Proof.Tests

open Sys2Proof.Machine

-- One theorem at a time: many kernel evaluations side by side ask for more threads than the check allows.
set_option Elab.async false

/-- The next state of a command, the state itself where there is none. -/
def after (i : Instr) (s : State) : State :=
  match exec i s with
  | .next t => t
  | .fault _ => s
  | .refused _ => s

/-- A host put into a state. -/
def put (h : HostId) (v : HostState) (s : State) : State := s.updSession h fun e => { e with state := v }

/-- Messages put into a host's queue. -/
def queued (h : HostId) (ms : List Msg) (s : State) : State := s.updPort h fun q => { q with queue := ms }

/-- A line table entry replaced. -/
def wired (l : LineNo) (e : LineEntry) (s : State) : State := s.setEntry l e

/-- A COMPLETED notice to fill a queue with. -/
def note : Msg := .completed 50 .done 0

/-- The state after reset with H0 and H1 AWAKE. -/
def base : State := put .h1 .awake (put .h0 .awake State.reset)

/-- H1 has posted an ANY event of band 3 to H0, with notify. -/
def postedAny : State := base.openRecord 48 (postedRecord .h1 3 .any [.h0] 7 true)

/-- It is offered to H0. -/
def offered : State := postedAny.arbiterFill .h0

/-- It is in service at H0. -/
def served : State := after (.claim .h0 0 48 1) offered

/-- H1 has posted an EACH event of band 3 to H0 and H1, offered to both. -/
def offeredEach : State := ((base.openRecord 48 (postedRecord .h1 3 .each [.h0, .h1] 7 true)).arbiterFill .h0).arbiterFill .h1

/-- Line 5 has an OPEN record, and H0 holds its group. -/
def lineOpen : State :=
  after (.rawChange 5 .high) (wired 5 ⟨true, .rise, 0, 2, .any, [.h2]⟩
    { base with leases := base.leases.set 0 (some .h0), lines := base.lines.set 5 ⟨.low, .steady .low⟩ })

/-- A RESET_LINE reset is in progress. -/
def inReset : State := after .resetLine served

/-- The supply is low as well. -/
def twoHolds : State := after .supplyLow inReset

/-! ### Well-formedness -/

/-- UNKNOWN_COMMAND with a code of the table of R176 stands for nothing. -/
theorem test_wellFormed_refuses_table_code : (Instr.unknownCommand .h0 0 0x10).wellFormed = false := by decide

theorem test_wellFormed_accepts_other_code : (Instr.unknownCommand .h0 0 0x13).wellFormed = true := by decide

/-! ### Command frames, byte by byte (R175, R176) -/

theorem test_frame_attach : commandOfFrame .h2 ⟨0x01, 0x55, 4, 0, 0, 0, 0, 0, 0, 0, 0, 0⟩ = .attach .h2 0x55 4 := by decide

theorem test_frame_setHost : commandOfFrame .h0 ⟨0x04, 7, 2, 0x88, 0x13, 0, 0, 0, 0, 0, 0, 0⟩ = .setHost .h0 7 2 5000 := by decide

theorem test_frame_claim : commandOfFrame .h1 ⟨0x10, 9, 48, 3, 0xFF, 0, 0, 0, 0, 0, 0, 0⟩ = .claim .h1 9 48 3 := by decide

theorem test_frame_post :
    commandOfFrame .h3 ⟨0x18, 1, 6, 1, 1, 2, 0x04, 0x78, 0x56, 0x34, 0x12, 0⟩ = .post .h3 1 6 1 1 2 0x04 0x12345678 := by decide

theorem test_frame_configLine :
    commandOfFrame .h0 ⟨0x22, 2, 17, 3, 4, 64, 7, 0, 3, 0x24, 0, 0⟩ = .configLine .h0 2 17 3 4 64 7 0 3 0x24 := by decide

theorem test_frame_ackNotice : commandOfFrame .h0 ⟨0x29, 3, 5, 0, 0, 0, 0, 0, 0, 0, 0, 0⟩ = .ackNotice .h0 3 5 := by decide

theorem test_frame_queryEvent : commandOfFrame .h0 ⟨0x30, 4, 95, 2, 0, 0, 0, 0, 0, 0, 0, 0⟩ = .queryEvent .h0 4 95 2 := by decide

theorem test_frame_unknown : commandOfFrame .h0 ⟨0x13, 4, 95, 2, 0, 0, 0, 0, 0, 0, 0, 0⟩ = .unknownCommand .h0 4 0x13 := by decide

/-! ### One step of each command -/

/-- The messages that stand in a host's queue after a command. -/
def queueAfter (h : HostId) (i : Instr) (s : State) : List Msg := ((after i s).port h).queue

theorem test_exchangeStart_carries_head : ((after (.exchangeStart .h0) offered).port .h0).headCarried = true := by decide +kernel

theorem test_shortExchange_keeps_queue :
    queueAfter .h0 (.shortExchange .h0 11) (after (.exchangeStart .h0) offered) = (offered.port .h0).queue := by decide +kernel

theorem test_nop_removes_carried : queueAfter .h0 (.nop .h0 1) offered = [] := by decide +kernel

theorem test_unknownCommand_badArg : queueAfter .h0 (.unknownCommand .h0 6 0x13) base = [.reply 6 .badArg .empty] := by decide +kernel

/-- R125: the depth 0 asks for 2, and the REPLY carries the epoch, the causes, no was-lost mark and the quota. -/
theorem test_attach_reply :
    queueAfter .h2 (.attach .h2 6 0) base = [.reply 6 .ok (.attachOk 1 ⟨true, false, false⟩ 2 false 12)] := by decide +kernel

theorem test_attach_attached_is_badState : queueAfter .h0 (.attach .h0 6 0) base = [.reply 6 .badState (.hostStateIs .awake)] := by
  decide +kernel

theorem test_detach_hands_back :
    (after (.detach .h0 1) served).record 48 =
      some { postedRecord .h1 3 .any [.h0] 7 true with phase := .opened, declined := ⟨true, false, false, false⟩ } := by decide +kernel

/-- R128: SLEEP(DEEP) withdraws the offer; the copy then has the sleeping host as wake target. -/
theorem test_sleep_withdraws : ((after (.sleep .h0 1 2) offered).disp .h0).offer = none := by decide +kernel

theorem test_setHost_missLimit : ((after (.setHost .h0 1 3 15) base).session .h0).missLimit = 15 := by decide +kernel

theorem test_setFloor_withdraws : (after (.setFloor .h0 1 3) offered).record 48 = postedAny.record 48 := by decide +kernel

theorem test_setQuota_no_room : queueAfter .h0 (.setQuota .h0 1 13) base = [.reply 1 .noRoom (.quotaSet 12 0)] := by decide +kernel

theorem test_queryHost_counts : queueAfter .h2 (.queryHost .h2 1 0 1) base = [.reply 1 .ok (.hostCounts 0 3 5 8 12 0)] := by
  decide +kernel

theorem test_claim_takes : (served.disp .h0).stack = [⟨⟨48, 1⟩, 3⟩] := by decide +kernel

theorem test_claim_reply_is_payload :
    queueAfter .h0 (.claim .h0 5 48 1) (queued .h0 [] offered) = [.reply 5 .ok (.claimPosted ⟨48, 1⟩ 7)] := by decide +kernel

/-- R14, R72: the last EACH copy's DECLINE completes the record DONE, and the sender is told. -/
theorem test_decline_last_copy :
    queueAfter .h1 (.decline .h1 5 48 2) (queued .h1 [] (after (.decline .h0 5 48 1) offeredEach)) =
      [.reply 5 .ok (.handleNamed 48 2), .completed 48 .done 7] := by decide +kernel

theorem test_done_frees : (after (.done .h0 5 48 1) served).record 48 = none := by decide +kernel

theorem test_done_notifies : queueAfter .h1 (.done .h0 5 48 1) served = [.completed 48 .done 7] := by decide +kernel

theorem test_post_opens :
    queueAfter .h0 (.post .h0 5 1 0 0 1 2 9) base = [.reply 5 .ok (.postOk 48 1 12)] := by decide +kernel

theorem test_retract_any_open : queueAfter .h1 (.retract .h1 5 48) offered = [.reply 5 .ok (.retractOk 48 1 0)] := by decide +kernel

theorem test_retract_in_service : queueAfter .h1 (.retract .h1 5 48) served = [.reply 5 .inService (.retractInService 48 (some .h0))] := by
  decide +kernel

theorem test_lease_takes : (after (.lease .h0 1 7) base).holder 7 = some .h0 := by decide +kernel

theorem test_release_not_held : queueAfter .h1 (.release .h1 1 0) lineOpen = [.reply 1 .noLease (.leaseHolder 0 (some .h0))] := by
  decide +kernel

/-- R151: apply-to-open rebuilds the OPEN record; the new route list reaches H1 at once. -/
theorem test_configLine_rebuilds :
    ((after (.configLine .h0 1 5 3 0 0 6 0 1 1) lineOpen).disp .h1).offer = some ⟨⟨5, 1⟩, 6⟩ := by decide +kernel

theorem test_fetchLoss_reads :
    queueAfter .h0 (.fetchLoss .h0 1) (base.makeLoss .unwanted 48 (postedRecord .h1 3 .any [.h0] 7 true) none) =
      [.reply 1 .ok (.lossEntry .unwanted 48 (.host .h1) 3 7 none 0 0)] := by decide +kernel

theorem test_ackNotice_clears : (after (.ackNotice .h0 1 1) base).causes.get .h0 = ⟨false, false, false⟩ := by decide +kernel

theorem test_queryEvent_content : queueAfter .h0 (.queryEvent .h0 1 48 2) served = [.reply 1 .ok (.eventPosted .captured 7)] := by
  decide +kernel

theorem test_queryLine_view :
    queueAfter .h0 (.queryLine .h0 1 5) lineOpen =
      [.reply 1 .ok (.lineView ⟨true, .rise, 0, 2, .any, [.h2]⟩ .high (some .high) false .opened 1 0)] := by decide +kernel

theorem test_rawChange_counts : ((lineOpen.record 5).map Record.count) = some 1 := by decide +kernel

theorem test_qualificationTimerExpiry_accepts :
    ((after (.qualificationTimerExpiry 5)
      { lineOpen with lines := lineOpen.lines.set 5 ⟨.high, .qualifying .low .high 8⟩ }).record 5).map Record.count = some 2 := by
  decide +kernel

theorem test_claimTimerExpiry_counts_miss : ((after (.claimTimerExpiry .h0) offered).session .h0).missCount = 1 := by decide +kernel

theorem test_wakeTimerExpiry_restarts :
    ((after (.wakeTimerExpiry .h0) (base.updSession .h0 fun e => { e with state := .waking, wakeTimer := some 5000 })).session .h0).wakeTimer =
      some 10000 := by decide +kernel

/-- R68: the claim timer of an AWAKE host runs for its claim window. -/
theorem test_arbiterFill_starts_timer : ((after (.arbiterFill .h0) postedAny).disp .h0).claimTimer = some 500 := by decide +kernel

theorem test_resetLine_empties_queue : (inReset.port .h0).queue = [] := by decide +kernel

theorem test_supplyLow_joins :
    twoHolds.inReset = some ⟨⟨false, true, true⟩, ⟨false, true, true⟩⟩ := by decide +kernel

theorem test_powerOn_begins : (after .powerOn base).inReset = some ⟨⟨true, false, false⟩, ⟨true, false, false⟩⟩ := by decide +kernel

theorem test_holdEnds_takes_hold : (after (.holdEnds .resetLine) twoHolds).inReset = some ⟨⟨false, false, true⟩, ⟨false, true, true⟩⟩ := by
  decide +kernel

/-- R167: a reset without POWER_ON advances the epoch. -/
theorem test_hubResetCompletion_epoch : (after (.hubResetCompletion 0) inReset).epoch = 2 := by decide +kernel

/-- R165: the reset stays in progress while any hold persists. -/
theorem test_hubResetCompletion_waits_for_holds : (after (.hubResetCompletion 0) twoHolds).inReset = twoHolds.inReset := by decide +kernel

theorem test_exchangeDiscarded_ends_period :
    ((after (.exchangeDiscarded .h0) (after (.exchangeStart .h0) inReset)).port .h0).cs = .idle := by decide +kernel

/-! ### Witnesses: a state and operands that meet the hypotheses of each statement, clause by clause -/

/-- A queue of 8 messages other than WITHDRAW. -/
def fullQueue : List Msg := List.replicate 8 note

/-- A two-part message at the head of H0's queue. -/
def twoPart : State := queued .h0 [.reply 1 .ok (.lossEntry .unwanted 48 (.host .h1) 3 7 none 0 0), note] base

/-- H0 in DEEP, with its wake band 1. -/
def deep : State := base.updSession .h0 fun e => { e with state := .deep, wakeBand := 1 }

/-- The record of `postedAny`. -/
def anyRecord : Record := postedRecord .h1 3 .any [.h0] 7 true

/-- The record of `offeredEach` with every copy waiting. -/
def eachRecord : Record := postedRecord .h1 3 .each [.h0, .h1] 7 true

theorem witness_StepRunsFrontCommand :
    { State.reset with pending := [.resetLine] }.pending = .resetLine :: [] ∧ State.reset.pending = [] := by decide

theorem witness_CommandFrameRoundTrip :
    (Instr.unknownCommand .h3 9 0xFF).wellFormed = true ∧ callerOf (.unknownCommand .h3 9 0xFF) = some (.h3, 9) := by decide

theorem witness_LineTableGuarded :
    (∃ t, exec (.configLine .h0 1 5 1 0 0 6 0 1 1) lineOpen = .next t ∧ t.entry 5 ≠ lineOpen.entry 5) ∧
      ∃ t, exec (.hubResetCompletion 0) (after .resetLine lineOpen) = .next t ∧ t.entry 5 ≠ (after .resetLine lineOpen).entry 5 :=
  ⟨⟨_, rfl, by decide +kernel⟩, ⟨_, rfl, by decide +kernel⟩⟩

theorem witness_RetentionGuarded :
    (∃ t, exec (.hubResetCompletion 0) inReset = .next t ∧ t.epoch ≠ inReset.epoch ∧ t.causes.get .h3 ≠ inReset.causes.get .h3) ∧
      ∃ t, exec (.ackNotice .h0 1 1) base = .next t ∧ t.causes.get .h0 ≠ base.causes.get .h0 :=
  ⟨⟨_, rfl, by decide +kernel⟩, ⟨_, rfl, by decide +kernel⟩⟩

/-- A POST wakes a DEEP host. -/
theorem witness_OtherSessionsUntouched :
    callerOf (.post .h1 1 1 0 0 1 0 0) = some (.h1, 1) ∧ HostId.h0 ≠ .h1 ∧
      ∃ t, exec (.post .h1 1 1 0 0 1 0 0) deep = .next t ∧ (t.session .h0).state = .waking :=
  ⟨rfl, by decide, _, rfl, by decide +kernel⟩

/-- A reset in progress, and a hub that runs again with the period that the reset cut off still open. -/
theorem witness_NothingTakenInReset :
    (¬inReset.running ∧ (∃ t, exec (.claim .h0 1 48 1) inReset = .next t) ∧ callerOf (.claim .h0 1 48 1) = some (.h0, 1)) ∧
      let s := after (.hubResetCompletion 0) (after .resetLine (after (.exchangeStart .h0) base))
      s.running ∧ (s.port .h0).cs = .cutOff := by
  refine ⟨⟨by decide +kernel, ⟨_, rfl⟩, rfl⟩, by decide +kernel⟩

theorem witness_NoRoomAndNotAttached :
    (callerOf (.lease .h0 1 0) = some (.h0, 1) ∧ (queued .h0 fullQueue base).canExchange .h0 ∧
        ((queued .h0 fullQueue base).port .h0).hasReplyRoom = false) ∧
      callerOf (.lease .h2 1 0) = some (.h2, 1) ∧ needsSession (.lease .h2 1 0) = true ∧ base.takes .h2 ∧ base.attached .h2 = false := by
  decide +kernel

theorem witness_BeforeTheCommand :
    (base.canExchange .h0 ∧ (base.port .h0).cs = .idle) ∧ (after (.exchangeStart .h0) base).canExchange .h0 ∧
      ∃ y, ((after (.exchangeStart .h0) base).port .h0).cs = .live y := by
  refine ⟨by decide +kernel, ⟨by decide +kernel, ?_, ?_⟩, _, rfl⟩ <;> intro h <;> cases h

theorem witness_ExchangeEnd :
    (∃ x, ((after (.exchangeStart .h0) base).port .h0).cs = .live x ∧ x.carried = false) ∧
      (∃ x, ((after (.exchangeStart .h0) twoPart).port .h0).cs = .live x ∧ x.carried = true) ∧
      ∃ m rest, (twoPart.port .h0).queue = m :: rest ∧ m.twoPart = true ∧ (twoPart.port .h0).partMark = false :=
  ⟨⟨_, rfl, by decide +kernel⟩, ⟨_, rfl, by decide +kernel⟩, _, _, rfl, by decide +kernel⟩

theorem witness_CandidateAnswers :
    base.candidate anyRecord ⟨none, .waiting⟩ = some .h0 ∧ base.candidate eachRecord ⟨some .h1, .waiting⟩ = some .h1 ∧
      (offered.disp .h0).stack = [] ∧ (served.disp .h0).stack = [] ++ [⟨⟨48, 1⟩, 3⟩] ∧ (lineRecord 5 ⟨true, .rise, 0, 0, .any, [.h0]⟩ 1 false).band = 0 ∧
      ⟨some .h0, .inService ⟨48, 1⟩⟩ ∈ (served.record 48).toList.flatMap Record.copies := by
  decide +kernel

theorem witness_WakeTargetsAndTrigger :
    (deep.candidate anyRecord ⟨none, .waiting⟩ = none ∧ deep.wakeTarget anyRecord ⟨none, .waiting⟩ = some .h0) ∧
      deep.candidate eachRecord ⟨some .h0, .waiting⟩ = none ∧ deep.wakeTarget eachRecord ⟨some .h0, .waiting⟩ = some .h0 ∧
      (deep.openRecord 48 anyRecord).wakeTriggered .h0 = true := by
  decide +kernel

/-- Two copies of one band: the earlier in the arrival list is chosen. -/
theorem witness_ArbiterChoosesHighestThenOldest :
    ((postedAny.openRecord 50 anyRecord).choose .h0).map PlacedCopy.slot = some 48 ∧
      ((postedAny.openRecord 50 { anyRecord with band := 7 }).choose .h0).map PlacedCopy.slot = some 50 := by
  decide +kernel

/-- With 5 messages queued the offer is made; with 6, with an offer outstanding or without candidate it is not. -/
theorem witness_ArbiterFillMakesOffer :
    ((offered.disp .h0).offer ≠ none ∧ 5 < ((queued .h0 (List.replicate 6 note) postedAny).port .h0).queue.length ∧ base.candidatesOf .h0 = []) ∧
      let s := queued .h0 (List.replicate 5 note) postedAny
      s.running ∧ (s.disp .h0).offer = none ∧ (s.port .h0).queue.length ≤ 5 ∧ s.choose .h0 = some ⟨48, anyRecord, ⟨none, .waiting⟩⟩ ∧
        s.record 48 = some anyRecord := by
  decide +kernel

/-- Between events the premises of the order of the fills hold; a band above that of the offer outstanding is due to preempt it. -/
theorem witness_RecomputationFrame :
    postedAny.ArrivalsOk ∧ (∀ n r, postedAny.record n = some r → r.CopiesOk ∧ RouteOk r.route) ∧
      (offered.openRecord 50 { anyRecord with band := 7 }).PreemptionDue .h0 := by
  refine ⟨by unfold State.ArrivalsOk; decide +kernel, ?_, ⟨⟨48, 1⟩, 3⟩, ⟨50, { anyRecord with band := 7 }, ⟨none, .waiting⟩⟩, by decide +kernel⟩
  have only : ∀ n, ∀ r ∈ postedAny.record n, n = 48 ∧ r = anyRecord := by decide +kernel
  intro n r e
  obtain ⟨-, rfl⟩ := only n r e
  refine ⟨⟨by decide, fun _ => by decide, fun h => (by cases h), ?_⟩, by unfold RouteOk; decide⟩
  intro _ c hc hd e
  have : ∀ c ∈ anyRecord.copies, c = ⟨none, .waiting⟩ := by decide
  rw [this c hc] at e
  cases e

/-- The OFFER is deleted while it is queued; once it is carried a WITHDRAW is appended. -/
theorem witness_WithdrawalEffect :
    ((offeredEach.record 48).isSome = true ∧ Reason.retracted ≠ .timeout ∧ (offeredEach.disp .h0).offer = some ⟨⟨48, 1⟩, 3⟩ ∧
        (offeredEach.disp .h1).offer = some ⟨⟨48, 2⟩, 3⟩ ∧ (offeredEach.disp .h2).offer = none) ∧
    (offered.disp .h0).offer = some ⟨⟨48, 1⟩, 3⟩ ∧ (offered.record 48).isSome = true ∧
      (∃ before m after, (offered.port .h0).queue = before ++ m :: after ∧ m.offers ⟨48, 1⟩ = true ∧ (∀ x ∈ after, x.offers ⟨48, 1⟩ = false) ∧
        (before = [] → (offered.port .h0).headCarried = false)) ∧
      let s := after (.exchangeStart .h0) offered
      (s.port .h0).headCarried = true ∧ ∀ m ∈ (s.port .h0).queue.tail, m.offers ⟨48, 1⟩ = false :=
  ⟨by decide +kernel, by decide +kernel, by decide +kernel, ⟨[], _, [], rfl, by decide +kernel⟩, by decide +kernel⟩

theorem witness_CompletionFreesOrReopens :
    anyRecord.source = .host .h1 ∧ (lineOpen.record 5).map Record.source = some (.line 5) ∧ (lineOpen.entry 5).enabled = true ∧
      (lineOpen.entry 5).sense.active = none ∧ (base.entry 5).enabled = false ∧
      let s := wired 5 ⟨true, .high, 0, 2, .any, [.h2]⟩ lineOpen
      (s.entry 5).sense.active = some .high ∧ (s.line 5).detector.accepted = some .high := by
  decide +kernel

/-- A count of 254 rises, a count of 255 saturates. -/
theorem witness_ArrivalApplied :
    base.record (slotOfLine 5) = none ∧ (lineOpen.record (slotOfLine 5)).isSome = true ∧ (lineOpen.entry 5).sense.active = none ∧
      (let r := lineRecord 5 (lineOpen.entry 5) 254 false;
        (lineOpen.setRecord 5 (some r)).record (slotOfLine 5) = some r ∧ r.count < 255 ∧ r.phase = .opened) ∧
      (let r := { lineRecord 5 (lineOpen.entry 5) 1 false with phase := .captured, backlog := 255 };
        (lineOpen.setRecord 5 (some r)).record (slotOfLine 5) = some r ∧ 255 ≤ r.backlog ∧ r.saturated = false) ∧
      (wired 5 ⟨true, .low, 0, 2, .any, [.h2]⟩ lineOpen).entry 5 = ⟨true, .low, 0, 2, .any, [.h2]⟩ ∧ Sense.low.active ≠ none := by
  decide +kernel

theorem witness_LossEntryMade :
    base.attached .h0 = true ∧ base.loss.length < 16 ∧ State.reset.attached .h3 = false ∧
      16 ≤ { base with loss := List.replicate 16 ⟨.saturated, 5, .line 5, 2, 0, none, ⟨true, false, false, false⟩⟩ }.loss.length := by
  decide +kernel

/-- With 7 messages the notice is admitted, with 8 it is dropped. -/
theorem witness_NoticeDelivered :
    base.attached .h2 = false ∧ base.attached .h0 = true ∧ nonWithdraw ((queued .h0 (List.replicate 7 note) base).port .h0).queue ≤ 7 ∧
      8 ≤ nonWithdraw ((queued .h0 fullQueue base).port .h0).queue := by
  decide +kernel

theorem witness_RoundEndTaken :
    (let r := { anyRecord with declined := ⟨true, false, false, false⟩, rounds := 1 };
      (base.openRecord 48 r).record 48 = some r ∧ (base.openRecord 48 r).roundOver r = true ∧ r.rounds ≤ 1) ∧
    (let r := { anyRecord with declined := ⟨true, false, false, false⟩, rounds := 2 };
      (base.openRecord 48 r).record 48 = some r ∧ (base.openRecord 48 r).roundOver r = true ∧ 2 ≤ r.rounds) ∧
    postedAny.record 48 = some anyRecord ∧ postedAny.roundOver anyRecord = false := by
  decide +kernel

/-- A teardown in the middle of an exchange; one of an offer of either mode, of a stack entry of either mode, of a copy owed, and of a reclaim whose merged
count is 255 and one more. -/
theorem witness_TeardownAndLoss :
    ((HostState.lost = .absent ∨ HostState.lost = .lost) ∧ ∃ x, ((after (.exchangeStart .h0) offered).port .h0).cs = .live x) ∧
      ((offered.disp .h0).offer = some ⟨⟨48, 1⟩, 3⟩ ∧ (offered.record 48).map Record.mode = some .any) ∧
      ((offeredEach.disp .h0).offer = some ⟨⟨48, 1⟩, 3⟩ ∧ (offeredEach.record 48).map Record.mode = some .each) ∧
      (served.record 48).map Record.mode = some .any ∧ (base.openRecord 48 eachRecord).owedTo .h1 = [48] ∧
      (lineOpen.record 5).map Record.source = some (.line 5) ∧ (lineOpen.entry 5).sense.active = none ∧ 1 + 254 ≤ 255 ∧ 255 < 2 + 254 ∧
      (wired 5 ⟨true, .high, 0, 2, .any, [.h2]⟩ lineOpen).entry 5 = ⟨true, .high, 0, 2, .any, [.h2]⟩ ∧ Sense.high.active ≠ none :=
  ⟨⟨.inr rfl, _, rfl⟩, by decide +kernel⟩

/-- R138: an ANY copy in service is returned, an offered EACH copy is abandoned. -/
theorem test_teardown_counts : ((served.teardown .h0 .lost).returned, (offeredEach.teardown .h0 .lost).abandoned) = (1, 1) := by
  decide +kernel

theorem witness_ExchangeStartFormsFrame :
    (base.running ∧ (base.port .h0).cs = .idle) ∧ (¬inReset.running ∧ (inReset.port .h0).cs = .idle) ∧
      ((after (.exchangeStart .h0) inReset).port .h0).cs ≠ .idle := by
  decide +kernel

theorem witness_FrameContent :
    (base.running ∧ (base.port .h0).cs = .idle ∧ (base.port .h0).queue = []) ∧
      (∃ t x m rest, exec (.exchangeStart .h0) offered = .next t ∧ (t.port .h0).cs = .live x ∧ (offered.port .h0).queue = m :: rest) ∧
      ∃ m rest, (twoPart.port .h0).queue = m :: rest ∧ m.twoPart = true ∧ (twoPart.port .h0).partMark = false ∧
        ((twoPart.updPort .h0 fun q => { q with partMark := true }).port .h0).partMark = true :=
  ⟨by decide +kernel, ⟨_, _, _, _, rfl, rfl, rfl⟩, _, _, rfl, by decide +kernel⟩

theorem witness_DiscardedExchangesChangeNothing :
    base.canExchange .h0 ∧ ((after (.exchangeStart .h0) inReset).port .h0).cs = .notReady ∧
      ((after .resetLine (after (.exchangeStart .h0) base)).port .h0).cs = .cutOff := by
  decide +kernel

theorem witness_NopAndUnknownCommand :
    (queued .h2 fullQueue base).canExchange .h2 ∧ base.takes .h0 ∧ base.attached .h0 = true ∧ base.takes .h2 ∧ base.attached .h2 = false := by
  decide +kernel

theorem witness_AttachOpensSession :
    base.takes .h0 ∧ base.attached .h0 = true ∧ base.takes .h2 ∧ base.attached .h2 = false ∧ 4 < (5 : Byte).toNat ∧ (4 : Byte).toNat ≤ 4 := by
  decide +kernel

theorem witness_DetachClosesSession : served.takes .h0 ∧ served.attached .h0 = true := by decide +kernel

theorem witness_SleepByState :
    (base.takes .h0 ∧ base.attached .h0 = true ∧ (base.session .h0).state ≠ .doze) ∧
      (deep.takes .h0 ∧ deep.attached .h0 = true ∧ (deep.session .h0).state = .deep) ∧
      let s := put .h0 .doze base
      s.takes .h0 ∧ s.attached .h0 = true ∧ (s.session .h0).state = .doze := by
  decide +kernel

/-- The smallest and largest values of the ranges, and the values next to them. -/
theorem witness_SetHostSetsParameter :
    base.takes .h0 ∧ base.attached .h0 = true ∧ 16 ≤ (16 : BitVec 16).toNat ∧ (15 : BitVec 16).toNat < 16 ∧ 50 ≤ (50 : BitVec 16).toNat ∧
      (49 : BitVec 16).toNat < 50 ∧ (15 : BitVec 16).toNat ≤ 15 ∧ (8 : BitVec 16).toNat ≤ 8 ∧ (32 : BitVec 16).toNat ≤ 32 ∧
      5 < (6 : Byte).toNat := by
  decide +kernel

theorem witness_SetFloorWithdrawsOffer :
    offered.takes .h0 ∧ offered.attached .h0 = true ∧ (offered.disp .h0).offer = some ⟨⟨48, 1⟩, 3⟩ ∧ 3 ≤ (3 : Byte).toNat ∧
      (2 : Byte).toNat < 3 ∧ 7 < (8 : Byte).toNat ∧ (7 : Byte).toNat ≤ 7 := by
  decide +kernel

theorem witness_SetQuotaWithinPool :
    base.takes .h0 ∧ base.attached .h0 = true ∧ 48 < base.quotaSum - (base.session .h0).quota + (13 : Byte).toNat ∧
      base.quotaSum - (base.session .h0).quota + (12 : Byte).toNat ≤ 48 ∧ 48 < (49 : Byte).toNat := by
  decide +kernel

theorem witness_QueriesOnlyReply :
    (base.takes .h2 ∧ (3 : Byte).toNat = HostId.h3.toNat ∧ 3 < (4 : Byte).toNat) ∧ (base.takes .h0 ∧ base.attached .h0 = true) ∧
      (47 : Byte).toNat = (47 : LineNo).val ∧ (95 : Byte).toNat = (95 : SlotNo).val ∧ served.record 48 ≠ none ∧ served.record 95 = none ∧
      (served.record 48).map Record.route = some [.h0] ∧ (served.record 48).map Record.copies = some [⟨some .h0, .inService ⟨48, 1⟩⟩] := by
  decide +kernel

theorem witness_ClaimTakesOffer :
    offered.takes .h0 ∧ offered.attached .h0 = true ∧ (offered.disp .h0).offer = some ⟨⟨48, 1⟩, 3⟩ ∧ (offered.record 48).isSome = true := by
  decide +kernel

theorem witness_StaleAndOutOfOrderRefused :
    (offered.takes .h0 ∧ offered.attached .h0 = true ∧ ∀ o ∈ (offered.disp .h0).offer, ¬((48 : Byte).toNat = o.handle.slot.val ∧ (2 : Byte) = o.handle.serial)) ∧
      let s := base.updDisp .h0 fun d => { d with stack := [⟨⟨48, 1⟩, 3⟩, ⟨⟨49, 1⟩, 4⟩] }
      s.takes .h0 ∧ s.attached .h0 = true ∧ (s.disp .h0).stack = [⟨⟨48, 1⟩, 3⟩] ++ [⟨⟨49, 1⟩, 4⟩] ∧
        (∃ d ∈ [(⟨⟨48, 1⟩, 3⟩ : StackEntry)], (48 : Byte).toNat = d.handle.slot.val ∧ (1 : Byte) = d.handle.serial) ∧
        ∀ e ∈ (s.disp .h0).stack, ¬((48 : Byte).toNat = e.handle.slot.val ∧ (2 : Byte) = e.handle.serial) := by
  decide +kernel

theorem witness_DeclineHandsBack :
    (offered.takes .h0 ∧ offered.attached .h0 = true ∧ (offered.disp .h0).offer = some ⟨⟨48, 1⟩, 3⟩ ∧
        (offered.record 48).map Record.mode = some .any) ∧
      offeredEach.takes .h1 ∧ offeredEach.attached .h1 = true ∧ (offeredEach.disp .h1).offer = some ⟨⟨48, 2⟩, 3⟩ ∧
        (offeredEach.record 48).map Record.mode = some .each := by
  decide +kernel

theorem witness_DoneFinishesNewest :
    served.takes .h0 ∧ served.attached .h0 = true ∧ (served.disp .h0).stack = [] ++ [⟨⟨48, 1⟩, 3⟩] ∧ (served.record 48).isSome = true := by
  decide +kernel

/-- Every posted slot in use. -/
def poolFull : State :=
  { base with slots := tableOf fun n => if 48 ≤ n.val then ⟨0, some (postedRecord .h2 1 .any [.h3] 0 false)⟩ else ⟨0, none⟩ }

theorem witness_PostOpensRecord :
    (base.takes .h0 ∧ base.attached .h0 = true ∧ parseRoute 1 2 = some [.h2] ∧ base.postedUse .h0 < (base.session .h0).quota ∧
        base.record 48 = none) ∧
      (postedAny.record 48 ≠ none ∧ postedAny.record 49 = none) ∧
      (let s := base.updSession .h0 fun e => { e with quota := 0 };
        s.takes .h0 ∧ s.attached .h0 = true ∧ (s.session .h0).quota ≤ s.postedUse .h0) ∧
      poolFull.takes .h0 ∧ poolFull.attached .h0 = true ∧ poolFull.postedUse .h0 < (poolFull.session .h0).quota ∧
      ∀ n : SlotNo, 48 ≤ n.val → poolFull.record n ≠ none := by
  decide +kernel

/-- A route list of four hosts, one of a repeated host, a count of 0 and one of 5. -/
theorem witness_ArgumentEncodings :
    parseRoute 4 0xE4 = some [.h0, .h1, .h2, .h3] ∧ parseRoute 2 0 = none ∧ parseRoute 0 0xE4 = none ∧ parseRoute 5 0xE4 = none ∧
      (4 : Byte).toNat ≤ 4 ∧ (64 : Byte).toNat ∈ [0, 1, 2, 4, 8, 16, 32, 64] ∧ (7 : Byte).toNat ≤ 7 ∧ (1 : Byte).toNat ≤ 1 ∧
      (3 : Byte).toNat ≤ 3 ∧ 4 ≤ (4 : Byte).toNat := by
  decide +kernel

theorem witness_RetractTakesBack :
    ((47 : Byte).toNat < 48 ∧ 95 < (96 : Byte).toNat ∧ (95 : Byte).toNat = (95 : SlotNo).val) ∧
      (offered.takes .h1 ∧ offered.attached .h1 = true ∧ (offered.record 48).map Record.source = some (.host .h1) ∧
        (offered.record 48).map Record.phase = some .opened ∧ offered.record 95 = none) ∧
      (served.takes .h1 ∧ (served.record 48).map Record.phase = some .captured ∧
        (served.record 48).map Record.copies = some [⟨some .h0, .inService ⟨48, 1⟩⟩]) ∧
      offeredEach.takes .h1 ∧ (offeredEach.record 48).map (fun r => r.copies.filter Copy.inService) = some [] ∧
      ((after (.claim .h0 0 48 1) offeredEach).record 48).map (fun r => r.copies.filter Copy.inService) =
        some [⟨some .h0, .inService ⟨48, 1⟩⟩] := by
  decide +kernel

theorem witness_LeaseAndRelease :
    (base.takes .h0 ∧ base.attached .h0 = true ∧ base.holder 7 = none ∧ (7 : Byte).toNat = (7 : GroupNo).val ∧ 7 < (8 : Byte).toNat) ∧
      (lineOpen.takes .h0 ∧ lineOpen.holder 0 = some .h0) ∧ lineOpen.takes .h1 ∧ lineOpen.attached .h1 = true ∧ HostId.h0 ≠ .h1 := by
  decide +kernel

theorem witness_ConfigLineReplacesEntry :
    (lineOpen.takes .h0 ∧ lineOpen.attached .h0 = true ∧ lineOpen.holder (groupOfLine 5) = some .h0 ∧ (5 : Byte).toNat = (5 : LineNo).val) ∧
      parseLineEntry 3 0 0 6 0 1 1 = some (⟨true, .rise, 0, 6, .any, [.h1]⟩, true) ∧
      (lineOpen.takes .h1 ∧ lineOpen.attached .h1 = true ∧ lineOpen.holder (groupOfLine 5) ≠ some .h1) ∧
      47 < (48 : Byte).toNat ∧ 3 < (4 : Byte).toNat ∧ 4 < (5 : Byte).toNat ∧ (3 : Byte).toNat ∉ [0, 1, 2, 4, 8, 16, 32, 64] ∧ 7 < (8 : Byte).toNat ∧
      (lineOpen.record (slotOfLine 5)).map Record.phase = some .opened := by
  decide +kernel

theorem witness_DetectorFollowsPin :
    ((base.line 5).raw ≠ .high ∧ (base.line 5).detector = .unprimed) ∧
      ((lineOpen.line 5).raw ≠ .low ∧ (lineOpen.line 5).detector = .steady .high ∧ (lineOpen.entry 5).qualification = 0) ∧
      (wired 5 ⟨true, .rise, 64, 2, .any, [.h2]⟩ lineOpen).entry 5 = ⟨true, .rise, 64, 2, .any, [.h2]⟩ ∧
      let s := { lineOpen with lines := lineOpen.lines.set 5 ⟨.high, .qualifying .low .high 8⟩ }
      s.running ∧ (s.line 5).detector = .qualifying .low .high 8 := by
  decide +kernel

theorem witness_FetchLossAndAckNotice :
    (base.takes .h0 ∧ base.attached .h0 = true ∧ base.loss = []) ∧
      (let s := base.makeLoss .unwanted 48 anyRecord none;
        s.takes .h0 ∧ s.attached .h0 = true ∧ s.loss = [] ++ ⟨.unwanted, 48, .host .h1, 3, 7, none, ⟨true, false, false, false⟩⟩ :: []) ∧
      (7 : Byte).toNat ≤ 7 ∧ 7 < (8 : Byte).toNat := by
  decide +kernel

/-- A first miss with the miss limit 3, and one with the miss limit 1. -/
theorem witness_TimerExpiriesCountMisses :
    (offered.running ∧ (offered.disp .h0).offer = some ⟨⟨48, 1⟩, 3⟩ ∧ (offered.disp .h0).claimTimer = some 500 ∧
        (offered.session .h0).missCount + 1 < (offered.session .h0).missLimit) ∧
      (let s := offered.updSession .h0 fun e => { e with missLimit := 1 };
        (s.disp .h0).claimTimer = some 500 ∧ (s.session .h0).missLimit ≤ (s.session .h0).missCount + 1) ∧
      (let s := base.updSession .h0 fun e => { e with state := .waking, wakeTimer := some 5000 };
        s.running ∧ (s.session .h0).state = .waking ∧ (s.session .h0).wakeTimer = some 5000) ∧
      (base.disp .h0).claimTimer = none ∧ (base.session .h0).wakeTimer = none := by
  decide +kernel

/-- One hold in force, and two. -/
theorem witness_ResetBeginsAndHolds :
    served.running ∧ inReset.inReset = some ⟨⟨false, true, false⟩, ⟨false, true, false⟩⟩ ∧
      (∀ d, d ≠ .resetLine → CauseSet.has ⟨false, true, false⟩ d = false) ∧ twoHolds.inReset = some ⟨⟨false, true, true⟩, ⟨false, true, true⟩⟩ ∧
      CauseSet.has ⟨false, true, true⟩ .resetLine = true ∧ (∃ d, d ≠ .resetLine ∧ CauseSet.has ⟨false, true, true⟩ d = true) ∧
      CauseSet.has ⟨false, true, true⟩ .powerOn = false :=
  ⟨by decide +kernel, by decide +kernel, by intro d; cases d <;> decide, by decide +kernel, by decide, ⟨.supplyLow, by decide⟩, by decide⟩

/-- A reset without POWER_ON, one with it, and one with two holds in force. -/
theorem witness_ResetCompletes :
    (∃ r, inReset.inReset = some r ∧ (∀ c d, r.holds.has c = true → r.holds.has d = true → c = d) ∧ r.causes.powerOn = false ∧
        inReset.epoch ≠ 65535 ∧ { inReset with epoch := 65535 }.epoch = 65535) ∧
      (∃ r, (after .powerOn base).inReset = some r ∧ (∀ c d, r.holds.has c = true → r.holds.has d = true → c = d) ∧ r.causes.powerOn = true) ∧
      ∃ r, twoHolds.inReset = some r ∧ r.holds.has .resetLine = true ∧ r.holds.has .supplyLow = true :=
  ⟨⟨_, rfl, by intro c d; cases c <;> cases d <;> decide, by decide +kernel⟩,
    ⟨_, rfl, by intro c d; cases c <;> cases d <;> decide, by decide +kernel⟩, _, rfl, by decide +kernel⟩

/-- Line 5's record CAPTURED with a backlog of 0. -/
def lineCaptured : State :=
  lineOpen.setRecord 5 (some { lineRecord 5 ⟨true, .rise, 0, 2, .any, [.h2]⟩ 1 false with phase := .captured })

theorem witness_ConfigLine_captured_and_free :
    (lineCaptured.takes .h0 ∧ lineCaptured.holder (groupOfLine 5) = some .h0 ∧
        (lineCaptured.record (slotOfLine 5)).map Record.phase = some .captured) ∧
      lineOpen.holder (groupOfLine 0) = some .h0 ∧ lineOpen.record (slotOfLine 0) = none ∧
      parseLineEntry 1 0 0 6 0 1 1 = some (⟨true, .rise, 0, 6, .any, [.h1]⟩, false) := by
  decide +kernel

theorem witness_DetectorFollowsPin_steady_and_back :
    (let s := { lineOpen with lines := lineOpen.lines.set 5 ⟨.low, .steady .high⟩ };
      s.running ∧ (s.line 5).raw ≠ .high ∧ (s.line 5).detector = .steady .high) ∧
    (let s := { lineOpen with lines := lineOpen.lines.set 5 ⟨.high, .qualifying .low .high 8⟩ };
      s.running ∧ (s.line 5).raw ≠ .low ∧ (s.line 5).detector = .qualifying .low .high 8) ∧
    Sense.high.asksFor .high = true := by
  decide +kernel

/-- `offered` with H0's CLAIM waiting. -/
def claiming : State := { offered with pending := [.claim .h0 0 48 1] }

/-- The one record of `claiming`. -/
theorem claiming_record : ∀ n, ∀ r ∈ claiming.record n, n = 48 ∧ r = anyRecord.offerTo .h0 ⟨48, 1⟩ := by decide +kernel

/-- The one copy of that record. -/
theorem claiming_copy : ∀ c ∈ (anyRecord.offerTo .h0 ⟨48, 1⟩).copies, c = ⟨some .h0, .offered ⟨48, 1⟩⟩ := by decide

/-- The one offer of `claiming`. -/
theorem claiming_offer (h : HostId) : ∀ o ∈ (claiming.disp h).offer, h = .h0 ∧ o = ⟨⟨48, 1⟩, 3⟩ := by
  cases h <;> decide +kernel

/-- Queues without WITHDRAW place nothing behind one. -/
theorem behind_of_none {q : List Msg} {o : Option Offer} (h : ∀ m ∈ q, m.isWithdraw = false) : OfferBehindWithdraw q o := by
  intro before after m o e hm _
  have := h m (by simp [e])
  rw [this] at hm; cases hm

theorem claiming_host (h : HostId) : claiming.HostOk h := by
  constructor
  · cases h <;> unfold Session.InRange <;> decide +kernel
  · cases h <;> decide +kernel
  · cases h <;> decide +kernel
  · change ∀ o ∈ (claiming.disp h).offer, _
    cases h <;> decide +kernel
  · cases h <;> decide +kernel
  · cases h <;> decide +kernel
  · cases h <;> decide +kernel
  · cases h <;> decide +kernel
  · cases h <;> decide +kernel

theorem claiming_copies : claiming.CopiesOk := by
  constructor
  · rintro n r e
    obtain ⟨-, rfl⟩ := claiming_record n r e
    constructor
    · decide
    · intro _; decide
    · intro h; cases h
    · intro _ c hc hd e
      obtain rfl := claiming_copy c hc
      cases e
  · rintro n r c hd e hc hs
    obtain ⟨rfl, rfl⟩ := claiming_record n r e
    obtain rfl := claiming_copy c hc
    cases hs
    exact ⟨.h0, rfl, rfl, by decide +kernel⟩
  · rintro n r c hd e hc hs
    obtain ⟨rfl, rfl⟩ := claiming_record n r e
    obtain rfl := claiming_copy c hc
    cases hs
  · intro h o e
    obtain ⟨rfl, rfl⟩ := claiming_offer h o e
    exact ⟨anyRecord.offerTo .h0 ⟨48, 1⟩, by decide +kernel⟩
  · intro h e he
    have : (claiming.disp h).stack = [] := by cases h <;> decide +kernel
    rw [this] at he; cases he

/-- A state that meets every invariant, with an offer outstanding and a command waiting: the hypotheses of the statements `…Kept`. -/
theorem witness_SafetyKept : claiming.Safe ∧ ∃ t, step claiming = .next t := by
  refine ⟨?_, _, rfl⟩
  constructor
  · unfold State.QuotaOk; decide +kernel
  · exact claiming_host
  · intro g h e; revert g; cases h <;> decide +kernel
  · refine ⟨by decide +kernel, ?_, ?_⟩
    · have : claiming.loss = [] := by decide +kernel
      rw [this]; intro e he; cases he
    · intro h; cases h <;> decide +kernel
  · unfold State.ArrivalsOk; decide +kernel
  · refine ⟨?_, ?_⟩
    · intro n r e
      obtain ⟨rfl, rfl⟩ := claiming_record n r e
      constructor <;> first | decide | (change 48 ≤ (48 : SlotNo).val; decide) | (unfold RouteOk; decide)
    · unfold LineEntry.InRange RouteOk; decide +kernel
  · exact claiming_copies
  · intro h
    refine ⟨?_, behind_of_none ?_⟩
    · cases h <;> unfold QueueFits <;> decide +kernel
    · cases h <;> decide +kernel
  · intro _ l
    have : ∀ l, (claiming.line l).detector = .unprimed := by decide +kernel
    rw [this l]; trivial
  · unfold State.EpochOk; decide +kernel
  · exact ⟨fun r e => (by cases e), fun h => absurd rfl h⟩
  · intro _
    constructor
    · intro h; cases h <;> decide +kernel
    · intro h
      change ∀ o ∈ (claiming.disp h).offer, _
      cases h <;> decide +kernel
    · intro h; cases h <;> decide +kernel
    · intro n r e
      obtain ⟨-, rfl⟩ := claiming_record n r e
      decide +kernel

end Sys2Proof.Tests
end

