-- ==== Sys2Proof/Proofs/Records.lean ====
section
/-! SUPPORT. The state after reset, and the life of a record: freeing, completion, reopening and arrivals. -/

namespace Sys2Proof.Machine

/-! ### The state after reset -/

section reset

@[simp] theorem State.reset_record (n : SlotNo) : State.reset.record n = none := by simp [State.record, State.reset]
@[simp] theorem State.reset_serial (n : SlotNo) : State.reset.serial n = 0 := by simp [State.serial, State.reset]
@[simp] theorem State.reset_entry (l : LineNo) : State.reset.entry l = LineEntry.initial := by simp [State.entry, State.reset]
@[simp] theorem State.reset_line (l : LineNo) : State.reset.line l = ⟨.low, .unprimed⟩ := by simp [State.line, State.reset]
@[simp] theorem State.reset_holder (g : GroupNo) : State.reset.holder g = none := by simp [State.holder, State.reset]
@[simp] theorem State.reset_disp (h : HostId) : State.reset.disp h = Dispatch.initial := by simp [State.disp, State.reset]
@[simp] theorem State.reset_session (h : HostId) : State.reset.session h = Session.initial := by simp [State.session, State.reset]
@[simp] theorem State.reset_port (h : HostId) : State.reset.port h = Port.initial := by simp [State.port, State.reset]

end reset

/-- A hub without records has no posted use (R10). -/
theorem State.postedUse_of_no_record {s : State} (hn : ∀ n, s.record n = none) (h : HostId) : s.postedUse h = 0 := by
  rw [State.postedUse_eq, List.countP_eq_zero]
  intro n _
  simp [hn n]

/-- Settles O2, by the readings of the state after reset. -/
theorem resetValues : Obligations.ResetValues := by
  unfold Obligations.ResetValues
  refine ⟨fun l => ?_, State.reset_holder, fun n => ?_, rfl, fun h => ?_, rfl, rfl, rfl⟩
  · simp [LineEntry.initial]
  · simp
  · refine ⟨State.reset_disp h, State.reset_session h, State.reset_port h, ?_, State.postedUse_of_no_record State.reset_record h, ?_⟩
      <;> simp [State.reset]

/-- A hub without records has no copy to place. -/
theorem State.placedCopies_of_no_record {s : State} (hn : ∀ n, s.record n = none) : s.placedCopies = [] := by
  simp [State.placedCopies, hn]

/-- A hub without records, offers and stacks has its copies in agreement. -/
theorem State.copiesOk_of_empty {s : State} (hn : ∀ n, s.record n = none) (hd : ∀ h, s.disp h = Dispatch.initial) : s.CopiesOk where
  lists n r e := by simp [hn] at e
  offeredCopy n r c hd e := by simp [hn] at e
  servedCopy n r c hd e := by simp [hn] at e
  offer h o e := by simp [hd, Dispatch.initial] at e
  entry h e m := by simp [hd, Dispatch.initial] at m

/-- A host without a session, an offer and a stack is as the invariant says. -/
theorem State.hostOk_of_initial {s : State} {h : HostId} (hs : s.session h = Session.initial) (hd : s.disp h = Dispatch.initial) :
    s.HostOk h := by
  constructor <;> simp [hs, hd, Session.initial, Dispatch.initial, Session.InRange, HostState.attached]

/-- A hub without records and with every host ABSENT has nothing to route. -/
theorem State.settled_of_empty {s : State} (hn : ∀ n, s.record n = none) (hs : ∀ h, s.session h = Session.initial) : s.Settled where
  fills h _ := by simp [State.choose, State.candidatesOf, State.placedCopies_of_no_record hn]
  preemptions h o _ w hw := by simp [State.candidatesOf, State.placedCopies_of_no_record hn] at hw
  wakes h := by simp [State.wakeTriggered, hs, Session.initial]
  rounds n r e := by simp [hn] at e

/-- The line table entry after reset holds values of its fields (R25). -/
theorem LineEntry.initial_inRange : LineEntry.initial.InRange := by simp [LineEntry.InRange, LineEntry.initial, RouteOk]

/-- Settles O3: every block is empty, so each invariant holds of the state after reset. -/
theorem resetIsSafe : Obligations.ResetIsSafe where
  quota := by simp [State.QuotaOk, State.quotaSum, Session.initial]
  hosts h := State.hostOk_of_initial (State.reset_session h) (State.reset_disp h)
  leases g h e := by simp at e
  loss := by simp [State.LossOk, State.reset]
  arrivals := by simp [State.ArrivalsOk]; simp [State.reset]
  records := ⟨fun n r e => by simp at e, fun l => by simpa using LineEntry.initial_inRange⟩
  copies := State.copiesOk_of_empty State.reset_record State.reset_disp
  queues h := by simp [Port.initial, QueueFits, nonWithdraw, OfferBehindWithdraw]
  detectors _ l := by simp
  epoch := by simp [State.EpochOk, State.reset]
  inReset := ⟨fun r e => by simp [State.reset] at e, fun e => absurd rfl e⟩
  settled _ := State.settled_of_empty State.reset_record State.reset_session

/-! ### The life of a record -/

/-- Freeing a slot changes its record and its place in the arrival list alone (R18). -/
theorem State.freeSlot_eq (s : State) (n : SlotNo) :
    s.freeSlot n = { s with slots := (s.freeSlot n).slots, arrivals := s.arrivals.filter fun m => m ≠ n } ∧
      (s.freeSlot n).record n = none ∧ (s.freeSlot n).serial n = s.serial n ∧ s.sameSlotsBut (s.freeSlot n) n :=
  ⟨rfl, by simp [State.record_freeSlot], by simp, fun m hm => by simp [State.record_freeSlot, hm]⟩

theorem State.reopenRecord_eq (s : State) (n : SlotNo) (r : Record) :
    s.reopenRecord n r = { s with slots := (s.reopenRecord n r).slots, arrivals := (s.arrivals.filter fun m => m ≠ n) ++ [n] } ∧
      s.sameSlotsBut (s.reopenRecord n r) n ∧ (s.reopenRecord n r).serial n = s.serial n ∧ (s.reopenRecord n r).record n = some r :=
  ⟨rfl, fun m hm => by simp [State.record_reopenRecord, hm], by simp, by simp [State.record_reopenRecord]⟩

/-- The completion of a posted record (R14, R15). -/
theorem State.complete_host {s : State} {n : SlotNo} {r : Record} {outcome : CompletionOutcome} {k : HostId} (h : r.source = .host k) :
    s.complete n r outcome = ⟨s.freeSlot n, if r.notify then some ⟨k, n, outcome, r.payload⟩ else none, .freed, 0⟩ := by
  simp [State.complete, h]

/-- The completion of a line record that the table of R16 frees. -/
theorem State.complete_line_free {s : State} {n : SlotNo} {r : Record} {outcome : CompletionOutcome} {l : LineNo} (h : r.source = .line l)
    (hc : reopenCount (s.entry l) (s.lineActive l) r.backlog = none) :
    s.complete n r outcome = ⟨s.freeSlot n, none, .freed, r.backlog⟩ := by
  simp [State.complete, h, hc]

/-- The completion of a line record that the table of R16 reopens (R17). -/
theorem State.complete_line_reopen {s : State} {n : SlotNo} {r : Record} {outcome : CompletionOutcome} {l : LineNo} {c : Nat}
    (h : r.source = .line l) (hc : reopenCount (s.entry l) (s.lineActive l) r.backlog = some c) :
    s.complete n r outcome = ⟨s.reopenRecord n (lineRecord l (s.entry l) c r.saturated), none, .reopened, c⟩ := by
  simp [State.complete, h, hc]

theorem reopenCount_disabled {e : LineEntry} (h : e.enabled = false) (a : Bool) (b : Nat) : reopenCount e a b = none := by
  simp [reopenCount, h]

theorem reopenCount_edge {e : LineEntry} (h : e.enabled = true) (hs : e.sense.active = none) (a : Bool) (b : Nat) :
    reopenCount e a b = if b = 0 then none else some b := by
  simp [reopenCount, h, Sense.isLevel, hs]

theorem reopenCount_level {e : LineEntry} {v : Level} (h : e.enabled = true) (hs : e.sense.active = some v) (a : Bool) (b : Nat) :
    reopenCount e a b = if b = 0 ∧ a = false then none else some 1 := by
  simp [reopenCount, h, Sense.isLevel, hs]

/-- A line of a level sense is active just when its accepted level is the sense's level (R16). -/
theorem State.lineActive_iff {s : State} {l : LineNo} {v : Level} (hs : (s.entry l).sense.active = some v) :
    s.lineActive l = true ↔ (s.line l).detector.accepted = some v := by
  unfold State.lineActive
  rw [hs]
  cases (s.line l).detector.accepted <;> simp

/-- Settles O30, by the table of R16 case by case. -/
theorem completionFreesOrReopens : Obligations.CompletionFreesOrReopens := by
  unfold Obligations.CompletionFreesOrReopens
  refine ⟨State.freeSlot_eq, fun s n r outcome k h => State.complete_host h, ?_⟩
  intro s n r outcome l hl
  dsimp only
  have reopened (count : Nat) (hc : reopenCount (s.entry l) (s.lineActive l) r.backlog = some count) :=
    State.complete_line_reopen (n := n) (outcome := outcome) hl hc
  have freed (hc : reopenCount (s.entry l) (s.lineActive l) r.backlog = none) :=
    State.complete_line_free (n := n) (outcome := outcome) hl hc
  refine ⟨fun he => freed (reopenCount_disabled he _ _), fun he hs => ⟨fun hb => ?_, fun hb => ?_⟩, fun a he hs => ⟨fun hb ha => ?_, fun hb => ?_⟩⟩
  · rw [freed (by simp [reopenCount_edge he hs, hb]), hb]
  · rw [reopened r.backlog (by simp [reopenCount_edge he hs, hb])]
    obtain ⟨hstate, hsame, hserial, hrecord⟩ := State.reopenRecord_eq s n (lineRecord l (s.entry l) r.backlog r.saturated)
    exact ⟨rfl, rfl, rfl, hstate, hsame, hserial, hrecord⟩
  · have hactive : s.lineActive l = false := by rw [← Bool.not_eq_true, State.lineActive_iff hs]; exact ha
    rw [freed (by simp [reopenCount_level he hs, hb, hactive]), hb]
  · have hactive : ¬(r.backlog = 0 ∧ s.lineActive l = false) := by
      rintro ⟨h0, hf⟩
      rw [← Bool.not_eq_true, State.lineActive_iff hs] at hf
      exact hb.elim (fun h => h h0) hf
    rw [reopened 1 (by simp only [reopenCount_level he hs, hactive, if_false])]
    obtain ⟨hstate, hsame, hserial, hrecord⟩ := State.reopenRecord_eq s n (lineRecord l (s.entry l) 1 r.saturated)
    exact ⟨rfl, rfl, rfl, hstate, hsame, hserial, hrecord⟩

/-! ### Arrivals -/

/-- Writing a slot's own record back changes nothing. -/
theorem State.setRecord_self {s : State} {n : SlotNo} {r : Option Record} (h : s.record n = r) : s.setRecord n r = s := by
  subst h
  have hslots : s.slots.set n s.slots[n] = s.slots := by simp
  exact congrArg (fun v => { s with slots := v }) hslots

/-- A record replaced: the other slots, and every other part of the state, stay. -/
theorem State.setRecord_eq (s : State) (n : SlotNo) (r : Option Record) :
    s.setRecord n r = { s with slots := (s.setRecord n r).slots } ∧ s.sameSlotsBut (s.setRecord n r) n ∧
      (s.setRecord n r).serial n = s.serial n ∧ (s.setRecord n r).record n = r :=
  ⟨rfl, fun m hm => by simp [State.record_setRecord, hm], by simp, by simp⟩

/-- An arrival that finds the line's slot FREE (R9). -/
theorem State.arrive_free {s : State} {l : LineNo} (h : s.record (slotOfLine l) = none) :
    s.arrive l = s.openRecord (slotOfLine l) (lineRecord l (s.entry l) 1 false) := by
  simp [State.arrive, h]

theorem Sense.isLevel_eq_true {v : Sense} : v.isLevel = true ↔ v.active ≠ none := by
  simp [Sense.isLevel, Option.isSome_iff_ne_none]

theorem Sense.isLevel_eq_false {v : Sense} : v.isLevel = false ↔ v.active = none := by
  simp [Sense.isLevel]

section arrive
variable {s : State} {l : LineNo} {r : Record} (h : s.record (slotOfLine l) = some r)
include h

/-- An arrival on a level sense leaves an OPEN record as it is (R34). -/
theorem State.arrive_level_opened (hs : (s.entry l).sense.isLevel = true) (hp : r.phase = .opened) : s.arrive l = s := by
  simp [State.arrive, h, hs, hp]

/-- An arrival on a level sense raises the backlog of a CAPTURED record from 0 to 1 (R34). -/
theorem State.arrive_level_captured (hs : (s.entry l).sense.isLevel = true) (hp : r.phase = .captured) :
    s.arrive l = s.setRecord (slotOfLine l) (some { r with backlog := if r.backlog = 0 then 1 else r.backlog }) := by
  simp [State.arrive, h, hs, hp]

/-- An arrival on an edge sense counts in an OPEN record (R33, R36). -/
theorem State.arrive_edge_opened (hs : (s.entry l).sense.isLevel = false) (hp : r.phase = .opened) : s.arrive l =
    if r.count < 255 then s.setRecord (slotOfLine l) (some { r with count := r.count + 1 }) else s.saturate (slotOfLine l) r := by
  simp [State.arrive, h, hs, hp]

/-- An arrival on an edge sense counts in the backlog of a CAPTURED record (R33, R37). -/
theorem State.arrive_edge_captured (hs : (s.entry l).sense.isLevel = false) (hp : r.phase = .captured) : s.arrive l =
    if r.backlog < 255 then s.setRecord (slotOfLine l) (some { r with backlog := r.backlog + 1 }) else s.saturate (slotOfLine l) r := by
  simp [State.arrive, h, hs, hp]

end arrive

/-- The saturated mark of a record that holds it already (R36). -/
theorem State.saturate_marked {s : State} {n : SlotNo} {r : Record} (h : s.record n = some r) (hs : r.saturated = true) :
    s.saturate n r = s := by
  have : ({ r with saturated := true } : Record) = r := by cases r; cases hs; rfl
  simp [State.saturate, hs, this, State.setRecord_self h]

theorem State.saturate_unmarked {s : State} {n : SlotNo} {r : Record} (hs : r.saturated = false) :
    s.saturate n r = (s.setRecord n (some { r with saturated := true })).makeLoss .saturated n r none := by
  simp [State.saturate, hs]

/-- Settles O31, by the phase of the record and the kind of its line's sense. -/
theorem arrivalApplied : Obligations.ArrivalApplied := by
  unfold Obligations.ArrivalApplied
  intro s l
  dsimp only
  refine ⟨fun hn => ?_, fun r hr => ⟨fun hs hp => ?_, fun hs hp => ?_, fun hs hp hc => ?_, fun hs hp hb => ?_, fun hs hfull => ?_⟩⟩
  · rw [State.arrive_free hn]
    refine ⟨rfl, fun m hm => by simp [State.record_openRecord, hm], by simp, ?_⟩
    exact (State.record_openRecord ..).trans (if_pos rfl)
  · exact State.arrive_level_opened hr (Sense.isLevel_eq_true.2 hs) hp
  · rw [State.arrive_level_captured hr (Sense.isLevel_eq_true.2 hs) hp]
    exact State.setRecord_eq ..
  · rw [State.arrive_edge_opened hr (Sense.isLevel_eq_false.2 hs) hp, if_pos hc]
    exact State.setRecord_eq ..
  · rw [State.arrive_edge_captured hr (Sense.isLevel_eq_false.2 hs) hp, if_pos hb]
    exact State.setRecord_eq ..
  · have hsat : s.arrive l = s.saturate (slotOfLine l) r := by
      rcases hfull with ⟨hp, hc⟩ | ⟨hp, hb⟩
      · rw [State.arrive_edge_opened hr (Sense.isLevel_eq_false.2 hs) hp, if_neg (Nat.not_lt.2 hc)]
      · rw [State.arrive_edge_captured hr (Sense.isLevel_eq_false.2 hs) hp, if_neg (Nat.not_lt.2 hb)]
    rw [hsat]
    exact ⟨State.saturate_marked hr, State.saturate_unmarked⟩

end Sys2Proof.Machine
end

