-- ==== Sys2Proof/Proofs/Commands.lean ====
section
/-! SUPPORT. The commands that only reply, CLAIM, the refused answers, POST, and the completion of a hub reset. -/

namespace Sys2Proof.Machine

/-! ### Commands that only reply -/

/-- A command of an attached host that only replies. -/
theorem State.command_answer {s : State} {p : HostId} (ht : s.takes p) (ha : s.attached p = true) {q : Byte} {act : State → Effect}
    {result : ResultCode} {data : ReplyData} (h : act (s.heard p) = (s.heard p).answer p q result data) :
    s.fullExchange p (fun s => s.command p q act) = s.ended p false ((s.heard p).reply p q result data) := by
  rw [State.fullExchange_command ht ha, h]; rfl

/-- A QUERY_HOST (R141). -/
theorem exec_queryHost_taken {s : State} {p : HostId} (ht : s.takes p) (q host view : Byte) :
    exec (.queryHost p q host view) s = .next (s.ended p false ((s.heard p).answerHost p q host view)) := by
  simp only [exec, execQueryHost, State.fullExchange_room ht, State.ended, State.heard, State.judged_sleeps ht.1, Bool.or_false]

theorem State.hostView_none {s : State} {h : HostId} {view : Byte} (hv : 2 < view.toNat) : s.hostView h view = none := by
  unfold State.hostView
  split
  · omega
  · omega
  · omega
  · rfl

theorem State.answerHost_badArg {s : State} {p : HostId} {q host view : Byte} (h : 3 < host.toNat ∨ 2 < view.toNat) :
    s.answerHost p q host view = s.reply p q .badArg .empty := by
  have hnone : ((parseHost host).bind fun k => s.hostView k view) = none := by
    rcases h with h | h
    · rw [parseHost_none.2 h]; rfl
    · cases parseHost host with
      | none => rfl
      | some k => exact State.hostView_none h
  simp [State.answerHost, hnone]

theorem State.answerHost_view {s : State} {p h : HostId} {q host view : Byte} {data : ReplyData} (hh : host.toNat = h.toNat)
    (hv : s.hostView h view = some data) : s.answerHost p q host view = s.reply p q .ok data := by
  simp [State.answerHost, parseHost_eq.2 hh, hv]

theorem State.eventView_none {s : State} {n : SlotNo} {view : Byte} (hv : 2 < view.toNat) : s.eventView n view = none := by
  unfold State.eventView
  split
  · omega
  · omega
  · omega
  · rfl

section query
variable {s : State} {p : HostId} (ht : s.takes p) (ha : s.attached p = true)
include ht ha

theorem exec_queryEvent_badArg {q slot view : Byte} (h : 95 < slot.toNat ∨ 2 < view.toNat) :
    exec (.queryEvent p q slot view) s = .next (s.ended p false ((s.heard p).reply p q .badArg .empty)) := by
  have hnone : ((parseSlot slot).bind fun n => (s.heard p).eventView n view) = none := by
    rcases h with h | h
    · rw [parseSlot_none.2 h]; rfl
    · cases parseSlot slot with
      | none => rfl
      | some n => exact State.eventView_none h
  simp only [exec, execQueryEvent]
  rw [State.command_answer ht ha]
  simp [hnone]

theorem exec_queryEvent_view {q slot view : Byte} {n : SlotNo} {data : ReplyData} (hn : slot.toNat = n.val)
    (hv : (s.heard p).eventView n view = some data) :
    exec (.queryEvent p q slot view) s = .next (s.ended p false ((s.heard p).reply p q .ok data)) := by
  simp only [exec, execQueryEvent]
  rw [State.command_answer ht ha]
  simp [parseSlot_eq.2 hn, hv]

theorem exec_queryLine_badArg {q line : Byte} (h : 47 < line.toNat) :
    exec (.queryLine p q line) s = .next (s.ended p false ((s.heard p).reply p q .badArg .empty)) := by
  simp only [exec, execQueryLine]
  rw [State.command_answer ht ha]
  simp [parseLine_none.2 h]

theorem exec_queryLine_view {q line : Byte} {l : LineNo} (h : line.toNat = l.val) :
    exec (.queryLine p q line) s = .next (s.ended p false ((s.heard p).reply p q .ok ((s.heard p).lineData l))) := by
  simp only [exec, execQueryLine]
  rw [State.command_answer ht ha]
  simp [parseLine_eq.2 h]

end query

/-- The posted pool is slots 48 to 95 (R1). -/
theorem isPostedSlot_of_le {n : SlotNo} (h : 48 ≤ n.val) : isPostedSlot n = true := by simp [isPostedSlot, h]
theorem isPostedSlot_of_lt {n : SlotNo} (h : n.val < 48) : isPostedSlot n = false := by simp [isPostedSlot, h]

/-- The first copy of a host in the copy list is the one the COPIES view shows. -/
theorem find_copy_first {r : Record} {h : HostId} {before after : List Copy} {c : Copy} (e : r.copies = before ++ c :: after)
    (hc : c.host = some h) (hb : ∀ d ∈ before, d.host ≠ some h) : (r.copies.find? fun c => decide (c.host = some h)) = some c := by
  have hnone : (before.find? fun c => decide (c.host = some h)) = none := by simpa using hb
  simp [e, hnone, hc]

/-- What the COPIES view shows at a route-list position (R185). -/
theorem State.positionView_spec (s : State) (r : Record) (h : HostId) :
    ((s.positionView r h).candidate = true ↔ ∃ c ∈ r.copies, s.candidate r c = some h) ∧
      ((s.positionView r h).wakeTarget = true ↔ ∃ c ∈ r.copies, s.wakeTarget r c = some h) ∧
      ((∀ c ∈ r.copies, c.host ≠ some h) → (s.positionView r h).state = 0) ∧
      ∀ before c after, r.copies = before ++ c :: after → c.host = some h → (∀ d ∈ before, d.host ≠ some h) →
        (s.positionView r h).state = c.state.code := by
  refine ⟨by simp [State.positionView], by simp [State.positionView], fun hne => ?_, fun before c after e hc hb => ?_⟩
  · have hnone : (r.copies.find? fun c => decide (c.host = some h)) = none := by simpa using hne
    simp [State.positionView, hnone]
  · simp [State.positionView, find_copy_first e hc hb]

/-- The COPIES view of a record in use (R23, R185). -/
theorem exec_queryEvent_copies {s : State} {p : HostId} (ht : s.takes p) (ha : s.attached p = true) {q slot view : Byte} {n : SlotNo}
    {r : Record} (hn : slot.toNat = n.val) (hv : view = 1) (hr : s.record n = some r) :
    exec (.queryEvent p q slot view) s = .next (s.ended p false ((s.heard p).reply p q .ok
      (.eventCopies (s.phase n) r.mode (decide (r.mode = .any) && r.copies.any fun c => decide (c.state = .waiting)) r.route r.declined
        r.rounds (r.route.map ((s.heard p).positionView r))))) :=
  exec_queryEvent_view ht ha hn (by
    subst hv
    simp [State.eventView, State.copiesView, State.heard_record ht.1, hr, State.heard_phase ht.1])

/-- Settles O46: each query answers with a reading of the state in which it takes effect. -/
theorem queriesOnlyReply : Obligations.QueriesOnlyReply := by
  unfold Obligations.QueriesOnlyReply
  refine ⟨fun p q host view s ht => ?_, fun p q slot view s ht ha => ?_, fun p q line s ht ha => ?_⟩
  · dsimp only
    rw [exec_queryHost_taken ht]
    refine ⟨fun hbad => by rw [State.answerHost_badArg hbad], fun h hh => ⟨fun hv => ?_, fun hv => ?_, fun hv => ?_⟩⟩
      <;> subst hv <;> rw [State.answerHost_view hh (by simp only [State.hostView]; rfl)]
    · rw [State.heard_level ht.1, State.heard_disp ht.1]
    · rw [State.heard_postedUse ht.1]
  · dsimp only
    refine ⟨exec_queryEvent_badArg ht ha, fun n hn => ⟨fun hv => ⟨fun hr => ?_, fun r hr => ?_⟩, fun hv => ⟨fun hr => ?_, fun r hr => ?_⟩,
      fun hv => ⟨fun hr => ?_, fun r hr => ?_⟩⟩⟩
    · refine exec_queryEvent_view ht ha hn ?_
      subst hv
      simp [State.eventView, State.recordView, State.heard_record ht.1, hr, State.heard_serial ht.1, isPostedSlot]
    · refine exec_queryEvent_view ht ha hn ?_
      subst hv
      simp [State.eventView, State.recordView, State.heard_record ht.1, hr, State.heard_serial ht.1, State.heard_phase ht.1,
        State.heard_arrivals ht.1, isPostedSlot]
    · refine exec_queryEvent_view ht ha hn ?_
      subst hv
      simp [State.eventView, State.copiesView, State.heard_record ht.1, hr]
    · refine ⟨_, _, exec_queryEvent_copies ht ha hn hv hr, by simp, by simp, fun i h hi => ⟨(s.heard p).positionView r h, by simp [hi], ?_⟩⟩
      obtain ⟨hcandidate, hwake, habsent, hstate⟩ := State.positionView_spec (s.heard p) r h
      refine ⟨hcandidate, hwake, habsent, fun before c after e hc hb => (hstate before c after e hc hb).trans ?_⟩
      cases c.state <;> rfl
    · refine exec_queryEvent_view ht ha hn ?_
      subst hv
      rcases Nat.lt_or_ge n.val 48 with hlt | hge
      · simp [State.eventView, State.contentView, State.heard_record ht.1, hr, isPostedSlot_of_lt hlt, hlt]
      · simp [State.eventView, State.contentView, State.heard_record ht.1, hr, isPostedSlot_of_le hge, Nat.not_lt.2 hge]
    · refine exec_queryEvent_view ht ha hn ?_
      subst hv
      rcases Nat.lt_or_ge n.val 48 with hlt | hge
      · simp [State.eventView, State.contentView, State.heard_record ht.1, hr, State.heard_phase ht.1, isPostedSlot_of_lt hlt, hlt]
      · simp [State.eventView, State.contentView, State.heard_record ht.1, hr, State.heard_phase ht.1, isPostedSlot_of_le hge, Nat.not_lt.2 hge]
  · dsimp only
    refine ⟨exec_queryLine_badArg ht ha, fun l hl => ?_⟩
    rw [exec_queryLine_view ht ha hl]
    cases hrecord : s.record (slotOfLine l) <;>
      simp only [State.lineData, State.heard_entry ht.1, State.heard_line ht.1, State.heard_phase ht.1, State.heard_record ht.1, hrecord]

/-! ### CLAIM, DECLINE and DONE -/

/-- A REPLY stands at the tail of the caller's queue. -/
theorem State.reply_port (s : State) (p k : HostId) (q : Byte) (result : ResultCode) (data : ReplyData) :
    (s.reply p q result data).port k =
      if k = p then { s.port p with queue := (s.port p).queue ++ [.reply q result data] } else s.port k :=
  State.port_updPort ..

theorem State.takeOffer_disp (s : State) (h k : HostId) (o : Offer) :
    (s.takeOffer h o).disp k = if k = h then { s.disp h with offer := none, claimTimer := none } else s.disp k := by
  simp [State.takeOffer, State.disp_updDisp]

theorem State.takeOffer_session (s : State) (h k : HostId) (o : Offer) :
    (s.takeOffer h o).session k = if k = h then { s.session h with missCount := 0 } else s.session k := by
  simp [State.takeOffer, State.session_updSession]

theorem State.takeOffer_port (s : State) (h k : HostId) (o : Offer) :
    (s.takeOffer h o).port k = if k = h then (s.port h).deleteOffer o.handle else s.port k := by
  simp [State.takeOffer, State.port_updPort]

/-- The deletion of an OFFER changes the queue of its port alone (R69). -/
theorem Port.deleteOffer_eq (q : Port) (hd : Handle) : q.deleteOffer hd = { q with queue := (q.queueWithoutOffer hd).getD q.queue } := by
  unfold Port.deleteOffer
  cases q.queueWithoutOffer hd <;> rfl

/-- The service of an offered copy without its REPLY (R70, R89). -/
def State.serve (s : State) (p : HostId) (o : Offer) (r : Record) : State :=
  ((s.takeOffer p o).updDisp p fun d => { d with stack := d.stack ++ [⟨o.handle, o.band⟩] }).setRecord o.handle.slot
    (some (r.claimed p o.handle))

theorem State.claimOffer_eq (s : State) (p : HostId) (q : Byte) (o : Offer) (r : Record) :
    s.claimOffer p q o r = (s.serve p o r).reply p q .ok (r.claimData o.handle) := rfl

/-- A CLAIM changes slots, dispatch, sessions and ports alone. -/
theorem State.claimOffer_frame (s : State) (p : HostId) (q : Byte) (o : Offer) (r : Record) :
    s.claimOffer p q o r = { s with
      slots := (s.claimOffer p q o r).slots, dispatch := (s.claimOffer p q o r).dispatch,
      sessions := (s.claimOffer p q o r).sessions, ports := (s.claimOffer p q o r).ports } := rfl

@[simp] theorem State.serve_serial (s : State) (p : HostId) (o : Offer) (r : Record) (m : SlotNo) :
    (s.serve p o r).serial m = s.serial m := by
  simp [State.serve]

theorem State.serve_record (s : State) (p : HostId) (o : Offer) (r : Record) (m : SlotNo) :
    (s.serve p o r).record m = if m = o.handle.slot then some (r.claimed p o.handle) else s.record m := by
  simp [State.serve, State.record_setRecord]

theorem State.serve_disp (s : State) (p k : HostId) (o : Offer) (r : Record) : (s.serve p o r).disp k =
    if k = p then { offer := none, claimTimer := none, stack := (s.disp p).stack ++ [⟨o.handle, o.band⟩] } else s.disp k := by
  by_cases hk : k = p <;> simp [State.serve, State.disp_updDisp, State.takeOffer_disp, hk]

theorem State.serve_session (s : State) (p k : HostId) (o : Offer) (r : Record) :
    (s.serve p o r).session k = if k = p then { s.session p with missCount := 0 } else s.session k := by
  simp [State.serve, State.takeOffer_session]

theorem State.serve_port (s : State) (p k : HostId) (o : Offer) (r : Record) :
    (s.serve p o r).port k = if k = p then (s.port p).deleteOffer o.handle else s.port k := by
  simp [State.serve, State.takeOffer_port]

/-- Settles O47, by the readings of the state in which the copy is in service. -/
theorem claimTakesOffer : Obligations.ClaimTakesOffer := by
  unfold Obligations.ClaimTakesOffer
  intro p q o r s ht ha ho hr
  refine ⟨_, exec_claim_taken ht ha q ho hr, State.claimOffer_frame .., ?_⟩
  dsimp only
  rw [State.claimOffer_eq]
  refine ⟨fun h hne => ?_, fun m hm => ?_, ?_, ?_, ?_, ?_, ?_⟩
  · simp [State.reply_port, State.serve_session, State.serve_disp, State.serve_port, hne]
  · simp [State.serve_record, hm]
  · simp [State.heard_serial ht.1]
  · simp [State.serve_disp, State.heard_disp ht.1]
  · simp [State.serve_session]
  · simp only [State.reply_frame, State.serve_record, if_true, Record.claimed]
    congr 2
    refine List.map_congr_left fun c _ => ?_
    split
    · rename_i hc; rw [hc.1]
    · rfl
  · cases hsource : r.source <;>
      simp only [State.reply_port, if_true, State.serve_port, Port.deleteOffer_eq, Record.claimData, hsource]

/-- A handle matches the offer slot when its bytes spell the offer's handle (R7). -/
theorem State.matchOffer_none {s : State} {p : HostId} {slot serial : Byte}
    (h : ∀ o, (s.disp p).offer = some o → ¬(slot.toNat = o.handle.slot.val ∧ serial = o.handle.serial)) :
    s.matchOffer p slot serial = none := by
  unfold State.matchOffer
  cases ho : (s.disp p).offer with
  | none => rfl
  | some o => simpa [parseHandle_eq] using h o ho

/-- Settles O48: a handle is compared with the caller's own offer slot and stack alone. -/
theorem staleAndOutOfOrderRefused : Obligations.StaleAndOutOfOrderRefused := by
  unfold Obligations.StaleAndOutOfOrderRefused
  refine ⟨fun p q slot serial s ht ha hno => ?_, fun p q slot serial s ht ha => ⟨fun hno => ?_, fun es e hs hne ⟨d, hd, heq⟩ => ?_⟩⟩
  · have hnone : (s.heard p).matchOffer p slot serial = none := State.matchOffer_none (by rwa [State.heard_disp ht.1])
    constructor
    · simp only [exec, execClaim]
      rw [State.command_answer ht ha]
      simp [hnone]
    · simp only [exec, execDecline]
      rw [State.command_answer ht ha]
      simp [hnone]
  · simp only [exec, execDone]
    rw [State.command_answer ht ha]
    have hany : ((s.disp p).stack.any fun e => decide (parseHandle slot serial = some e.handle)) = false := by
      simpa [parseHandle_eq] using hno
    simp [State.heard_disp ht.1, hany]
  · simp only [exec, execDone]
    rw [State.command_answer ht ha]
    have hne' : parseHandle slot serial ≠ some e.handle := by rwa [Ne, parseHandle_eq]
    have hany : ((s.disp p).stack.any fun e => decide (parseHandle slot serial = some e.handle)) = true := by
      rw [List.any_eq_true]
      exact ⟨d, by simp [hs, hd], by simpa [parseHandle_eq] using heq⟩
    have hlast : (s.disp p).stack.getLast? = some e := by simp [hs]
    simp only [State.heard_disp ht.1, hany, if_true, hlast, if_neg hne']

/-! ### POST -/

/-- The lowest FREE posted slot (R10). -/
theorem State.lowestFreePosted_eq {s : State} {n : SlotNo} (hn : 48 ≤ n.val) (hr : s.record n = none)
    (hlow : ∀ m : SlotNo, 48 ≤ m.val → m.val < n.val → s.record m ≠ none) : s.lowestFreePosted = some n := by
  unfold State.lowestFreePosted
  rw [List.find?_eq_some_iff_getElem]
  refine ⟨by simp [isPostedSlot_of_le hn, hr], n.val, by simp, by simp, fun j hj => ?_⟩
  have hbound : j < 96 := lt_trans hj n.isLt
  simp only [List.getElem_finRange, Fin.cast_mk, Bool.not_eq_true', Bool.and_eq_false_imp]
  intro hposted
  have hfull := hlow ⟨j, hbound⟩ (by simpa [isPostedSlot] using hposted) hj
  simpa [Option.isSome_iff_ne_none] using hfull

theorem State.lowestFreePosted_none {s : State} (h : ∀ n : SlotNo, 48 ≤ n.val → s.record n ≠ none) : s.lowestFreePosted = none := by
  unfold State.lowestFreePosted
  rw [List.find?_eq_none]
  intro n _
  simpa [isPostedSlot, Option.isNone_iff_eq_none] using h n

/-- The arguments of a POST outside their values (R107). -/
theorem parsePost_none {band mode notify rc rh : Byte}
    (h : band = 0 ∨ 7 < band.toNat ∨ 1 < mode.toNat ∨ 1 < notify.toNat ∨ parseRoute rc rh = none) :
    parsePost band mode notify rc rh = none := by
  unfold parsePost
  split
  · rename_i b m v route hb hm hv hr
    rw [parseRange_eq] at hb
    rw [parseMode_eq] at hm
    rw [parseFlag_eq] at hv
    have hm1 : m.code ≤ 1 := by cases m <;> decide
    have hv1 : v.toNat ≤ 1 := by cases v <;> decide
    rcases h with rfl | h | h | h | h
    · simp at hb; omega
    · omega
    · omega
    · omega
    · rw [h] at hr; cases hr
  · rfl

theorem parseMode_of_le {mode : Byte} (h : mode.toNat ≤ 1) : parseMode mode = some (if mode = 0 then .any else .each) := by
  rw [parseMode_eq]
  rcases Nat.le_one_iff_eq_zero_or_eq_one.1 h with h | h
  · obtain rfl : mode = 0 := BitVec.eq_of_toNat_eq h
    rfl
  · obtain rfl : mode = 1 := BitVec.eq_of_toNat_eq h
    rfl

theorem parseFlag_of_le {notify : Byte} (h : notify.toNat ≤ 1) : parseFlag notify = some (decide (notify = 1)) := by
  rw [parseFlag_eq]
  rcases Nat.le_one_iff_eq_zero_or_eq_one.1 h with h | h
  · obtain rfl : notify = 0 := BitVec.eq_of_toNat_eq h
    rfl
  · obtain rfl : notify = 1 := BitVec.eq_of_toNat_eq h
    rfl

/-- The arguments of a POST within their values (R107). -/
theorem parsePost_some {band mode notify rc rh : Byte} {route : List HostId} (h1 : 1 ≤ band.toNat) (h7 : band.toNat ≤ 7)
    (hm : mode.toNat ≤ 1) (hv : notify.toNat ≤ 1) (hr : parseRoute rc rh = some route) :
    parsePost band mode notify rc rh =
      some ⟨band.toNat, if mode = 0 then .any else .each, decide (notify = 1), route⟩ := by
  have hb : parseRange 1 7 band = some band.toNat := parseRange_eq.2 ⟨rfl, h1, h7⟩
  simp only [parsePost, hb, parseMode_of_le hm, parseFlag_of_le hv, hr]

/-- Settles O51, by the checks of R108 in their order. -/
theorem postOpensRecord : Obligations.PostOpensRecord := by
  unfold Obligations.PostOpensRecord
  intro p q band mode notify rc rh payload s ht ha
  dsimp only
  refine ⟨fun hbad => ?_, fun route h1 h7 hm hv hr => ⟨fun hquota => ?_, fun hquota hfull => ?_, fun n hquota hn hfree hlow => ?_⟩⟩
  · simp only [exec, execPost]
    rw [State.command_answer ht ha]
    simp [parsePost_none hbad]
  · simp only [exec, execPost]
    rw [State.command_answer ht ha]
    simp [parsePost_some h1 h7 hm hv hr, State.heard_postedUse ht.1, State.heard_quota ht.1, Nat.not_lt.2 hquota]
  · simp only [exec, execPost]
    rw [State.command_answer ht ha]
    simp [parsePost_some h1 h7 hm hv hr, State.heard_postedUse ht.1, State.heard_quota ht.1, hquota,
      State.heard_lowestFreePosted ht.1, State.lowestFreePosted_none hfull]
  · have hfree' : (s.heard p).record n = none := by rw [State.heard_record ht.1]; exact hfree
    refine ⟨((s.heard p).openRecord n
        (postedRecord p band.toNat (if mode = 0 then .any else .each) route payload (decide (notify = 1)))).reply p q .ok
          (.postOk n (s.postedUse p + 1) (s.session p).quota), ?_, ?_, fun h hne => ?_, fun m hm' => ?_, ?_, ?_, ?_⟩
    · simp only [exec, execPost, State.fullExchange_command ht ha, parsePost_some h1 h7 hm hv hr, State.heard_postedUse ht.1,
        State.heard_quota ht.1, hquota, if_true, State.heard_lowestFreePosted ht.1, State.lowestFreePosted_eq hn hfree hlow]
      rw [State.postedUse_openRecord _ hfree' rfl, State.heard_postedUse ht.1]
    · rw [← State.heard_arrivals ht.1]; rfl
    · simp [State.reply_port, hne]
    · simp [State.record_openRecord, hm']
    · simp [State.heard_serial ht.1]
    · simp only [State.reply_frame, State.record_openRecord, if_true, postedRecord]
      by_cases hmode : mode = 0
      · simp [hmode, freshCopies]
      · simp only [if_neg hmode, freshCopies]
    · simp [State.reply_port]

/-! ### The completion of a hub reset -/

theorem State.clearBlocks_line (s : State) (pins : BitVec 48) (l : LineNo) :
    (s.clearBlocks pins).line l = ⟨firstSample pins l, .unprimed⟩ := by
  simp [State.line, State.clearBlocks, getElem_tableOf]

section clearBlocks
variable (s : State) (pins : BitVec 48)

theorem State.clearBlocks_entry (l : LineNo) : (s.clearBlocks pins).entry l = LineEntry.initial := by simp [State.entry, State.clearBlocks]
theorem State.clearBlocks_holder (g : GroupNo) : (s.clearBlocks pins).holder g = none := by simp [State.holder, State.clearBlocks]
theorem State.clearBlocks_record (n : SlotNo) : (s.clearBlocks pins).record n = none := by simp [State.record, State.clearBlocks]
theorem State.clearBlocks_serial (n : SlotNo) : (s.clearBlocks pins).serial n = 0 := by simp [State.serial, State.clearBlocks]
theorem State.clearBlocks_disp (h : HostId) : (s.clearBlocks pins).disp h = Dispatch.initial := by simp [State.disp, State.clearBlocks]
theorem State.clearBlocks_session (h : HostId) : (s.clearBlocks pins).session h = Session.initial := by
  simp [State.session, State.clearBlocks]
theorem State.clearBlocks_port (h : HostId) : (s.clearBlocks pins).port h = { Port.initial with cs := (s.port h).cs.cut } := by
  simp [State.port, State.clearBlocks]

end clearBlocks

/-- The state that the completion of a reset leaves. -/
def State.completed (s : State) (pins : BitVec 48) (causes : CauseSet) : State :=
  { (s.clearBlocks pins).updateRetention causes with inReset := none }

/-- The Retention Cells and the mark of the reset are all that the completion changes of the cleared blocks. -/
theorem State.completed_eq (s : State) (pins : BitVec 48) (causes : CauseSet) :
    s.completed pins causes = { s.clearBlocks pins with
      epoch := if causes.powerOn then 1 else nextEpoch s.epoch
      causes := if causes.powerOn then PerHost.fill ⟨true, false, false⟩ else PerHost.ofFn fun h => (s.causes.get h).union causes
      inReset := none } := by
  unfold State.completed State.updateRetention
  cases causes.powerOn <;> rfl

theorem exec_hubResetCompletion_completes {s : State} {r : ResetProgress} (pins : BitVec 48) (hr : s.inReset = some r)
    (hone : ¬ 1 < r.holds.size) : exec (.hubResetCompletion pins) s = .next (s.completed pins r.causes) := by
  simp [exec, execHubResetCompletion, hr, hone, State.completed]

theorem exec_hubResetCompletion_held {s : State} {r : ResetProgress} (pins : BitVec 48) (hr : s.inReset = some r)
    (hmore : 1 < r.holds.size) : exec (.hubResetCompletion pins) s = .next s := by
  simp [exec, execHubResetCompletion, hr, hmore]

section completed
variable (s : State) (pins : BitVec 48) (causes : CauseSet)

theorem State.completed_line (l : LineNo) : (s.completed pins causes).line l = ⟨firstSample pins l, .unprimed⟩ := by
  rw [State.completed_eq]; exact State.clearBlocks_line s pins l
theorem State.completed_entry (l : LineNo) : (s.completed pins causes).entry l = LineEntry.initial := by
  rw [State.completed_eq]; exact State.clearBlocks_entry s pins l
theorem State.completed_holder (g : GroupNo) : (s.completed pins causes).holder g = none := by
  rw [State.completed_eq]; exact State.clearBlocks_holder s pins g
theorem State.completed_record (n : SlotNo) : (s.completed pins causes).record n = none := by
  rw [State.completed_eq]; exact State.clearBlocks_record s pins n
theorem State.completed_serial (n : SlotNo) : (s.completed pins causes).serial n = 0 := by
  rw [State.completed_eq]; exact State.clearBlocks_serial s pins n
theorem State.completed_disp (h : HostId) : (s.completed pins causes).disp h = Dispatch.initial := by
  rw [State.completed_eq]; exact State.clearBlocks_disp s pins h
theorem State.completed_session (h : HostId) : (s.completed pins causes).session h = Session.initial := by
  rw [State.completed_eq]; exact State.clearBlocks_session s pins h
theorem State.completed_port (h : HostId) : (s.completed pins causes).port h = { Port.initial with cs := (s.port h).cs.cut } := by
  rw [State.completed_eq]; exact State.clearBlocks_port s pins h
theorem State.completed_arrivals : (s.completed pins causes).arrivals = [] := by rw [State.completed_eq]; rfl
theorem State.completed_loss : (s.completed pins causes).loss = [] := by rw [State.completed_eq]; rfl
theorem State.completed_missed : (s.completed pins causes).missed = PerHost.fill 0 := by rw [State.completed_eq]; rfl
theorem State.completed_epoch : (s.completed pins causes).epoch = if causes.powerOn then 1 else nextEpoch s.epoch := by
  rw [State.completed_eq]
theorem State.completed_running : (s.completed pins causes).running := rfl

end completed

/-- A period that a reset cuts off holds no exchange (R187). -/
theorem ChipSelect.cut_ne_live (cs : ChipSelect) (x : Exchange) : cs.cut ≠ .live x := by cases cs <;> simp [ChipSelect.cut]

/-- Settles O60: the readings of the completed state, block by block. -/
theorem resetCompletes : Obligations.ResetCompletes := by
  unfold Obligations.ResetCompletes
  refine ⟨fun pins s r c d hr hc hd hne => exec_hubResetCompletion_held pins hr (CauseSet.one_lt_size_iff.2 ⟨c, d, hne, hc, hd⟩), ?_⟩
  intro pins s r hr hone
  have hsize : ¬ 1 < r.holds.size := by
    rw [CauseSet.one_lt_size_iff]
    rintro ⟨c, d, hne, hc, hd⟩
    exact hne (hone c d hc hd)
  refine ⟨_, exec_hubResetCompletion_completes pins hr hsize, State.completed_running .., fun l => ?_, State.completed_holder s pins r.causes,
    fun n => ?_, State.completed_arrivals .., State.completed_loss .., fun h => ?_, fun hp => ?_, fun hp => ?_⟩
  · simp [State.completed_line, State.completed_entry, firstSample]
  · simp [State.completed_record, State.completed_serial]
  · simp only [State.completed_disp, State.completed_session, State.reset_disp, State.reset_session, State.completed_missed,
      State.completed_port, PerHost.get_fill, true_and, State.attn, State.wakeOut, State.level]
    refine ⟨State.postedUse_of_no_record (State.completed_record s pins r.causes) h, rfl, rfl, rfl, rfl, rfl, ?_,
      ChipSelect.cut_ne_live _, rfl, rfl⟩
    cases (s.port h).cs <;> rfl
  · simp [State.completed_eq, hp]
  · have hepoch : (s.completed pins r.causes).epoch = nextEpoch s.epoch := by simp [State.completed_epoch, hp]
    refine ⟨fun he => by rw [hepoch, nextEpoch, if_pos he], fun he => by rw [hepoch, nextEpoch, if_neg he], fun h => ?_⟩
    simp [State.completed_eq, CauseSet.union, hp]

end Sys2Proof.Machine
end

