-- ==== Sys2Proof/Proofs/SlotWork.lean ====
section
/-! SUPPORT. The elementary updates that round ends, removals, completions, reclaims and arrivals are made of. -/

namespace Sys2Proof.Machine

/-! ### Work on the slots

Round ends, removals of copies, completions, reclaims and arrivals are all made of a few elementary updates of the slots, with the loss entries and the
COMPLETED notices that go with them. What each of these keeps, all of them keep. -/

/-- One elementary update of the slots, of the loss list or of the ports by a notice; where a record is written, its fields lie within their values when
those of the state do. -/
inductive SlotWork : State → State → Prop
  | amend {s : State} {n : SlotNo} {r r' : Record} (hr : s.record n = some r) (hok : s.RecordsOk → r'.InRange n) :
    SlotWork s (s.setRecord n (some r'))
  | opens {s : State} {n : SlotNo} {r' : Record} (hr : s.record n = none) (hok : s.RecordsOk → r'.InRange n) :
    SlotWork s (s.openRecord n r')
  | frees (s : State) (n : SlotNo) : SlotWork s (s.freeSlot n)
  | reopens {s : State} {n : SlotNo} {r' : Record} (hok : s.RecordsOk → r'.InRange n) : SlotWork s (s.reopenRecord n r')
  | loses (s : State) (cause : LossCause) (n : SlotNo) (r : Record) (host : Option HostId) : SlotWork s (s.makeLoss cause n r host)
  | notifies (s : State) (m : Notice) : SlotWork s (s.deliver m)

/-- Any number of elementary updates of the slots. -/
abbrev SlotWorks : State → State → Prop := Relation.ReflTransGen SlotWork

/-- Work on the slots changes slots, arrivals, loss, missed and ports at most. -/
theorem SlotWork.frame {s t : State} (w : SlotWork s t) :
    t = { s with slots := t.slots, arrivals := t.arrivals, loss := t.loss, missed := t.missed, ports := t.ports } := by
  cases w with
  | amend | opens | frees | reopens => rfl
  | loses => unfold State.makeLoss; dsimp only; (repeat' split) <;> rfl
  | notifies => unfold State.deliver; (repeat' split) <;> rfl

theorem SlotWorks.frame {s t : State} (w : SlotWorks s t) :
    t = { s with slots := t.slots, arrivals := t.arrivals, loss := t.loss, missed := t.missed, ports := t.ports } := by
  induction w with
  | refl => rfl
  | tail _ w ih => rw [w.frame, ih]

section frame
variable {s t : State} (w : SlotWorks s t)
include w

theorem SlotWorks.sessions : t.sessions = s.sessions := by rw [w.frame]
theorem SlotWorks.dispatch : t.dispatch = s.dispatch := by rw [w.frame]
theorem SlotWorks.table : t.table = s.table := by rw [w.frame]
theorem SlotWorks.lines : t.lines = s.lines := by rw [w.frame]
theorem SlotWorks.leases : t.leases = s.leases := by rw [w.frame]
theorem SlotWorks.inReset : t.inReset = s.inReset := by rw [w.frame]
theorem SlotWorks.epoch : t.epoch = s.epoch := by rw [w.frame]
theorem SlotWorks.session (h : HostId) : t.session h = s.session h := by rw [State.session_congr w.sessions]
theorem SlotWorks.disp (h : HostId) : t.disp h = s.disp h := by rw [State.disp_congr w.dispatch]
theorem SlotWorks.attached (h : HostId) : t.attached h = s.attached h := by rw [State.attached_congr w.sessions]
theorem SlotWorks.entry (l : LineNo) : t.entry l = s.entry l := by rw [State.entry_congr w.table]

end frame

/-- A fold works on the slots when each of its steps does. -/
theorem SlotWorks.foldl {α β : Type} (g : β → State) {f : β → α → β} (h : ∀ b a, SlotWorks (g b) (g (f b a))) (l : List α) (b : β) :
    SlotWorks (g b) (g (l.foldl f b)) := by
  induction l generalizing b with
  | nil => exact .refl
  | cons a l ih => exact (h b a).trans (ih (f b a))

/-- A notice reaches no host that is not attached (R118). -/
theorem State.deliver_port_unattached {s : State} {m : Notice} {k : HostId} (h : s.attached k = false) :
    (s.deliver m).port k = s.port k := by
  have hne : s.attached m.sender = true → k ≠ m.sender := by rintro ha rfl; simp [h] at ha
  unfold State.deliver
  split
  · rename_i ha
    split <;> simp [State.enqueue, State.port_updPort, hne ha]
  · rfl

/-- Work on the slots leaves the port of a host that is not attached. -/
theorem SlotWork.port_unattached {s t : State} {k : HostId} (w : SlotWork s t) (h : s.attached k = false) : t.port k = s.port k := by
  cases w with
  | amend | opens | frees | reopens | loses => simp
  | notifies m => exact State.deliver_port_unattached h

theorem SlotWorks.port_unattached {s t : State} {k : HostId} (w : SlotWorks s t) (h : s.attached k = false) :
    t.port k = s.port k := by
  induction w with
  | refl => rfl
  | tail v w ih => rw [w.port_unattached (by rw [SlotWorks.attached v]; exact h), ih]

/-! #### The shared operations as work on the slots -/

theorem SlotWorks.deliverOpt (s : State) (m : Option Notice) : SlotWorks s (s.deliver? m) := by
  cases m with
  | none => exact .refl
  | some m => exact .single (.notifies s m)

/-- A line record opened from its entry holds values of its fields (R9, R17). -/
theorem lineRecord_inRange {l : LineNo} {e : LineEntry} (he : e.InRange) {c : Nat} (h1 : 1 ≤ c) (h255 : c ≤ 255) (sat : Bool) :
    (lineRecord l e c sat).InRange (slotOfLine l) := by
  have hl : (slotOfLine l).val < 48 := l.isLt
  exact { kind := rfl, band := he.1, postedBand := fun h => absurd hl (Nat.not_lt.2 h), route := he.2.1, count := h255,
          lineCount := fun _ => h1, backlog := Nat.zero_le _, openBacklog := fun _ => rfl, rounds := Nat.zero_le _ }

/-- The count of a reopened record is the backlog, or 1 (R16, R34). -/
theorem reopenCount_bounds {e : LineEntry} {a : Bool} {b c : Nat} (h : reopenCount e a b = some c) (hb : b ≤ 255) : 1 ≤ c ∧ c ≤ 255 := by
  unfold reopenCount at h
  split at h
  · split at h
    · split at h
      · cases h
      · cases h; omega
    · split at h
      · cases h
      · cases h; omega
  · cases h

/-- The completion of a record frees or reopens its slot (R14). -/
theorem SlotWorks.complete {s : State} {n : SlotNo} {r : Record} (hok : s.RecordsOk → r.InRange n) (outcome : CompletionOutcome) :
    SlotWorks s (s.complete n r outcome).state := by
  cases hs : r.source with
  | host k => rw [State.complete_host hs]; exact .single (.frees s n)
  | line l =>
    cases hc : reopenCount (s.entry l) (s.lineActive l) r.backlog with
    | none => rw [State.complete_line_free hs hc]; exact .single (.frees s n)
    | some c =>
      rw [State.complete_line_reopen hs hc]
      refine .single (.reopens fun h => ?_)
      have hr := hok h
      have hn : n = slotOfLine l := by simpa [hs, sourceFits] using hr.kind
      obtain ⟨h1, h255⟩ := reopenCount_bounds hc hr.backlog
      rw [hn]
      exact lineRecord_inRange (h.2 l) h1 h255 _

/-- The fields that `Record.InRange` reads and that a change of copies, declined hosts or mark leaves alone. -/
theorem Record.InRange.of_eq {n : SlotNo} {r r' : Record} (h : r.InRange n) (hs : r'.source = r.source) (hb : r'.band = r.band)
    (hroute : r'.route = r.route) (hp : r'.phase = r.phase) (hc : r'.count = r.count) (hl : r'.backlog = r.backlog)
    (hrounds : r'.rounds = r.rounds) : r'.InRange n := by
  obtain ⟨kind, band, postedBand, route, count, lineCount, backlog, openBacklog, rounds⟩ := h
  constructor <;> simpa only [hs, hb, hroute, hp, hc, hl, hrounds]

theorem SlotWorks.removeCopy (s : State) (n : SlotNo) (h : HostId) : SlotWorks s (s.removeCopy n h).state := by
  unfold State.removeCopy
  split
  · exact .refl
  · rename_i r hr
    dsimp only
    split
    · exact SlotWorks.complete (fun hok => hok.1 n r hr) .done
    · exact .single (.amend hr fun hok => (hok.1 n r hr).of_eq rfl rfl rfl rfl rfl rfl rfl)

theorem SlotWorks.saturate {s : State} {n : SlotNo} {r r' : Record} (hr : s.record n = some r) (hok : s.RecordsOk → r'.InRange n) :
    SlotWorks s (s.saturate n r') := by
  have hmark : SlotWork s (s.setRecord n (some { r' with saturated := true })) :=
    .amend hr fun h => (hok h).of_eq rfl rfl rfl rfl rfl rfl rfl
  unfold State.saturate
  dsimp only
  split
  · exact .single hmark
  · exact .tail (.single hmark) (.loses ..)

/-- The loss of a record does not touch the records. -/
theorem State.makeLoss_recordsOk {s : State} {cause : LossCause} {n : SlotNo} {r : Record} {host : Option HostId} :
    (s.makeLoss cause n r host).RecordsOk ↔ s.RecordsOk := by
  simp [State.RecordsOk]

theorem SlotWorks.roundEnd (s : State) (n : SlotNo) : SlotWorks s (s.roundEnd n).1 := by
  unfold State.roundEnd
  split
  · exact .refl
  · rename_i r hr
    split
    · split
      · rename_i hlt
        exact .single (.amend hr fun hok => { hok.1 n r hr with rounds := Nat.le_of_lt_succ hlt })
      · exact .trans (.single (.loses s .unwanted n r none))
          (SlotWorks.complete (fun hok => (State.makeLoss_recordsOk.1 hok).1 n r hr) .dropped)
    · exact .refl

theorem SlotWorks.roundEndDelivered (s : State) (n : SlotNo) : SlotWorks s (s.roundEndDelivered n) :=
  (SlotWorks.roundEnd s n).trans (SlotWorks.deliverOpt _ _)

theorem SlotWorks.roundEnds (s : State) : SlotWorks s s.roundEnds :=
  SlotWorks.foldl id SlotWorks.roundEndDelivered s.arrivals s

theorem SlotWorks.arrive (s : State) (l : LineNo) : SlotWorks s (s.arrive l) := by
  cases hr : s.record (slotOfLine l) with
  | none =>
    rw [State.arrive_free hr]
    exact .single (.opens hr fun hok => lineRecord_inRange (hok.2 l) (le_refl 1) (by omega) false)
  | some r =>
    have hinRange (hok : s.RecordsOk) : r.InRange (slotOfLine l) := hok.1 _ r hr
    cases hs : (s.entry l).sense.isLevel <;> cases hp : r.phase
    · rw [State.arrive_edge_opened hr hs hp]
      split
      · rename_i hlt
        exact .single (.amend hr fun hok => { hinRange hok with count := hlt, lineCount := fun _ => Nat.succ_pos _ })
      · exact SlotWorks.saturate hr hinRange
    · rw [State.arrive_edge_captured hr hs hp]
      split
      · rename_i hlt
        exact .single (.amend hr fun hok => { hinRange hok with backlog := hlt, openBacklog := fun h => absurd (hp.symm.trans h) (by simp) })
      · exact SlotWorks.saturate hr hinRange
    · rw [State.arrive_level_opened hr hs hp]
    · rw [State.arrive_level_captured hr hs hp]
      refine .single (.amend hr fun hok =>
        { hinRange hok with backlog := ?_, openBacklog := fun h => absurd (hp.symm.trans h) (by simp) })
      dsimp only
      split
      · omega
      · exact (hinRange hok).backlog

/-- The reclaim of an ANY copy from a stack (R13, R99). -/
theorem SlotWorks.reclaim {s : State} {n : SlotNo} {r : Record} (h : HostId) (hr : s.record n = some r) :
    SlotWorks s (s.reclaim h n r) := by
  have reopened (c : Nat) (hc : r.count ≤ c) (h255 : s.RecordsOk → c ≤ 255) (hok : s.RecordsOk) :
      ({ r.handBack h with phase := .opened, backlog := 0, count := c } : Record).InRange n := by
    have hle := h255 hok
    obtain ⟨kind, band, postedBand, route, count, lineCount, backlog, openBacklog, rounds⟩ := hok.1 n r hr
    exact { kind := kind, band := band, postedBand := postedBand, route := route, count := hle,
            lineCount := fun hn => (lineCount hn).trans hc, backlog := Nat.zero_le _, openBacklog := fun _ => rfl, rounds := rounds }
  have back : SlotWorks s (s.setRecord n (some { r.handBack h with phase := .opened, backlog := 0 })) :=
    .single (.amend hr (reopened r.count le_rfl fun hok => (hok.1 n r hr).count))
  unfold State.reclaim
  dsimp only
  split
  · exact back
  · split
    · exact back
    · split
      · rename_i hle
        exact .single (.amend hr (reopened _ (Nat.le_add_right _ _) fun _ => hle))
      · refine SlotWorks.saturate hr fun hok => ?_
        exact reopened 255 ((hok.1 n r hr).count) (fun _ => le_rfl) hok

theorem SlotWorks.abandon (w : TeardownWork) (h : HostId) (n : SlotNo) (r : Record) : SlotWorks w.state (w.abandon h n r).state :=
  .trans (.single (.loses w.state .abandoned n r (some h))) ((SlotWorks.removeCopy _ n h).trans (SlotWorks.deliverOpt _ _))

theorem SlotWorks.popEntry (h : HostId) (w : TeardownWork) (e : StackEntry) : SlotWorks w.state (w.popEntry h e).state := by
  unfold TeardownWork.popEntry
  split
  · exact .refl
  · rename_i r hr
    split
    · exact SlotWorks.reclaim h hr
    · exact SlotWorks.abandon w h _ r

theorem SlotWorks.dropOwed (h : HostId) (w : TeardownWork) (n : SlotNo) : SlotWorks w.state (w.dropOwed h n).state := by
  unfold TeardownWork.dropOwed
  split
  · exact .refl
  · exact SlotWorks.abandon w h n _

/-- A slot handed back keeps values of its fields. -/
theorem Record.InRange.handBack {n : SlotNo} {r : Record} (hr : r.InRange n) (h : HostId) : (r.handBack h).InRange n :=
  hr.of_eq rfl rfl rfl rfl rfl rfl rfl

theorem State.updDisp_recordsOk {s : State} {h : HostId} {f : Dispatch → Dispatch} : (s.updDisp h f).RecordsOk ↔ s.RecordsOk := Iff.rfl

/-- Step 2 of a teardown works on the slots once the offer slot is EMPTY. -/
theorem SlotWorks.endOffer {w : TeardownWork} {h : HostId} {o : Offer} (ho : (w.state.disp h).offer = some o) :
    SlotWorks (w.state.updDisp h fun d => { d with offer := none, claimTimer := none }) (w.endOffer h).state := by
  unfold TeardownWork.endOffer
  simp only [ho]
  split
  · exact .refl
  · rename_i r hr
    split
    · exact .single (.amend hr fun hok => ((State.updDisp_recordsOk.1 hok).1 _ r hr).handBack h)
    · exact SlotWorks.abandon { w with state := _ } h _ r

end Sys2Proof.Machine
end

