-- ==== Sys2Proof/Proofs/Teardown.lean ====
section
/-! SUPPORT. The teardown of a host step by step, and its loss. -/

namespace Sys2Proof.Machine

/-! ### Steps 1 to 8 of a teardown (R135 to R138) -/

theorem TeardownWork.endOffer_none {w : TeardownWork} {h : HostId} (ho : (w.state.disp h).offer = none) : w.endOffer h = w := by
  simp [TeardownWork.endOffer, ho]

/-- Step 2 of a teardown empties the host's offer slot alone (R86). -/
theorem TeardownWork.endOffer_disp (w : TeardownWork) (h k : HostId) : (w.endOffer h).state.disp k =
    if k = h ∧ (w.state.disp h).offer ≠ none then { w.state.disp h with offer := none, claimTimer := none } else w.state.disp k := by
  cases ho : (w.state.disp h).offer with
  | none => simp [TeardownWork.endOffer_none ho]
  | some o =>
    rw [SlotWorks.disp (SlotWorks.endOffer ho), State.disp_updDisp]
    simp

theorem TeardownWork.endOffer_stack (w : TeardownWork) (h : HostId) : ((w.endOffer h).state.disp h).stack = (w.state.disp h).stack := by
  rw [TeardownWork.endOffer_disp]
  split <;> rfl

/-- The work of a teardown when its offer slot is EMPTY and its stack is taken off, before the entries are handed back. -/
def State.unburdened (s : State) (h : HostId) : TeardownWork :=
  let w := TeardownWork.endOffer ⟨s, 0, 0⟩ h
  { w with state := w.state.updDisp h fun d => { d with stack := [], claimTimer := none } }

theorem State.releaseCopies_eq (s : State) (h : HostId) : s.releaseCopies h =
    (s.owedTo h).foldl (TeardownWork.dropOwed h) ((s.disp h).stack.foldl (TeardownWork.popEntry h) (s.unburdened h)) := by
  unfold State.releaseCopies State.unburdened
  dsimp only
  rw [TeardownWork.endOffer_stack]

/-- Steps 3 and 4 of a teardown work on the slots. -/
theorem SlotWorks.releaseCopies (s : State) (h : HostId) : SlotWorks (s.unburdened h).state (s.releaseCopies h).state := by
  rw [State.releaseCopies_eq]
  exact (SlotWorks.foldl TeardownWork.state (SlotWorks.popEntry h) _ _).trans
    (SlotWorks.foldl TeardownWork.state (SlotWorks.dropOwed h) _ _)

theorem State.unburdened_disp (s : State) (h k : HostId) : (s.unburdened h).state.disp k =
    if k = h then { offer := none, claimTimer := none, stack := [] } else s.disp k := by
  unfold State.unburdened
  dsimp only
  rw [State.disp_updDisp, TeardownWork.endOffer_disp, TeardownWork.endOffer_disp]
  by_cases hk : k = h
  · subst hk
    cases ho : (s.disp k).offer <;> simp [ho]
  · simp [hk]

/-- The host at the first step of its teardown: its state is final and its wake timer stopped. -/
abbrev State.unseated (s : State) (h : HostId) (final : HostState) : State :=
  s.updSession h fun e => { e with state := final, wakeTimer := none }

/-- The slots of a teardown after its round ends, before its leases, its losses and its port are cleared. -/
abbrev State.cleared (s : State) (h : HostId) (final : HostState) : State := ((s.unseated h final).releaseCopies h).state.roundEnds

theorem State.teardown_eq (s : State) (h : HostId) (final : HostState) : s.teardown h final =
    ⟨(((s.cleared h final).releaseLeases h).forgetLosses h).clearPort h, ((s.unseated h final).releaseCopies h).returned,
      ((s.unseated h final).releaseCopies h).abandoned, (s.cleared h final).leaseCount h⟩ := rfl

/-- Steps 3 to 5 of a teardown work on the slots. -/
theorem SlotWorks.cleared (s : State) (h : HostId) (final : HostState) :
    SlotWorks ((s.unseated h final).unburdened h).state (s.cleared h final) :=
  (SlotWorks.releaseCopies _ h).trans (SlotWorks.roundEnds _)

section teardown
variable (s : State) (h : HostId) (final : HostState)

theorem State.teardown_session (k : HostId) : (s.teardown h final).state.session k =
    if k = h then { s.session h with state := final, wakeTimer := none } else s.session k := by
  simp [State.teardown, State.session_updSession]

theorem State.teardown_disp (k : HostId) : (s.teardown h final).state.disp k =
    if k = h then { offer := none, claimTimer := none, stack := [] } else s.disp k := by
  have hcleared : (s.cleared h final).disp k = _ := (SlotWorks.cleared s h final).disp k
  rw [State.unburdened_disp] at hcleared
  simpa [State.teardown_eq] using hcleared

theorem State.teardown_record (n : SlotNo) : (s.teardown h final).state.record n = (s.cleared h final).record n := by
  simp [State.teardown_eq]

theorem State.releaseLeases_holder (g : GroupNo) :
    (s.releaseLeases h).holder g = if s.holder g = some h then none else s.holder g := by
  exact getElem_mapTable _ _ _ g.isLt

theorem State.cleared_leases : (s.cleared h final).leases = s.leases := by simp [State.cleared]

theorem State.teardown_holder (g : GroupNo) :
    (s.teardown h final).state.holder g = if s.holder g = some h then none else s.holder g := by
  have hsame : (s.cleared h final).holder g = s.holder g := by rw [State.holder_congr (State.cleared_leases s h final)]
  rw [State.teardown_eq, ← hsame, ← State.releaseLeases_holder]
  simp

theorem State.teardown_loss : (s.teardown h final).state.loss =
    ((s.cleared h final).loss.map fun e => { e with unread := e.unread.set h false }).filter fun e => !HostSet.isEmpty e.unread := by
  simp [State.teardown_eq, State.forgetLosses, State.releaseLeases, State.clearPort]

theorem State.teardown_missed (k : HostId) :
    (s.teardown h final).state.missed.get k = if k = h then 0 else (s.cleared h final).missed.get k := by
  simp [State.teardown_eq, State.forgetLosses, State.releaseLeases, State.clearPort, PerHost.get_set]

theorem State.clearPort_port (k : HostId) : (s.clearPort h).port k =
    if k = h then { queue := [], partMark := false, overrun := false, noticeDropped := false, cs := (s.port h).cs.dropCarried }
    else s.port k := by
  simp [State.clearPort, State.port_updPort]

theorem State.teardown_port (k : HostId) : (s.teardown h final).state.port k =
    if k = h then
      { queue := [], partMark := false, overrun := false, noticeDropped := false, cs := ((s.cleared h final).port h).cs.dropCarried }
    else (s.cleared h final).port k := by
  rw [State.teardown_eq, State.clearPort_port]
  simp

end teardown

/-- The host that is torn down gets no notice, so its port waits untouched for step 8 (R118, R137). -/
theorem State.cleared_port_self (s : State) (h : HostId) {final : HostState} (hf : final.attached = false) :
    (s.cleared h final).port h = s.port h := by
  have hatt : (s.unseated h final).attached h = false := by simp [State.attached, State.session_updSession, hf]
  have hend : (TeardownWork.endOffer ⟨s.unseated h final, 0, 0⟩ h).state.port h = s.port h := by
    cases ho : ((s.unseated h final).disp h).offer with
    | none => rw [TeardownWork.endOffer_none ho]; rfl
    | some o => exact (SlotWorks.endOffer (w := ⟨s.unseated h final, 0, 0⟩) ho).port_unattached hatt
  have hunb : ((s.unseated h final).unburdened h).state.attached h = false := by simp [State.unburdened, hatt]
  exact ((SlotWorks.cleared s h final).port_unattached hunb).trans hend

theorem ChipSelect.dropCarried_live {cs : ChipSelect} {x : Exchange} (h : cs = .live x) :
    cs.dropCarried = .live { x with carried := false } := by subst h; rfl

/-- The records that owe a host a WAITING EACH copy (R101). -/
theorem State.mem_owedTo {s : State} {h : HostId} {n : SlotNo} : n ∈ s.owedTo h ↔ n ∈ s.arrivals ∧
    ∃ r, s.record n = some r ∧ r.mode = .each ∧ ∃ c ∈ r.copies, c.host = some h ∧ c.state = .waiting := by
  unfold State.owedTo
  rw [List.mem_filter]
  cases s.record n <;> simp

/-- Step 2 of a teardown hands an offered ANY copy back (R86). -/
theorem TeardownWork.endOffer_any {w : TeardownWork} {h : HostId} {o : Offer} {r : Record} (ho : (w.state.disp h).offer = some o)
    (hr : w.state.record o.handle.slot = some r) (hm : r.mode = .any) : w.endOffer h =
    ⟨(w.state.updDisp h fun d => { d with offer := none, claimTimer := none }).setRecord o.handle.slot (some (r.handBack h)),
      w.returned + 1, w.abandoned⟩ := by
  simp [TeardownWork.endOffer, ho, hr, hm]

/-- Step 2 of a teardown gives an offered EACH copy up (R100). -/
theorem TeardownWork.endOffer_each {w : TeardownWork} {h : HostId} {o : Offer} {r : Record} (ho : (w.state.disp h).offer = some o)
    (hr : w.state.record o.handle.slot = some r) (hm : r.mode = .each) : w.endOffer h =
    TeardownWork.abandon ⟨w.state.updDisp h fun d => { d with offer := none, claimTimer := none }, w.returned, w.abandoned⟩ h
      o.handle.slot r := by
  simp [TeardownWork.endOffer, ho, hr, hm]

theorem TeardownWork.popEntry_any {w : TeardownWork} {h : HostId} {e : StackEntry} {r : Record}
    (hr : w.state.record e.handle.slot = some r) (hm : r.mode = .any) :
    w.popEntry h e = ⟨w.state.reclaim h e.handle.slot r, w.returned + 1, w.abandoned⟩ := by
  simp [TeardownWork.popEntry, hr, hm]

theorem TeardownWork.popEntry_each {w : TeardownWork} {h : HostId} {e : StackEntry} {r : Record}
    (hr : w.state.record e.handle.slot = some r) (hm : r.mode = .each) : w.popEntry h e = w.abandon h e.handle.slot r := by
  simp [TeardownWork.popEntry, hr, hm]

theorem TeardownWork.dropOwed_some {w : TeardownWork} {h : HostId} {n : SlotNo} {r : Record} (hr : w.state.record n = some r) :
    w.dropOwed h n = w.abandon h n r := by
  simp [TeardownWork.dropOwed, hr]

/-- The record that a reclaim opens again, before its counts are merged (R13, R99). -/
def Record.reclaimed (r : Record) (h : HostId) : Record := { r.handBack h with phase := .opened, backlog := 0 }

section reclaim
variable {s : State} {h : HostId} {n : SlotNo} {r : Record}

theorem State.reclaim_posted {k : HostId} (hs : r.source = .host k) : s.reclaim h n r = s.setRecord n (some (r.reclaimed h)) := by
  simp [State.reclaim, Record.reclaimed, hs]

theorem State.reclaim_level {l : LineNo} (hs : r.source = .line l) (hl : (s.entry l).sense.isLevel = true) :
    s.reclaim h n r = s.setRecord n (some (r.reclaimed h)) := by
  simp [State.reclaim, Record.reclaimed, hs, hl]

theorem State.reclaim_edge {l : LineNo} (hs : r.source = .line l) (hl : (s.entry l).sense.isLevel = false) :
    s.reclaim h n r = if r.count + r.backlog ≤ 255 then s.setRecord n (some { r.reclaimed h with count := r.count + r.backlog })
      else s.saturate n { r.reclaimed h with count := 255 } := by
  simp [State.reclaim, Record.reclaimed, hs, hl]

end reclaim

/-- The removal of a host's copy from a record in use (R4, R14). -/
theorem State.removeCopy_some {s : State} {n : SlotNo} {r : Record} (hr : s.record n = some r) (h : HostId) : s.removeCopy n h =
    if (r.copies.filter fun c => decide (c.host ≠ some h)) = [] then s.complete n r .done
    else ⟨s.setRecord n (some { r with copies := r.copies.filter fun c => decide (c.host ≠ some h) }), none, .remaining, r.backlog⟩ := by
  simp only [State.removeCopy, hr, List.isEmpty_iff]

/-- Steps 2 to 4 of a teardown, copy by copy (R86, R98 to R102). -/
theorem teardown_copy_steps (w : TeardownWork) (h : HostId) :
    let s := w.state
    let back (r : Record) : Record :=
      { r with
        copies := r.copies.map fun c => if c.host = some h then ⟨none, .waiting⟩ else c
        declined := r.declined.set h true }
    ((s.disp h).offer = none → w.endOffer h = w) ∧
    (∀ o r, (s.disp h).offer = some o → s.record o.handle.slot = some r →
      let a := s.updDisp h fun d => { d with offer := none, claimTimer := none }
      (r.mode = .any → w.endOffer h = ⟨a.setRecord o.handle.slot (some (back r)), w.returned + 1, w.abandoned⟩) ∧
      (r.mode = .each → w.endOffer h = TeardownWork.abandon ⟨a, w.returned, w.abandoned⟩ h o.handle.slot r)) ∧
    (∀ e r, s.record e.handle.slot = some r → r.mode = .any →
      let n := e.handle.slot
      let becomes (x : Record) : Prop := w.popEntry h e = ⟨s.setRecord n (some x), w.returned + 1, w.abandoned⟩
      let opened : Record := { back r with phase := .opened, backlog := 0 }
      (∀ k, r.source = .host k → becomes opened) ∧
      ∀ l, r.source = .line l →
        ((s.entry l).sense.active ≠ none → becomes opened) ∧
        ((s.entry l).sense.active = none → r.count + r.backlog ≤ 255 → becomes { opened with count := r.count + r.backlog }) ∧
        ((s.entry l).sense.active = none → 255 < r.count + r.backlog →
          let full : Record := { opened with count := 255, saturated := true }
          (r.saturated = true → becomes full) ∧
          (r.saturated = false →
            w.popEntry h e = ⟨(s.setRecord n (some full)).makeLoss .saturated n full none, w.returned + 1, w.abandoned⟩))) := by
  dsimp only
  refine ⟨TeardownWork.endOffer_none, fun o r ho hr => ⟨TeardownWork.endOffer_any ho hr, TeardownWork.endOffer_each ho hr⟩,
    fun e r hr hm => ?_⟩
  rw [TeardownWork.popEntry_any hr hm]
  refine ⟨fun k hs => by rw [State.reclaim_posted hs]; rfl, fun l hs => ⟨fun hl => ?_, fun hl hle => ?_, fun hl hgt => ⟨fun hsat => ?_, fun hsat => ?_⟩⟩⟩
  · rw [State.reclaim_level hs (Sense.isLevel_eq_true.2 hl)]; rfl
  · rw [State.reclaim_edge hs (Sense.isLevel_eq_false.2 hl), if_pos hle]; rfl
  · rw [State.reclaim_edge hs (Sense.isLevel_eq_false.2 hl), if_neg (Nat.not_le.2 hgt)]
    simp [State.saturate, Record.reclaimed, Record.handBack, hsat]
  · rw [State.reclaim_edge hs (Sense.isLevel_eq_false.2 hl), if_neg (Nat.not_le.2 hgt)]
    simp only [State.saturate, Record.reclaimed, Record.handBack, hsat, Bool.false_eq_true, if_false]
    simp [State.makeLoss, Record.lossPayload]

/-- An EACH copy given up (R100 to R102). -/
theorem TeardownWork.abandon_eq (w : TeardownWork) (h : HostId) {n : SlotNo} {r : Record} (hr : w.state.record n = some r) :
    let v := w.state.makeLoss .abandoned n r (some h)
    let left := r.copies.filter fun c => c.host ≠ some h
    let c : Completion := if left = [] then v.complete n r .done else ⟨v.setRecord n (some { r with copies := left }), none, .remaining, r.backlog⟩
    (∀ m, c.notice = some m → w.abandon h n r = ⟨c.state.deliver m, w.returned, w.abandoned + 1⟩) ∧
    (c.notice = none → w.abandon h n r = ⟨c.state, w.returned, w.abandoned + 1⟩) := by
  have hr' : (w.state.makeLoss .abandoned n r (some h)).record n = some r := by simpa using hr
  dsimp only
  simp only [TeardownWork.abandon, State.removeCopy_some hr']
  exact ⟨fun m hm => by rw [hm]; rfl, fun hm => by rw [hm]; rfl⟩

/-- The loss of a host: what stands between its teardown and the recomputation (R137, R138). -/
theorem State.lose_eq (s : State) (h : HostId) (cause : EvictCause) :
    let d := s.teardown h .lost
    ∃ u, s.lose h cause = u.recompute ∧ u = { d.state with sessions := u.sessions, ports := u.ports } ∧ d.state.sameHostsBut u h ∧
      u.session h = { s.session h with state := .lost, wakeTimer := none, wasLost := true } ∧
      u.port h = { d.state.port h with
        queue := [.evicted cause (s.session h).missCount d.returned d.abandoned d.leases] } := by
  dsimp only
  have hmiss : (((s.teardown h .lost).state.updSession h fun e => { e with wasLost := true }).session h).missCount =
      (s.session h).missCount := by simp [State.session_updSession, State.teardown_session]
  refine ⟨((s.teardown h .lost).state.updSession h fun e => { e with wasLost := true }).enqueue h
    (.evicted cause (s.session h).missCount (s.teardown h .lost).returned (s.teardown h .lost).abandoned (s.teardown h .lost).leases),
    ?_, rfl, fun k hk => ?_, ?_, ?_⟩
  · unfold State.lose
    dsimp only
    rw [hmiss]
  · simp [State.session_updSession, hk, State.enqueue, State.port_updPort]
  · simp [State.session_updSession, State.teardown_session]
  · simp [State.enqueue, State.port_updPort, State.teardown_port]

/-- What steps 6 to 8 of a teardown make of the slots that its round ends leave (R98, R136, R137). -/
theorem teardown_clears (s : State) (h : HostId) (final : HostState) {w : TeardownWork} (hw : w = (s.unseated h final).releaseCopies h) :
    let u := w.state.arrivals.foldl (fun v n => (v.roundEnd n).1.deliver? (v.roundEnd n).2) w.state
    (∀ n, (s.teardown h final).state.record n = u.record n ∧ (s.teardown h final).state.serial n = u.serial n) ∧
    (s.teardown h final).state.arrivals = u.arrivals ∧
    (s.teardown h final).state.loss =
      (u.loss.map fun e => { e with unread := e.unread.set h false }).filter (fun e => !HostSet.isEmpty e.unread) ∧
    (∀ k, k ≠ h → (s.teardown h final).state.missed.get k = u.missed.get k ∧ (s.teardown h final).state.port k = u.port k) ∧
    (s.teardown h final).returned = w.returned ∧ (s.teardown h final).abandoned = w.abandoned := by
  subst hw
  refine ⟨fun n => ⟨State.teardown_record s h final n, ?_⟩, ?_, State.teardown_loss s h final, fun k hk => ⟨?_, ?_⟩, rfl, rfl⟩
  · rw [State.teardown_eq]; simp; rfl
  · rw [State.teardown_eq]; simp; rfl
  · rw [State.teardown_missed, if_neg hk]; rfl
  · rw [State.teardown_port, if_neg hk]; rfl

/-- Settles O35: the readings of the state that a teardown leaves, its slots as the round ends leave them, the copies one by one, and the loss. -/
theorem teardownAndLoss : Obligations.TeardownAndLoss := by
  unfold Obligations.TeardownAndLoss
  refine ⟨fun s h final hf => ?_, fun s h final => ?_, fun w h => ?_, State.lose_eq⟩
  · have hatt : final.attached = false := by rcases hf with rfl | rfl <;> rfl
    dsimp only
    simp only [State.teardown_session, State.teardown_disp, State.teardown_port, State.teardown_missed, if_true, true_and,
      State.cleared_port_self s h hatt, State.teardown_state_frame]
    refine ⟨fun k hk => by simp [hk], State.teardown_holder s h final, fun e he => ?_, fun x hx => ⟨_, ChipSelect.dropCarried_live hx, rfl, rfl⟩, ?_⟩
    · rw [State.teardown_loss, List.mem_filter, List.mem_map] at he
      obtain ⟨⟨d, _, rfl⟩, hne⟩ := he
      exact ⟨PerHost.get_set_self .., by simpa using hne⟩
    · rw [State.teardown_eq]
      simp [State.leaseCount]
  · dsimp only
    have hrelease : (s.unseated h final).releaseCopies h =
        (s.owedTo h).foldl (TeardownWork.dropOwed h) ((s.disp h).stack.foldl (TeardownWork.popEntry h) ((s.unseated h final).unburdened h)) :=
      State.releaseCopies_eq (s.unseated h final) h
    exact ⟨List.filter_sublist, fun n => State.mem_owedTo, teardown_clears s h final hrelease.symm⟩
  · obtain ⟨hnone, hoffer, hpop⟩ := teardown_copy_steps w h
    exact ⟨hnone, hoffer, hpop, fun e r hr hm => TeardownWork.popEntry_each hr hm, fun n r hr => TeardownWork.dropOwed_some hr,
      fun n r hr => TeardownWork.abandon_eq w h hr⟩

end Sys2Proof.Machine
end

