-- ==== Sys2Proof/Proofs/Withdrawals.lean ====
section
/-! SUPPORT. The queues of a port, and the withdrawal of offers. -/

namespace Sys2Proof.Machine

/-! ### The queues of a port -/

/-- A queue that holds an OFFER of the handle can lose it. -/
theorem dropOffer_isSome {hd : Handle} {q : List Msg} (h : q.any (Msg.offers hd) = true) : (dropOffer hd q).isSome = true := by
  induction q with
  | nil => cases h
  | cons m ms ih =>
    cases hms : dropOffer hd ms with
    | some l => simp [dropOffer, hms]
    | none =>
      have hm : m.offers hd = true := by
        rw [List.any_cons, Bool.or_eq_true] at h
        exact h.resolve_right fun h => by simpa [hms] using ih h
      simp [dropOffer, hms, hm]

/-- A queue without the newest OFFER of a handle: what stands before and behind that OFFER is kept (log entry 24). -/
theorem dropOffer_some {hd : Handle} {q q' : List Msg} (h : dropOffer hd q = some q') :
    ∃ before m after, q = before ++ m :: after ∧ q' = before ++ after ∧ m.offers hd = true ∧ after.any (Msg.offers hd) = false := by
  induction q generalizing q' with
  | nil => cases h
  | cons m ms ih =>
    cases hms : dropOffer hd ms with
    | some l =>
      obtain ⟨before, x, after, rfl, rfl, hx, hafter⟩ := ih hms
      simp only [dropOffer, hms, Option.some.injEq] at h
      exact ⟨m :: before, x, after, rfl, h.symm, hx, hafter⟩
    | none =>
      have hafter : ms.any (Msg.offers hd) = false := by
        rw [← Bool.not_eq_true]
        exact fun hany => by simpa [hms] using dropOffer_isSome hany
      simp only [dropOffer, hms, Option.ite_none_right_eq_some, Option.some.injEq] at h
      exact ⟨[], m, ms, rfl, h.2.symm, h.1, hafter⟩

/-- A message that is an OFFER is no WITHDRAW. -/
theorem Msg.not_isWithdraw_of_offers {m : Msg} {hd : Handle} (h : m.offers hd = true) : m.isWithdraw = false := by
  cases m with
  | offer => rfl
  | reply | withdraw | completed | evicted => cases h

/-- The deletion of an uncarried OFFER leaves the messages before and behind it (R69, R75). -/
theorem Port.queueWithoutOffer_some {p : Port} {hd : Handle} {q : List Msg} (h : p.queueWithoutOffer hd = some q) :
    ∃ before m after, p.queue = before ++ m :: after ∧ q = before ++ after ∧ m.offers hd = true ∧ after.any (Msg.offers hd) = false := by
  unfold Port.queueWithoutOffer at h
  split at h
  · split at h
    · cases h
    · rename_i x xs hq
      rw [Option.map_eq_some_iff] at h
      obtain ⟨l, hl, rfl⟩ := h
      obtain ⟨before, m, after, rfl, rfl, hm, hafter⟩ := dropOffer_some hl
      exact ⟨x :: before, m, after, hq, rfl, hm, hafter⟩
  · exact dropOffer_some h

theorem nonWithdraw_append (a b : List Msg) : nonWithdraw (a ++ b) = nonWithdraw a + nonWithdraw b := List.countP_append

theorem nonWithdraw_singleton {m : Msg} (h : m.isWithdraw = false) : nonWithdraw [m] = 1 := by simp [nonWithdraw, h]

/-- The deletion of an OFFER leaves fewer messages other than WITHDRAW. -/
theorem Port.nonWithdraw_queueWithoutOffer {p : Port} {hd : Handle} {q : List Msg} (h : p.queueWithoutOffer hd = some q) :
    nonWithdraw q ≤ nonWithdraw p.queue := by
  obtain ⟨before, m, after, hq, rfl, -⟩ := Port.queueWithoutOffer_some h
  rw [hq, nonWithdraw_append, ← List.singleton_append, nonWithdraw_append, nonWithdraw_append]
  omega

/-- The withdrawal of an offer takes no place of a REPLY: a WITHDRAW is not counted (R178). -/
theorem Port.nonWithdraw_endOffer (p : Port) (hd : Handle) (reason : Reason) :
    nonWithdraw (p.endOffer hd reason).queue ≤ nonWithdraw p.queue := by
  unfold Port.endOffer
  split
  · rename_i q hq; exact Port.nonWithdraw_queueWithoutOffer hq
  · rw [nonWithdraw_append]; simp [nonWithdraw, Msg.isWithdraw]

theorem Port.nonWithdraw_deleteOffer (p : Port) (hd : Handle) : nonWithdraw (p.deleteOffer hd).queue ≤ nonWithdraw p.queue := by
  unfold Port.deleteOffer
  split
  · rename_i q hq; exact Port.nonWithdraw_queueWithoutOffer hq
  · exact le_rfl

theorem Port.hasReplyRoom_iff {p : Port} : p.hasReplyRoom = true ↔ nonWithdraw p.queue < 8 := by simp [Port.hasReplyRoom]

/-! ### Withdrawals -/

theorem State.withdraw_none {s : State} {h : HostId} {reason : Reason} (ho : (s.disp h).offer = none) : s.withdraw h reason = s := by
  simp [State.withdraw, ho]

section withdraw
variable {s : State} {h : HostId} {o : Offer} (ho : (s.disp h).offer = some o) (reason : Reason)
include ho

/-- The withdrawal of an outstanding offer (R73 to R75). -/
theorem State.withdraw_some : s.withdraw h reason =
    (((s.updDisp h fun d => { d with offer := none, claimTimer := none }).updRecord o.handle.slot fun r =>
      r.withdrawn h o.handle reason).updPort h fun p => p.endOffer o.handle reason) := by
  simp [State.withdraw, ho]

theorem State.withdraw_disp (k : HostId) : (s.withdraw h reason).disp k =
    if k = h then { s.disp h with offer := none, claimTimer := none } else s.disp k := by
  rw [State.withdraw_some ho]; simp [State.disp_updDisp]

theorem State.withdraw_record (n : SlotNo) : (s.withdraw h reason).record n =
    if n = o.handle.slot then (s.record n).map fun r => r.withdrawn h o.handle reason else s.record n := by
  rw [State.withdraw_some ho]
  by_cases hn : n = o.handle.slot
  · subst hn; simp [State.record_updRecord]
  · simp [State.record_updRecord, hn]

theorem State.withdraw_port (k : HostId) : (s.withdraw h reason).port k =
    if k = h then (s.port h).endOffer o.handle reason else s.port k := by
  rw [State.withdraw_some ho]; simp [State.port_updPort]

end withdraw

/-- After a withdrawal the host holds no offer; the other hosts hold theirs. -/
theorem State.withdraw_offer (s : State) (h k : HostId) (reason : Reason) :
    ((s.withdraw h reason).disp k).offer = if k = h then none else (s.disp k).offer := by
  cases ho : (s.disp h).offer with
  | none =>
    rw [State.withdraw_none ho]
    by_cases hk : k = h
    · subst hk; simp [ho]
    · simp [hk]
  | some o => rw [State.withdraw_disp ho]; split <;> rfl

theorem State.withdraw_nonWithdraw (s : State) (h k : HostId) (reason : Reason) :
    nonWithdraw ((s.withdraw h reason).port k).queue ≤ nonWithdraw (s.port k).queue := by
  cases ho : (s.disp h).offer with
  | none => rw [State.withdraw_none ho]
  | some o =>
    rw [State.withdraw_port ho]
    split
    · rename_i hk; subst hk; exact Port.nonWithdraw_endOffer ..
    · exact le_rfl

/-- The withdrawals at a list of hosts, one after the other. -/
def State.withdrawEach (s : State) (hs : List HostId) (reason : Reason) : State := hs.foldl (fun t h => t.withdraw h reason) s

theorem State.withdrawAll_eq (s : State) (n : SlotNo) (reason : Reason) :
    s.withdrawAll n reason = s.withdrawEach (HostId.all.filter (s.holdsOfferOf n)) reason := rfl

theorem State.withdrawEach_offer (s : State) (hs : List HostId) (k : HostId) (reason : Reason) :
    ((s.withdrawEach hs reason).disp k).offer = if k ∈ hs then none else (s.disp k).offer := by
  induction hs generalizing s with
  | nil => simp [State.withdrawEach]
  | cons h hs ih =>
    have := ih (s.withdraw h reason)
    simp only [State.withdrawEach, List.foldl_cons] at this ⊢
    rw [this, State.withdraw_offer]
    by_cases hk : k = h <;> by_cases hm : k ∈ hs <;> simp [hk, hm]

theorem State.withdrawEach_nonWithdraw (s : State) (hs : List HostId) (k : HostId) (reason : Reason) :
    nonWithdraw ((s.withdrawEach hs reason).port k).queue ≤ nonWithdraw (s.port k).queue := by
  induction hs generalizing s with
  | nil => exact le_rfl
  | cons h hs ih => exact (ih (s.withdraw h reason)).trans (State.withdraw_nonWithdraw s h k reason)

theorem State.holdsOfferOf_iff {s : State} {n : SlotNo} {h : HostId} :
    s.holdsOfferOf n h = true ↔ ∃ o, (s.disp h).offer = some o ∧ o.handle.slot = n := by
  unfold State.holdsOfferOf
  cases (s.disp h).offer <;> simp

/-- After the withdrawal of every offer of a slot no host holds one (R80). -/
theorem State.withdrawAll_offer {s : State} {n : SlotNo} {reason : Reason} {k : HostId} {o : Offer}
    (ho : ((s.withdrawAll n reason).disp k).offer = some o) : o.handle.slot ≠ n := by
  rw [State.withdrawAll_eq, State.withdrawEach_offer] at ho
  split at ho
  · cases ho
  · rename_i hm
    rintro rfl
    exact hm (by simpa using State.holdsOfferOf_iff.2 ⟨o, ho, rfl⟩)

end Sys2Proof.Machine
end

