-- ==== Sys2Proof/Proofs/Updates.lean ====
section
/-! SUPPORT. The elementary updates of which every step of the hub is made. -/

namespace Sys2Proof.Machine

/-! ### What a step of the hub is made of

Every command and event is a chain of the updates below. The quiet ones change no input of the Router (R50); the others are followed by its recomputation.
An invariant that each of them keeps is kept by every step. -/

/-- A port changes its marks and its chip-select period, or takes a message at its tail while a REPLY has a place; during a reset it starts no exchange. -/
inductive PortWork (running : Prop) (a : Port) : Port → Prop
  | marks {b : Port} (hq : b.queue = a.queue) (hr : running ∨ b.partMark = a.partMark ∧ ∀ x, b.cs ≠ .live x) : PortWork running a b
  | message {m : Msg} (hr : running) (hm : m.isWithdraw = false) (hroom : nonWithdraw a.queue < 8) :
    PortWork running a { a with queue := a.queue ++ [m] }

/-- A session entry whose state, depth and floor stay, and whose wake band and batch threshold stay while its host is DEEP. -/
structure Session.Tuned (e e' : Session) : Prop where
  state : e'.state = e.state
  depth : e'.depth = e.depth
  floor : e'.floor = e.floor
  inRange : e.InRange → e'.InRange
  timer : e'.wakeTimer = e.wakeTimer ∨ e.state = .waking ∧ e'.wakeTimer ≠ none
  deep : e.state = .deep → e'.wakeBand = e.wakeBand ∧ e'.batchThreshold = e.batchThreshold

/-- A detector agrees with the raw level of its line (R28 to R31). -/
def LineState.Agrees (v : LineState) : Prop :=
  match v.detector with
  | .unprimed => True
  | .steady a => a = v.raw
  | .qualifying a p _ => p = v.raw ∧ a ≠ v.raw

/-- The updates that leave the inputs of the Router alone, and those of a reset. -/
inductive Quiet : State → State → Prop
  | aside (s : State) (now freeIdx : Nat) (pending : List Instr) (causes : PerHost CauseSet) :
    Quiet s { s with now := now, freeIdx := freeIdx, pending := pending, causes := causes }
  | port {s : State} {p : HostId} {q : Port} (hw : PortWork s.running (s.port p) q) : Quiet s (s.updPort p fun _ => q)
  | notify {s : State} (m : Notice) (hr : s.running) : Quiet s (s.deliver m)
  | session {s : State} {p : HostId} {e : Session} (hr : s.running) (he : (s.session p).Tuned e)
    (hq : s.QuotaOk → (s.updSession p fun _ => e).QuotaOk) : Quiet s (s.updSession p fun _ => e)
  | line {s : State} {l : LineNo} {v : LineState} (hr : s.running) (hv : (s.line l).Agrees → v.Agrees) : Quiet s (s.setLine l v)
  | entry {s : State} {l : LineNo} {e : LineEntry} (he : e.InRange) : Quiet s (s.setEntry l e)
  | holder {s : State} {g : GroupNo} {v : Option HostId} (hv : ∀ p, v = some p → s.attached p = true) : Quiet s (s.setHolder g v)
  | fetch (s : State) (p : HostId) : Quiet s { s with missed := s.missed.set p 0, loss := fetchFrom p s.loss }
  | hold (s : State) (c : Cause) : Quiet s (s.hold c)
  | epoch {s : State} {e : BitVec 16} (he : e ≠ 0) : Quiet s { s with epoch := e }
  | endHold {s : State} {r : ResetProgress} {c : Cause} (hr : s.inReset = some r) (hc : r.holds.erase c ≠ CauseSet.empty) :
    Quiet s { s with inReset := some { r with holds := r.holds.erase c } }
  | complete (s : State) (pins : BitVec 48) (causes : CauseSet) : Quiet s (s.completed pins causes)

/-- Some copy of a slot's record has a host as its candidate (R45, R46). -/
def State.Fillable (s : State) (h : HostId) (n : SlotNo) : Prop :=
  ∃ r, s.record n = some r ∧ ∃ c ∈ r.copies, s.candidate r c = some h

/-- The handing back of an offered copy without its REPLY, with the notice that it may make (R72). -/
def State.handBackOffer (s : State) (p : HostId) (o : Offer) (r : Record) : State × Option Notice :=
  let t := s.takeOffer p o
  match r.mode with
  | .any => (t.setRecord o.handle.slot (some (r.declinedBy p o.handle))).roundEnd o.handle.slot
  | .each => ((t.removeCopy o.handle.slot p).state, (t.removeCopy o.handle.slot p).notice)

theorem State.declineOffer_eq (s : State) (p : HostId) (q : Byte) (o : Offer) (r : Record) : s.declineOffer p q o r =
    ((s.handBackOffer p o r).1.reply p q .ok (.handleNamed (BitVec.ofNat 8 o.handle.slot.val) o.handle.serial)).deliver?
      (s.handBackOffer p o r).2 := rfl

/-- The newest stack entry taken off and its copy removed, without the REPLY (R92, R93). -/
def State.popTop (s : State) (p : HostId) (e : StackEntry) : Completion :=
  (s.updDisp p fun d => { d with stack := d.stack.dropLast }).removeCopy e.handle.slot p

theorem State.finishService_eq (s : State) (p : HostId) (q : Byte) (e : StackEntry) : s.finishService p q e =
    ((s.popTop p e).state.reply p q .ok (.doneOk e.handle (s.popTop p e).result (s.popTop p e).number)).deliver?
      (s.popTop p e).notice := rfl

/-- An OPEN record rebuilt from its line's entry (R151). -/
def Record.rebuilt (r : Record) (e : LineEntry) : Record :=
  { r with band := e.band, mode := e.mode, route := e.route, copies := freshCopies e.mode e.route, declined := HostSet.empty, rounds := 0 }

/-- The session of an accepted ATTACH (R124). -/
def Session.opened (e : Session) (depth : Nat) : Session :=
  { e with state := .awake, depth := depth, floor := 0, missCount := 0, wasLost := false, wakeTimer := none }

/-- No host holds an offer of a slot. -/
def State.NoOfferOf (s : State) (n : SlotNo) : Prop := ∀ h o, (s.disp h).offer = some o → o.handle.slot ≠ n

/-- The updates of which every event is made; `s₀` is the state in which the event began. -/
inductive Stir (s₀ : State) : State → State → Prop
  | quiet {s t : State} (h : Quiet s t) : Stir s₀ s t
  | take {s : State} {p : HostId} {q : Port} {m : Msg} (hr : s.running) (hq : (s.port p).queue = m :: q.queue) :
    Stir s₀ s (s.updPort p fun _ => q)
  | withdraw {s : State} (h : HostId) {reason : Reason} (hr : s.running) (hne : reason ≠ .timeout) : Stir s₀ s (s.withdraw h reason)
  | offer {s : State} {h : HostId} {n : SlotNo} (hr : s.running) (hready : s.readyForOffer h = true) (hfill : s.Fillable h n) :
    Stir s₀ s (s.makeOffer h n)
  | wake {s : State} (h : HostId) (hr : s.running) : Stir s₀ s (s.takeWake h)
  | rouse {s : State} {p : HostId} {v : HostState} (hr : s.running) (ha : s.attached p = true) (hv : v.attached = true)
    (hw : v ≠ .waking) (ho : v.listening = true ∨ (s.disp p).offer = none) :
    Stir s₀ s (s.updSession p fun e => { e with state := v, wakeTimer := none })
  | floor {s : State} {p : HostId} {f : Nat} (hr : s.running) (hf : f ≤ 7) (ho : ∀ o, (s.disp p).offer = some o → f < o.band) :
    Stir s₀ s (s.updSession p fun e => { e with floor := f })
  | serve {s : State} {p : HostId} {o : Offer} {r : Record} (hr : s.running) (ho : (s.disp p).offer = some o)
    (hrec : s.record o.handle.slot = some r) : Stir s₀ s (s.serve p o r)
  | handBack {s : State} {p : HostId} {o : Offer} {r : Record} (hr : s.running) (ho : (s.disp p).offer = some o)
    (hrec : s.record o.handle.slot = some r) : Stir s₀ s (s.handBackOffer p o r).1
  | pop {s : State} {p : HostId} {e : StackEntry} (hr : s.running) (he : (s.disp p).stack.getLast? = some e) :
    Stir s₀ s (s.popTop p e).state
  | post {s : State} {n : SlotNo} {p : HostId} {band : Nat} {mode : Mode} {route : List HostId} {payload : BitVec 32} {notify : Bool}
    (hr : s.running) (hfree : s.record n = none) (hn : 48 ≤ n.val) (hband : 1 ≤ band ∧ band ≤ 7) (hroute : RouteOk route) :
    Stir s₀ s (s.openRecord n (postedRecord p band mode route payload notify))
  | arrive {s : State} (l : LineNo) (hr : s.running) : Stir s₀ s (s.arrive l)
  | free {s : State} {n : SlotNo} {r : Record} (hr : s.running) (hrec : s.record n = some r)
    (hserved : r.phase = .opened ∨ ∀ c ∈ r.copies, c.inService = false) (hno : s.NoOfferOf n) : Stir s₀ s (s.freeSlot n)
  | keepServed {s : State} {n : SlotNo} {r : Record} (hr : s.running) (hrec : s.record n = some r) (hmode : r.mode = .each)
    (hserved : r.copies.filter Copy.inService ≠ []) (hno : s.NoOfferOf n) :
    Stir s₀ s (s.setRecord n (some { r with copies := r.copies.filter Copy.inService }))
  | rebuild {s : State} {l : LineNo} {r : Record} (hr : s.running) (hrec : s.record (slotOfLine l) = some r) (hp : r.phase = .opened)
    (hno : s.NoOfferOf (slotOfLine l)) : Stir s₀ s (s.setRecord (slotOfLine l) (some (r.rebuilt (s.entry l))))
  | attach {s : State} {p : HostId} {depth : Nat} {m : Msg} (hr : s.running) (ha : s.attached p = false)
    (hd : 1 ≤ depth ∧ depth ≤ 4) (hm : m.isWithdraw = false) (hroom : nonWithdraw (s.port p).queue < 8) :
    Stir s₀ s ((s.updSession p fun e => e.opened depth).enqueue p m).roundEnds
  | teardown {s : State} {h : HostId} {final : HostState} {k : Nat} (hr : s.running) (hf : final = .absent ∨ final = .lost)
    (hk : s.HostsOk → s₀.HostsOk → k ≤ 15) :
    Stir s₀ s ((s.updSession h fun e => { e with missCount := k }).teardown h final).state
  | timeout {s : State} {h : HostId} {o : Offer} (hr : s.running) (ho : (s.disp h).offer = some o) :
    Stir s₀ s ((s.withdraw h .timeout).roundEndDelivered o.handle.slot)

/-- Any number of updates. -/
abbrev Stirs (s₀ : State) : State → State → Prop := Relation.ReflTransGen (Stir s₀)

/-- The updates after which the offers are still up to date: the quiet ones, the fill of one host, and the end of an exchange (R64, R173). -/
inductive Calm : State → State → Prop
  | quiet {s t : State} (h : Quiet s t) : Calm s t
  | finish {s : State} (p : HostId) (hr : s.running) : Calm s (s.finishExchange p)
  | fill {s : State} (h : HostId) (hr : s.running) : Calm s (s.arbiterFill h)

/-- Any number of calm updates. -/
abbrev Calms : State → State → Prop := Relation.ReflTransGen Calm

/-- An event: calm throughout, or with updates that the Router's recomputation closes, and calm ones after it (R50). -/
def Event (s t : State) : Prop := Calms s t ∨ ∃ u, Stirs s s u ∧ u.running ∧ Calms u.recompute t

theorem State.running.of_eq {s t : State} (hr : s.running) (h : t.inReset = s.inReset) : t.running := h.trans hr

theorem Calms.of_quiet {s t : State} (h : Quiet s t) : Calms s t := Relation.ReflTransGen.single (.quiet h)

theorem Event.calm {s t u : State} (h : Event s t) (hc : Calms t u) : Event s u := by
  rcases h with h | ⟨v, hs, hr, h⟩
  · exact .inl (h.trans hc)
  · exact .inr ⟨v, hs, hr, h.trans hc⟩

theorem Event.refl (s : State) : Event s s := .inl .refl

/-! #### Fills and the recomputation as chains of updates -/

/-- The copies of the arbiter's list are placed and have the host as their candidate. -/
theorem State.mem_candidatesOf {s : State} {h : HostId} {w : PlacedCopy} :
    w ∈ s.candidatesOf h ↔ w ∈ s.placedCopies ∧ s.candidate w.record w.copy = some h := by
  simp [State.candidatesOf]

theorem State.fillable_of_mem {s : State} {h : HostId} {w : PlacedCopy} (hw : w ∈ s.candidatesOf h) : s.Fillable h w.slot := by
  obtain ⟨hplaced, hcand⟩ := State.mem_candidatesOf.1 hw
  obtain ⟨-, hrec, hcopy⟩ := State.mem_placedCopies.1 hplaced
  exact ⟨w.record, hrec, w.copy, hcopy, hcand⟩

theorem preferred_foldl_mem {l : List PlacedCopy} {b w : PlacedCopy} (h : l.foldl preferred (some b) = some w) : w = b ∨ w ∈ l := by
  induction l generalizing b with
  | nil => simp at h; exact .inl h.symm
  | cons a l ih =>
    rw [List.foldl_cons, preferred] at h
    split at h
    · rcases ih h with rfl | hw
      · exact .inr (List.mem_cons_self ..)
      · exact .inr (List.mem_cons_of_mem _ hw)
    · rcases ih h with rfl | hw
      · exact .inl rfl
      · exact .inr (List.mem_cons_of_mem _ hw)

/-- The arbiter chooses one of the copies whose candidate the host is (R65). -/
theorem State.choose_mem {s : State} {h : HostId} {w : PlacedCopy} (hw : s.choose h = some w) : w ∈ s.candidatesOf h := by
  unfold State.choose at hw
  cases hl : s.candidatesOf h with
  | nil => rw [hl] at hw; cases hw
  | cons a l =>
    rw [hl, List.foldl_cons, preferred] at hw
    rcases preferred_foldl_mem hw with rfl | hm
    · exact List.mem_cons_self ..
    · exact List.mem_cons_of_mem _ hm

theorem Stirs.arbiterFill {s₀ s : State} (h : HostId) (hr : s.running) : Stirs s₀ s (s.arbiterFill h) := by
  unfold State.arbiterFill
  split
  · rename_i hready
    split
    · rename_i w hw
      exact .single (.offer hr hready (State.fillable_of_mem (State.choose_mem hw)))
    · exact .refl
  · exact .refl

/-- Step 3 of an exchange takes the carried message, or sets a mark, and ends the period (R173, R180). -/
theorem Stir.takeCarried {s₀ s : State} (p : HostId) (hr : s.running) :
    Stir s₀ s (s.updPort p fun _ => { (s.port p).takeCarried.1 with cs := .idle }) := by
  unfold Port.takeCarried
  split
  · split
    · exact .quiet (.port (.marks rfl (.inl hr)))
    · rename_i m rest hq
      split
      · exact .quiet (.port (.marks rfl (.inl hr)))
      · exact .take hr hq
  · exact .quiet (.port (.marks rfl (.inl hr)))

theorem Stirs.finishExchange {s₀ s : State} (p : HostId) (hr : s.running) : Stirs s₀ s (s.finishExchange p) := by
  unfold State.finishExchange
  dsimp only
  split
  · exact .trans (.single (Stir.takeCarried p hr)) (Stirs.arbiterFill p hr)
  · exact .single (Stir.takeCarried p hr)

theorem Stirs.of_calm {s₀ s t : State} (h : Calm s t) : Stirs s₀ s t := by
  cases h with
  | quiet h => exact .single (.quiet h)
  | finish p hr => exact Stirs.finishExchange p hr
  | fill h hr => exact Stirs.arbiterFill h hr

theorem Stirs.of_calms {s₀ s t : State} (h : Calms s t) : Stirs s₀ s t := by
  induction h with
  | refl => exact .refl
  | tail _ h ih => exact ih.trans (Stirs.of_calm h)

section makeOffer
variable {s : State} {h : HostId} {n : SlotNo} {r : Record} (hr : s.record n = some r)
include hr

/-- An offer made (R66 to R68). -/
theorem State.makeOffer_some : s.makeOffer h n =
    ((((s.setSerial n (s.serial n + 1)).setRecord n (some (r.offerTo h ⟨n, s.serial n + 1⟩))).updDisp h fun d =>
      { d with offer := some ⟨⟨n, s.serial n + 1⟩, r.band⟩, claimTimer := some (s.now + s.claimDuration h) }).enqueue h
        (.offer ⟨n, s.serial n + 1⟩ r.source r.band r.mode r.saturated r.count r.payload)) := by
  simp [State.makeOffer, hr]

theorem State.makeOffer_record (m : SlotNo) :
    (s.makeOffer h n).record m = if m = n then some (r.offerTo h ⟨n, s.serial n + 1⟩) else s.record m := by
  rw [State.makeOffer_some hr]; simp [State.record_setRecord]

theorem State.makeOffer_disp (k : HostId) : (s.makeOffer h n).disp k = if k = h then
    { s.disp h with offer := some ⟨⟨n, s.serial n + 1⟩, r.band⟩, claimTimer := some (s.now + s.claimDuration h) } else s.disp k := by
  rw [State.makeOffer_some hr]; simp [State.disp_updDisp]

theorem State.makeOffer_port (k : HostId) : (s.makeOffer h n).port k = if k = h then
    { s.port h with queue := (s.port h).queue ++
        [.offer ⟨n, s.serial n + 1⟩ r.source r.band r.mode r.saturated r.count r.payload] } else s.port k := by
  rw [State.makeOffer_some hr]; simp [State.enqueue, State.port_updPort]

end makeOffer

section stack
variable {s t : State} (hs : ∀ k, t.session k = s.session k) (hd : ∀ k, (t.disp k).stack = (s.disp k).stack)
include hs hd

/-- The answers of the Router read the sessions and the stacks, and no offer slot (R44, R48). -/
theorem State.hasRoomFor_congr_stack : t.hasRoomFor = s.hasRoomFor := by
  funext h band
  have hl : t.level h = s.level h := by simp only [State.level, hd]
  rw [State.hasRoomFor, State.hasRoomFor, hl, hs, hd]

theorem State.eligible_congr_stack : t.eligible = s.eligible := by
  funext h band
  simp only [State.eligible, State.hasRoomFor_congr_stack hs hd, hs]

theorem State.candidate_congr_stack (r : Record) (c : Copy) : t.candidate r c = s.candidate r c := by
  simp only [State.candidate, State.eligible_congr_stack hs hd]

end stack

theorem State.makeOffer_stack (s : State) (h k : HostId) (n : SlotNo) : ((s.makeOffer h n).disp k).stack = (s.disp k).stack := by
  cases hr : s.record n with
  | none => simp [State.makeOffer, hr]
  | some r =>
    rw [State.makeOffer_disp hr]
    split
    · rename_i hk; rw [hk]
    · rfl

theorem State.makeOffer_candidate (s : State) (h : HostId) (n : SlotNo) (r : Record) (c : Copy) :
    (s.makeOffer h n).candidate r c = s.candidate r c :=
  State.candidate_congr_stack (fun k => by simp) (fun k => State.makeOffer_stack s h k n) r c

/-- A copy that has a candidate is WAITING; the candidate of an ANY copy is that of the record, and that of an EACH copy its own host. -/
theorem State.candidate_some {s : State} {r : Record} {c : Copy} {h : HostId} (hc : s.candidate r c = some h) :
    c.state = .waiting ∧ s.eligible h r.band = true ∧
      (r.mode = .any → h ∈ r.route ∧ r.declined.get h = false ∧ ∀ d : Copy, d.state = .waiting → s.candidate r d = some h) ∧
      (r.mode = .each → c.host = some h) := by
  unfold State.candidate at hc
  split at hc
  · rename_i hw
    split at hc
    · rename_i hm
      have hfound := List.find?_some hc
      simp only [Bool.and_eq_true, Bool.not_eq_true'] at hfound
      refine ⟨hw, hfound.1, fun _ => ⟨List.mem_of_find?_eq_some hc, hfound.2, fun d hd => ?_⟩, fun he => absurd (hm.symm.trans he) (by simp)⟩
      simp only [State.candidate, hd, hm, hc]
    · rename_i hm
      rw [Option.filter_eq_some_iff] at hc
      exact ⟨hw, hc.2, fun he => absurd (hm.symm.trans he) (by simp), fun _ => hc.1⟩
  · cases hc
  · cases hc

/-- An offer to one host leaves another host the copies whose candidate it is. -/
theorem State.makeOffer_fillable {s : State} {h k : HostId} {n m : SlotNo} (hfill : s.Fillable h n) (hk : s.Fillable k m) (hne : k ≠ h) :
    (s.makeOffer h n).Fillable k m := by
  obtain ⟨r, hr, c, hc, hcand⟩ := hfill
  obtain ⟨v, hv, d, hd, hdcand⟩ := hk
  by_cases hm : m = n
  · subst hm
    obtain rfl : r = v := by rw [hr] at hv; exact Option.some.inj hv
    obtain ⟨hwait, -, hany, heach⟩ := State.candidate_some hdcand
    have hmode : r.mode = .each := by
      cases hmode : r.mode with
      | each => rfl
      | any =>
        have := (hany hmode).2.2 c (State.candidate_some hcand).1
        rw [hcand] at this
        exact absurd (Option.some.inj this).symm hne
    refine ⟨_, by rw [State.makeOffer_record hr, if_pos rfl], d, ?_, ?_⟩
    · refine List.mem_map.2 ⟨d, hd, if_neg ?_⟩
      rintro ⟨-, h' | h'⟩
      · rw [hmode] at h'; cases h'
      · rw [heach hmode] at h'; exact hne (Option.some.inj h')
    · rw [State.makeOffer_candidate]; exact hdcand
  · exact ⟨v, by rw [State.makeOffer_record hr, if_neg hm]; exact hv, d, hd, by rw [State.makeOffer_candidate]; exact hdcand⟩

theorem State.readyForOffer_iff {s : State} {h : HostId} :
    s.readyForOffer h = true ↔ (s.disp h).offer = none ∧ (s.port h).queue.length ≤ 5 := by
  simp [State.readyForOffer, Port.hasOfferRoom]

/-- An offer leaves its host with a full slot, and the other hosts as ready as they were. -/
theorem State.makeOffer_readyForOffer {s : State} {h : HostId} {n : SlotNo} (hfill : s.Fillable h n) (k : HostId) :
    (s.makeOffer h n).readyForOffer k = if k = h then false else s.readyForOffer k := by
  obtain ⟨r, hr, -⟩ := hfill
  simp only [State.readyForOffer, State.makeOffer_disp hr, State.makeOffer_port hr]
  by_cases hk : k = h <;> simp [hk]

/-- Offers of one event: each is made while its host is ready, and then its copy still waits (R64). -/
theorem Stirs.fillDue {s₀ : State} (os : List (HostId × SlotNo)) {s : State} (hr : s.running)
    (hos : ∀ o ∈ os, s.readyForOffer o.1 = true → s.Fillable o.1 o.2) : Stirs s₀ s (os.foldl State.fillDue s) := by
  induction os generalizing s with
  | nil => exact .refl
  | cons o os ih =>
    rw [List.foldl_cons]
    by_cases hready : s.readyForOffer o.1 = true
    · have hfill := hos o (List.mem_cons_self ..) hready
      have hdue : s.fillDue o = s.makeOffer o.1 o.2 := by simp [State.fillDue, hready]
      rw [hdue]
      refine .head (.offer hr hready hfill) (ih (State.running.of_eq hr (by simp)) fun o' ho' hready' => ?_)
      rw [State.makeOffer_readyForOffer hfill] at hready'
      split at hready'
      · cases hready'
      · rename_i hne
        exact State.makeOffer_fillable hfill (hos o' (List.mem_cons_of_mem _ ho') hready') hne
    · have hdue : s.fillDue o = s := by simp [State.fillDue, hready]
      rw [hdue]
      exact ih hr fun o' ho' => hos o' (List.mem_cons_of_mem _ ho')

/-- The offers due are of copies whose candidate the host is. -/
theorem State.offersDue_spec {s : State} {o : HostId × SlotNo} (ho : o ∈ s.offersDue) :
    s.readyForOffer o.1 = true ∧ ∃ w, s.choose o.1 = some w ∧ w.slot = o.2 := by
  unfold State.offersDue at ho
  rw [List.mem_filterMap] at ho
  obtain ⟨w, hw, hsome⟩ := ho
  split at hsome
  · split at hsome
    · rename_i h hcand hdue
      cases hsome
      simp only [Bool.and_eq_true, decide_eq_true_eq, Option.map_eq_some_iff] at hdue
      exact hdue
    · cases hsome
  · cases hsome

theorem Stirs.fillAll {s₀ s : State} (hr : s.running) : Stirs s₀ s s.fillAll := by
  refine Stirs.fillDue s.offersDue hr fun o ho _ => ?_
  obtain ⟨-, w, hw, hslot⟩ := State.offersDue_spec ho
  rw [← hslot]
  exact State.fillable_of_mem (State.choose_mem hw)

/-- A fold is a chain when each of its steps is one in a running hub that stays running. -/
theorem Stirs.foldl {s₀ : State} {α : Type} {f : State → α → State} (hf : ∀ s a, s.running → Stirs s₀ s (f s a))
    (hrun : ∀ s a, (f s a).inReset = s.inReset) (l : List α) {s : State} (hr : s.running) : Stirs s₀ s (l.foldl f s) := by
  induction l generalizing s with
  | nil => exact .refl
  | cons a l ih => exact (hf s a hr).trans (ih ((hrun s a).trans hr))

theorem Stirs.preemptAt {s₀ s : State} (h : HostId) (hr : s.running) : Stirs s₀ s (s.preemptAt h) := by
  unfold State.preemptAt
  split
  · split
    · exact .single (.withdraw h hr (by simp))
    · exact .refl
  · exact .refl

theorem Stirs.preemptPass {s₀ s : State} (hr : s.running) : Stirs s₀ s s.preemptPass :=
  Stirs.foldl (fun s h hr => Stirs.preemptAt h hr) (fun s h => by simp) HostId.all hr

theorem Stirs.preemptAll {s₀ s : State} (hr : s.running) : Stirs s₀ s s.preemptAll := by
  have h1 : s.preemptPass.running := State.running.of_eq hr (by simp)
  have h2 : s.preemptPass.preemptPass.running := State.running.of_eq hr (by simp)
  have h3 : s.preemptPass.preemptPass.preemptPass.running := State.running.of_eq hr (by simp)
  exact (((Stirs.preemptPass hr).trans (Stirs.preemptPass h1)).trans (Stirs.preemptPass h2)).trans (Stirs.preemptPass h3)

theorem Stirs.takeWakes {s₀ s : State} (hr : s.running) : Stirs s₀ s s.takeWakes :=
  Stirs.foldl (fun s h hr => .single (.wake h hr)) (fun s h => by simp) HostId.all hr

/-- The Router's recomputation is withdrawals, then offers, then wakes (R50). -/
theorem Stirs.recompute {s₀ s : State} (hr : s.running) : Stirs s₀ s s.recompute := by
  have h1 : s.preemptAll.running := State.running.of_eq hr (by simp)
  have h2 : s.preemptAll.fillAll.running := State.running.of_eq hr (by simp)
  exact ((Stirs.preemptAll hr).trans (Stirs.fillAll h1)).trans (Stirs.takeWakes h2)

/-- An event is a chain of updates. -/
theorem Event.stirs {s t : State} (h : Event s t) : Stirs s s t := by
  rcases h with h | ⟨u, hs, hr, h⟩
  · exact Stirs.of_calms h
  · exact (hs.trans (Stirs.recompute hr)).trans (Stirs.of_calms h)

end Sys2Proof.Machine
end

