-- ==== Sys2Proof/Proofs/PortEvents.lean ====
section
/-! SUPPORT. The exchanges of a port and the frame of a command, as chains of updates. -/

namespace Sys2Proof.Machine

/-! ### Every command and event is a chain of updates -/

/-- An event whose hub runs on. -/
def State.Leads (s t : State) : Prop := Event s t ∧ t.running

theorem State.Leads.calm {s t u : State} (h : s.Leads t) (hc : Calms t u) (hu : u.inReset = t.inReset) : s.Leads u :=
  ⟨h.1.calm hc, h.2.of_eq hu⟩

theorem State.Leads.of_calms {s t : State} (hs : s.running) (h : Calms s t) (hi : t.inReset = s.inReset) : s.Leads t :=
  ⟨.inl h, hs.of_eq hi⟩

/-! #### Ports -/

/-- A message at the tail of a queue with a place for a REPLY. -/
theorem Quiet.enqueue {s : State} {p : HostId} {m : Msg} (hr : s.running) (hm : m.isWithdraw = false)
    (hroom : (s.port p).hasReplyRoom = true) : Quiet s (s.enqueue p m) :=
  Quiet.port (.message hr hm (Port.hasReplyRoom_iff.1 hroom))

theorem Calms.reply {s : State} {p : HostId} (hr : s.running) (hroom : (s.port p).hasReplyRoom = true) (q : Byte) (result : ResultCode)
    (data : ReplyData) : Calms s (s.reply p q result data) :=
  Calms.of_quiet (Quiet.enqueue hr rfl hroom)

theorem Calms.deliverOpt {s : State} (hr : s.running) (m : Option Notice) : Calms s (s.deliver? m) := by
  cases m with
  | none => exact .refl
  | some m => exact Calms.of_quiet (.notify m hr)

theorem Quiet.setCs {s : State} {p : HostId} {cs : ChipSelect} (h : s.running ∨ ∀ x, cs ≠ .live x) : Quiet s (s.setCs p cs) :=
  Quiet.port (.marks rfl (h.imp_right fun h => ⟨rfl, h⟩))

theorem Quiet.setIdle (s : State) (p : HostId) : Quiet s (s.setCs p .idle) := Quiet.setCs (.inr (by simp))

theorem Calms.freeIdx (s : State) (k : Nat) : Calms s { s with freeIdx := k } :=
  Calms.of_quiet (.aside s s.now k s.pending s.causes)

/-- The fall of CS (R172, R187). -/
theorem Calms.csFall (s : State) (p : HostId) : Calms s (s.csFall p) := by
  unfold State.csFall
  split
  · split
    · rename_i hr
      exact .trans (Calms.of_quiet (Quiet.setCs (.inl hr))) (Calms.freeIdx _ _)
    · exact Calms.of_quiet (Quiet.setCs (.inr (by simp)))
  · exact .refl
  · exact .refl
  · exact .refl

/-- The rise of CS on an exchange that does not complete (R174, R187). -/
theorem Calms.csRise_discarded {s : State} {p : HostId} {bytes : Nat} {take : State → State}
    (h : bytes < 12 ∨ s.inReset ≠ none ∨ ∀ x, (s.port p).cs ≠ .live x) : Calms s (s.csRise p bytes take) := by
  unfold State.csRise
  split
  · exact .refl
  · rename_i x hr hc
    have hshort : bytes < 12 := h.resolve_right fun h => h.elim (fun h => h hr) fun h => h x hc
    rw [if_pos hshort]
    exact Calms.of_quiet (Quiet.setIdle s p)
  · exact Calms.of_quiet (Quiet.setIdle s p)

/-- CS falls and step 1 of the exchange is done (R172, R173). -/
theorem Calms.judged {s : State} {p : HostId} (h : s.canExchange p) : Calms s (s.judged p) := by
  rw [State.judged_eq h]
  exact .trans (Calms.of_quiet (.port (q := s.judgedPort p) (.marks rfl (.inl h.1)))) (Calms.freeIdx _ _)

/-- A full exchange in which no command is judged: the hub is in reset, or a reset cut the period off (R187). -/
theorem Calms.fullExchange_discarded {s : State} {p : HostId} {take : State → State} (h : ¬ s.canExchange p) :
    Calms s (s.fullExchange p take) := by
  have hfall : Calms s (s.ensureExchange p) := by
    unfold State.ensureExchange
    split
    · exact Calms.csFall s p
    all_goals exact .refl
  refine hfall.trans (Calms.csRise_discarded (.inr ?_))
  by_cases hr : s.inReset = none
  · right
    intro x
    unfold State.ensureExchange
    rcases hc : (s.port p).cs with _ | y | _ | _
    · exact absurd ⟨hr, by simp [hc], by simp [hc]⟩ h
    · exact absurd ⟨hr, by simp [hc], by simp [hc]⟩ h
    · simp [hc]
    · simp [hc]
  · left
    unfold State.ensureExchange State.csFall
    (repeat' split) <;> simp_all

/-! #### Commands -/

/-- A full exchange is an event when its command, judged after calm updates in a running hub, is one. -/
theorem Event.fullExchange {s : State} {p : HostId} {take : State → State}
    (h : s.running → ∀ j, Calms s j → j.running → j = s.judged p → s.Leads (take j)) : Event s (s.fullExchange p take) := by
  by_cases hx : s.canExchange p
  · rw [State.fullExchange_eq hx]
    have hj : (s.judged p).running := State.running.of_eq hx.1 (State.judged_inReset hx)
    obtain ⟨hevent, hrun⟩ := h hx.1 _ (Calms.judged hx) hj rfl
    exact hevent.calm (.single (.finish p hrun))
  · exact .inl (Calms.fullExchange_discarded hx)

/-- A command with no place for its REPLY sets a mark alone (R178). -/
theorem State.Leads.withReplyRoom {s j : State} {p : HostId} {take : State → State} (hs : Calms s j) (hj : j.running)
    (h : (j.port p).hasReplyRoom = true → s.Leads (take j)) : s.Leads (j.withReplyRoom p take) := by
  by_cases hroom : (j.port p).hasReplyRoom = true
  · rw [State.withReplyRoom_room hroom]
    exact h hroom
  · rw [State.withReplyRoom_full (by simpa using hroom)]
    refine ⟨.inl (hs.trans (Calms.of_quiet (.port (.marks rfl (.inl hj))))), hj.of_eq rfl⟩

/-- The state in which the command of an attached host takes effect. -/
structure State.Hearing (v : State) (p : HostId) : Prop where
  running : v.running
  room : (v.port p).hasReplyRoom = true
  awake : (v.session p).state = .awake

/-- What a command's own rule leaves is a chain of updates, a calm one when it asks for no recomputation. -/
structure Effect.Within (v : State) (e : Effect) : Prop where
  stirs : ∀ s₀, Stirs s₀ v e.state
  calms : e.routed = false → Calms v e.state
  running : e.state.running

theorem Effect.Within.of_calms {v : State} {e : Effect} (h : Calms v e.state) (hr : v.running) (hi : e.state.inReset = v.inReset) :
    e.Within v := ⟨fun _ => Stirs.of_calms h, fun _ => h, hr.of_eq hi⟩

theorem Effect.Within.of_stirs {v u : State} (h : ∀ s₀, Stirs s₀ v u) (hr : v.running) (hi : u.inReset = v.inReset) :
    Effect.Within v ⟨u, true⟩ := ⟨h, fun h => (by cases h), hr.of_eq hi⟩

/-- A REPLY alone. -/
theorem Effect.Within.answer {v : State} {p : HostId} (hv : v.Hearing p) (q : Byte) (result : ResultCode) (data : ReplyData) :
    (v.answer p q result data).Within v :=
  .of_calms (Calms.reply hv.running hv.room q result data) hv.running rfl

theorem State.sleeps_false {s : State} {p : HostId} (h : s.sleeps p = false) : s.wakeUp p = s := by
  unfold State.sleeps at h
  unfold State.wakeUp
  split at h
  all_goals simp_all

/-- The return of an attached host to AWAKE (R127). -/
theorem Stirs.wakeUp {s₀ s : State} {p : HostId} (hr : s.running) (ha : s.attached p = true) : Stirs s₀ s (s.wakeUp p) := by
  unfold State.wakeUp
  split
  iterate 3 exact .single (.rouse (v := .awake) hr ha rfl (by simp) (.inl rfl))
  all_goals exact .refl

theorem State.wakeUp_hearing {s : State} {p : HostId} (hr : s.running) (hroom : (s.port p).hasReplyRoom = true)
    (ha : s.attached p = true) : (s.wakeUp p).Hearing p where
  running := hr.of_eq (by simp)
  room := by simpa using hroom
  awake := by
    have ha' : (s.session p).state.attached = true := ha
    unfold State.wakeUp
    cases hst : (s.session p).state <;> simp_all [State.session_updSession, HostState.attached]

/-- A command of a host is an event when its own rule is a chain of updates (R126, R127). -/
theorem State.Leads.command {s j : State} {p : HostId} {q : Byte} {act : State → Effect} (hs : Calms s j) (hj : j.running)
    (hact : ∀ v, v.Hearing p → (act v).Within v) : s.Leads (j.command p q act) := by
  refine State.Leads.withReplyRoom hs hj fun hroom => ?_
  by_cases ha : j.attached p = true
  · simp only [ha, if_true]
    obtain ⟨hstirs, hcalms, hrun⟩ := hact _ (State.wakeUp_hearing hj hroom ha)
    by_cases hrouted : j.sleeps p = true ∨ (act (j.wakeUp p)).routed = true
    · rw [if_pos (by simpa using hrouted)]
      exact ⟨.inr ⟨_, ((Stirs.of_calms hs).trans (Stirs.wakeUp hj ha)).trans (hstirs s), hrun, .refl⟩, hrun.of_eq (by simp)⟩
    · rw [if_neg (by simpa using hrouted)]
      rw [not_or] at hrouted
      have hsame : j.wakeUp p = j := State.sleeps_false (by simpa using hrouted.1)
      rw [hsame] at hcalms hrun hrouted ⊢
      exact ⟨.inl (hs.trans (hcalms (by simpa using hrouted.2))), hrun⟩
  · simp only [ha]
    exact ⟨.inl (hs.trans (Calms.reply hj hroom ..)), hj.of_eq rfl⟩

theorem Event.command {s : State} {p : HostId} {q : Byte} {act : State → Effect} (hact : ∀ v, v.Hearing p → (act v).Within v) :
    Event s (s.fullExchange p fun s => s.command p q act) :=
  Event.fullExchange fun _ _ hs hj _ => State.Leads.command hs hj hact

/-! #### Each command's own rule -/

/-- Calm updates closed by the REPLY. -/
theorem Effect.Within.reply {v u : State} {p : HostId} (hv : v.Hearing p) (h : Calms v u) (hi : u.inReset = v.inReset)
    (hroom : (u.port p).hasReplyRoom = true) (q : Byte) (result : ResultCode) (data : ReplyData) :
    (u.answer p q result data).Within v :=
  .of_calms (h.trans (Calms.reply (hv.running.of_eq hi) hroom q result data)) hv.running hi

theorem State.Hearing.attached {v : State} {p : HostId} (hv : v.Hearing p) : v.attached p = true := by
  simp [State.attached, hv.awake, HostState.attached]

/-- A parameter of SET_HOST within its values leaves the session of an AWAKE host in range (R139). -/
theorem setParameter_tuned {e e' : Session} {param : Byte} {value : BitVec 16} (h : setParameter e param value = some e')
    (ha : e.state = .awake) : e.Tuned e' ∧ e'.quota = e.quota := by
  have hlt : value.toNat < 65536 := value.isLt
  unfold setParameter at h
  dsimp only at h
  split at h <;> (try split at h) <;> cases h <;>
    refine ⟨⟨rfl, rfl, rfl, fun hin => ?_, .inl rfl, fun hd => by rw [ha] at hd; cases hd⟩, rfl⟩ <;>
    (obtain ⟨h1, h2, h3, h4, h5, h6, h7, h8, h9, h10, h11⟩ := hin
     refine ⟨h1, h2, ?_, ?_, ?_, ?_, ?_, ?_, h9, h10, h11⟩ <;> dsimp only <;> omega)

/-- The four quotas stay when a session's quota does. -/
theorem State.quotaOk_updSession {s : State} {p : HostId} {f : Session → Session} (hq : (f (s.session p)).quota = (s.session p).quota)
    (h : s.QuotaOk) : (s.updSession p f).QuotaOk := by
  unfold State.QuotaOk at h ⊢
  have hle : (s.session p).quota ≤ s.quotaSum := by cases p <;> simp only [State.quotaSum] <;> omega
  rw [State.quotaSum_updSession, hq]
  omega

/-- A floor and a withdrawal touch different tables. -/
theorem State.withdraw_updSession (s : State) (p h : HostId) (f : Session → Session) (reason : Reason) :
    (s.updSession p f).withdraw h reason = (s.withdraw h reason).updSession p f := by
  cases ho : (s.disp h).offer with
  | none => rw [State.withdraw_none ho, State.withdraw_none (by simpa using ho)]
  | some o => rw [State.withdraw_some ho, State.withdraw_some (by simpa using ho)]; rfl

theorem Stirs.withdrawEach {s₀ : State} {reason : Reason} (hne : reason ≠ .timeout) (hs : List HostId) {s : State} (hr : s.running) :
    Stirs s₀ s (s.withdrawEach hs reason) :=
  Stirs.foldl (fun _ h hr => .single (.withdraw h hr hne)) (fun s h => by simp) hs hr

theorem Stirs.withdrawAll {s₀ s : State} {n : SlotNo} {reason : Reason} (hne : reason ≠ .timeout) (hr : s.running) :
    Stirs s₀ s (s.withdrawAll n reason) := by
  rw [State.withdrawAll_eq]; exact Stirs.withdrawEach hne _ hr

/-- A WITHDRAW takes no place of a REPLY (R178). -/
theorem State.withdraw_room {s : State} {p h : HostId} {reason : Reason} (hroom : (s.port p).hasReplyRoom = true) :
    ((s.withdraw h reason).port p).hasReplyRoom = true :=
  Port.hasReplyRoom_iff.2 ((State.withdraw_nonWithdraw s h p reason).trans_lt (Port.hasReplyRoom_iff.1 hroom))

theorem State.withdrawAll_room {s : State} {p : HostId} {n : SlotNo} {reason : Reason} (hroom : (s.port p).hasReplyRoom = true) :
    ((s.withdrawAll n reason).port p).hasReplyRoom = true := by
  rw [State.withdrawAll_eq]
  exact Port.hasReplyRoom_iff.2 ((State.withdrawEach_nonWithdraw s _ p reason).trans_lt (Port.hasReplyRoom_iff.1 hroom))

theorem Port.deleteOffer_room {q : Port} (hd : Handle) (hroom : q.hasReplyRoom = true) : (q.deleteOffer hd).hasReplyRoom = true :=
  Port.hasReplyRoom_iff.2 ((Port.nonWithdraw_deleteOffer q hd).trans_lt (Port.hasReplyRoom_iff.1 hroom))

/-- A chain of updates closed by the REPLY. -/
theorem Stirs.reply {s₀ s t : State} {p : HostId} (h : Stirs s₀ s t) (hr : s.running) (hi : t.inReset = s.inReset)
    (hroom : (t.port p).hasReplyRoom = true) (q : Byte) (result : ResultCode) (data : ReplyData) :
    Stirs s₀ s (t.reply p q result data) :=
  h.trans (Stirs.of_calms (Calms.reply (hr.of_eq hi) hroom q result data))

theorem parseRoute_ok {count hosts : Byte} {route : List HostId} (h : parseRoute count hosts = some route) : RouteOk route := by
  simp only [parseRoute, Option.ite_none_right_eq_some, Option.some.injEq] at h
  obtain ⟨⟨h1, h4, hnodup⟩, rfl⟩ := h
  refine ⟨?_, hnodup⟩
  obtain ⟨k, hk⟩ : ∃ k, count.toNat = k + 1 := ⟨count.toNat - 1, by omega⟩
  simp [hk]

theorem parseLineEntry_inRange {flags sense qual band mode rc rh : Byte} {e : LineEntry} {apply : Bool}
    (h : parseLineEntry flags sense qual band mode rc rh = some (e, apply)) : e.InRange := by
  unfold parseLineEntry at h
  split at h
  · rename_i hq hb _ hr
    cases h
    refine ⟨(parseRange_eq.1 hb).2.2, parseRoute_ok hr, ?_⟩
    simp only [parseQualification, Option.ite_none_right_eq_some, Option.some.injEq] at hq
    obtain ⟨hmem, rfl⟩ := hq
    simpa using hmem
  · cases h

/-- The record of a slot survives the withdrawals, with its copies in service (R80). -/
theorem State.withdrawEach_record {s : State} {n : SlotNo} {r : Record} (hs : List HostId) {reason : Reason} (hne : reason ≠ .timeout)
    (hr : s.record n = some r) : ∃ r', (s.withdrawEach hs reason).record n = some r' ∧ r' = { r with copies := r'.copies } ∧
      r'.copies.filter Copy.inService = r.copies.filter Copy.inService := by
  induction hs generalizing s r with
  | nil => exact ⟨r, hr, rfl, rfl⟩
  | cons h hs ih =>
    have hstep : ∃ r', (s.withdraw h reason).record n = some r' ∧ r' = { r with copies := r'.copies } ∧
        r'.copies.filter Copy.inService = r.copies.filter Copy.inService := by
      cases ho : (s.disp h).offer with
      | none => rw [State.withdraw_none ho]; exact ⟨r, hr, rfl, rfl⟩
      | some o =>
        rw [State.withdraw_record ho, hr]
        split
        · refine ⟨_, rfl, by simp [Record.withdrawn, hne], ?_⟩
          simp only [Record.withdrawn, List.filter_map]
          rw [← List.map_id (r.copies.filter Copy.inService)]
          have hserved : ((Copy.inService ∘ fun c : Copy => if c.host = some h ∧ c.state = .offered o.handle then
              (⟨if r.mode = .any then none else c.host, .waiting⟩ : Copy) else c)) = Copy.inService := by
            funext c
            by_cases hc : c.host = some h ∧ c.state = .offered o.handle <;> simp [hc, Copy.inService]
          rw [hserved]
          refine List.map_congr_left fun c hc => if_neg ?_
          rintro ⟨-, hoff⟩
          simp [Copy.inService, hoff] at hc
        · exact ⟨r, rfl, rfl, rfl⟩
    obtain ⟨r1, hr1, heq1, hin1⟩ := hstep
    obtain ⟨r2, hr2, heq2, hin2⟩ := ih hr1
    exact ⟨r2, hr2, by rw [heq2, heq1], hin2.trans hin1⟩

end Sys2Proof.Machine
end

