-- ==== Sys2Proof/Proofs/CommandEvents.lean ====
section
/-! SUPPORT. The commands, as chains of updates. -/

namespace Sys2Proof.Machine

/-! #### The recomputation leaves the port of a DEEP host alone -/

theorem State.withdraw_port_ne {s : State} {h k : HostId} (reason : Reason) (hk : k ≠ h) : (s.withdraw h reason).port k = s.port k := by
  cases ho : (s.disp h).offer with
  | none => rw [State.withdraw_none ho]
  | some o => rw [State.withdraw_port ho, if_neg hk]

/-- Preemption leaves a host without an offer as it is. -/
theorem State.preemptAt_none {s : State} {p : HostId} (hp : (s.disp p).offer = none) (h : HostId) :
    ((s.preemptAt h).disp p).offer = none ∧ (s.preemptAt h).port p = s.port p := by
  unfold State.preemptAt
  split
  · rename_i o ho
    split
    · have hne : p ≠ h := by rintro rfl; rw [hp] at ho; cases ho
      exact ⟨by rw [State.withdraw_offer, if_neg hne, hp], State.withdraw_port_ne _ hne⟩
    · exact ⟨hp, rfl⟩
  · exact ⟨hp, rfl⟩

theorem State.preemptPass_none {s : State} {p : HostId} (hp : (s.disp p).offer = none) :
    (s.preemptPass.disp p).offer = none ∧ s.preemptPass.port p = s.port p := by
  unfold State.preemptPass
  generalize HostId.all = l
  induction l generalizing s with
  | nil => exact ⟨hp, rfl⟩
  | cons h l ih =>
    obtain ⟨hoffer, hport⟩ := State.preemptAt_none hp h
    obtain ⟨hoffer', hport'⟩ := ih hoffer
    exact ⟨hoffer', hport'.trans hport⟩

theorem State.preemptAll_none {s : State} {p : HostId} (hp : (s.disp p).offer = none) : s.preemptAll.port p = s.port p := by
  obtain ⟨h1, e1⟩ := State.preemptPass_none hp
  obtain ⟨h2, e2⟩ := State.preemptPass_none h1
  obtain ⟨h3, e3⟩ := State.preemptPass_none h2
  exact ((State.preemptPass_none h3).2.trans e3).trans (e2.trans e1)

theorem State.fillDue_port_ne {s : State} {p : HostId} {o : HostId × SlotNo} (hne : p ≠ o.1) : (s.fillDue o).port p = s.port p := by
  unfold State.fillDue
  split
  · cases hr : s.record o.2 with
    | none => simp [State.makeOffer, hr]
    | some r => rw [State.makeOffer_port hr, if_neg hne]
  · rfl

/-- A host that is not listening is offered nothing (R44). -/
theorem State.fillAll_port {s : State} {p : HostId} (hp : (s.session p).state.listening = false) : s.fillAll.port p = s.port p := by
  have hne : ∀ o ∈ s.offersDue, p ≠ o.1 := by
    rintro o ho rfl
    obtain ⟨-, w, hw, -⟩ := State.offersDue_spec ho
    obtain ⟨-, helig, -⟩ := State.candidate_some (State.mem_candidatesOf.1 (State.choose_mem hw)).2
    simp [State.eligible, hp] at helig
  unfold State.fillAll
  generalize s.offersDue = l at hne
  clear hp
  induction l generalizing s with
  | nil => rfl
  | cons o l ih =>
    rw [List.foldl_cons, ih fun o' ho' => hne o' (List.mem_cons_of_mem _ ho'), State.fillDue_port_ne (hne o (List.mem_cons_self ..))]

/-- The recomputation puts nothing into the queue of a DEEP host that holds no offer (R50, R129). -/
theorem State.recompute_port {s : State} {p : HostId} (ho : (s.disp p).offer = none) (hp : (s.session p).state.listening = false) :
    s.recompute.port p = s.port p := by
  unfold State.recompute
  simp only [State.takeWakes_frame]
  rw [State.fillAll_port (by simpa using hp), State.preemptAll_none ho]

/-! #### Commands that answer and change no input of the Router -/

theorem event_unknownCommand (s : State) (p : HostId) (q : Byte) :
    Event s (s.fullExchange p fun s => s.command p q fun s => s.answer p q .badArg .empty) :=
  Event.command fun _ hv => .answer hv ..

theorem event_lease {s t : State} {p : HostId} {q group : Byte} (h : exec (.lease p q group) s = .next t) : Event s t := by
  cases h
  refine Event.command fun v hv => ?_
  split
  · exact .answer hv ..
  · split
    · exact .reply hv (Calms.of_quiet (.holder fun k hk => by cases hk; exact hv.attached)) rfl hv.room ..
    · exact .answer hv ..

theorem event_release {s t : State} {p : HostId} {q group : Byte} (h : exec (.release p q group) s = .next t) : Event s t := by
  cases h
  refine Event.command fun v hv => ?_
  split
  · exact .answer hv ..
  · split
    · exact .reply hv (Calms.of_quiet (.holder fun k hk => by cases hk)) rfl hv.room ..
    · exact .answer hv ..

theorem event_setHost {s t : State} {p : HostId} {q param : Byte} {value : BitVec 16}
    (h : exec (.setHost p q param value) s = .next t) : Event s t := by
  cases h
  refine Event.command fun v hv => ?_
  split
  · exact .answer hv ..
  · rename_i e he
    obtain ⟨htuned, hquota⟩ := setParameter_tuned he hv.awake
    exact .reply hv (Calms.of_quiet (.session hv.running htuned (State.quotaOk_updSession hquota))) rfl hv.room ..

/-- A quota within its values leaves a session in range (R111). -/
theorem Session.tuned_quota {e : Session} {k : Nat} (hk : k ≤ 48) : e.Tuned { e with quota := k } :=
  ⟨rfl, rfl, rfl, fun ⟨h1, h2, h3, h4, h5, h6, h7, h8, h9, h10, _⟩ => ⟨h1, h2, h3, h4, h5, h6, h7, h8, h9, h10, hk⟩, .inl rfl,
    fun _ => ⟨rfl, rfl⟩⟩

theorem event_setQuota {s t : State} {p : HostId} {q quota : Byte} (h : exec (.setQuota p q quota) s = .next t) : Event s t := by
  cases h
  refine Event.command fun v hv => ?_
  split
  · exact .answer hv ..
  · rename_i k hk
    dsimp only
    split
    · exact .answer hv ..
    · rename_i hsum
      exact .reply hv (Calms.of_quiet (.session hv.running (Session.tuned_quota (parseRange_eq.1 hk).2.2) fun _ => Nat.not_lt.1 hsum)) rfl
        hv.room ..

theorem fetchFrom_none {h : HostId} {l : List LossEntry} (hl : (l.find? fun e => e.unread.get h) = none) : fetchFrom h l = l := by
  induction l with
  | nil => rfl
  | cons e l ih =>
    rw [List.find?_cons] at hl
    split at hl
    · cases hl
    · rename_i he
      simp [fetchFrom, he, ih hl]

theorem event_fetchLoss {s t : State} {p : HostId} {q : Byte} (h : exec (.fetchLoss p q) s = .next t) : Event s t := by
  cases h
  refine Event.command fun v hv => ?_
  have hfetch : Calms v { v with missed := v.missed.set p 0, loss := fetchFrom p v.loss } := Calms.of_quiet (.fetch v p)
  unfold State.fetchLoss
  dsimp only
  split
  · rename_i hnone
    rw [fetchFrom_none hnone] at hfetch
    exact .reply hv hfetch rfl hv.room ..
  · exact .reply hv hfetch rfl hv.room ..

theorem event_ackNotice {s t : State} {p : HostId} {q causes : Byte} (h : exec (.ackNotice p q causes) s = .next t) : Event s t := by
  cases h
  refine Event.command fun v hv => ?_
  split
  · exact .answer hv ..
  · rename_i c _
    exact .reply hv (Calms.of_quiet (.aside v v.now v.freeIdx v.pending (v.causes.set p ((v.causes.get p).diff c)))) rfl hv.room ..

theorem event_queryEvent {s t : State} {p : HostId} {q slot view : Byte} (h : exec (.queryEvent p q slot view) s = .next t) :
    Event s t := by
  cases h
  refine Event.command fun v hv => ?_
  split <;> exact .answer hv ..

theorem event_queryLine {s t : State} {p : HostId} {q line : Byte} (h : exec (.queryLine p q line) s = .next t) : Event s t := by
  cases h
  refine Event.command fun v hv => ?_
  split <;> exact .answer hv ..

theorem event_queryHost {s t : State} {p : HostId} {q host view : Byte} (h : exec (.queryHost p q host view) s = .next t) :
    Event s t := by
  cases h
  refine Event.fullExchange fun _ j hs hj _ => State.Leads.withReplyRoom hs hj fun hroom => ?_
  have hanswer {v : State} (hv : v.running) (hroom : (v.port p).hasReplyRoom = true) :
      Calms v (v.answerHost p q host view) ∧ (v.answerHost p q host view).inReset = v.inReset := by
    unfold State.answerHost
    split <;> exact ⟨Calms.reply hv hroom .., rfl⟩
  dsimp only
  by_cases hsl : j.sleeps p = true
  · have ha : j.attached p = true := by
      unfold State.sleeps at hsl
      unfold State.attached
      split at hsl <;> simp_all [HostState.attached]
    have hv := State.wakeUp_hearing hj hroom ha
    obtain ⟨hcalms, hi⟩ := hanswer hv.running hv.room
    rw [if_pos hsl]
    have hu := hv.running.of_eq hi
    exact ⟨.inr ⟨_, ((Stirs.of_calms hs).trans (Stirs.wakeUp hj ha)).trans (Stirs.of_calms hcalms), hu, .refl⟩, hu.of_eq (by simp)⟩
  · rw [if_neg hsl, State.sleeps_false (by simpa using hsl)]
    obtain ⟨hcalms, hi⟩ := hanswer hj hroom
    exact ⟨.inl (hs.trans hcalms), hj.of_eq hi⟩

/-! #### Commands that change the inputs of the Router -/

/-- A routed rule that ends in its REPLY. -/
theorem Effect.Within.stirs_reply {v u : State} {p : HostId} (hv : v.Hearing p) (h : ∀ s₀, Stirs s₀ v u) (hi : u.inReset = v.inReset)
    (hroom : (u.port p).hasReplyRoom = true) (q : Byte) (result : ResultCode) (data : ReplyData) :
    Effect.Within v ⟨u.reply p q result data, true⟩ :=
  .of_stirs (fun s₀ => (h s₀).reply hv.running hi hroom q result data) hv.running hi

/-- A routed rule that ends in its REPLY and the notice that may follow it (R120). -/
theorem Effect.Within.stirs_reply_deliver {v u : State} {p : HostId} (hv : v.Hearing p) (h : ∀ s₀, Stirs s₀ v u) (hi : u.inReset = v.inReset)
    (hroom : (u.port p).hasReplyRoom = true) (q : Byte) (result : ResultCode) (data : ReplyData) (m : Option Notice) :
    Effect.Within v ⟨(u.reply p q result data).deliver? m, true⟩ := by
  have hreply := Effect.Within.stirs_reply hv h hi hroom q result data
  exact .of_stirs (fun s₀ => (hreply.stirs s₀).trans (Stirs.of_calms (Calms.deliverOpt hreply.running m))) hv.running
    (by simpa using hi)

theorem event_setFloor {s t : State} {p : HostId} {q floor : Byte} (h : exec (.setFloor p q floor) s = .next t) : Event s t := by
  cases h
  refine Event.command fun v hv => ?_
  split
  · exact .answer hv ..
  · rename_i f hf
    have hle : f ≤ 7 := (parseRange_eq.1 hf).2.2
    dsimp only
    split
    · rename_i o ho
      have ho' : (v.disp p).offer = some o := by simpa using ho
      split
      · rw [State.withdraw_updSession]
        refine .stirs_reply hv (fun s₀ => ?_) (by simp) (by simpa using State.withdraw_room hv.room) ..
        refine .tail (.single (.withdraw p hv.running (by simp))) (.floor (hv.running.of_eq (by simp)) hle fun o' ho'' => ?_)
        rw [State.withdraw_offer, if_pos rfl] at ho''
        cases ho''
      · rename_i hgt
        refine .stirs_reply hv (fun s₀ => .single (.floor hv.running hle fun o' ho'' => ?_)) rfl hv.room ..
        rw [ho'] at ho''
        cases ho''
        exact Nat.not_le.1 hgt
    · rename_i hnone
      have hnone' : (v.disp p).offer = none := by simpa using hnone
      refine .stirs_reply hv (fun s₀ => .single (.floor hv.running hle fun o' ho'' => ?_)) rfl hv.room ..
      rw [hnone'] at ho''
      cases ho''

theorem State.matchOffer_offer {s : State} {p : HostId} {slot serial : Byte} {o : Offer} (h : s.matchOffer p slot serial = some o) :
    (s.disp p).offer = some o := (Option.filter_eq_some_iff.1 h).1

/-- A handle that names an offer and its record (R7, R69). -/
theorem State.matchRecord_some {s : State} {p : HostId} {slot serial : Byte} {o : Offer} {r : Record}
    (h : ((s.matchOffer p slot serial).bind fun o => (s.record o.handle.slot).map fun r => (o, r)) = some (o, r)) :
    (s.disp p).offer = some o ∧ s.record o.handle.slot = some r := by
  rw [Option.bind_eq_some_iff] at h
  obtain ⟨o', ho', h⟩ := h
  rw [Option.map_eq_some_iff] at h
  obtain ⟨r', hr', h⟩ := h
  cases h
  exact ⟨State.matchOffer_offer ho', hr'⟩

theorem event_claim {s t : State} {p : HostId} {q slot serial : Byte} (h : exec (.claim p q slot serial) s = .next t) : Event s t := by
  cases h
  refine Event.command fun v hv => ?_
  split
  · rename_i o r hor
    obtain ⟨ho, hr⟩ := State.matchRecord_some hor
    refine .stirs_reply hv (fun s₀ => .single (.serve hv.running ho hr)) rfl ?_ ..
    rw [State.serve_port, if_pos rfl]
    exact Port.deleteOffer_room _ hv.room
  · exact .answer hv ..

theorem State.handBackOffer_inReset (s : State) (p : HostId) (o : Offer) (r : Record) :
    (s.handBackOffer p o r).1.inReset = s.inReset := by
  unfold State.handBackOffer
  cases r.mode <;> simp

theorem State.handBackOffer_port (s : State) (p k : HostId) (o : Offer) (r : Record) :
    (s.handBackOffer p o r).1.port k = (s.takeOffer p o).port k := by
  unfold State.handBackOffer
  cases r.mode <;> simp

theorem event_decline {s t : State} {p : HostId} {q slot serial : Byte} (h : exec (.decline p q slot serial) s = .next t) :
    Event s t := by
  cases h
  refine Event.command fun v hv => ?_
  split
  · rename_i o r hor
    obtain ⟨ho, hr⟩ := State.matchRecord_some hor
    refine .stirs_reply_deliver hv (fun s₀ => .single (.handBack hv.running ho hr)) (State.handBackOffer_inReset ..) ?_ ..
    rw [State.handBackOffer_port, State.takeOffer_port, if_pos rfl]
    exact Port.deleteOffer_room _ hv.room
  · exact .answer hv ..

theorem event_done {s t : State} {p : HostId} {q slot serial : Byte} (h : exec (.done p q slot serial) s = .next t) : Event s t := by
  cases h
  refine Event.command fun v hv => ?_
  split
  · split
    · rename_i e he
      split
      · exact .stirs_reply_deliver hv (fun s₀ => .single (.pop hv.running he)) (by simp [State.popTop])
          (by simpa [State.popTop] using hv.room) ..
      · exact .answer hv ..
    · exact .answer hv ..
  · exact .answer hv ..

theorem parsePost_spec {band mode notify rc rh : Byte} {a : PostArgs} (h : parsePost band mode notify rc rh = some a) :
    (1 ≤ a.band ∧ a.band ≤ 7) ∧ RouteOk a.route := by
  unfold parsePost at h
  split at h
  · rename_i hb _ _ hr
    cases h
    exact ⟨(parseRange_eq.1 hb).2, parseRoute_ok hr⟩
  · cases h

theorem State.lowestFreePosted_spec {s : State} {n : SlotNo} (h : s.lowestFreePosted = some n) : 48 ≤ n.val ∧ s.record n = none := by
  have := List.find?_some h
  simpa [isPostedSlot] using this

theorem event_post {s t : State} {p : HostId} {q band mode notify rc rh : Byte} {payload : BitVec 32}
    (h : exec (.post p q band mode notify rc rh payload) s = .next t) : Event s t := by
  cases h
  refine Event.command fun v hv => ?_
  split
  · exact .answer hv ..
  · rename_i a ha
    obtain ⟨hband, hroute⟩ := parsePost_spec ha
    dsimp only
    split
    · split
      · exact .answer hv ..
      · rename_i n hn
        obtain ⟨hposted, hfree⟩ := State.lowestFreePosted_spec hn
        exact .stirs_reply hv (fun s₀ => .single (.post hv.running hfree hposted hband hroute)) rfl hv.room ..
    · exact .answer hv ..

/-- A slot whose offers are withdrawn, with its record as the withdrawals leave it. -/
theorem State.withdrawAll_record {s : State} {n : SlotNo} {r : Record} {reason : Reason} (hne : reason ≠ .timeout)
    (hr : s.record n = some r) : ∃ r', (s.withdrawAll n reason).record n = some r' ∧ r' = { r with copies := r'.copies } ∧
      r'.copies.filter Copy.inService = r.copies.filter Copy.inService :=
  State.withdrawEach_record _ hne hr

theorem State.withdrawAll_noOfferOf (s : State) (n : SlotNo) (reason : Reason) : (s.withdrawAll n reason).NoOfferOf n :=
  fun _ _ ho => State.withdrawAll_offer ho

theorem event_retract {s t : State} {p : HostId} {q slot : Byte} (h : exec (.retract p q slot) s = .next t) : Event s t := by
  cases h
  refine Event.command fun v hv => ?_
  split
  · exact .answer hv ..
  · rename_i n _
    split
    · exact .answer hv ..
    · rename_i r hr
      obtain ⟨r', hr', heq, hserved⟩ := State.withdrawAll_record (reason := .retracted) (by simp) hr
      have hwithdraw (s₀ : State) : Stirs s₀ v (v.withdrawAll n .retracted) := Stirs.withdrawAll (by simp) hv.running
      have hrun : (v.withdrawAll n .retracted).running := hv.running.of_eq (by simp)
      split
      · split
        · unfold State.retractAny
          split
          · rename_i hp
            refine .stirs_reply hv (fun s₀ => .tail (hwithdraw s₀) (.free hrun hr' (.inl (by rw [heq]; exact hp))
              (State.withdrawAll_noOfferOf v n .retracted))) (by simp) (by simpa using State.withdrawAll_room hv.room) ..
          · exact .answer hv ..
        · rename_i hmode
          unfold State.retractEach
          dsimp only
          split
          · rename_i hempty
            refine .stirs_reply hv (fun s₀ => .tail (hwithdraw s₀) (.free hrun hr' (.inr fun c hc => ?_)
              (State.withdrawAll_noOfferOf v n .retracted))) (by simp) (by simpa using State.withdrawAll_room hv.room) ..
            rw [List.isEmpty_iff, ← hserved, List.filter_eq_nil_iff] at hempty
            simpa using hempty c hc
          · rename_i hleft
            have hsame : ({ r with copies := r.copies.filter Copy.inService } : Record) =
                { r' with copies := r'.copies.filter Copy.inService } := by rw [hserved, heq]
            rw [hsame]
            refine .stirs_reply hv (fun s₀ => .tail (hwithdraw s₀) (.keepServed hrun hr' (by rw [heq]; exact hmode) ?_
              (State.withdrawAll_noOfferOf v n .retracted))) (by simp) (by simpa using State.withdrawAll_room hv.room) ..
            rw [hserved]
            simpa [List.isEmpty_iff] using hleft
      · exact .answer hv ..

end Sys2Proof.Machine
end

