-- ==== Sys2Proof/Proofs/LineEvents.lean ====
section
/-! SUPPORT. The lines and the sessions, as chains of updates. -/

namespace Sys2Proof.Machine

theorem State.running.reply {s : State} (hr : s.running) (p : HostId) (q : Byte) (result : ResultCode) (data : ReplyData) :
    (s.reply p q result data).running := hr

/-! #### Lines -/

theorem State.setLine_setLine (s : State) (l : LineNo) (v w : LineState) : (s.setLine l v).setLine l w = s.setLine l w := by
  simp [State.setLine]

/-- The arming of a detector (R148, R149). -/
theorem Stirs.arm {s₀ s : State} (l : LineNo) (hr : s.running) : Stirs s₀ s (s.arm l) := by
  have hline : Stir s₀ s (s.setLine l ⟨(s.line l).raw, .steady (s.line l).raw⟩) := .quiet (.line hr fun _ => rfl)
  unfold State.arm
  dsimp only
  split
  · exact .tail (.single hline) (.arrive l (hr.of_eq rfl))
  · exact .single hline

theorem State.inReset_arm (s : State) (l : LineNo) : (s.arm l).inReset = s.inReset := by
  unfold State.arm
  dsimp only
  split <;> simp

theorem State.port_arm (s : State) (l : LineNo) (k : HostId) : (s.arm l).port k = s.port k := by
  unfold State.arm
  dsimp only
  split <;> simp

theorem State.phase_opened {s : State} {n : SlotNo} (h : s.phase n = .opened) : ∃ r, s.record n = some r ∧ r.phase = .opened := by
  unfold State.phase at h
  split at h
  · cases h
  · rename_i r hr
    split at h
    · rename_i hp; exact ⟨r, hr, hp⟩
    · cases h

/-- The rebuild of an OPEN record (R151). -/
theorem Stirs.rebuild {s₀ s : State} {l : LineNo} (hr : s.running) (hp : s.phase (slotOfLine l) = .opened) :
    Stirs s₀ s (s.rebuild l) := by
  obtain ⟨r, hrec, hopen⟩ := State.phase_opened hp
  obtain ⟨r', hr', heq, -⟩ := State.withdrawAll_record (reason := .reconfigured) (by simp) hrec
  have hrun : (s.withdrawAll (slotOfLine l) .reconfigured).running := hr.of_eq (by simp)
  have hstir : Stir s₀ (s.withdrawAll (slotOfLine l) .reconfigured) _ :=
    .rebuild hrun hr' (by rw [heq]; exact hopen) (State.withdrawAll_noOfferOf s (slotOfLine l) .reconfigured)
  have hentry : (s.withdrawAll (slotOfLine l) .reconfigured).entry l = s.entry l := by simp
  have hrebuild : s.rebuild l = (s.withdrawAll (slotOfLine l) .reconfigured).setRecord (slotOfLine l) (some (r'.rebuilt (s.entry l))) := by
    unfold State.rebuild State.updRecord
    dsimp only
    rw [hr']
    rfl
  rw [hentry] at hstir
  rw [hrebuild]
  exact .tail (Stirs.withdrawAll (by simp) hr) hstir

theorem State.rebuild_inReset (s : State) (l : LineNo) : (s.rebuild l).inReset = s.inReset := by simp [State.rebuild]

theorem State.rebuild_room {s : State} {l : LineNo} {p : HostId} (hroom : (s.port p).hasReplyRoom = true) :
    ((s.rebuild l).port p).hasReplyRoom = true := by
  simpa [State.rebuild] using State.withdrawAll_room hroom

/-- A CONFIG_LINE that passes its checks (R148 to R154). -/
theorem within_configure {v : State} {p : HostId} (hv : v.Hearing p) (q : Byte) (l : LineNo) {new : LineEntry} (hnew : new.InRange)
    (apply : Bool) : Effect.Within v ⟨v.configure p q l new apply, true⟩ := by
  unfold State.configure
  dsimp only
  have hentry (s₀ : State) : Stirs s₀ v (v.setEntry l new) := .single (.quiet (.entry hnew))
  have harmed : ∃ u, (if armsDetector (v.entry l) new = true then (v.setEntry l new).arm l else v.setEntry l new) = u ∧
      (∀ s₀, Stirs s₀ v u) ∧ u.inReset = v.inReset ∧ (u.port p).hasReplyRoom = true := by
    refine ⟨_, rfl, ?_⟩
    split
    · exact ⟨fun s₀ => (hentry s₀).trans (Stirs.arm l hv.running), State.inReset_arm .., by rw [State.port_arm]; exact hv.room⟩
    · exact ⟨hentry, rfl, hv.room⟩
  obtain ⟨u, hu, hstirs, hi, hroom⟩ := harmed
  simp only [hu]
  split
  · rename_i hopen
    rw [Bool.and_eq_true, decide_eq_true_eq] at hopen
    exact .stirs_reply hv (fun s₀ => (hstirs s₀).trans (Stirs.rebuild (hv.running.of_eq hi) hopen.2))
      ((State.rebuild_inReset u l).trans hi) (State.rebuild_room hroom) ..
  · exact .stirs_reply hv hstirs hi hroom ..

theorem event_configLine {s t : State} {p : HostId} {q line flags sense qual band mode rc rh : Byte}
    (h : exec (.configLine p q line flags sense qual band mode rc rh) s = .next t) : Event s t := by
  cases h
  refine Event.command fun v hv => ?_
  split
  · exact .answer hv ..
  · split
    · split
      · exact .answer hv ..
      · rename_i he
        exact within_configure hv q _ (parseLineEntry_inRange he) _
    · exact .answer hv ..

/-- The acceptance of a level that the detector's new state agrees with (R31, R32). -/
theorem Event.accept {s u : State} {l : LineNo} {level : Level} (hs : Calms s (u.setLine l ⟨(u.line l).raw, .steady level⟩))
    (hr : u.running) : Event s (u.accept l level) := by
  unfold State.accept
  dsimp only
  split
  · exact .inr ⟨_, .tail (Stirs.of_calms hs) (.arrive l (hr.of_eq rfl)), hr.of_eq (by simp), .refl⟩
  · exact .inl hs

theorem Level.eq_of_ne_ne {a b c : Level} (h : a ≠ b) (h' : a ≠ c) : b = c := by
  cases a <;> cases b <;> cases c <;> simp_all

theorem event_rawChange {s t : State} {l : LineNo} {level : Level} (h : exec (.rawChange l level) s = .next t) : Event s t := by
  simp only [exec, execRawChange] at h
  split at h <;> cases h
  · rename_i hr
    split
    · exact Event.refl s
    · rename_i hraw
      have hline {d : Detector} (hd : (s.line l).Agrees → LineState.Agrees ⟨level, d⟩) : Calms s (s.setLine l ⟨level, d⟩) :=
        Calms.of_quiet (.line hr hd)
      unfold State.rawChange
      dsimp only
      split
      · rename_i hd
        rw [hd]
        exact .inl (hline fun _ => trivial)
      · rename_i a hd
        split
        · rename_i hla
          rw [hd]
          exact .inl (hline fun _ => hla.symm)
        · rename_i hla
          split
          · refine Event.accept ?_ hr
            rw [State.setLine_setLine, State.line_setLine, if_pos rfl]
            exact hline fun _ => rfl
          · rw [State.setLine_setLine]
            exact .inl (hline fun _ => ⟨rfl, fun e => hla e.symm⟩)
      · rename_i a p e hd
        split
        · rename_i hla
          rw [State.setLine_setLine]
          exact .inl (hline fun _ => hla.symm)
        · rename_i hla
          rw [hd]
          refine .inl (hline fun hagree => ?_)
          simp only [LineState.Agrees, hd] at hagree
          exact absurd (Level.eq_of_ne_ne (fun e => hraw e.symm) hla) (fun e => hagree.2 e.symm)
  · exact Event.refl s

theorem Calms.now (s : State) (k : Nat) : Calms s { s with now := k } :=
  Calms.of_quiet (.aside s k s.freeIdx s.pending s.causes)

theorem event_qualificationTimerExpiry {s t : State} {l : LineNo} (h : exec (.qualificationTimerExpiry l) s = .next t) :
    Event s t := by
  simp only [exec, execQualificationTimerExpiry] at h
  split at h <;> cases h
  · rename_i a p expiry hr hd
    refine Event.accept (u := { s with now := max s.now expiry }) ((Calms.now s _).trans (Calms.of_quiet (.line hr fun hagree => ?_))) hr
    have hd' : (({ s with now := max s.now expiry } : State).line l).detector = .qualifying a p expiry := hd
    simp only [LineState.Agrees, hd'] at hagree
    exact hagree.1
  · exact Event.refl s

/-! #### Sessions -/

theorem event_attach {s t : State} {p : HostId} {q depth : Byte} (h : exec (.attach p q depth) s = .next t) : Event s t := by
  cases h
  refine Event.fullExchange fun _ j hs hj _ => State.Leads.withReplyRoom hs hj fun hroom => ?_
  have hreply (result : ResultCode) (data : ReplyData) : s.Leads (j.reply p q result data) :=
    ⟨.inl (hs.trans (Calms.reply hj hroom ..)), hj.of_eq rfl⟩
  split
  · exact hreply ..
  · rename_i ha
    split
    · exact hreply ..
    · rename_i d hd
      have hd4 : d ≤ 4 := (parseRange_eq.1 hd).2.2
      have hdepth : 1 ≤ (if d = 0 then 2 else d) ∧ (if d = 0 then 2 else d) ≤ 4 := by split <;> omega
      unfold State.openSession
      dsimp only
      generalize (if d = 0 then 2 else d) = k at hdepth
      generalize ReplyData.attachOk j.epoch (j.causes.get p) k (j.session p).wasLost (j.session p).quota = data
      have hstir : Stir s j ((j.updSession p fun e => e.opened k).enqueue p (.reply q .ok data)).roundEnds :=
        .attach hj (by simpa using ha) hdepth rfl (Port.hasReplyRoom_iff.1 hroom)
      have hrun : ((j.updSession p fun e => e.opened k).enqueue p (.reply q .ok data)).roundEnds.running := hj.of_eq (by simp)
      exact ⟨.inr ⟨_, (Stirs.of_calms hs).tail hstir, hrun, .refl⟩, hrun.of_eq (by simp)⟩

/-- A torn-down host has an empty queue (R137). -/
theorem State.teardown_room (s : State) (h : HostId) (final : HostState) : ((s.teardown h final).state.port h).hasReplyRoom = true := by
  rw [State.teardown_port, if_pos rfl]; rfl

theorem State.updSession_self {s : State} {h : HostId} {f : Session → Session} (hf : f (s.session h) = s.session h) :
    s.updSession h f = s := by
  have hsame : s.sessions.set h (f (s.session h)) = s.sessions := by rw [hf]; exact PerHost.set_get ..
  exact congrArg (fun v => { s with sessions := v }) hsame

/-- The teardown of a host whose miss count stands. -/
theorem Stir.teardown_same {s₀ s : State} {h : HostId} {final : HostState} (hr : s.running) (hf : final = .absent ∨ final = .lost) :
    Stir s₀ s (s.teardown h final).state := by
  have hsame : (s.updSession h fun e => { e with missCount := (s.session h).missCount }) = s :=
    State.updSession_self rfl
  have := Stir.teardown (s₀ := s₀) (h := h) (k := (s.session h).missCount) hr hf fun hok _ => (hok h).inRange.2.2.2.2.2.2.2.2.1
  rwa [hsame] at this

theorem event_detach {s t : State} {p : HostId} {q : Byte} (h : exec (.detach p q) s = .next t) : Event s t := by
  cases h
  refine Event.fullExchange fun _ j hs hj _ => State.Leads.withReplyRoom hs hj fun hroom => ?_
  split
  · rename_i ha
    have hw := State.wakeUp_hearing hj hroom ha
    have hdown : Stirs s s ((j.wakeUp p).teardown p .absent).state :=
      .tail ((Stirs.of_calms hs).trans (Stirs.wakeUp hj ha)) (Stir.teardown_same hw.running (.inl rfl))
    have hrun : ((j.wakeUp p).teardown p .absent).state.running := hw.running.of_eq (by simp)
    unfold State.closeSession
    exact ⟨.inr ⟨_, hdown.trans (Stirs.of_calms (Calms.reply hrun (State.teardown_room ..) ..)), hrun.of_eq rfl, .refl⟩,
      hrun.of_eq (by simp)⟩
  · exact ⟨.inl (hs.trans (Calms.reply hj hroom ..)), hj.of_eq rfl⟩

theorem leads_sleepDoze {s j : State} {p : HostId} (hs : Calms s j) (hj : j.running) (hroom : (j.port p).hasReplyRoom = true)
    (ha : j.attached p = true) (q : Byte) : s.Leads (j.sleepDoze p q) := by
  unfold State.sleepDoze
  split
  · exact ⟨.inl (hs.trans (Calms.reply hj hroom ..)), hj.of_eq rfl⟩
  · have hrouse : Stir s j (j.updSession p fun e => { e with state := .doze, wakeTimer := none }) :=
      .rouse hj ha rfl (by simp) (.inl rfl)
    have hrun : (j.updSession p fun e => { e with state := .doze, wakeTimer := none }).running := hj.of_eq rfl
    exact ⟨.inr ⟨_, ((Stirs.of_calms hs).tail hrouse).trans (Stirs.of_calms (Calms.reply hrun (by simpa using hroom) ..)), hrun.of_eq rfl, .refl⟩,
      hrun.of_eq (by simp)⟩

theorem leads_sleepDeep {s j : State} {p : HostId} (hs : Calms s j) (hj : j.running) (hroom : (j.port p).hasReplyRoom = true)
    (ha : j.attached p = true) (q : Byte) : s.Leads (j.sleepDeep p q) := by
  unfold State.sleepDeep
  split
  · exact ⟨.inl (hs.trans (Calms.reply hj hroom ..)), hj.of_eq rfl⟩
  · have hwithdraw : Stir s j (j.withdraw p .sleep) := .withdraw p hj (by simp)
    have hnone : ((j.withdraw p .sleep).disp p).offer = none := by rw [State.withdraw_offer, if_pos rfl]
    have hrun : (j.withdraw p .sleep).running := hj.of_eq (by simp)
    have hrouse : Stir s (j.withdraw p .sleep)
        ((j.withdraw p .sleep).updSession p fun e => { e with state := .deep, wakeTimer := none }) :=
      .rouse hrun (by simpa using ha) rfl (by simp) (.inr hnone)
    generalize hu : ((j.withdraw p .sleep).updSession p fun e => { e with state := .deep, wakeTimer := none }) = u at hrouse
    have hport : (u.recompute.port p).hasReplyRoom = true := by
      rw [State.recompute_port (by rw [← hu]; simpa using hnone) (by rw [← hu, State.session_updSession]; simp [HostState.listening]), ← hu]
      exact State.withdraw_room hroom
    have hurun : u.running := by rw [← hu]; exact hrun.of_eq rfl
    dsimp only
    have hrrun : u.recompute.running := hurun.of_eq (by simp)
    exact ⟨.inr ⟨u, ((Stirs.of_calms hs).tail hwithdraw).tail hrouse, hurun, Calms.reply hrrun hport ..⟩, hrrun.reply ..⟩

theorem event_sleep {s t : State} {p : HostId} {q depth : Byte} (h : exec (.sleep p q depth) s = .next t) : Event s t := by
  cases h
  refine Event.fullExchange fun _ j hs hj _ => State.Leads.withReplyRoom hs hj fun hroom => ?_
  split
  · rename_i ha
    split
    · exact leads_sleepDoze hs hj hroom ha q
    · exact leads_sleepDeep hs hj hroom ha q
    · exact ⟨.inl (hs.trans (Calms.reply hj hroom ..)), hj.of_eq rfl⟩
  · exact ⟨.inl (hs.trans (Calms.reply hj hroom ..)), hj.of_eq rfl⟩

end Sys2Proof.Machine
end

