-- ==== Sys2Proof/Proofs/StepEvents.lean ====
section
/-! SUPPORT. The timers, the resets and the step itself, with the rule by which an invariant is kept. -/

namespace Sys2Proof.Machine

/-! #### Timers -/

/-- The loss of a host in a running hub, its miss count raised before (R133, R137). -/
theorem State.Leads.lose {s u : State} {h : HostId} {k : Nat} (cause : EvictCause) (hs : Stirs s s u) (hr : u.running)
    (hk : u.HostsOk → s.HostsOk → k ≤ 15) : s.Leads ((u.updSession h fun e => { e with missCount := k }).lose h cause) := by
  have hdown : Stir s u ((u.updSession h fun e => { e with missCount := k }).teardown h .lost).state := .teardown hr (.inr rfl) hk
  have hrun : ((u.updSession h fun e => { e with missCount := k }).teardown h .lost).state.running := hr.of_eq (by simp)
  have hroom := State.teardown_room (u.updSession h fun e => { e with missCount := k }) h .lost
  unfold State.lose
  dsimp only
  generalize (u.updSession h fun e => { e with missCount := k }).teardown h .lost = d at hdown hrun hroom
  have hlost : Calms d.state (d.state.updSession h fun e => { e with wasLost := true }) :=
    Calms.of_quiet (.session (e := { d.state.session h with wasLost := true }) hrun
      ⟨rfl, rfl, rfl, id, .inl rfl, fun _ => ⟨rfl, rfl⟩⟩ (State.quotaOk_updSession rfl))
  have hevict (m : Msg) (hm : m.isWithdraw = false) :
      Calms d.state ((d.state.updSession h fun e => { e with wasLost := true }).enqueue h m) :=
    hlost.trans (Calms.of_quiet (Quiet.enqueue (hrun.of_eq rfl) hm (by simpa using hroom)))
  exact ⟨.inr ⟨_, (hs.tail hdown).trans (Stirs.of_calms (hevict _ rfl)), hrun.of_eq rfl, .refl⟩, hrun.of_eq (by simp)⟩

/-- A miss count below the miss limit keeps a session in range (R133). -/
theorem Session.tuned_miss {e : Session} (h : e.missCount + 1 < e.missLimit) : e.Tuned { e with missCount := e.missCount + 1 } := by
  refine ⟨rfl, rfl, rfl, fun ⟨h1, h2, h3, h4, h5, h6, h7, h8, _, _, h11⟩ => ⟨h1, h2, h3, h4, h5, h6, h7, h8, ?_, fun _ => ?_, h11⟩, .inl rfl,
    fun _ => ⟨rfl, rfl⟩⟩ <;> dsimp only <;> omega

/-- A miss counted in a running hub (R78, R133). -/
theorem State.Leads.miss {s u : State} {h : HostId} {cause : EvictCause} {survive : State → State} (hs : Stirs s s u) (hr : u.running)
    (hk : u.HostsOk → s.HostsOk → (u.session h).missCount + 1 ≤ 15)
    (hsurvive : Calms u (u.updSession h fun e => { e with missCount := e.missCount + 1 }) →
      s.Leads (survive (u.updSession h fun e => { e with missCount := e.missCount + 1 }))) :
    s.Leads (u.miss h cause survive) := by
  unfold State.miss
  dsimp only
  split
  · exact State.Leads.lose (k := (u.session h).missCount + 1) cause hs hr hk
  · rename_i hlt
    rw [State.session_updSession, if_pos rfl, Nat.not_le] at hlt
    exact hsurvive (Calms.of_quiet (.session hr (Session.tuned_miss hlt) (State.quotaOk_updSession rfl)))

/-- The miss count of an attached host has room for one more miss (R133). -/
theorem State.HostOk.miss_le {s : State} {h : HostId} (hok : s.HostOk h) (ha : s.attached h = true) :
    (s.session h).missCount + 1 ≤ 15 := by
  obtain ⟨-, -, -, -, -, -, -, -, -, hmiss, -⟩ := hok.inRange
  exact Nat.succ_le_succ (hmiss ha)

theorem HostState.attached_of_listening {v : HostState} (h : v.listening = true) : v.attached = true := by
  cases v with
  | awake | doze => rfl
  | deep | waking | absent | lost => cases h

/-- A host that holds an offer is attached (R63). -/
theorem State.HostOk.attached_of_offer {s : State} {h : HostId} {o : Offer} (hok : s.HostOk h) (ho : (s.disp h).offer = some o) :
    s.attached h = true := HostState.attached_of_listening (hok.offered o ho).1

theorem event_claimTimerExpiry {s t : State} {h : HostId} (hx : exec (.claimTimerExpiry h) s = .next t) : Event s t := by
  simp only [exec, execClaimTimerExpiry] at hx
  split at hx <;> cases hx
  · rename_i o expiry hr ho _
    have hlater : Stirs s s { s with now := max s.now expiry } := Stirs.of_calms (Calms.now s _)
    have htimeout : Stir s { s with now := max s.now expiry } _ := .timeout (h := h) (o := o) hr ho
    refine (State.Leads.miss (hlater.tail htimeout) (State.running.of_eq hr (by simp)) (fun _ hok => ?_) fun hmiss => ?_).1
    · have hsame : (((({ s with now := max s.now expiry } : State).withdraw h .timeout).roundEndDelivered o.handle.slot).session h) =
          s.session h := by simp; rfl
      rw [hsame]
      exact (hok h).miss_le ((hok h).attached_of_offer ho)
    · have hrun := State.running.of_eq (t := ((({ s with now := max s.now expiry } : State).withdraw h .timeout).roundEndDelivered
        o.handle.slot).updSession h fun e => { e with missCount := e.missCount + 1 }) hr (by simp)
      exact ⟨.inr ⟨_, (hlater.tail htimeout).trans (Stirs.of_calms hmiss), hrun, .refl⟩, hrun.of_eq (by simp)⟩
  · exact Event.refl s

/-- The wake timer of a WAKING host starts again (R131). -/
theorem Calms.restartWake {s : State} {h : HostId} (hr : s.running) (hst : (s.session h).state = .waking) :
    Calms s (s.restartWake h) :=
  Calms.of_quiet (.session (e := { s.session h with wakeTimer := some (s.now + (s.session h).wakeTimeout) }) hr
    ⟨rfl, rfl, rfl, id, .inr ⟨hst, by simp⟩, fun _ => ⟨rfl, rfl⟩⟩ (State.quotaOk_updSession rfl))

theorem event_wakeTimerExpiry {s t : State} {h : HostId} (hx : exec (.wakeTimerExpiry h) s = .next t) : Event s t := by
  simp only [exec, execWakeTimerExpiry] at hx
  split at hx <;> cases hx
  · rename_i expiry hr hst _
    have hlater : Calms s { s with now := max s.now expiry } := Calms.now s _
    refine (State.Leads.miss (Stirs.of_calms hlater) hr (fun _ hok => ?_) fun hmiss => ?_).1
    · exact (hok h).miss_le (by simp [State.attached, hst, HostState.attached])
    · have hst' : ((({ s with now := max s.now expiry } : State).updSession h fun e => { e with missCount := e.missCount + 1 }).session h).state
          = .waking := by rw [State.session_updSession, if_pos rfl]; exact hst
      have hrun : (({ s with now := max s.now expiry } : State).updSession h fun e => { e with missCount := e.missCount + 1 }).running := hr
      generalize (({ s with now := max s.now expiry } : State).updSession h fun e => { e with missCount := e.missCount + 1 }) = u
        at hmiss hst' hrun
      exact ⟨.inl ((hlater.trans hmiss).trans (Calms.restartWake hrun hst')), hrun⟩
  · exact Event.refl s

/-! #### Resets -/

theorem event_powerOn {s t : State} (h : exec .powerOn s = .next t) : Event s t := by
  cases h
  have hlost (u : State) : Calms u u.loseRetention := by
    have hepoch : BitVec.ofNat 16 ((Config.lostEpoch u.freeIdx).val + 1) ≠ 0 := by
      intro he
      have hlt := (Config.lostEpoch u.freeIdx).isLt
      have := congrArg BitVec.toNat he
      simp at this
      omega
    exact .trans (Calms.of_quiet (.epoch hepoch)) (Calms.of_quiet (.aside _ u.now (u.freeIdx + 1) u.pending _))
  exact .inl (.trans (Calms.of_quiet (.hold s .powerOn)) (hlost _))

theorem event_hubResetCompletion {s t : State} {pins : BitVec 48} (h : exec (.hubResetCompletion pins) s = .next t) : Event s t := by
  simp only [exec, execHubResetCompletion] at h
  split at h
  · cases h; exact Event.refl s
  · split at h <;> cases h
    · exact Event.refl s
    · exact .inl (Calms.of_quiet (.complete s pins _))

theorem event_holdEnds {s t : State} {c : Cause} (h : exec (.holdEnds c) s = .next t) : Event s t := by
  simp only [exec, execHoldEnds] at h
  split at h
  · cases h; exact Event.refl s
  · rename_i r hr
    split at h <;> cases h
    · rename_i hc
      rw [Bool.and_eq_true, decide_eq_true_eq] at hc
      exact .inl (Calms.of_quiet (.endHold hr (CauseSet.erase_ne_empty hc.2 c)))
    · exact Event.refl s

theorem event_exchangeDiscarded {s t : State} {p : HostId} (h : exec (.exchangeDiscarded p) s = .next t) : Event s t := by
  simp only [exec, execExchangeDiscarded] at h
  split at h <;> cases h
  iterate 2 exact .inl (Calms.of_quiet (Quiet.setIdle s p))
  iterate 2 exact Event.refl s

theorem event_arbiterFill {s t : State} {h : HostId} (hx : exec (.arbiterFill h) s = .next t) : Event s t := by
  simp only [exec, execArbiterFill] at hx
  split at hx <;> cases hx
  · rename_i hr
    exact .inl (.single (.fill h hr))
  · exact Event.refl s

/-! #### The step -/

/-- Every command and event is a chain of updates, closed by the Router's recomputation when one of them changes the Router's inputs. -/
theorem exec_event {i : Instr} {s t : State} (h : exec i s = .next t) : Event s t := by
  cases i with
  | exchangeStart p => cases h; exact .inl (Calms.csFall s p)
  | shortExchange p counted => cases h; exact .inl (Calms.csRise_discarded (.inl counted.isLt))
  | nop p q => cases h; exact Event.fullExchange fun _ j hs hj _ => ⟨.inl hs, hj⟩
  | unknownCommand p q code => cases h; exact event_unknownCommand s p q
  | attach p q depth => exact event_attach h
  | detach p q => exact event_detach h
  | sleep p q depth => exact event_sleep h
  | setHost p q param value => exact event_setHost h
  | setFloor p q floor => exact event_setFloor h
  | setQuota p q quota => exact event_setQuota h
  | queryHost p q host view => exact event_queryHost h
  | claim p q slot serial => exact event_claim h
  | decline p q slot serial => exact event_decline h
  | done p q slot serial => exact event_done h
  | post p q band mode notify rc rh payload => exact event_post h
  | retract p q slot => exact event_retract h
  | lease p q group => exact event_lease h
  | release p q group => exact event_release h
  | configLine p q line flags sense qual band mode rc rh => exact event_configLine h
  | fetchLoss p q => exact event_fetchLoss h
  | ackNotice p q causes => exact event_ackNotice h
  | queryEvent p q slot view => exact event_queryEvent h
  | queryLine p q line => exact event_queryLine h
  | rawChange l level => exact event_rawChange h
  | qualificationTimerExpiry l => exact event_qualificationTimerExpiry h
  | claimTimerExpiry k => exact event_claimTimerExpiry h
  | wakeTimerExpiry k => exact event_wakeTimerExpiry h
  | arbiterFill k => exact event_arbiterFill h
  | resetLine => cases h; exact .inl (Calms.of_quiet (.hold s .resetLine))
  | supplyLow => cases h; exact .inl (Calms.of_quiet (.hold s .supplyLow))
  | powerOn => exact event_powerOn h
  | hubResetCompletion pins => exact event_hubResetCompletion h
  | exchangeDiscarded p => exact event_exchangeDiscarded h
  | holdEnds c => exact event_holdEnds h

/-- A step takes the command off the queue, which is quiet, and is its event then; with no command waiting a tick passes. -/
theorem step_event {s t : State} (h : step s = .next t) : ∃ u, Quiet s u ∧ Event u t := by
  unfold step at h
  split at h
  · cases h
    exact ⟨_, .aside s (s.now + 1) s.freeIdx s.pending s.causes, Event.refl _⟩
  · rename_i rest _
    exact ⟨_, .aside s s.now s.freeIdx rest s.causes, exec_event h⟩

/-- What every update keeps, a chain of updates keeps. -/
theorem Stirs.keeps {s₀ s t : State} {I : State → Prop} (hI : ∀ u v, Stir s₀ u v → I u → I v) (h : Stirs s₀ s t) (hs : I s) : I t := by
  induction h with
  | refl => exact hs
  | tail _ hstir ih => exact hI _ _ hstir ih

/-- What every update keeps, every step keeps. -/
theorem step_keeps {I : State → Prop} (hI : ∀ s₀ u v, I s₀ → Stir s₀ u v → I u → I v) {s t : State} (hs : I s)
    (h : step s = .next t) : I t := by
  obtain ⟨u, hquiet, hevent⟩ := step_event h
  have hu : I u := hI s s u hs (.quiet hquiet) hs
  exact hevent.stirs.keeps (fun v w => hI u v w hu) hu

/-- What calm updates keep, and the Router's recomputation brings about from what every update keeps, every step keeps. -/
theorem step_keeps_settled {L Q : State → Prop} (hQL : ∀ s, Q s → L s) (hL : ∀ s₀ u v, L s₀ → Stir s₀ u v → L u → L v)
    (hQ : ∀ u v, Calm u v → Q u → Q v) (hre : ∀ u, u.running → L u → Q u.recompute) {s t : State} (hs : Q s)
    (h : step s = .next t) : Q t := by
  obtain ⟨u, hquiet, hevent⟩ := step_event h
  have hu : Q u := hQ s u (.quiet hquiet) hs
  have hcalms {v w : State} (hc : Calms v w) (hv : Q v) : Q w := by
    induction hc with
    | refl => exact hv
    | tail _ hcalm ih => exact hQ _ _ hcalm ih
  rcases hevent with hc | ⟨v, hstirs, hr, hc⟩
  · exact hcalms hc hu
  · exact hcalms hc (hre v hr (hstirs.keeps (fun a b => hL u a b (hQL u hu)) (hQL u hu)))

end Sys2Proof.Machine
end

