-- ==== Sys2Proof/Proofs/RecordInvariants.lean ====
section
/-! SUPPORT. The arrival list and the values of the records, kept by every step. -/

namespace Sys2Proof.Machine

/-! ### The arrival list and the fields of the records

Both invariants read the records, the arrival list and the line table. What an update does to these three is work on the slots, a new line table entry, or
the clearing of all of them. -/

/-- One update as the records, the arrival list and the line table see it. -/
inductive Touch : State → State → Prop
  | work {s t : State} (h : SlotWork s t) : Touch s t
  | same {s t : State} (hrec : ∀ n, t.record n = s.record n) (harr : t.arrivals = s.arrivals) (hent : ∀ l, t.entry l = s.entry l) : Touch s t
  | entry {s : State} {l : LineNo} {e : LineEntry} (he : e.InRange) : Touch s (s.setEntry l e)
  | clear {s t : State} (hrec : ∀ n, t.record n = none) (harr : t.arrivals = []) (hent : ∀ l, t.entry l = LineEntry.initial) : Touch s t

/-- Any number of touches. -/
abbrev Touches : State → State → Prop := Relation.ReflTransGen Touch

theorem SlotWorks.touches {s t : State} (h : SlotWorks s t) : Touches s t := by
  induction h with
  | refl => exact .refl
  | tail _ w ih => exact ih.tail (.work w)

theorem Touches.updSession (s : State) (h : HostId) (f : Session → Session) : Touches s (s.updSession h f) :=
  .single (.same (fun _ => rfl) rfl fun _ => rfl)

theorem Touches.updDisp (s : State) (h : HostId) (f : Dispatch → Dispatch) : Touches s (s.updDisp h f) :=
  .single (.same (fun _ => rfl) rfl fun _ => rfl)

theorem Touches.updPort (s : State) (h : HostId) (f : Port → Port) : Touches s (s.updPort h f) :=
  .single (.same (fun _ => rfl) rfl fun _ => rfl)

theorem Quiet.touches {s t : State} (h : Quiet s t) : Touches s t := by
  cases h with
  | entry he => exact .single (.entry he)
  | complete pins causes =>
    exact .single (.clear (State.completed_record s pins causes) (State.completed_arrivals ..) (State.completed_entry s pins causes))
  | notify m => exact .single (.work (.notifies s m))
  | hold c =>
    refine .single ?_
    unfold State.hold
    split <;> exact .same (fun _ => rfl) rfl fun _ => rfl
  | aside | port | session | line | holder | fetch | epoch | endHold => exact .single (.same (fun _ => rfl) rfl fun _ => rfl)

/-- A record amended within its values, whatever else an update does beside it. -/
theorem Touches.amended {s t : State} {n : SlotNo} {r r' : Record} (hr : s.record n = some r) (hok : s.RecordsOk → r'.InRange n)
    (hrec : ∀ m, t.record m = if m = n then some r' else s.record m) (harr : t.arrivals = s.arrivals)
    (hent : ∀ l, t.entry l = s.entry l) : Touches s t :=
  .tail (.single (.work (.amend hr hok))) (.same (fun m => by rw [hrec, State.record_setRecord]) harr hent)

theorem Touches.withdraw (s : State) (h : HostId) (reason : Reason) : Touches s (s.withdraw h reason) := by
  cases ho : (s.disp h).offer with
  | none => rw [State.withdraw_none ho]
  | some o =>
    cases hr : s.record o.handle.slot with
    | none =>
      refine .single (.same (fun m => ?_) (by simp) (by simp))
      rw [State.withdraw_record ho]
      split
      · rename_i hm; subst hm; rw [hr]; rfl
      · rfl
    | some r =>
      refine Touches.amended (r' := r.withdrawn h o.handle reason) hr (fun hok => (hok.1 _ r hr).of_eq rfl rfl rfl rfl rfl rfl rfl) (fun m => ?_) (by simp)
        (by simp)
      rw [State.withdraw_record ho]
      split
      · rename_i hm; subst hm; rw [hr]; rfl
      · rfl

theorem Touches.makeOffer {s : State} {h : HostId} {n : SlotNo} {r : Record} (hr : s.record n = some r) :
    Touches s (s.makeOffer h n) :=
  Touches.amended (r' := r.offerTo h ⟨n, s.serial n + 1⟩) hr (fun hok => (hok.1 n r hr).of_eq rfl rfl rfl rfl rfl rfl rfl)
    (State.makeOffer_record hr) (by simp) (by simp)

/-- A record in service has any backlog within its values (R3). -/
theorem Record.InRange.claimed {n : SlotNo} {r : Record} (hr : r.InRange n) (h : HostId) (hd : Handle) : (r.claimed h hd).InRange n := by
  obtain ⟨kind, band, postedBand, route, count, lineCount, backlog, openBacklog, rounds⟩ := hr
  exact ⟨kind, band, postedBand, route, count, lineCount, backlog, fun h => (by cases h), rounds⟩

/-- A rebuilt record takes band and route from its entry (R151). -/
theorem Record.InRange.rebuilt {l : LineNo} {r : Record} (hr : r.InRange (slotOfLine l)) {e : LineEntry} (he : e.InRange) :
    (r.rebuilt e).InRange (slotOfLine l) :=
  { kind := hr.kind, band := he.1, postedBand := fun h => absurd l.isLt (Nat.not_lt.2 h), route := he.2.1, count := hr.count,
    lineCount := hr.lineCount, backlog := hr.backlog, openBacklog := hr.openBacklog, rounds := Nat.zero_le _ }

/-- A posted record opens within its values (R10, R107). -/
theorem postedRecord_inRange {n : SlotNo} {p : HostId} {band : Nat} {mode : Mode} {route : List HostId} {payload : BitVec 32} {notify : Bool}
    (hn : 48 ≤ n.val) (hband : 1 ≤ band ∧ band ≤ 7) (hroute : RouteOk route) :
    (postedRecord p band mode route payload notify).InRange n :=
  { kind := hn, band := hband.2, postedBand := fun _ => hband.1, route := hroute, count := Nat.zero_le _,
    lineCount := fun h => absurd h (Nat.not_lt.2 hn), backlog := Nat.zero_le _, openBacklog := fun _ => rfl, rounds := Nat.zero_le _ }

theorem Touches.takeOffer (s : State) (p : HostId) (o : Offer) : Touches s (s.takeOffer p o) :=
  .single (.same (fun _ => rfl) rfl fun _ => rfl)

/-- The handing back of an offered copy is work on the slots once the offer is taken (R72). -/
theorem SlotWorks.handBackOffer {s : State} {p : HostId} {o : Offer} {r : Record} (hr : s.record o.handle.slot = some r) :
    SlotWorks (s.takeOffer p o) (s.handBackOffer p o r).1 := by
  unfold State.handBackOffer
  split
  · have hback : SlotWork (s.takeOffer p o) ((s.takeOffer p o).setRecord o.handle.slot (some (r.declinedBy p o.handle))) :=
      .amend hr fun hok => (hok.1 _ r hr).of_eq rfl rfl rfl rfl rfl rfl rfl
    exact .head hback (SlotWorks.roundEnd _ _)
  · exact SlotWorks.removeCopy _ _ _

/-- The end of a service is work on the slots once its entry is taken off the stack (R92, R93). -/
theorem SlotWorks.popTop (s : State) (p : HostId) (e : StackEntry) :
    SlotWorks (s.updDisp p fun d => { d with stack := d.stack.dropLast }) (s.popTop p e).state := SlotWorks.removeCopy _ _ _

theorem Touches.handBackOffer {s : State} {p : HostId} {o : Offer} {r : Record} (hr : s.record o.handle.slot = some r) :
    Touches s (s.handBackOffer p o r).1 := (Touches.takeOffer s p o).trans (SlotWorks.handBackOffer hr).touches

/-- The stack taken off a host touches no record. -/
theorem Touches.unburdened (s : State) (h : HostId) : Touches s (s.unburdened h).state := by
  have hend : Touches s (TeardownWork.endOffer ⟨s, 0, 0⟩ h).state := by
    cases ho : (s.disp h).offer with
    | none => rw [TeardownWork.endOffer_none (w := ⟨s, 0, 0⟩) ho]
    | some o => exact (Touches.updDisp s h _).trans (SlotWorks.endOffer (w := ⟨s, 0, 0⟩) ho).touches
  exact hend.trans (Touches.updDisp (TeardownWork.endOffer ⟨s, 0, 0⟩ h).state h fun d => { d with stack := [], claimTimer := none })

theorem Touches.teardown (s : State) (h : HostId) (final : HostState) : Touches s (s.teardown h final).state := by
  have hclear : Touches s (s.cleared h final) :=
    ((Touches.updSession s h _).trans (Touches.unburdened (s.unseated h final) h)).trans (SlotWorks.cleared s h final).touches
  exact hclear.tail (.same (State.teardown_record s h final) (by rw [State.teardown_eq]; simp) (by rw [State.teardown_eq]; simp))

/-- Every update, as the records, the arrival list and the line table see it. -/
theorem Stir.touches {s₀ s t : State} (h : Stir s₀ s t) : Touches s t := by
  cases h with
  | quiet h => exact h.touches
  | withdraw h => exact Touches.withdraw ..
  | offer _ _ hfill => obtain ⟨r, hr, -⟩ := hfill; exact Touches.makeOffer hr
  | wake h => exact .single (.same (by simp) (by simp) (by simp))
  | take | rouse | floor => exact .single (.same (fun _ => rfl) rfl fun _ => rfl)
  | serve _ _ hrec =>
    exact Touches.amended hrec (fun hok => (hok.1 _ _ hrec).claimed ..) (State.serve_record s _ _ _) rfl fun _ => rfl
  | handBack _ _ hrec => exact Touches.handBackOffer hrec
  | pop => exact (Touches.updDisp s _ _).trans (SlotWorks.popTop s _ _).touches
  | post _ hfree hn hband hroute => exact .single (.work (.opens hfree fun _ => postedRecord_inRange hn hband hroute))
  | arrive l => exact (SlotWorks.arrive s l).touches
  | free => exact .single (.work (.frees ..))
  | keepServed _ hrec => exact .single (.work (.amend hrec fun hok => (hok.1 _ _ hrec).of_eq rfl rfl rfl rfl rfl rfl rfl))
  | rebuild _ hrec => exact .single (.work (.amend hrec fun hok => (hok.1 _ _ hrec).rebuilt (hok.2 _)))
  | attach => exact ((Touches.updSession s _ _).trans (Touches.updPort ..)).trans (SlotWorks.roundEnds _).touches
  | teardown => exact (Touches.updSession s _ _).trans (Touches.teardown ..)
  | timeout => exact (Touches.withdraw s _ _).trans (SlotWorks.roundEndDelivered _ _).touches

/-- What every touch of the slots keeps, every step keeps. -/
theorem step_keeps_touched {I : State → Prop} (hI : ∀ u v, Touch u v → I u → I v) {s t : State} (hs : I s) (h : step s = .next t) :
    I t := by
  have hchain {u v : State} (htouch : Touches u v) (hu : I u) : I v := by
    induction htouch with
    | refl => exact hu
    | tail _ hw ih => exact hI _ _ hw ih
  exact step_keeps (fun _ _ _ _ hstir => hchain hstir.touches) hs h

/-! #### The arrival list (R20) -/

theorem State.makeLoss_arrivalsOk {s : State} {cause : LossCause} {n : SlotNo} {r : Record} {host : Option HostId} :
    (s.makeLoss cause n r host).ArrivalsOk ↔ s.ArrivalsOk := by simp [State.ArrivalsOk]

theorem State.deliver_arrivalsOk {s : State} {m : Notice} : (s.deliver m).ArrivalsOk ↔ s.ArrivalsOk := by simp [State.ArrivalsOk]

theorem State.setRecord_arrivalsOk {s : State} {n : SlotNo} {r r' : Record} (hr : s.record n = some r) (h : s.ArrivalsOk) :
    (s.setRecord n (some r')).ArrivalsOk := by
  refine ⟨h.1, fun m => ?_⟩
  rw [State.setRecord_arrivals, h.2 m, State.record_setRecord]
  split
  · rename_i hm; subst hm; simp [hr]
  · exact Iff.rfl

theorem State.openRecord_arrivalsOk {s : State} {n : SlotNo} {r : Record} (hr : s.record n = none) (h : s.ArrivalsOk) :
    (s.openRecord n r).ArrivalsOk := by
  have hn : n ∉ s.arrivals := fun hm => (h.2 n).1 hm hr
  refine ⟨List.nodup_append.2 ⟨h.1, List.nodup_singleton n, fun a ha b hb e => ?_⟩, fun m => ?_⟩
  · rw [List.mem_singleton] at hb
    exact hn (hb ▸ e ▸ ha)
  · rw [State.arrivals_openRecord, List.mem_append, List.mem_singleton, h.2 m, State.record_openRecord]
    by_cases hm : m = n <;> simp [hm]

theorem State.freeSlot_arrivalsOk {s : State} (n : SlotNo) (h : s.ArrivalsOk) : (s.freeSlot n).ArrivalsOk := by
  refine ⟨h.1.filter _, fun m => ?_⟩
  rw [State.arrivals_freeSlot, List.mem_filter, h.2 m, State.record_freeSlot]
  by_cases hm : m = n <;> simp [hm]

theorem State.reopenRecord_arrivalsOk {s : State} (n : SlotNo) (r : Record) (h : s.ArrivalsOk) : (s.reopenRecord n r).ArrivalsOk := by
  refine ⟨List.nodup_append.2 ⟨h.1.filter _, List.nodup_singleton n, fun a ha b hb e => ?_⟩, fun m => ?_⟩
  · rw [List.mem_singleton] at hb
    have hne : a ≠ n := by simpa using (List.mem_filter.1 ha).2
    exact hne (e.trans hb)
  · rw [State.arrivals_reopenRecord, List.mem_append, List.mem_filter, List.mem_singleton, h.2 m, State.record_reopenRecord]
    by_cases hm : m = n <;> simp [hm]

theorem Touch.arrivalsOk {s t : State} (h : Touch s t) (hs : s.ArrivalsOk) : t.ArrivalsOk := by
  cases h with
  | work h =>
    cases h with
    | amend hr => exact State.setRecord_arrivalsOk hr hs
    | opens hr => exact State.openRecord_arrivalsOk hr hs
    | frees n => exact State.freeSlot_arrivalsOk n hs
    | reopens => exact State.reopenRecord_arrivalsOk _ _ hs
    | loses => exact State.makeLoss_arrivalsOk.2 hs
    | notifies => exact State.deliver_arrivalsOk.2 hs
  | same hrec harr => exact ⟨harr ▸ hs.1, fun n => by rw [harr, hrec]; exact hs.2 n⟩
  | entry => exact hs
  | clear hrec harr => exact ⟨by simp [harr], fun n => by simp [harr, hrec]⟩

/-- Settles O9: each update of the slots keeps the arrival list in agreement with the records. -/
theorem arrivalListKept : Obligations.ArrivalListKept := fun _ _ hs h => step_keeps_touched (fun _ _ hw => hw.arrivalsOk) hs h

/-! #### The values of records and line table entries (R1 to R3, R25) -/

theorem Touch.recordsOk {s t : State} (h : Touch s t) (hs : s.RecordsOk) : t.RecordsOk := by
  have written {u : State} {n : SlotNo} {r' : Record} (hin : r'.InRange n)
      (hrec : ∀ m, u.record m = if m = n then some r' else s.record m) (hent : ∀ l, u.entry l = s.entry l) : u.RecordsOk := by
    refine ⟨fun m r hr => ?_, fun l => by rw [hent]; exact hs.2 l⟩
    rw [hrec] at hr
    split at hr
    · rename_i hm; cases hr; rw [hm]; exact hin
    · exact hs.1 m r hr
  cases h with
  | work h =>
    cases h with
    | amend _ hok => exact written (hok hs) (State.record_setRecord s _ · _) fun _ => rfl
    | opens _ hok => exact written (hok hs) (State.record_openRecord s _ · _) (by simp)
    | frees n =>
      refine ⟨fun m r hr => hs.1 m r ?_, by simpa using hs.2⟩
      rw [State.record_freeSlot] at hr
      split at hr
      · cases hr
      · exact hr
    | reopens hok => exact written (hok hs) (State.record_reopenRecord s _ · _) (by simp)
    | loses => exact State.makeLoss_recordsOk.2 hs
    | notifies => exact ⟨by simpa using hs.1, by simpa using hs.2⟩
  | same hrec _ hent => exact ⟨fun n r hr => hs.1 n r (by rw [← hrec]; exact hr), fun l => by rw [hent]; exact hs.2 l⟩
  | entry he =>
    refine ⟨hs.1, fun m => ?_⟩
    rw [State.entry_setEntry]
    split
    · exact he
    · exact hs.2 m
  | clear hrec _ hent => exact ⟨fun n r hr => by simp [hrec] at hr, fun l => by rw [hent]; exact LineEntry.initial_inRange⟩

/-- Settles O10: each update of the slots writes values of the fields. -/
theorem recordsKept : Obligations.RecordsKept := fun _ _ hs h => step_keeps_touched (fun _ _ hw => hw.recordsOk) hs h

end Sys2Proof.Machine
end

