-- ==== Sys2Proof/Proofs/HostInvariants.lean ====
section
/-! SUPPORT. The session, the offer slot and the stack of every host, through every update. -/

namespace Sys2Proof.Machine

/-! ### The host of every session (R63, R88, R122, R130, R135)

What each update does to the session, the offer slot and the stack of a host, and that the host stays as `State.HostOk` says. -/

theorem State.handBackOffer_sessions (s : State) (p : HostId) (o : Offer) (r : Record) :
    (s.handBackOffer p o r).1.sessions = (s.takeOffer p o).sessions := by
  unfold State.handBackOffer; cases r.mode <;> simp

theorem State.handBackOffer_dispatch (s : State) (p : HostId) (o : Offer) (r : Record) :
    (s.handBackOffer p o r).1.dispatch = (s.takeOffer p o).dispatch := by
  unfold State.handBackOffer; cases r.mode <;> simp

theorem State.handBackOffer_disp (s : State) (p k : HostId) (o : Offer) (r : Record) :
    (s.handBackOffer p o r).1.disp k = if k = p then { s.disp p with offer := none, claimTimer := none } else s.disp k := by
  rw [State.disp_congr (s.handBackOffer_dispatch p o r), State.takeOffer_disp]

theorem State.handBackOffer_session (s : State) (p k : HostId) (o : Offer) (r : Record) :
    (s.handBackOffer p o r).1.session k = if k = p then { s.session p with missCount := 0 } else s.session k := by
  rw [State.session_congr (s.handBackOffer_sessions p o r), State.takeOffer_session]

theorem State.popTop_disp (s : State) (p k : HostId) (e : StackEntry) :
    (s.popTop p e).state.disp k = if k = p then { s.disp p with stack := (s.disp p).stack.dropLast } else s.disp k := by
  simp [State.popTop, State.disp_updDisp]

section HostOk
variable {s t : State} {h : HostId}

theorem State.hasRoomFor_iff {band : Nat} : s.hasRoomFor h band = true ↔
    (s.session h).floor < band ∧ s.level h < band ∧ (s.disp h).stack.length < (s.session h).depth := by
  simp [State.hasRoomFor, and_assoc]

/-- The level is read from the stack (R90). -/
theorem State.level_of_stack (hstack : (t.disp h).stack = (s.disp h).stack) : t.level h = s.level h := by
  simp only [State.level, hstack]

theorem State.HostOk.congr (hs : s.HostOk h) (hsession : t.session h = s.session h) (hdisp : t.disp h = s.disp h)
    (hrun : t.running → s.running) : t.HostOk h := by
  have hroom : t.hasRoomFor h = s.hasRoomFor h := by
    funext band
    rw [State.hasRoomFor, State.hasRoomFor, State.level_of_stack (congrArg Dispatch.stack hdisp), hsession, hdisp]
  constructor <;> simp only [State.attached, hsession, hdisp, hroom]
  · exact hs.inRange
  · exact hs.increasing
  · exact hs.nesting
  · exact hs.offered
  · exact hs.noOfferNoTimer
  · exact fun hr => hs.offerTimer (hrun hr)
  · exact hs.unattached
  · exact hs.wakeTimer
  · exact fun hr => hs.waking (hrun hr)

/-- The offer slot and the stack as they are, the session changed (R127 to R131, R141). -/
theorem State.HostOk.of_session (hs : s.HostOk h) (hdisp : t.disp h = s.disp h) (hrun : t.running → s.running)
    (hdepth : (t.session h).depth = (s.session h).depth) (hin : (t.session h).InRange)
    (hoffer : ∀ o, (s.disp h).offer = some o → (t.session h).state.listening = true ∧ (t.session h).floor < o.band)
    (hatt : t.attached h = false → s.attached h = false) (htimer : (t.session h).wakeTimer ≠ none → (t.session h).state = .waking)
    (hwaking : t.running → (t.session h).state = .waking → (t.session h).wakeTimer ≠ none) : t.HostOk h where
  inRange := hin
  increasing := hdisp ▸ hs.increasing
  nesting := by rw [hdisp, hdepth]; exact hs.nesting
  offered o ho := by
    rw [hdisp] at ho
    obtain ⟨hlisten, hfloor⟩ := hoffer o ho
    obtain ⟨-, hlevel, hnest⟩ := State.hasRoomFor_iff.1 (hs.offered o ho).2
    refine ⟨hlisten, State.hasRoomFor_iff.2 ⟨hfloor, ?_, ?_⟩⟩
    · rwa [State.level_of_stack (congrArg Dispatch.stack hdisp)]
    · rwa [hdisp, hdepth]
  noOfferNoTimer := hdisp ▸ hs.noOfferNoTimer
  offerTimer hr := hdisp ▸ hs.offerTimer (hrun hr)
  unattached ha := hdisp ▸ hs.unattached (hatt ha)
  wakeTimer := htimer
  waking := hwaking

/-- The offer slot EMPTY and the claim timer stopped. -/
theorem State.HostOk.of_noOffer {l : List StackEntry} (hdisp : t.disp h = ⟨none, none, l⟩) (hin : (t.session h).InRange)
    (hinc : (l.map StackEntry.band).Pairwise (· < ·)) (hnest : l.length ≤ (t.session h).depth)
    (hatt : t.attached h = false → l = []) (htimer : (t.session h).wakeTimer ≠ none → (t.session h).state = .waking)
    (hwaking : t.running → (t.session h).state = .waking → (t.session h).wakeTimer ≠ none) : t.HostOk h where
  inRange := hin
  increasing := by rw [hdisp]; exact hinc
  nesting := by rw [hdisp]; exact hnest
  offered o ho := by rw [hdisp] at ho; cases ho
  noOfferNoTimer _ := by rw [hdisp]
  offerTimer _ ho := by rw [hdisp] at ho; exact absurd rfl ho
  unattached ha := by rw [hdisp]; exact ⟨rfl, hatt ha⟩
  wakeTimer := htimer
  waking := hwaking

/-- The band above a stack's level is above every band of the stack (R88). -/
theorem State.HostOk.band_lt_of_level (hs : s.HostOk h) {band : Nat} (hb : s.level h < band) :
    ∀ b ∈ (s.disp h).stack.map StackEntry.band, b < band := by
  intro b hmem
  obtain ⟨e, he, rfl⟩ := List.mem_map.1 hmem
  obtain ⟨l, x, hl⟩ : ∃ l x, (s.disp h).stack = l ++ [x] := by
    rcases List.eq_nil_or_concat' (s.disp h).stack with hnil | hx
    · rw [hnil] at he; cases he
    · exact hx
  have hlevel : s.level h = x.band := by simp [State.level, hl]
  have hinc := hs.increasing
  rw [hl, List.map_append, List.pairwise_append] at hinc
  rw [hl, List.mem_append, List.mem_singleton] at he
  rcases he with he | rfl
  · exact ((hinc.2.2 _ (List.mem_map_of_mem he) _ (by simp)).trans_eq hlevel.symm).trans hb
  · omega

/-- The level of a stack without its newest entry is not higher (R90, R92). -/
theorem State.HostOk.level_dropLast (hs : s.HostOk h) (hstack : (t.disp h).stack = (s.disp h).stack.dropLast) : t.level h ≤ s.level h := by
  rcases List.eq_nil_or_concat' (s.disp h).stack with hnil | ⟨l, x, hl⟩
  · simp [State.level, hstack, hnil]
  · have hinc := hs.increasing
    rw [hl, List.map_append, List.pairwise_append] at hinc
    have hdrop : (t.disp h).stack = l := by rw [hstack, hl, List.dropLast_concat]
    have hlevel : s.level h = x.band := by simp [State.level, hl]
    rcases List.eq_nil_or_concat' l with rfl | ⟨l', y, rfl⟩
    · simp [State.level, hdrop]
    · have hy : t.level h = y.band := by simp [State.level, hdrop]
      rw [hy, hlevel]
      exact (hinc.2.2 _ (by simp) _ (by simp)).le

theorem Session.InRange.noMiss {e : Session} (he : e.InRange) : ({ e with missCount := 0 } : Session).InRange := by
  obtain ⟨hdepth, hfloor, hclaim, hdoze, hwake, hlimit, hband, hbatch, hmiss, hatt, hquota⟩ := he
  exact ⟨hdepth, hfloor, hclaim, hdoze, hwake, hlimit, hband, hbatch, Nat.zero_le _, fun _ => Nat.zero_le _, hquota⟩

end HostOk

/-! #### Each update keeps the hosts -/

theorem State.HostsOk.congr {s t : State} (hs : s.HostsOk) (hsession : ∀ h, t.session h = s.session h) (hdisp : ∀ h, t.disp h = s.disp h)
    (hrun : t.running → s.running) : t.HostsOk := fun h => (hs h).congr (hsession h) (hdisp h) hrun

theorem State.HostsOk.work {s t : State} (hs : s.HostsOk) (w : SlotWorks s t) : t.HostsOk :=
  hs.congr w.session w.disp fun hr => State.running.of_eq hr w.inReset.symm

/-- One host changes, and it is as `State.HostOk` says. -/
theorem State.HostsOk.update {s t : State} (hs : s.HostsOk) (p : HostId) (hsession : ∀ h ≠ p, t.session h = s.session h)
    (hdisp : ∀ h ≠ p, t.disp h = s.disp h) (hrun : t.running → s.running) (hp : t.HostOk p) : t.HostsOk := fun h => by
  by_cases hh : h = p
  · exact hh ▸ hp
  · exact (hs h).congr (hsession h hh) (hdisp h hh) hrun

theorem State.HostsOk.withdraw {s : State} (hs : s.HostsOk) (p : HostId) (reason : Reason) : (s.withdraw p reason).HostsOk := by
  cases ho : (s.disp p).offer with
  | none => rwa [State.withdraw_none ho]
  | some o =>
    refine hs.update p (by simp) (fun h hh => by rw [State.withdraw_disp ho, if_neg hh])
      (fun hr => State.running.of_eq hr (by simp)) ?_
    refine .of_noOffer (by rw [State.withdraw_disp ho, if_pos rfl]) ?_ (hs p).increasing ?_ ?_ ?_ ?_
    · simpa using (hs p).inRange
    · simpa using (hs p).nesting
    · simpa using fun ha => ((hs p).unattached ha).2
    · simpa using (hs p).wakeTimer
    · simpa using fun hr : (s.withdraw p reason).running => (hs p).waking (State.running.of_eq hr (by simp))

/-- The offer slot of a host that answers its offer empties (R69). -/
theorem State.HostsOk.answered {s t : State} (hs : s.HostsOk) {p : HostId} {l : List StackEntry}
    (hsession : ∀ h, t.session h = if h = p then { s.session p with missCount := 0 } else s.session h)
    (hdisp : ∀ h, t.disp h = if h = p then ⟨none, none, l⟩ else s.disp h) (hrun : t.running → s.running)
    (hinc : (l.map StackEntry.band).Pairwise (· < ·)) (hnest : l.length ≤ (s.session p).depth)
    (hatt : s.attached p = false → l = []) : t.HostsOk := by
  have hp : t.session p = { s.session p with missCount := 0 } := by rw [hsession, if_pos rfl]
  refine hs.update p (fun h hh => by rw [hsession, if_neg hh]) (fun h hh => by rw [hdisp, if_neg hh]) hrun ?_
  refine .of_noOffer (by rw [hdisp, if_pos rfl]) ?_ hinc ?_ ?_ ?_ ?_ <;> simp only [State.attached, hp]
  · exact (hs p).inRange.noMiss
  · exact hnest
  · exact hatt
  · exact (hs p).wakeTimer
  · exact fun hr => (hs p).waking (hrun hr)

theorem State.HostsOk.serve {s : State} (hs : s.HostsOk) {p : HostId} {o : Offer} (r : Record) (ho : (s.disp p).offer = some o) :
    (s.serve p o r).HostsOk := by
  obtain ⟨-, hlevel, hdepth⟩ := State.hasRoomFor_iff.1 ((hs p).offered o ho).2
  refine hs.answered (State.serve_session s p · o r) (State.serve_disp s p · o r) (fun hr => hr) ?_ ?_ fun ha => ?_
  · rw [List.map_append, List.pairwise_append]
    refine ⟨(hs p).increasing, by simp, fun a ha b hb => ?_⟩
    obtain rfl : b = o.band := by simpa using hb
    exact (hs p).band_lt_of_level hlevel a ha
  · rw [List.length_append, List.length_singleton]; exact hdepth
  · rw [((hs p).unattached ha).1] at ho; cases ho

theorem State.HostsOk.popTop {s : State} (hs : s.HostsOk) (p : HostId) (e : StackEntry) : (s.popTop p e).state.HostsOk := by
  have hdisp (h : HostId) := State.popTop_disp s p h e
  have hrun (hr : (s.popTop p e).state.running) : s.running := State.running.of_eq hr (by simp [State.popTop])
  have hsession (h : HostId) : (s.popTop p e).state.session h = s.session h := by simp [State.popTop]
  have hself := hdisp p
  rw [if_pos rfl] at hself
  refine hs.update p (fun h _ => hsession h) (fun h hh => by rw [hdisp, if_neg hh]) hrun ?_
  have hlevel := (hs p).level_dropLast (t := (s.popTop p e).state) (by rw [hself])
  constructor <;> simp only [State.attached, hsession, hself]
  · exact (hs p).inRange
  · rw [List.map_dropLast]; exact (hs p).increasing.sublist (List.dropLast_sublist _)
  · exact (List.dropLast_sublist _).length_le.trans (hs p).nesting
  · intro o ho
    obtain ⟨hlisten, hroom⟩ := (hs p).offered o ho
    rw [State.hasRoomFor_iff] at hroom
    obtain ⟨hfloor, habove, hnest⟩ := hroom
    rw [State.hasRoomFor_iff, hsession, hself]
    exact ⟨hlisten, hfloor, hlevel.trans_lt habove, (List.dropLast_sublist _).length_le.trans_lt hnest⟩
  · exact (hs p).noOfferNoTimer
  · exact fun hr => (hs p).offerTimer (hrun hr)
  · exact fun ha => ⟨((hs p).unattached ha).1, by rw [((hs p).unattached ha).2]; rfl⟩
  · exact (hs p).wakeTimer
  · exact fun hr => (hs p).waking (hrun hr)

/-- A fill offers a copy to a host that may take it (R44, R66). -/
theorem State.HostsOk.makeOffer {s : State} (hs : s.HostsOk) {p : HostId} {n : SlotNo} (hfill : s.Fillable p n) : (s.makeOffer p n).HostsOk := by
  obtain ⟨r, hr, c, -, hcand⟩ := hfill
  obtain ⟨-, helig, -⟩ := State.candidate_some hcand
  obtain ⟨hlisten, hroom⟩ := by simpa only [State.eligible, Bool.and_eq_true] using helig
  have hdisp := State.makeOffer_disp (h := p) hr
  have hself := hdisp p
  rw [if_pos rfl] at hself
  have hroomFor : (s.makeOffer p n).hasRoomFor = s.hasRoomFor :=
    State.hasRoomFor_congr_stack (fun k => by simp) fun k => State.makeOffer_stack s p k n
  refine hs.update p (by simp) (fun h hh => by rw [hdisp, if_neg hh])
    (fun hr => State.running.of_eq hr (by simp)) ?_
  have hsession : (s.makeOffer p n).session p = s.session p := by simp
  have hrun (hr : (s.makeOffer p n).running) : s.running := State.running.of_eq hr (by simp)
  constructor <;> simp only [State.attached, hsession, hroomFor, hself]
  · exact (hs p).inRange
  · exact (hs p).increasing
  · exact (hs p).nesting
  · rintro _ ⟨⟩; exact ⟨hlisten, hroom⟩
  · rintro ⟨⟩
  · exact fun _ _ => by simp
  · intro ha; exact absurd (HostState.attached_of_listening hlisten) (by simp [ha])
  · exact (hs p).wakeTimer
  · exact fun hr => (hs p).waking (hrun hr)

/-- A session with its fields in range keeps its host as it is when its state, depth and floor stay (R127 to R133, R141). -/
theorem State.HostsOk.tuned {s : State} (hs : s.HostsOk) {p : HostId} {e : Session} (he : (s.session p).Tuned e) :
    (s.updSession p fun _ => e).HostsOk := by
  have hp : (s.updSession p fun _ => e).session p = e := by rw [State.session_updSession, if_pos rfl]
  refine hs.update p (fun h hh => by rw [State.session_updSession, if_neg hh]) (fun _ _ => rfl) (fun hr => hr) ?_
  refine (hs p).of_session rfl (fun hr => hr) ?_ ?_ (fun o ho => ?_) ?_ ?_ ?_ <;> simp only [State.attached, hp, he.state]
  · exact he.depth
  · exact he.inRange (hs p).inRange
  · obtain ⟨hlisten, hroom⟩ := (hs p).offered o ho
    exact ⟨hlisten, he.floor ▸ (State.hasRoomFor_iff.1 hroom).1⟩
  · exact fun ha => ha
  · intro ht
    rcases he.timer with heq | ⟨hw, -⟩
    · exact (hs p).wakeTimer (heq ▸ ht)
    · exact hw
  · intro hr hw
    rcases he.timer with heq | ⟨-, ht⟩
    · exact heq ▸ (hs p).waking hr hw
    · exact ht

/-- A reset that begins stops the timers (R165). -/
theorem State.HostOk.stopped {s t : State} {h : HostId} (hs : s.HostOk h) (hsession : t.session h = { s.session h with wakeTimer := none })
    (hdisp : t.disp h = { s.disp h with claimTimer := none }) (hnot : ¬ t.running) : t.HostOk h where
  inRange := by rw [hsession]; exact hs.inRange
  increasing := by rw [hdisp]; exact hs.increasing
  nesting := by rw [hdisp, hsession]; exact hs.nesting
  offered o ho := by
    rw [hdisp] at ho
    rw [State.hasRoomFor_iff, State.level_of_stack (s := s) (by rw [hdisp]), hsession, hdisp, ← State.hasRoomFor_iff]
    exact hs.offered o ho
  noOfferNoTimer _ := by rw [hdisp]
  offerTimer hr := absurd hr hnot
  unattached ha := by
    rw [State.attached, hsession] at ha
    rw [hdisp]
    exact hs.unattached ha
  wakeTimer ht := by rw [hsession] at ht; exact absurd rfl ht
  waking hr := absurd hr hnot

theorem State.HostsOk.hold {s : State} (hs : s.HostsOk) (c : Cause) : (s.hold c).HostsOk := by
  unfold State.hold
  split
  · exact fun h => (hs h).stopped (by simp [State.session, State.haltForReset]) (by simp [State.disp, State.haltForReset]) (by rintro ⟨⟩)
  · exact hs.congr (fun _ => rfl) (fun _ => rfl) fun hr => by cases hr

theorem Quiet.hostsOk {s t : State} (h : Quiet s t) (hs : s.HostsOk) : t.HostsOk := by
  cases h with
  | aside | port | line | entry | holder | fetch | epoch => exact hs.congr (fun _ => rfl) (fun _ => rfl) fun hr => hr
  | endHold => exact hs.congr (fun _ => rfl) (fun _ => rfl) fun hr => by cases hr
  | notify m => exact hs.work (.single (.notifies s m))
  | session hr he => exact hs.tuned he
  | hold c => exact hs.hold c
  | complete pins causes => exact fun h => State.hostOk_of_initial (State.completed_session ..) (State.completed_disp ..)

theorem State.wakeTriggered_deep {s : State} {h : HostId} (hw : s.wakeTriggered h = true) : (s.session h).state = .deep := by
  simp only [State.wakeTriggered, Bool.and_eq_true, decide_eq_true_eq] at hw
  exact hw.1

theorem State.HostOk.no_offer {s : State} {h : HostId} (hs : s.HostOk h) (hl : (s.session h).state.listening = false) : (s.disp h).offer = none := by
  cases ho : (s.disp h).offer with
  | none => rfl
  | some o => exact absurd (hs.offered o ho).1 (by simp [hl])

/-- A host whose session alone changes. -/
theorem State.HostsOk.of_session {s : State} (hs : s.HostsOk) {p : HostId} {e : Session} (hdepth : e.depth = (s.session p).depth)
    (hin : e.InRange) (hoffer : ∀ o, (s.disp p).offer = some o → e.state.listening = true ∧ e.floor < o.band)
    (hatt : e.state.attached = false → s.attached p = false) (htimer : e.wakeTimer ≠ none → e.state = .waking)
    (hwaking : s.running → e.state = .waking → e.wakeTimer ≠ none) : (s.updSession p fun _ => e).HostsOk := by
  have hp : (s.updSession p fun _ => e).session p = e := by rw [State.session_updSession, if_pos rfl]
  refine hs.update p (fun h hh => by rw [State.session_updSession, if_neg hh]) (fun _ _ => rfl) (fun hr => hr) ?_
  refine (hs p).of_session rfl (fun hr => hr) ?_ ?_ ?_ ?_ ?_ ?_ <;> simp only [State.attached, hp] <;> assumption

/-- The session field `state` written, with the miss count as it stands (R122). -/
theorem Session.InRange.reseat {e : Session} (he : e.InRange) {v : HostState} (hv : v.attached = true → e.state.attached = true)
    (timer : Option Nat) : ({ e with state := v, wakeTimer := timer } : Session).InRange := by
  obtain ⟨hdepth, hfloor, hclaim, hdoze, hwake, hlimit, hband, hbatch, hmiss, hatt, hquota⟩ := he
  exact ⟨hdepth, hfloor, hclaim, hdoze, hwake, hlimit, hband, hbatch, hmiss, fun h => hatt (hv h), hquota⟩

theorem State.HostsOk.takeWake {s : State} (hs : s.HostsOk) (p : HostId) : (s.takeWake p).HostsOk := by
  unfold State.takeWake
  split
  · rename_i htrigger
    have hdeep := State.wakeTriggered_deep htrigger
    have hnone := (hs p).no_offer (by rw [hdeep]; rfl)
    refine hs.of_session (e := { s.session p with state := .waking, wakeTimer := _ }) rfl ?_ ?_ ?_ ?_ ?_
    · exact (hs p).inRange.reseat (fun _ => by rw [hdeep]; rfl) _
    · simp [hnone]
    · rintro ⟨⟩
    · exact fun _ => rfl
    · simp
  · exact hs

theorem State.HostsOk.rouse {s : State} (hs : s.HostsOk) {p : HostId} {v : HostState} (ha : s.attached p = true) (hv : v.attached = true)
    (hw : v ≠ .waking) (ho : v.listening = true ∨ (s.disp p).offer = none) :
    (s.updSession p fun e => { e with state := v, wakeTimer := none }).HostsOk := by
  refine hs.of_session (e := { s.session p with state := v, wakeTimer := none }) rfl ?_ (fun o hoffer => ?_) ?_ ?_ ?_
  · exact (hs p).inRange.reseat (fun _ => ha) _
  · rcases ho with hl | hnone
    · exact ⟨hl, (State.hasRoomFor_iff.1 ((hs p).offered o hoffer).2).1⟩
    · rw [hnone] at hoffer; cases hoffer
  · intro hfalse; rw [hv] at hfalse; cases hfalse
  · exact fun h => absurd rfl h
  · exact fun _ h => absurd h hw

theorem State.HostsOk.floor {s : State} (hs : s.HostsOk) {p : HostId} {f : Nat} (hf : f ≤ 7)
    (ho : ∀ o, (s.disp p).offer = some o → f < o.band) : (s.updSession p fun e => { e with floor := f }).HostsOk := by
  refine hs.of_session (e := { s.session p with floor := f }) rfl ?_ (fun o hoffer => ?_) ?_ ?_ ?_
  · obtain ⟨hdepth, -, hrest⟩ := (hs p).inRange
    exact ⟨hdepth, hf, hrest⟩
  · exact ⟨((hs p).offered o hoffer).1, ho o hoffer⟩
  · exact fun h => h
  · exact (hs p).wakeTimer
  · exact (hs p).waking

theorem State.HostsOk.handBackOffer {s : State} (hs : s.HostsOk) (p : HostId) (o : Offer) (r : Record) :
    (s.handBackOffer p o r).1.HostsOk := by
  refine hs.answered (State.handBackOffer_session s p · o r) (State.handBackOffer_disp s p · o r)
    (fun hr => State.running.of_eq hr (by simp [State.handBackOffer_inReset])) (hs p).increasing (hs p).nesting fun ha => ?_
  exact ((hs p).unattached ha).2

/-- A session opens with an EMPTY offer slot and an empty stack (R124, R135). -/
theorem State.HostsOk.attach {s : State} (hs : s.HostsOk) {p : HostId} {depth : Nat} (ha : s.attached p = false)
    (hd : 1 ≤ depth ∧ depth ≤ 4) : (s.updSession p fun e => e.opened depth).HostsOk := by
  have hp : (s.updSession p fun e => e.opened depth).session p = (s.session p).opened depth := by
    rw [State.session_updSession, if_pos rfl]
  obtain ⟨hoffer, hstack⟩ := (hs p).unattached ha
  have hdisp : s.disp p = ⟨none, none, []⟩ := by
    have htimer := (hs p).noOfferNoTimer hoffer
    cases hdisp : s.disp p
    simp_all
  refine hs.update p (fun h hh => by rw [State.session_updSession, if_neg hh]) (fun _ _ => rfl) (fun hr => hr) ?_
  refine .of_noOffer (l := []) hdisp ?_ .nil (Nat.zero_le _) (fun _ => rfl) ?_ ?_ <;> rw [hp]
  · obtain ⟨-, -, hclaim, hdoze, hwake, hlimit, hband, hbatch, -, -, hquota⟩ := (hs p).inRange
    exact ⟨hd, Nat.zero_le _, hclaim, hdoze, hwake, hlimit, hband, hbatch, Nat.zero_le _, fun _ => Nat.zero_le _, hquota⟩
  · exact fun h => absurd rfl h
  · rintro - ⟨⟩

/-- A torn-down host is left without offer, stack and wake timer (R135). -/
theorem State.HostsOk.teardown {s : State} (hs : s.HostsOk) {h : HostId} {final : HostState} {k : Nat} (hf : final = .absent ∨ final = .lost)
    (hk : k ≤ 15) : ((s.updSession h fun e => { e with missCount := k }).teardown h final).state.HostsOk := by
  have hsession (j : HostId) : ((s.updSession h fun e => { e with missCount := k }).teardown h final).state.session j =
      if j = h then { s.session h with missCount := k, state := final, wakeTimer := none } else s.session j := by
    rw [State.teardown_session]
    split
    · rw [State.session_updSession, if_pos rfl]
    · rename_i hne; rw [State.session_updSession, if_neg hne]
  have hdisp := State.teardown_disp (s.updSession h fun e => { e with missCount := k }) h final
  refine hs.update h (fun j hj => by rw [hsession, if_neg hj]) (fun j hj => by rw [hdisp, if_neg hj, State.disp_updSession])
    (fun hr => State.running.of_eq hr (by simp)) ?_
  have hself := hsession h
  rw [if_pos rfl] at hself
  have hunattached : final.attached = false := by rcases hf with rfl | rfl <;> rfl
  refine .of_noOffer (l := []) (by rw [hdisp, if_pos rfl]) ?_ .nil (Nat.zero_le _) (fun _ => rfl) ?_ ?_ <;> rw [hself]
  · obtain ⟨hdepth, hfloor, hclaim, hdoze, hwake, hlimit, hband, hbatch, -, -, hquota⟩ := (hs h).inRange
    exact ⟨hdepth, hfloor, hclaim, hdoze, hwake, hlimit, hband, hbatch, hk, fun ha => absurd ha (by simp [hunattached]), hquota⟩
  · exact fun h => absurd rfl h
  · rintro - rfl; cases hunattached

/-- Every update keeps every host as it is (R63, R88, R122, R130, R135). -/
theorem Stir.hostsOk {s₀ s t : State} (h : Stir s₀ s t) (hs₀ : s₀.HostsOk) (hs : s.HostsOk) : t.HostsOk := by
  cases h with
  | quiet h => exact h.hostsOk hs
  | take | post | free | keepServed | rebuild => exact hs.congr (fun _ => rfl) (fun _ => rfl) fun hr => hr
  | withdraw p => exact State.HostsOk.withdraw hs p _
  | offer _ _ hfill => exact hs.makeOffer hfill
  | wake p => exact hs.takeWake p
  | rouse _ ha hv hw ho => exact hs.rouse ha hv hw ho
  | floor _ hf ho => exact hs.floor hf ho
  | serve _ ho => exact hs.serve _ ho
  | handBack => exact State.HostsOk.handBackOffer hs _ _ _
  | pop => exact State.HostsOk.popTop hs _ _
  | arrive l => exact hs.work (SlotWorks.arrive s l)
  | attach _ ha hd =>
    refine State.HostsOk.work ?_ (SlotWorks.roundEnds _)
    exact (hs.attach ha hd).congr (fun _ => rfl) (fun _ => rfl) fun hr => hr
  | teardown _ hf hk => exact hs.teardown hf (hk hs hs₀)
  | timeout => exact (State.HostsOk.withdraw hs _ _).work (SlotWorks.roundEndDelivered _ _)

end Sys2Proof.Machine
end

