-- ==== Sys2Proof/Proofs/SlotAgreement.lean ====
section
/-! SUPPORT. The agreement of a slot's copies with their holders, slot by slot, through the life of a record. -/

namespace Sys2Proof.Machine

/-! ### Copies, offers and stack entries, slot by slot (R4, R63, R88)

A host holds a copy in a state by its offer slot or by an entry of its stack. The agreement of copies and holders is one condition for each slot; an update
of one slot keeps the others'. Who holds what is a parameter, so that a teardown can be followed while its host's entries are handed back one by one. -/

/-- The slot that a copy's state names. -/
def CopyState.slot? : CopyState → Option SlotNo
  | .waiting => none
  | .offered hd => some hd.slot
  | .inService hd => some hd.slot

/-- Who holds a copy of which band in which state. -/
abbrev Holding := HostId → Nat → CopyState → Prop

/-- What the offer slots and the stacks of a state hold (R63, R88). -/
def State.holds (s : State) : Holding := fun h b st =>
  match st with
  | .waiting => False
  | .offered hd => (s.disp h).offer = some ⟨hd, b⟩
  | .inService hd => ⟨hd, b⟩ ∈ (s.disp h).stack

/-- A slot's record and the holders of its copies agree. -/
structure SlotAgrees (n : SlotNo) (r? : Option Record) (held : Holding) : Prop where
  copies : ∀ r, r? = some r → r.CopiesOk
  holder : ∀ r, r? = some r → ∀ c ∈ r.copies, c.state ≠ .waiting →
    ∃ h, c.host = some h ∧ c.state.slot? = some n ∧ held h r.band c.state
  copy : ∀ h b st, st.slot? = some n → held h b st → ∃ r, r? = some r ∧ ⟨some h, st⟩ ∈ r.copies ∧ b = r.band

/-- Every slot agrees with the holders. -/
def State.AgreesWith (s : State) (held : Holding) : Prop := ∀ n, SlotAgrees n (s.record n) held

theorem State.holds_offered {s : State} {h : HostId} {b : Nat} {hd : Handle} :
    s.holds h b (.offered hd) ↔ (s.disp h).offer = some ⟨hd, b⟩ := Iff.rfl

theorem State.holds_inService {s : State} {h : HostId} {b : Nat} {hd : Handle} :
    s.holds h b (.inService hd) ↔ ⟨hd, b⟩ ∈ (s.disp h).stack := Iff.rfl

theorem State.copiesOk_iff {s : State} : s.CopiesOk ↔ s.AgreesWith s.holds := by
  constructor
  · intro hs n
    refine ⟨hs.lists n, fun r hr c hc hw => ?_, fun h b st hn hheld => ?_⟩
    · cases hst : c.state with
      | waiting => exact absurd hst hw
      | offered hd =>
        obtain ⟨h, hhost, hslot, hoffer⟩ := hs.offeredCopy n r c hd hr hc hst
        exact ⟨h, hhost, congrArg some hslot, hoffer⟩
      | inService hd =>
        obtain ⟨h, hhost, hslot, hentry⟩ := hs.servedCopy n r c hd hr hc hst
        exact ⟨h, hhost, congrArg some hslot, hentry⟩
    · cases st with
      | waiting => cases hn
      | offered hd => cases hn; exact hs.offer h ⟨hd, b⟩ hheld
      | inService hd => cases hn; exact hs.entry h ⟨hd, b⟩ hheld
  · intro hs
    have holder {n : SlotNo} {r : Record} {c : Copy} (hr : s.record n = some r) (hc : c ∈ r.copies) (hw : c.state ≠ .waiting) :=
      (hs n).holder r hr c hc hw
    refine ⟨fun n => (hs n).copies, fun n r c hd hr hc hst => ?_, fun n r c hd hr hc hst => ?_, fun h o ho => ?_, fun h e he => ?_⟩
    · obtain ⟨h, hhost, hslot, hheld⟩ := holder hr hc (by simp [hst])
      rw [hst] at hslot hheld
      exact ⟨h, hhost, Option.some.inj hslot, hheld⟩
    · obtain ⟨h, hhost, hslot, hheld⟩ := holder hr hc (by simp [hst])
      rw [hst] at hslot hheld
      exact ⟨h, hhost, Option.some.inj hslot, hheld⟩
    · exact (hs o.handle.slot).copy h o.band (.offered o.handle) rfl ho
    · exact (hs e.handle.slot).copy h e.band (.inService e.handle) rfl he

/-- The agreement is one of the records. -/
theorem State.AgreesWith.congr {s t : State} {held : Holding} (hs : s.AgreesWith held) (hrec : ∀ n, t.record n = s.record n) :
    t.AgreesWith held := fun n => by rw [hrec]; exact hs n

/-- An update of one slot keeps the agreement of the others. -/
theorem State.AgreesWith.update {s t : State} {held held' : Holding} (hs : s.AgreesWith held) (n : SlotNo)
    (hrec : ∀ m ≠ n, t.record m = s.record m) (hheld : ∀ h b st, st.slot? ≠ some n → (held' h b st ↔ held h b st))
    (hn : SlotAgrees n (t.record n) held') : t.AgreesWith held' := fun m => by
  by_cases hm : m = n
  · exact hm ▸ hn
  · obtain ⟨copies, holder, copy⟩ := hs m
    rw [hrec m hm]
    have other {st : CopyState} (hst : st.slot? = some m) : st.slot? ≠ some n := by rw [hst]; simpa using hm
    refine ⟨copies, fun r hr c hc hw => ?_, fun h b st hst hheld' => copy h b st hst ((hheld h b st (other hst)).1 hheld')⟩
    obtain ⟨h, hhost, hst, hold⟩ := holder r hr c hc hw
    exact ⟨h, hhost, hst, (hheld _ _ _ (other hst)).2 hold⟩

/-! #### One slot -/

/-- No host holds a copy of the slot. -/
def Holding.NoneAt (held : Holding) (n : SlotNo) : Prop := ∀ h b st, st.slot? = some n → ¬ held h b st

/-- The holders without what one host holds of a slot. -/
def Holding.release (held : Holding) (h : HostId) (n : SlotNo) : Holding := fun k b st => held k b st ∧ ¬(k = h ∧ st.slot? = some n)

/-- The holders with one more copy held. -/
def Holding.take (held : Holding) (h : HostId) (b : Nat) (st : CopyState) : Holding :=
  fun k b' st' => held k b' st' ∨ k = h ∧ b' = b ∧ st' = st

theorem SlotAgrees.free {n : SlotNo} {held : Holding} (hno : held.NoneAt n) : SlotAgrees n none held :=
  ⟨fun _ h => (by cases h), fun _ h => (by cases h), fun h b st hst hheld => absurd hheld (hno h b st hst)⟩

theorem freshCopies_waiting {mode : Mode} {route : List HostId} {c : Copy} (hc : c ∈ freshCopies mode route) : c.state = .waiting := by
  cases mode with
  | any => rw [freshCopies, List.mem_singleton] at hc; rw [hc]
  | each =>
    obtain ⟨h, -, rfl⟩ := List.mem_map.1 hc
    rfl

/-- A record with fresh copies (R11). -/
theorem Record.CopiesOk.fresh {r : Record} (hc : r.copies = freshCopies r.mode r.route) (hroute : RouteOk r.route) : r.CopiesOk := by
  have hwait (c : Copy) (hmem : c ∈ r.copies) : c.state = .waiting := freshCopies_waiting (hc ▸ hmem)
  refine ⟨?_, fun hm => ?_, fun hm => ?_, fun _ c hmem hd hst => ?_⟩
  · rw [hc]
    cases hm : r.mode with
    | any => simp [freshCopies]
    | each => simpa [freshCopies] using hroute.1
  · rw [hc, hm]
    simp [freshCopies]
  · rw [hc, hm]
    simp [freshCopies, Function.comp_def]
  · rw [hwait c hmem] at hst; cases hst

theorem SlotAgrees.fresh {n : SlotNo} {r : Record} {held : Holding} (hno : held.NoneAt n) (hc : r.copies = freshCopies r.mode r.route)
    (hroute : RouteOk r.route) : SlotAgrees n (some r) held := by
  refine ⟨fun _ h => ?_, fun _ h c hmem hw => ?_, fun h b st hst hheld => absurd hheld (hno h b st hst)⟩
  · cases h; exact .fresh hc hroute
  · cases h; exact absurd (freshCopies_waiting (hc ▸ hmem)) hw

/-- A record whose copies, band, mode, route, phase stay and whose declined set loses members at most. -/
theorem SlotAgrees.amend {n : SlotNo} {r r' : Record} {held : Holding} (hr : SlotAgrees n (some r) held) (hcopies : r'.copies = r.copies)
    (hband : r'.band = r.band) (hmode : r'.mode = r.mode) (hroute : r'.route = r.route) (hphase : r'.phase = r.phase)
    (hdeclined : ∀ h, r.declined.get h = false → r'.declined.get h = false) : SlotAgrees n (some r') held := by
  obtain ⟨nonempty, anyCopy, eachCopies, opened⟩ := hr.copies r rfl
  refine ⟨fun _ h => ?_, fun _ h => ?_, fun h b st hst hheld => ?_⟩
  · cases h
    refine ⟨by rwa [hcopies], fun hm => ?_, ?_, ?_⟩
    · obtain ⟨hlen, hall⟩ := anyCopy (hmode ▸ hm)
      rw [hcopies, hroute]
      refine ⟨hlen, fun c hc => ⟨(hall c hc).1, fun h hh => ?_⟩⟩
      obtain ⟨hon, hdecl⟩ := (hall c hc).2 h hh
      exact ⟨hon, hdeclined h hdecl⟩
    · rwa [hmode, hcopies, hroute]
    · rwa [hphase, hcopies]
  · cases h; rw [hcopies, hband]; exact hr.holder r rfl
  · obtain ⟨_, heq, hmem, hb⟩ := hr.copy h b st hst hheld
    cases heq
    exact ⟨r', rfl, by rw [hcopies]; exact hmem, by rw [hband]; exact hb⟩

/-- The record and the holders where one host's part in a slot changes; the held copies of the other hosts stay. -/
theorem SlotAgrees.replace {n : SlotNo} {r r' : Record} {held held' : Holding} (h : HostId) (hr : SlotAgrees n (some r) held)
    (hband : r'.band = r.band) (hok : r'.CopiesOk)
    (hnew : ∀ c ∈ r'.copies, c.state ≠ .waiting →
      c ∈ r.copies ∧ c.host ≠ some h ∨ ∃ st, c = ⟨some h, st⟩ ∧ st.slot? = some n ∧ held' h r.band st)
    (hold : ∀ c ∈ r.copies, c.host ≠ some h → c.state ≠ .waiting → c ∈ r'.copies)
    (hheld : ∀ k ≠ h, ∀ b st, st.slot? = some n → (held' k b st ↔ held k b st))
    (hself : ∀ b st, st.slot? = some n → held' h b st → b = r.band ∧ ⟨some h, st⟩ ∈ r'.copies) : SlotAgrees n (some r') held' := by
  refine ⟨fun _ e => ?_, fun _ e c hc hw => ?_, fun k b st hst hk => ?_⟩
  · cases e; exact hok
  · cases e
    rw [hband]
    rcases hnew c hc hw with ⟨hmem, hne⟩ | ⟨st, rfl, hst, hin⟩
    · obtain ⟨k, hhost, hst, hk⟩ := hr.holder r rfl c hmem hw
      exact ⟨k, hhost, hst, (hheld k (fun e => hne (e ▸ hhost)) _ _ hst).2 hk⟩
    · exact ⟨h, rfl, hst, hin⟩
  · by_cases hkh : k = h
    · subst hkh
      obtain ⟨hb, hmem⟩ := hself b st hst hk
      exact ⟨r', rfl, hmem, by rw [hb, hband]⟩
    · obtain ⟨_, heq, hmem, hb⟩ := hr.copy k b st hst ((hheld k hkh b st hst).1 hk)
      cases heq
      refine ⟨r', rfl, hold _ hmem (by simpa using hkh) ?_, by rw [hb, hband]⟩
      rintro rfl; cases hst

/-- A host has at most one copy of a record (R4). -/
theorem Record.CopiesOk.copy_unique {r : Record} (hr : r.CopiesOk) (hroute : RouteOk r.route) {h : HostId} {c d : Copy} (hc : c ∈ r.copies)
    (hd : d ∈ r.copies) (hch : c.host = some h) (hdh : d.host = some h) : c = d := by
  cases hm : r.mode with
  | any =>
    obtain ⟨a, ha⟩ := List.length_eq_one_iff.1 (hr.anyCopy hm).1
    rw [ha, List.mem_singleton] at hc hd
    rw [hc, hd]
  | each =>
    have hnodup : (r.copies.map Copy.host).Nodup :=
      (hr.eachCopies hm).nodup ((List.nodup_map_iff (Option.some_injective _)).2 hroute.2)
    exact List.inj_on_of_nodup_map hnodup hc hd (hch.trans hdh.symm)

/-- A host holds at most one copy of a slot, in one state. -/
theorem State.AgreesWith.held_unique {s : State} {held : Holding} (hs : s.AgreesWith held) (hok : s.RecordsOk) {h : HostId} {b b' : Nat}
    {st st' : CopyState} (hheld : held h b st) (hheld' : held h b' st') {n : SlotNo} (hst : st.slot? = some n) (hst' : st'.slot? = some n) :
    b = b' ∧ st = st' := by
  obtain ⟨r, hr, hc, rfl⟩ := (hs n).copy h b st hst hheld
  obtain ⟨r', hr', hd, rfl⟩ := (hs n).copy h b' st' hst' hheld'
  obtain rfl : r = r' := by rw [hr] at hr'; exact Option.some.inj hr'
  have := ((hs n).copies r hr).copy_unique (hok.1 n r hr).route hc hd rfl rfl
  exact ⟨rfl, by injection this⟩

/-! #### The life of a slot -/

section
variable {s : State} {held : Holding} {n : SlotNo}

theorem Holding.release_iff {h k : HostId} {b : Nat} {st : CopyState} (hst : st.slot? ≠ some n) : held.release h n k b st ↔ held k b st :=
  ⟨And.left, fun hk => ⟨hk, fun hand => hst hand.2⟩⟩

theorem Holding.release_other {h k : HostId} {b : Nat} {st : CopyState} (hk : k ≠ h) : held.release h n k b st ↔ held k b st :=
  ⟨And.left, fun hheld => ⟨hheld, fun hand => hk hand.1⟩⟩

theorem Holding.not_release {h : HostId} {b : Nat} {st : CopyState} (hst : st.slot? = some n) : ¬ held.release h n h b st :=
  fun hand => hand.2 ⟨rfl, hst⟩

/-- The completion of a record that no host holds a copy of (R14 to R17). -/
theorem State.AgreesWith.complete {held' : Holding} (hs : s.AgreesWith held) (hok : s.RecordsOk)
    (hheld : ∀ h b st, st.slot? ≠ some n → (held' h b st ↔ held h b st)) (hno : held'.NoneAt n) (r : Record) (outcome : CompletionOutcome) :
    (s.complete n r outcome).state.AgreesWith held' := by
  have freed : (s.freeSlot n).AgreesWith held' := by
    refine hs.update n (fun m hm => by rw [State.record_freeSlot, if_neg hm]) hheld ?_
    rw [State.record_freeSlot, if_pos rfl]
    exact .free hno
  cases hsource : r.source with
  | host k => rwa [State.complete_host hsource]
  | line l =>
    cases hcount : reopenCount (s.entry l) (s.lineActive l) r.backlog with
    | none => rwa [State.complete_line_free hsource hcount]
    | some c =>
      rw [State.complete_line_reopen hsource hcount]
      refine hs.update n (fun m hm => by rw [State.record_reopenRecord, if_neg hm]) hheld ?_
      rw [State.record_reopenRecord, if_pos rfl]
      exact .fresh hno rfl (hok.2 l).2.1

/-- A record without the copies of one host, which holds nothing of the slot any more. -/
theorem SlotAgrees.without {r : Record} {h : HostId} (hr : SlotAgrees n (some r) held)
    (hleft : (r.copies.filter fun c => decide (c.host ≠ some h)) ≠ []) :
    SlotAgrees n (some { r with copies := r.copies.filter fun c => decide (c.host ≠ some h) }) (held.release h n) := by
  obtain ⟨-, anyCopy, eachCopies, opened⟩ := hr.copies r rfl
  have hmem {c : Copy} (hc : c ∈ r.copies.filter fun c => decide (c.host ≠ some h)) : c ∈ r.copies ∧ c.host ≠ some h := by
    simpa using hc
  refine hr.replace h rfl ⟨hleft, fun hm => ?_, fun hm => ?_, fun hp c hc => opened hp c (hmem hc).1⟩ (fun c hc _ => .inl (hmem hc))
    (fun c hc hne _ => ?_) (fun k hk b st _ => Holding.release_other hk) fun b st hst hrel => absurd hrel (Holding.not_release hst)
  · obtain ⟨hlen, hall⟩ := anyCopy hm
    obtain ⟨a, ha⟩ := List.length_eq_one_iff.1 hlen
    refine ⟨le_antisymm ((List.length_filter_le _ _).trans_eq hlen) (List.length_pos_iff.2 hleft), fun c hc => hall c (hmem hc).1⟩
  · exact ((List.filter_sublist.map Copy.host).trans (eachCopies hm))
  · exact List.mem_filter.2 ⟨hc, by simpa using hne⟩

/-- The removal of a host's copy, with the completion when it was the last (R93, R100): the host holds nothing of the slot then. -/
theorem State.AgreesWith.removeCopy (hs : s.AgreesWith held) (hok : s.RecordsOk) (h : HostId) :
    (s.removeCopy n h).state.AgreesWith (held.release h n) := by
  have hheld (k : HostId) (b : Nat) (st : CopyState) (hst : st.slot? ≠ some n) : held.release h n k b st ↔ held k b st :=
    Holding.release_iff hst
  unfold State.removeCopy
  split
  · rename_i hnone
    refine hs.update n (fun m _ => rfl) hheld ?_
    rw [hnone]
    refine .free fun k b st hst hrel => ?_
    obtain ⟨r, hr, -⟩ := (hs n).copy k b st hst hrel.1
    rw [hnone] at hr; cases hr
  · rename_i r hr
    have hn : SlotAgrees n (some r) held := hr ▸ hs n
    dsimp only
    split
    · rename_i hempty
      refine hs.complete hok hheld (fun k b st hst hrel => ?_) r .done
      obtain ⟨_, heq, hmem, -⟩ := hn.copy k b st hst hrel.1
      cases heq
      have hleft := List.filter_eq_nil_iff.1 (List.isEmpty_iff.1 hempty) _ hmem
      simp only [ne_eq, Option.some.injEq, decide_not, Bool.not_eq_true', decide_eq_false_iff_not, not_not] at hleft
      exact hrel.2 ⟨hleft, hst⟩
    · rename_i hleft
      refine hs.update n (fun m hm => by rw [State.record_setRecord, if_neg hm]) hheld ?_
      rw [State.record_setRecord, if_pos rfl]
      exact hn.without fun hnil => hleft (by rw [hnil]; rfl)

/-- A record amended with its copies as they are. -/
theorem State.AgreesWith.setRecord {r r' : Record} (hs : s.AgreesWith held) (hr : s.record n = some r) (hn : SlotAgrees n (some r) held →
    SlotAgrees n (some r') held) : (s.setRecord n (some r')).AgreesWith held := by
  refine hs.update n (fun m hm => by rw [State.record_setRecord, if_neg hm]) (fun _ _ _ _ => Iff.rfl) ?_
  rw [State.record_setRecord, if_pos rfl]
  exact hn (hr ▸ hs n)

/-- A round end (R54, R55). At the third round the one copy of the ANY record waits, so no host holds it. -/
theorem State.AgreesWith.roundEnd (hs : s.AgreesWith held) (hok : s.RecordsOk) (n : SlotNo) : (s.roundEnd n).1.AgreesWith held := by
  unfold State.roundEnd
  split
  · exact hs
  · rename_i r hr
    split
    · rename_i hover
      have hn : SlotAgrees n (some r) held := hr ▸ hs n
      split
      · exact hs.setRecord hr fun hn => hn.amend rfl rfl rfl rfl rfl fun h _ => HostSet.get_empty h
      · simp only [State.roundOver, Bool.and_eq_true, decide_eq_true_eq, List.any_eq_true] at hover
        obtain ⟨⟨⟨hany, w, hw, hwait⟩, -⟩, -⟩ := hover
        have hloss : (s.makeLoss .unwanted n r none).AgreesWith held := hs.congr (by simp)
        refine hloss.complete (State.makeLoss_recordsOk.2 hok) (fun _ _ _ _ => Iff.rfl) (fun k b st hst hheld => ?_) r .dropped
        obtain ⟨_, heq, hmem, -⟩ := hn.copy k b st hst hheld
        cases heq
        obtain ⟨a, ha⟩ := List.length_eq_one_iff.1 ((hn.copies r rfl).anyCopy hany).1
        rw [ha, List.mem_singleton] at hw hmem
        rw [hw, ← hmem] at hwait
        obtain rfl : st = .waiting := hwait
        cases hst
    · exact hs

theorem State.AgreesWith.roundEndDelivered (hs : s.AgreesWith held) (hok : s.RecordsOk) (n : SlotNo) :
    (s.roundEndDelivered n).AgreesWith held :=
  (hs.roundEnd hok n).congr (by simp [State.roundEndDelivered])

end

/-- Work on the slots keeps the values of the fields (R1 to R3). -/
theorem SlotWorks.recordsOk {s t : State} (w : SlotWorks s t) (hs : s.RecordsOk) : t.RecordsOk := by
  induction w with
  | refl => exact hs
  | tail _ hw ih => exact (Touch.work hw).recordsOk ih

/-- A fold keeps the agreement when each of its steps does. -/
theorem AgreesWith.foldl {α β : Type} (g : β → State) {held : Holding} {f : β → α → β} (hwork : ∀ b a, SlotWorks (g b) (g (f b a)))
    (hstep : ∀ b a, (g b).AgreesWith held → (g b).RecordsOk → (g (f b a)).AgreesWith held) (l : List α) {b : β}
    (hb : (g b).AgreesWith held) (hok : (g b).RecordsOk) : (g (l.foldl f b)).AgreesWith held := by
  induction l generalizing b with
  | nil => exact hb
  | cons a l ih => exact ih (hstep b a hb hok) ((hwork b a).recordsOk hok)

theorem State.AgreesWith.roundEnds {s : State} {held : Holding} (hs : s.AgreesWith held) (hok : s.RecordsOk) :
    s.roundEnds.AgreesWith held :=
  AgreesWith.foldl id SlotWorks.roundEndDelivered (fun _ n hb hbok => State.AgreesWith.roundEndDelivered hb hbok n) s.arrivals hs hok

end Sys2Proof.Machine
end

