-- ==== Sys2Proof/Proofs/HeldCopies.lean ====
section
/-! SUPPORT. The copies that one host holds: offered, taken into service and handed back. -/

namespace Sys2Proof.Machine

/-! ### The copies that one host holds, offered, taken and handed back -/

section slot
variable {n : SlotNo} {held : Holding} {r r' : Record} {h : HostId}

/-- One host's copy of a record waits again: an ANY copy without host, an EACH copy at its host (R72, R73, R86, R99). -/
theorem SlotAgrees.handBack (hr : SlotAgrees n (some r) held) {f : Copy → Copy} (hcopies : r'.copies = r.copies.map f)
    (hother : ∀ c ∈ r.copies, c.host ≠ some h → f c = c)
    (hself : ∀ c ∈ r.copies, c.host = some h → f c = ⟨if r.mode = .any then none else some h, .waiting⟩)
    (hband : r'.band = r.band) (hmode : r'.mode = r.mode) (hroute : r'.route = r.route)
    (hdeclined : ∀ k ≠ h, r'.declined.get k = r.declined.get k)
    (hphase : r'.phase = .opened → ∀ c ∈ r.copies, c.host ≠ some h → ∀ hd, c.state ≠ .inService hd) :
    SlotAgrees n (some r') (held.release h n) := by
  obtain ⟨nonempty, anyCopy, eachCopies, -⟩ := hr.copies r rfl
  have hmem {c : Copy} (hc : c ∈ r'.copies) :
      c ∈ r.copies ∧ c.host ≠ some h ∨ c = ⟨if r.mode = .any then none else some h, .waiting⟩ := by
    rw [hcopies] at hc
    obtain ⟨d, hd, rfl⟩ := List.mem_map.1 hc
    by_cases hdh : d.host = some h
    · exact .inr (hself d hd hdh)
    · exact .inl (by rw [hother d hd hdh]; exact ⟨hd, hdh⟩)
  refine hr.replace h hband ⟨by simpa [hcopies] using nonempty, fun hm => ?_, fun hm => ?_, fun hp c hc hd hst => ?_⟩ (fun c hc hw => ?_)
    (fun c hc hne _ => ?_) (fun k hk b st _ => Holding.release_other hk) fun b st hst hrel => absurd hrel (Holding.not_release hst)
  · rw [hmode] at hm
    obtain ⟨hlen, hall⟩ := anyCopy hm
    rw [hroute]
    refine ⟨by rw [hcopies, List.length_map, hlen], fun c hc => ?_⟩
    rcases hmem hc with ⟨hc, hne⟩ | rfl
    · refine ⟨(hall c hc).1, fun k hk => ?_⟩
      obtain ⟨hon, hdecl⟩ := (hall c hc).2 k hk
      exact ⟨hon, by rw [hdeclined k fun e => hne (e ▸ hk)]; exact hdecl⟩
    · simp [hm]
  · rw [hmode] at hm
    have hhosts : r'.copies.map Copy.host = r.copies.map Copy.host := by
      rw [hcopies, List.map_map]
      refine List.map_congr_left fun c hc => ?_
      by_cases hch : c.host = some h
      · simp [hself c hc hch, hm, hch]
      · simp [hother c hc hch]
    rw [hhosts, hroute]
    exact eachCopies hm
  · rcases hmem hc with ⟨hc, hne⟩ | rfl
    · exact hphase hp c hc hne hd hst
    · cases hst
  · rcases hmem hc with hc | rfl
    · exact .inl hc
    · exact absurd rfl hw
  · rw [hcopies]
    exact List.mem_map.2 ⟨c, hc, hother c hc hne⟩

/-- The copies of an ANY record whose one copy a host holds. -/
theorem SlotAgrees.any_copies (hr : SlotAgrees n (some r) held) (hm : r.mode = .any) {b : Nat} {st : CopyState} (hst : st.slot? = some n)
    (hheld : held h b st) : r.copies = [⟨some h, st⟩] := by
  obtain ⟨_, heq, hmem, -⟩ := hr.copy h b st hst hheld
  cases heq
  obtain ⟨a, ha⟩ := List.length_eq_one_iff.1 ((hr.copies r rfl).anyCopy hm).1
  rw [ha, List.mem_singleton] at hmem
  rw [ha, hmem]

/-- A WAITING copy put to its candidate (R66). -/
theorem SlotAgrees.offerTo {s : State} (hr : SlotAgrees n (some r) held) {hd : Handle} (hslot : hd.slot = n) {c : Copy} (hc : c ∈ r.copies)
    (hcand : s.candidate r c = some h) : SlotAgrees n (some (r.offerTo h hd)) (held.take h r.band (.offered hd)) := by
  obtain ⟨nonempty, anyCopy, eachCopies, opened⟩ := hr.copies r rfl
  obtain ⟨hwait, -, hany, heach⟩ := State.candidate_some hcand
  have hst : (CopyState.offered hd).slot? = some n := congrArg some hslot
  have hmem {d : Copy} (hmem : d ∈ (r.offerTo h hd).copies) : d ∈ r.copies ∨ d = ⟨some h, .offered hd⟩ := by
    obtain ⟨e, he, rfl⟩ := List.mem_map.1 hmem
    split
    · exact .inr rfl
    · exact .inl he
  have hkeep {d : Copy} (hd' : d ∈ r.copies) (hw : d.state ≠ .waiting) : d ∈ (r.offerTo h hd).copies :=
    List.mem_map.2 ⟨d, hd', if_neg fun hand => hw hand.1⟩
  have hput : ⟨some h, .offered hd⟩ ∈ (r.offerTo h hd).copies := by
    refine List.mem_map.2 ⟨c, hc, if_pos ⟨hwait, ?_⟩⟩
    cases hm : r.mode with
    | any => exact .inl rfl
    | each => exact .inr (heach hm)
  refine hr.replace h rfl ⟨by simpa [Record.offerTo] using nonempty, fun hm => ?_, fun hm => ?_, fun hp d hmem' hd' hst' => ?_⟩
    (fun d hmem' hw => ?_) (fun d hd' _ hw => hkeep hd' hw) (fun k hk b st _ => ?_) fun b st hst' hheld => ?_
  · obtain ⟨hlen, hall⟩ := anyCopy hm
    obtain ⟨hon, hdecl, -⟩ := hany hm
    refine ⟨by simpa [Record.offerTo] using hlen, fun d hmem' => ?_⟩
    rcases hmem hmem' with hd' | rfl
    · exact hall d hd'
    · refine ⟨⟨nofun, nofun⟩, fun k hk => ?_⟩
      cases hk
      exact ⟨hon, hdecl⟩
  · have hhosts : (r.offerTo h hd).copies.map Copy.host = r.copies.map Copy.host := by
      rw [Record.offerTo, List.map_map]
      refine List.map_congr_left fun d _ => ?_
      simp only [Function.comp_apply]
      split
      · rename_i hand
        rcases hand.2 with hm' | hh
        · cases hm.symm.trans hm'
        · exact hh.symm
      · rfl
    rw [hhosts]
    exact eachCopies hm
  · rcases hmem hmem' with hd'' | rfl
    · exact opened hp d hd'' hd' hst'
    · cases hst'
  · rcases hmem hmem' with hd' | rfl
    · by_cases hdh : d.host = some h
      · obtain ⟨k, hk, hslot', hheld⟩ := hr.holder r rfl d hd' hw
        obtain rfl : h = k := by rw [hdh] at hk; exact Option.some.inj hk
        exact .inr ⟨d.state, by rw [← hdh], hslot', .inl hheld⟩
      · exact .inl ⟨hd', hdh⟩
    · exact .inr ⟨_, rfl, hst, .inr ⟨rfl, rfl, rfl⟩⟩
  · exact ⟨fun hor => hor.resolve_right fun hand => hk hand.1, .inl⟩
  · rcases hheld with hheld | ⟨-, rfl, rfl⟩
    · obtain ⟨_, heq, hmem', hb⟩ := hr.copy h b st hst' hheld
      cases heq
      exact ⟨hb, hkeep hmem' (by rintro rfl; cases hst')⟩
    · exact ⟨rfl, hput⟩

/-- An offered copy taken into service (R70). -/
theorem SlotAgrees.claimed (hr : SlotAgrees n (some r) held) (hroute : RouteOk r.route) {hd : Handle} {b : Nat} (hslot : hd.slot = n)
    (hheld : held h b (.offered hd)) :
    SlotAgrees n (some (r.claimed h hd)) ((held.release h n).take h b (.inService hd)) := by
  obtain ⟨nonempty, anyCopy, eachCopies, -⟩ := hr.copies r rfl
  obtain ⟨_, heq, hmine, rfl⟩ := hr.copy h b (.offered hd) (congrArg some hslot) hheld
  cases heq
  have hst : (CopyState.inService hd).slot? = some n := congrArg some hslot
  have hmem {d : Copy} (hmem : d ∈ (r.claimed h hd).copies) : d ∈ r.copies ∧ d.host ≠ some h ∨ d = ⟨some h, .inService hd⟩ := by
    obtain ⟨e, he, rfl⟩ := List.mem_map.1 hmem
    by_cases heh : e.host = some h
    · obtain rfl := (hr.copies r rfl).copy_unique hroute he hmine heh rfl
      exact .inr (if_pos ⟨rfl, rfl⟩)
    · rw [if_neg fun hand => heh hand.1]
      exact .inl ⟨he, heh⟩
  have hkeep {d : Copy} (hd' : d ∈ r.copies) (hne : d.host ≠ some h) : d ∈ (r.claimed h hd).copies :=
    List.mem_map.2 ⟨d, hd', if_neg fun hand => hne hand.1⟩
  refine hr.replace h rfl ⟨by simpa [Record.claimed] using nonempty, fun hm => ?_, fun hm => ?_, fun hp => by cases hp⟩
    (fun d hmem' hw => ?_) (fun d hd' hne _ => hkeep hd' hne) (fun k hk b st _ => ?_) fun b st hst' hheld => ?_
  · have hm' : r.mode = .any := hm
    obtain ⟨hlen, hall⟩ := anyCopy hm'
    refine ⟨by simpa [Record.claimed] using hlen, fun d hmem' => ?_⟩
    have hdeclined (k : HostId) : (r.claimed h hd).declined.get k = false := by simp [Record.claimed, hm']
    rcases hmem hmem' with ⟨hd', -⟩ | rfl
    · exact ⟨(hall d hd').1, fun k hk => ⟨((hall d hd').2 k hk).1, hdeclined k⟩⟩
    · refine ⟨⟨nofun, nofun⟩, fun k hk => ?_⟩
      cases hk
      exact ⟨((hall _ hmine).2 h rfl).1, hdeclined h⟩
  · have hhosts : (r.claimed h hd).copies.map Copy.host = r.copies.map Copy.host := by
      rw [Record.claimed, List.map_map]
      refine List.map_congr_left fun d _ => ?_
      simp only [Function.comp_apply]
      split <;> rfl
    rw [hhosts]
    exact eachCopies hm
  · rcases hmem hmem' with hd' | rfl
    · exact .inl hd'
    · exact .inr ⟨_, rfl, hst, .inr ⟨rfl, rfl, rfl⟩⟩
  · exact ⟨fun hor => ((hor.resolve_right fun hand => hk hand.1).1), fun hk' => .inl ⟨hk', fun hand => hk hand.1⟩⟩
  · rcases hheld with hrel | ⟨-, rfl, rfl⟩
    · exact absurd hrel (Holding.not_release hst')
    · exact ⟨rfl, List.mem_map.2 ⟨_, hmine, if_pos ⟨rfl, rfl⟩⟩⟩

end slot

end Sys2Proof.Machine
end

