-- ==== Sys2Proof/Proofs/CopyOperations.lean ====
section
/-! SUPPORT. Withdrawals, teardowns, answers and fills keep copies and holders in agreement. -/

namespace Sys2Proof.Machine

/-! ### The copies through every update -/

section
variable {s : State} {held : Holding} {n : SlotNo} {r : Record} {h : HostId}

/-- The record of a slot written together with what one host holds of it. -/
theorem State.AgreesWith.rewrite {t : State} {held' : Holding} {r' : Record} (hs : s.AgreesWith held) (hr : s.record n = some r)
    (hrec : ∀ m, t.record m = if m = n then some r' else s.record m)
    (hheld : ∀ k b st, st.slot? ≠ some n → (held' k b st ↔ held k b st)) (hn : SlotAgrees n (some r) held → SlotAgrees n (some r') held') :
    t.AgreesWith held' := by
  refine hs.update n (fun m hm => by rw [hrec, if_neg hm]) hheld ?_
  rw [hrec, if_pos rfl]
  exact hn (hr ▸ hs n)

theorem State.holds_congr {t : State} (hoffer : ∀ k, (t.disp k).offer = (s.disp k).offer) (hstack : ∀ k, (t.disp k).stack = (s.disp k).stack) :
    t.holds = s.holds := by
  funext k b st
  cases st with
  | waiting => rfl
  | offered hd => exact propext (by rw [State.holds_offered, State.holds_offered, hoffer])
  | inService hd => exact propext (by rw [State.holds_inService, State.holds_inService, hstack])

theorem State.CopiesOk.congr {t : State} (hs : s.CopiesOk) (hrec : ∀ n, t.record n = s.record n) (hdisp : ∀ k, t.disp k = s.disp k) :
    t.CopiesOk := by
  have hheld : t.holds = s.holds := State.holds_congr (fun k => by rw [hdisp]) fun k => by rw [hdisp]
  rw [State.copiesOk_iff, hheld]
  exact (State.copiesOk_iff.1 hs).congr hrec

/-- The end of an offer leaves the holders without what its host held of the slot: it held the offered copy alone (R4). -/
theorem State.CopiesOk.holds_emptied {t : State} (hs : s.CopiesOk) (hok : s.RecordsOk) {o : Offer} (ho : (s.disp h).offer = some o)
    (hoffer : ∀ k, (t.disp k).offer = if k = h then none else (s.disp k).offer) (hstack : ∀ k, (t.disp k).stack = (s.disp k).stack) :
    t.holds = s.holds.release h o.handle.slot := by
  have hagrees := State.copiesOk_iff.1 hs
  have hheld : s.holds h o.band (.offered o.handle) := ho
  funext k b st
  refine propext ⟨fun ht => ?_, fun ⟨hs', hnot⟩ => ?_⟩
  · cases st with
    | waiting => cases ht
    | offered hd =>
      rw [State.holds_offered, hoffer] at ht
      split at ht
      · cases ht
      · rename_i hk; exact ⟨ht, fun hand => hk hand.1⟩
    | inService hd =>
      rw [State.holds_inService, hstack] at ht
      refine ⟨ht, fun ⟨hk, hslot⟩ => ?_⟩
      subst hk
      have := (hagrees.held_unique hok hheld (State.holds_inService.2 ht) rfl hslot).2
      cases this
  · cases st with
    | waiting => cases hs'
    | offered hd =>
      rw [State.holds_offered] at hs' ⊢
      rw [hoffer, if_neg]
      · exact hs'
      · rintro rfl
        rw [ho] at hs'
        cases hs'
        exact hnot ⟨rfl, rfl⟩
    | inService hd => rw [State.holds_inService, hstack]; exact hs'

theorem State.CopiesOk.withdraw (hs : s.CopiesOk) (hok : s.RecordsOk) (h : HostId) (reason : Reason) : (s.withdraw h reason).CopiesOk := by
  cases ho : (s.disp h).offer with
  | none => rwa [State.withdraw_none ho]
  | some o =>
    have hagrees := State.copiesOk_iff.1 hs
    obtain ⟨r, hr, hmine, -⟩ := hs.offer h o ho
    rw [State.copiesOk_iff, hs.holds_emptied hok ho (State.withdraw_offer s h · reason) fun k => by rw [State.withdraw_disp ho]; split <;> simp_all]
    refine hagrees.rewrite (r' := r.withdrawn h o.handle reason) hr (fun m => ?_) (fun k b st => Holding.release_iff) fun hn => ?_
    · rw [State.withdraw_record ho]
      split
      · rename_i hm; rw [hm, hr]; rfl
      · rfl
    · have hopened := (hn.copies r rfl).opened
      refine hn.handBack (f := fun c => if c.host = some h ∧ c.state = .offered o.handle then ⟨if r.mode = .any then none else c.host, .waiting⟩ else c)
        rfl (fun c _ hne => if_neg fun hand => hne hand.1) (fun c hc hh => ?_) rfl rfl rfl (fun k hk => ?_) fun hp c hc _ => hopened hp c hc
      · obtain rfl := (hn.copies r rfl).copy_unique (hok.1 _ r hr).route hc hmine hh rfl
        exact if_pos ⟨rfl, rfl⟩
      · simp only [Record.withdrawn]
        split
        · rw [PerHost.get_set_ne _ _ hk]
        · rfl

/-- The copy that a teardown or a DECLINE hands back (R72, R86, R99). -/
theorem SlotAgrees.reclaimed {r' : Record} (hn : SlotAgrees n (some r) held) (hm : r.mode = .any) {b : Nat} {st : CopyState}
    (hst : st.slot? = some n) (hheld : held h b st) (hcopies : r'.copies = [⟨none, .waiting⟩]) (hband : r'.band = r.band)
    (hmode : r'.mode = r.mode) (hroute : r'.route = r.route) (hdeclined : r'.declined = r.declined.set h true) :
    SlotAgrees n (some r') (held.release h n) := by
  have hone := hn.any_copies hm hst hheld
  refine hn.handBack (f := fun _ => ⟨none, .waiting⟩) (by rw [hcopies, hone]; rfl) (fun c hc hne => ?_) (fun c _ _ => by rw [if_pos hm]) hband hmode hroute
    (fun k hk => by rw [hdeclined, PerHost.get_set_ne _ _ hk]) fun _ c hc hne => ?_ <;>
  · rw [hone, List.mem_singleton] at hc
    exact absurd (by rw [hc]) hne

theorem State.saturate_record (s : State) (n m : SlotNo) (r : Record) :
    (s.saturate n r).record m = if m = n then some { r with saturated := true } else s.record m := by
  unfold State.saturate
  dsimp only
  split <;> simp [State.record_setRecord]

/-- The reclaim of an ANY copy from a stack (R13, R99). -/
theorem State.AgreesWith.reclaim (hs : s.AgreesWith held) (hr : s.record n = some r) (hm : r.mode = .any) {b : Nat} {st : CopyState}
    (hst : st.slot? = some n) (hheld : held h b st) : (s.reclaim h n r).AgreesWith (held.release h n) := by
  have hone : (r.handBack h).copies = [⟨none, .waiting⟩] := by
    have hn : SlotAgrees n (some r) held := hr ▸ hs n
    simp [Record.handBack, hn.any_copies hm hst hheld]
  have written {t : State} {r' : Record} (hrec : ∀ m, t.record m = if m = n then some r' else s.record m)
      (hcopies : r'.copies = (r.handBack h).copies) (hband : r'.band = r.band) (hmode : r'.mode = r.mode)
      (hroute : r'.route = r.route) (hdeclined : r'.declined = r.declined.set h true) : t.AgreesWith (held.release h n) :=
    hs.rewrite hr hrec (fun k b st => Holding.release_iff) fun hn =>
      hn.reclaimed hm hst hheld (hcopies.trans hone) hband hmode hroute hdeclined
  have hwrite (r' : Record) (m : SlotNo) := State.record_setRecord s n m (some r')
  cases hsource : r.source with
  | host k => rw [State.reclaim_posted hsource]; exact written (hwrite _) rfl rfl rfl rfl rfl
  | line l =>
    cases hsense : (s.entry l).sense.isLevel with
    | true => rw [State.reclaim_level hsource hsense]; exact written (hwrite _) rfl rfl rfl rfl rfl
    | false =>
      rw [State.reclaim_edge hsource hsense]
      split
      · exact written (hwrite _) rfl rfl rfl rfl rfl
      · exact written (State.saturate_record s n · _) rfl rfl rfl rfl rfl

/-- An EACH copy given up in a teardown (R100). -/
theorem State.AgreesWith.abandon {w : TeardownWork} (hs : w.state.AgreesWith held) (hok : w.state.RecordsOk) (h : HostId) (n : SlotNo) (r : Record) :
    (w.abandon h n r).state.AgreesWith (held.release h n) := by
  have hloss : (w.state.makeLoss .abandoned n r (some h)).AgreesWith held := hs.congr (by simp)
  exact (hloss.removeCopy (State.makeLoss_recordsOk.2 hok) h).congr (by simp [TeardownWork.abandon])

end

/-! #### A teardown -/

theorem TeardownWork.endOffer_offer (w : TeardownWork) (h k : HostId) :
    ((w.endOffer h).state.disp k).offer = if k = h then none else (w.state.disp k).offer := by
  rw [TeardownWork.endOffer_disp]
  by_cases hk : k = h
  · subst hk
    cases ho : (w.state.disp k).offer <;> simp [ho]
  · simp [hk]

theorem TeardownWork.endOffer_stack_at (w : TeardownWork) (h k : HostId) :
    ((w.endOffer h).state.disp k).stack = (w.state.disp k).stack := by
  rw [TeardownWork.endOffer_disp]
  split
  · rename_i hand; rw [hand.1]
  · rfl

/-- Step 2 of a teardown: the offered copy of the host goes with its offer (R86, R100). -/
theorem State.CopiesOk.endOffer {w : TeardownWork} (hs : w.state.CopiesOk) (hok : w.state.RecordsOk) (h : HostId) :
    (w.endOffer h).state.CopiesOk := by
  cases ho : (w.state.disp h).offer with
  | none => rwa [TeardownWork.endOffer_none ho]
  | some o =>
    have hagrees := State.copiesOk_iff.1 hs
    obtain ⟨r, hr, -, -⟩ := hs.offer h o ho
    have hheld : w.state.holds h o.band (.offered o.handle) := ho
    rw [State.copiesOk_iff, hs.holds_emptied hok ho (w.endOffer_offer h) (w.endOffer_stack_at h)]
    cases hm : r.mode with
    | any =>
      rw [TeardownWork.endOffer_any ho hr hm]
      have hn : SlotAgrees o.handle.slot (some r) w.state.holds := hr ▸ hagrees _
      refine hagrees.rewrite (r' := r.handBack h) hr (fun m => by rw [State.record_setRecord, State.record_updDisp])
        (fun k b st => Holding.release_iff) fun hn => hn.reclaimed hm rfl hheld ?_ rfl rfl rfl rfl
      simp [Record.handBack, hn.any_copies hm rfl hheld]
    | each =>
      rw [TeardownWork.endOffer_each ho hr hm]
      have abandoned (v : TeardownWork) (hv : ∀ m, v.state.record m = w.state.record m) (hvok : v.state.RecordsOk) :
          (v.abandon h o.handle.slot r).state.AgreesWith (w.state.holds.release h o.handle.slot) :=
        State.AgreesWith.abandon (hagrees.congr hv) hvok h _ r
      exact abandoned _ (State.record_updDisp w.state h _ ·) (State.updDisp_recordsOk.2 hok)

/-- The holders in a teardown while some entries of the host's stack are still to be handed back. -/
def Holding.loaded (held : Holding) (h : HostId) (rest : List StackEntry) : Holding := fun k b st =>
  if k = h then ∃ hd, st = .inService hd ∧ ⟨hd, b⟩ ∈ rest else held k b st

/-- An entry handed back leaves the entries after it. -/
theorem State.AgreesWith.release_loaded {s : State} {held : Holding} {h : HostId} {e : StackEntry} {rest : List StackEntry}
    (hs : s.AgreesWith (held.loaded h (e :: rest))) (hok : s.RecordsOk) (hband : ∀ x ∈ rest, e.band < x.band) :
    (held.loaded h (e :: rest)).release h e.handle.slot = held.loaded h rest := by
  have hmine : held.loaded h (e :: rest) h e.band (.inService e.handle) := by
    rw [Holding.loaded, if_pos rfl]
    exact ⟨e.handle, rfl, List.mem_cons_self ..⟩
  funext k b st
  by_cases hk : k = h
  · subst hk
    simp only [Holding.release, Holding.loaded, if_pos, true_and, List.mem_cons]
    refine propext ⟨fun ⟨⟨hd, hst, hmem⟩, hnot⟩ => ⟨hd, hst, hmem.resolve_left ?_⟩, fun ⟨hd, hst, hmem⟩ => ⟨⟨hd, hst, .inr hmem⟩, fun hslot => ?_⟩⟩
    · rintro rfl
      exact hnot (hst ▸ rfl)
    · have hother : held.loaded k (e :: rest) k b st := by
        rw [Holding.loaded, if_pos rfl]
        exact ⟨hd, hst, List.mem_cons_of_mem _ hmem⟩
      have hlt := hband _ hmem
      exact absurd (hs.held_unique hok hmine hother rfl hslot).1 hlt.ne
  · exact propext ((Holding.release_other hk).trans (by simp [Holding.loaded, hk]))

/-- Step 3 of a teardown: the stack entries handed back, oldest first (R99, R100). -/
theorem State.AgreesWith.popEntries {held : Holding} {h : HostId} (l : List StackEntry) {w : TeardownWork}
    (hs : w.state.AgreesWith (held.loaded h l)) (hok : w.state.RecordsOk) (hinc : (l.map StackEntry.band).Pairwise (· < ·)) :
    (l.foldl (TeardownWork.popEntry h) w).state.AgreesWith (held.loaded h []) := by
  induction l generalizing w with
  | nil => exact hs
  | cons e rest ih =>
    rw [List.map_cons, List.pairwise_cons] at hinc
    have hrelease := hs.release_loaded hok fun x hx => hinc.1 _ (List.mem_map_of_mem hx)
    refine ih ?_ ((SlotWorks.popEntry h w e).recordsOk hok) hinc.2
    rw [← hrelease]
    have hmine : held.loaded h (e :: rest) h e.band (.inService e.handle) := by
      rw [Holding.loaded, if_pos rfl]
      exact ⟨e.handle, rfl, List.mem_cons_self ..⟩
    obtain ⟨r, hr, -⟩ := (hs e.handle.slot).copy h e.band _ rfl hmine
    cases hm : r.mode with
    | any => rw [TeardownWork.popEntry_any hr hm]; exact hs.reclaim hr hm rfl hmine
    | each => rw [TeardownWork.popEntry_each hr hm]; exact hs.abandon hok h _ r

/-- Step 4 of a teardown: a host that holds nothing gives up an EACH copy it was owed (R101). -/
theorem State.AgreesWith.dropOwed {held : Holding} {h : HostId} (hnone : ∀ b st, ¬ held h b st) {w : TeardownWork} {n : SlotNo}
    (hs : w.state.AgreesWith held) (hok : w.state.RecordsOk) : (w.dropOwed h n).state.AgreesWith held := by
  have hsame : held.release h n = held := by
    funext k b st
    exact propext ⟨And.left, fun hk => ⟨hk, fun hand => hnone b st (hand.1 ▸ hk)⟩⟩
  cases hr : w.state.record n with
  | none => simpa [TeardownWork.dropOwed, hr] using hs
  | some r =>
    rw [TeardownWork.dropOwed_some hr, ← hsame]
    exact hs.abandon hok h n r

/-- A torn-down host leaves copies and holders in agreement (R86, R98 to R102). -/
theorem State.CopiesOk.teardown {s : State} (hs : s.CopiesOk) (hok : s.RecordsOk) {h : HostId}
    (hinc : ((s.disp h).stack.map StackEntry.band).Pairwise (· < ·)) (final : HostState) : (s.teardown h final).state.CopiesOk := by
  have hu : (s.unseated h final).CopiesOk := hs.congr (fun _ => rfl) fun _ => rfl
  have huok : (s.unseated h final).RecordsOk := hok
  generalize hu' : s.unseated h final = u at hu huok
  have hdisp : u.disp = s.disp := by rw [← hu']; rfl
  have hend := State.copiesOk_iff.1 (State.CopiesOk.endOffer (w := ⟨u, 0, 0⟩) hu huok h)
  have hendok : (TeardownWork.endOffer ⟨u, 0, 0⟩ h).state.RecordsOk := by
    cases ho : (u.disp h).offer with
    | none => rwa [TeardownWork.endOffer_none ho]
    | some o => exact (SlotWorks.endOffer (w := ⟨u, 0, 0⟩) ho).recordsOk (State.updDisp_recordsOk.2 huok)
  have hstack : ((TeardownWork.endOffer ⟨u, 0, 0⟩ h).state.disp h).stack = (u.disp h).stack := TeardownWork.endOffer_stack ..
  have hoffer : ((TeardownWork.endOffer ⟨u, 0, 0⟩ h).state.disp h).offer = none := by rw [TeardownWork.endOffer_offer, if_pos rfl]
  generalize hv : (TeardownWork.endOffer ⟨u, 0, 0⟩ h).state = v at hend hendok hstack hoffer
  have hloaded : v.holds.loaded h (u.disp h).stack = v.holds := by
    funext k b st
    by_cases hk : k = h
    · subst hk
      cases st with
      | waiting => simp [Holding.loaded, State.holds]
      | offered hd => simp [Holding.loaded, State.holds, hoffer]
      | inService hd => simp [Holding.loaded, State.holds, hstack]
    · simp [Holding.loaded, hk]
  have hrec (n : SlotNo) : (u.unburdened h).state.record n = v.record n := by rw [← hv]; exact State.record_updDisp ..
  have hunburdened : (u.unburdened h).state.AgreesWith (v.holds.loaded h (u.disp h).stack) := by
    rw [hloaded]; exact hend.congr hrec
  have hunok : (u.unburdened h).state.RecordsOk := by
    have hentry (l : LineNo) : (u.unburdened h).state.entry l = v.entry l := by rw [← hv]; exact State.entry_updDisp ..
    exact ⟨fun n r hr => hendok.1 n r (by rw [← hrec]; exact hr), fun l => by rw [hentry]; exact hendok.2 l⟩
  have hpopped := hunburdened.popEntries _ hunok (by rwa [hdisp])
  have hpoppedok : ((u.disp h).stack.foldl (TeardownWork.popEntry h) (u.unburdened h)).state.RecordsOk :=
    (SlotWorks.foldl TeardownWork.state (SlotWorks.popEntry h) _ _).recordsOk hunok
  have hreleased : (u.releaseCopies h).state.AgreesWith (v.holds.loaded h []) := by
    rw [State.releaseCopies_eq]
    refine AgreesWith.foldl TeardownWork.state (SlotWorks.dropOwed h) (fun w n hw hwok => hw.dropOwed (fun b st hheld => ?_) hwok) _ hpopped hpoppedok
    simp [Holding.loaded] at hheld
  have hcleared : (s.cleared h final).AgreesWith (v.holds.loaded h []) := by
    have hrok := (SlotWorks.releaseCopies u h).recordsOk hunok
    rw [State.cleared, hu']
    exact hreleased.roundEnds hrok
  rw [State.copiesOk_iff]
  have hholds : (s.teardown h final).state.holds = v.holds.loaded h [] := by
    funext k b st
    by_cases hk : k = h
    · subst hk
      cases st <;> simp [Holding.loaded, State.holds, State.teardown_disp]
    · have hother : v.disp k = s.disp k := by
        rw [← hv, TeardownWork.endOffer_disp, if_neg fun hand => hk hand.1, hdisp]
      cases st <;> simp [Holding.loaded, State.holds, State.teardown_disp, hk, hother]
  rw [hholds]
  exact hcleared.congr (State.teardown_record s h final)

/-! #### The answers of a host -/

section
variable {s t : State}

/-- A DECLINE hands the offered copy back (R72). -/
theorem State.CopiesOk.handBackOffer (hs : s.CopiesOk) (hok : s.RecordsOk) {p : HostId} {o : Offer} {r : Record}
    (ho : (s.disp p).offer = some o) (hr : s.record o.handle.slot = some r) : (s.handBackOffer p o r).1.CopiesOk := by
  have hagrees := State.copiesOk_iff.1 hs
  have hheld : s.holds p o.band (.offered o.handle) := ho
  have htaken (m : SlotNo) : (s.takeOffer p o).record m = s.record m := rfl
  have htakenok : (s.takeOffer p o).RecordsOk := hok
  rw [State.copiesOk_iff, hs.holds_emptied hok ho (fun k => by rw [State.handBackOffer_disp]; split <;> rfl)
    fun k => by rw [State.handBackOffer_disp]; split <;> simp_all]
  unfold State.handBackOffer
  generalize s.takeOffer p o = u at htaken htakenok
  have hu : u.AgreesWith s.holds := hagrees.congr htaken
  have hur : u.record o.handle.slot = some r := by rw [htaken, hr]
  dsimp only
  split
  · rename_i hm
    have hn : SlotAgrees o.handle.slot (some r) s.holds := hr ▸ hagrees _
    have hback : (u.setRecord o.handle.slot (some (r.declinedBy p o.handle))).AgreesWith (s.holds.release p o.handle.slot) := by
      refine hu.rewrite hur (State.record_setRecord u _ · _) (fun k b st => Holding.release_iff) fun hn =>
        hn.reclaimed hm rfl hheld ?_ rfl rfl rfl rfl
      simp [Record.declinedBy, hn.any_copies hm rfl hheld]
    refine hback.roundEnd ((SlotWorks.recordsOk (.single (.amend hur fun hok => ?_))) htakenok) _
    exact (hok.1 _ r hur).of_eq rfl rfl rfl rfl rfl rfl rfl
  · exact hu.removeCopy htakenok p

/-- A CLAIM takes the offered copy into service (R70). -/
theorem State.CopiesOk.serve (hs : s.CopiesOk) (hok : s.RecordsOk) {p : HostId} {o : Offer} {r : Record}
    (ho : (s.disp p).offer = some o) (hr : s.record o.handle.slot = some r) : (s.serve p o r).CopiesOk := by
  have hagrees := State.copiesOk_iff.1 hs
  have hheld : s.holds p o.band (.offered o.handle) := ho
  have hemptied := hs.holds_emptied hok ho (t := s.takeOffer p o) (fun k => by rw [State.takeOffer_disp]; split <;> rfl)
    fun k => by rw [State.takeOffer_disp]; split <;> simp_all
  have hholds : (s.serve p o r).holds = (s.holds.release p o.handle.slot).take p o.band (.inService o.handle) := by
    rw [← hemptied]
    funext k b st
    by_cases hk : k = p
    · subst hk
      cases st <;> simp [Holding.take, State.holds, State.serve_disp, State.takeOffer_disp, and_comm]
    · cases st <;> simp [Holding.take, State.holds, State.serve_disp, State.takeOffer_disp, hk]
  rw [State.copiesOk_iff, hholds]
  refine hagrees.rewrite hr (State.serve_record s p o r) (fun k b st hst => ?_) fun hn => hn.claimed (hok.1 _ r hr).route rfl hheld
  rw [Holding.take, Holding.release_iff hst]
  exact or_iff_left fun hand => hst (hand.2.2 ▸ rfl)

/-- A DONE takes the newest entry and its copy (R92, R93). -/
theorem State.CopiesOk.popTop (hs : s.CopiesOk) (hok : s.RecordsOk) {p : HostId} {e : StackEntry}
    (hinc : ((s.disp p).stack.map StackEntry.band).Pairwise (· < ·)) (he : (s.disp p).stack.getLast? = some e) :
    (s.popTop p e).state.CopiesOk := by
  have hagrees := State.copiesOk_iff.1 hs
  obtain ⟨l, hl⟩ := List.getLast?_eq_some_iff.1 he
  have hmine : s.holds p e.band (.inService e.handle) := by rw [State.holds_inService, hl]; simp
  have hlt : ∀ x ∈ l, x.band < e.band := by
    rw [hl, List.map_append, List.pairwise_append] at hinc
    exact fun x hx => hinc.2.2 _ (List.mem_map_of_mem hx) _ (by simp)
  have hholds : (s.popTop p e).state.holds = s.holds.release p e.handle.slot := by
    funext k b st
    by_cases hk : k = p
    · subst hk
      refine propext ⟨fun ht => ?_, fun ⟨hs', hnot⟩ => ?_⟩
      · have hs' : s.holds k b st ∧ ∀ hd, st = .inService hd → ⟨hd, b⟩ ∈ l := by
          cases st <;> simp_all [State.holds, State.popTop_disp]
        refine ⟨hs'.1, fun ⟨_, hslot⟩ => ?_⟩
        obtain ⟨rfl, rfl⟩ := hagrees.held_unique hok hmine hs'.1 rfl hslot
        exact absurd (hlt _ (hs'.2 _ rfl)) (lt_irrefl _)
      · cases st with
        | waiting => cases hs'
        | offered hd => simpa [State.holds, State.popTop_disp] using hs'
        | inService hd =>
          simp only [State.holds, State.popTop_disp, if_true, hl, List.dropLast_concat, List.mem_append, List.mem_singleton] at hs' ⊢
          refine hs'.resolve_right ?_
          rintro rfl
          exact hnot ⟨rfl, rfl⟩
    · rw [Holding.release_other hk]
      cases st <;> simp [State.holds, State.popTop_disp, hk]
  rw [State.copiesOk_iff, hholds]
  have hu : (s.updDisp p fun d => { d with stack := d.stack.dropLast }).AgreesWith s.holds := hagrees.congr fun _ => rfl
  exact hu.removeCopy (State.updDisp_recordsOk.2 hok) p

/-- A fill puts a WAITING copy to its candidate (R66). -/
theorem State.CopiesOk.makeOffer (hs : s.CopiesOk) {h : HostId} {n : SlotNo} (hready : s.readyForOffer h = true) (hfill : s.Fillable h n) :
    (s.makeOffer h n).CopiesOk := by
  obtain ⟨r, hr, c, hc, hcand⟩ := hfill
  have hnone := (State.readyForOffer_iff.1 hready).1
  have hholds : (s.makeOffer h n).holds = s.holds.take h r.band (.offered ⟨n, s.serial n + 1⟩) := by
    funext k b st
    by_cases hk : k = h
    · subst hk
      cases st <;> simp [Holding.take, State.holds, State.makeOffer_disp hr, hnone, eq_comm, and_comm]
    · cases st <;> simp [Holding.take, State.holds, State.makeOffer_disp hr, hk]
  rw [State.copiesOk_iff, hholds]
  refine (State.copiesOk_iff.1 hs).rewrite hr (State.makeOffer_record hr) (fun k b st hst => ?_) fun hn => hn.offerTo rfl hc hcand
  exact or_iff_left fun hand => hst (hand.2.2 ▸ rfl)

end

end Sys2Proof.Machine
end

