-- ==== Sys2Proof/Proofs/CopyInvariants.lean ====
section
/-! SUPPORT. Every update keeps copies and holders in agreement. -/

namespace Sys2Proof.Machine

/-! ### Every update keeps copies, offers and stack entries in agreement -/

section
variable {s t : State} {n : SlotNo}

/-- The holders of a FREE slot are none. -/
theorem State.AgreesWith.noneAt {held : Holding} (hs : s.AgreesWith held) (hn : s.record n = none) : held.NoneAt n := fun h b st hst hheld => by
  obtain ⟨r, hr, -⟩ := (hs n).copy h b st hst hheld
  rw [hn] at hr; cases hr

/-- Only a copy in service is held of a slot that no offer names. -/
theorem State.NoOfferOf.inService (hno : s.NoOfferOf n) {h : HostId} {b : Nat} {st : CopyState} (hst : st.slot? = some n)
    (hheld : s.holds h b st) : ∃ hd, st = .inService hd := by
  cases st with
  | waiting => cases hst
  | offered hd => exact absurd (Option.some.inj hst) (hno h _ hheld)
  | inService hd => exact ⟨hd, rfl⟩

/-- A record that no offer names and that has no copy in service is held by none. -/
theorem State.NoOfferOf.noneAt {r : Record} (hno : s.NoOfferOf n) (hs : s.CopiesOk) (hr : s.record n = some r)
    (hserved : r.phase = .opened ∨ ∀ c ∈ r.copies, c.inService = false) : s.holds.NoneAt n := fun h b st hst hheld => by
  obtain ⟨v, hv, hmem, -⟩ := ((State.copiesOk_iff.1 hs) n).copy h b st hst hheld
  obtain rfl : r = v := by rw [hr] at hv; exact Option.some.inj hv
  obtain ⟨hd, rfl⟩ := hno.inService hst hheld
  rcases hserved with hp | hnone
  · exact (hs.lists n r hr).opened hp _ hmem hd rfl
  · cases hnone _ hmem

theorem State.CopiesOk.openRecord (hs : s.CopiesOk) {r : Record} (hn : s.record n = none) (hc : r.copies = freshCopies r.mode r.route)
    (hroute : RouteOk r.route) : (s.openRecord n r).CopiesOk := by
  have hagrees := State.copiesOk_iff.1 hs
  refine State.copiesOk_iff.2 (hagrees.update n (fun m hm => ?_) (fun _ _ _ _ => Iff.rfl) ?_)
  · rw [State.record_openRecord, if_neg hm]
  · rw [State.record_openRecord, if_pos rfl]
    exact .fresh (hagrees.noneAt hn) hc hroute

/-- The record of a slot written while its holders stay. -/
theorem State.CopiesOk.written {r r' : Record} (hs : s.CopiesOk) (hr : s.record n = some r)
    (hrec : ∀ m, t.record m = if m = n then some r' else s.record m) (hdisp : ∀ k, t.disp k = s.disp k)
    (hn : SlotAgrees n (some r) s.holds → SlotAgrees n (some r') s.holds) : t.CopiesOk := by
  have hheld : t.holds = s.holds := State.holds_congr (fun k => by rw [hdisp]) fun k => by rw [hdisp]
  rw [State.copiesOk_iff, hheld]
  exact (State.copiesOk_iff.1 hs).rewrite hr hrec (fun _ _ _ _ => Iff.rfl) hn

/-- An arrival counts, and touches no copy (R33 to R37). -/
theorem State.CopiesOk.arrive (hs : s.CopiesOk) (hok : s.RecordsOk) (l : LineNo) : (s.arrive l).CopiesOk := by
  cases hr : s.record (slotOfLine l) with
  | none =>
    rw [State.arrive_free hr]
    exact hs.openRecord hr rfl (hok.2 l).2.1
  | some r =>
    have counted {t : State} {r' : Record} (hrec : ∀ m, t.record m = if m = slotOfLine l then some r' else s.record m)
        (hdisp : ∀ k, t.disp k = s.disp k) (hcopies : r'.copies = r.copies) (hband : r'.band = r.band) (hmode : r'.mode = r.mode)
        (hroute : r'.route = r.route) (hphase : r'.phase = r.phase) (hdeclined : r'.declined = r.declined) : t.CopiesOk :=
      hs.written hr hrec hdisp fun hn => hn.amend hcopies hband hmode hroute hphase fun h hh => by rw [hdeclined]; exact hh
    have hrec (r' : Record) (m : SlotNo) := State.record_setRecord s (slotOfLine l) m (some r')
    have hsat (m : SlotNo) := State.saturate_record s (slotOfLine l) m r
    have hsatdisp (k : HostId) : (s.saturate (slotOfLine l) r).disp k = s.disp k := by unfold State.saturate; dsimp only; split <;> simp
    cases hsense : (s.entry l).sense.isLevel <;> cases hp : r.phase
    · rw [State.arrive_edge_opened hr hsense hp]
      split
      · exact counted (hrec _) (fun _ => rfl) rfl rfl rfl rfl rfl rfl
      · exact counted hsat hsatdisp rfl rfl rfl rfl rfl rfl
    · rw [State.arrive_edge_captured hr hsense hp]
      split
      · exact counted (hrec _) (fun _ => rfl) rfl rfl rfl rfl rfl rfl
      · exact counted hsat hsatdisp rfl rfl rfl rfl rfl rfl
    · rwa [State.arrive_level_opened hr hsense hp]
    · rw [State.arrive_level_captured hr hsense hp]
      exact counted (hrec _) (fun _ => rfl) rfl rfl rfl rfl rfl rfl

theorem State.CopiesOk.freeSlot (hs : s.CopiesOk) (hno : s.holds.NoneAt n) : (s.freeSlot n).CopiesOk := by
  refine State.copiesOk_iff.2 ((State.copiesOk_iff.1 hs).update n (fun m hm => ?_) (fun _ _ _ _ => Iff.rfl) ?_)
  · rw [State.record_freeSlot, if_neg hm]
  · rw [State.record_freeSlot, if_pos rfl]
    exact .free hno

/-- A record whose offers are withdrawn keeps the EACH copies in service (R115). -/
theorem SlotAgrees.served {r : Record} (hn : SlotAgrees n (some r) s.holds) (hm : r.mode = .each) (hne : r.copies.filter Copy.inService ≠ [])
    (hno : s.NoOfferOf n) : SlotAgrees n (some { r with copies := r.copies.filter Copy.inService }) s.holds := by
  obtain ⟨-, -, eachCopies, opened⟩ := hn.copies r rfl
  have hmem {c : Copy} (hc : c ∈ r.copies.filter Copy.inService) : c ∈ r.copies := List.mem_of_mem_filter hc
  refine ⟨fun _ e => ?_, fun _ e c hc hw => ?_, fun h b st hst hheld => ?_⟩
  · cases e
    exact ⟨hne, fun hm' => absurd (hm.symm.trans hm') (by simp), fun hm' => (List.filter_sublist.map Copy.host).trans (eachCopies hm'),
      fun hp c hc => opened hp c (hmem hc)⟩
  · cases e
    exact hn.holder r rfl c (hmem hc) hw
  · obtain ⟨_, e, hc, hb⟩ := hn.copy h b st hst hheld
    cases e
    obtain ⟨hd, rfl⟩ := hno.inService hst hheld
    exact ⟨_, rfl, List.mem_filter.2 ⟨hc, rfl⟩, hb⟩

end

/-- Work on the slots whose holders stay in agreement. -/
theorem SlotWorks.copiesOk {s t : State} (w : SlotWorks s t) (h : t.AgreesWith s.holds) : t.CopiesOk := by
  have hheld : t.holds = s.holds := State.holds_congr (fun k => by rw [w.disp]) fun k => by rw [w.disp]
  rwa [State.copiesOk_iff, hheld]

theorem Quiet.copiesOk {s t : State} (h : Quiet s t) (hs : s.CopiesOk) : t.CopiesOk := by
  cases h with
  | complete pins causes => exact State.copiesOk_of_empty (State.completed_record s pins causes) (State.completed_disp s pins causes)
  | notify m => exact hs.congr (by simp) (by simp)
  | hold c =>
    have hholds : (s.hold c).holds = s.holds :=
      State.holds_congr (fun k => by unfold State.hold; split <;> simp [State.disp, State.haltForReset])
        fun k => by unfold State.hold; split <;> simp [State.disp, State.haltForReset]
    rw [State.copiesOk_iff, hholds]
    refine (State.copiesOk_iff.1 hs).congr fun n => ?_
    unfold State.hold
    split <;> rfl
  | aside | port | session | line | entry | holder | fetch | epoch | endHold => exact hs.congr (fun _ => rfl) fun _ => rfl

theorem Touches.recordsOk {s t : State} (h : Touches s t) (hs : s.RecordsOk) : t.RecordsOk := by
  induction h with
  | refl => exact hs
  | tail _ hw ih => exact hw.recordsOk ih

/-- Every update keeps copies and holders in agreement (R4, R63, R88). -/
theorem Stir.copiesOk {s₀ s t : State} (h : Stir s₀ s t) (hosts : s.HostsOk) (hok : s.RecordsOk) (hs : s.CopiesOk) : t.CopiesOk := by
  cases h with
  | quiet h => exact h.copiesOk hs
  | take | rouse | floor => exact hs.congr (fun _ => rfl) fun _ => rfl
  | withdraw p => exact State.CopiesOk.withdraw hs hok p _
  | offer _ hready hfill => exact hs.makeOffer hready hfill
  | wake => exact hs.congr (by simp) (by simp)
  | serve _ ho hr => exact hs.serve hok ho hr
  | handBack _ ho hr => exact hs.handBackOffer hok ho hr
  | pop _ he => exact hs.popTop hok (hosts _).increasing he
  | post _ hn _ _ hroute => exact hs.openRecord hn rfl hroute
  | arrive l => exact hs.arrive hok l
  | free _ hr hserved hno => exact hs.freeSlot (hno.noneAt hs hr hserved)
  | keepServed _ hr hm hne hno =>
    exact hs.written hr (State.record_setRecord s _ · _) (fun _ => rfl) fun hn => hn.served hm hne hno
  | rebuild _ hr hp hno =>
    refine hs.written hr (State.record_setRecord s _ · _) (fun _ => rfl) fun _ => ?_
    exact .fresh (hno.noneAt hs hr (.inl hp)) rfl (hok.2 _).2.1
  | attach =>
    refine (SlotWorks.roundEnds _).copiesOk (State.AgreesWith.roundEnds ?_ hok)
    exact State.copiesOk_iff.1 (hs.congr (fun _ => rfl) fun _ => rfl)
  | @teardown h _ _ =>
    refine State.CopiesOk.teardown ?_ ?_ ?_ _
    · exact hs.congr (fun _ => rfl) fun _ => rfl
    · exact hok
    · exact (hosts h).increasing
  | timeout =>
    refine (SlotWorks.roundEndDelivered _ _).copiesOk (State.AgreesWith.roundEndDelivered ?_ ((Touches.withdraw ..).recordsOk hok) _)
    exact State.copiesOk_iff.1 (State.CopiesOk.withdraw hs hok _ _)

/-- Settles O11: every update keeps copies and holders in agreement, with the hosts and the records as they are. -/
theorem copiesKept : Obligations.CopiesKept := by
  unfold Obligations.CopiesKept
  intro s t hosts _ hok hs h
  obtain ⟨-, -, ht⟩ := step_keeps (I := fun u => u.HostsOk ∧ u.RecordsOk ∧ u.CopiesOk)
    (fun _ _ _ ⟨hosts₀, _⟩ hstir ⟨hosts, hok, hs⟩ =>
      ⟨hstir.hostsOk hosts₀ hosts, hstir.touches.recordsOk hok, hstir.copiesOk hosts hok hs⟩) ⟨hosts, hok, hs⟩ h
  exact ht

end Sys2Proof.Machine
end

