-- ==== Sys2Proof/Proofs/QuietInvariants.lean ====
section
/-! SUPPORT. The quotas, the detectors, the epoch and the reset, kept by every update. -/

namespace Sys2Proof.Machine

/-! ### The quotas, the detectors, the epoch and the reset

Only quiet updates touch these; every other update leaves them alone. -/

/-- What an update leaves alone that is not quiet. -/
structure Steady (s t : State) : Prop where
  lines : t.lines = s.lines
  epoch : t.epoch = s.epoch
  inReset : t.inReset = s.inReset
  quota : ∀ h, (t.session h).quota = (s.session h).quota

theorem Steady.refl (s : State) : Steady s s := ⟨rfl, rfl, rfl, fun _ => rfl⟩

theorem Steady.trans {s t u : State} (h : Steady s t) (h' : Steady t u) : Steady s u :=
  ⟨h'.lines.trans h.lines, h'.epoch.trans h.epoch, h'.inReset.trans h.inReset, fun k => (h'.quota k).trans (h.quota k)⟩

theorem SlotWorks.steady {s t : State} (w : SlotWorks s t) : Steady s t := ⟨w.lines, w.epoch, w.inReset, fun h => by rw [w.session]⟩

theorem Steady.updSession (s : State) (h : HostId) {f : Session → Session} (hf : ∀ e, (f e).quota = e.quota) : Steady s (s.updSession h f) :=
  ⟨rfl, rfl, rfl, fun k => by rw [State.session_updSession]; split <;> simp_all⟩

theorem Steady.withdraw (s : State) (h : HostId) (reason : Reason) : Steady s (s.withdraw h reason) := ⟨by simp, by simp, by simp, by simp⟩

theorem Stir.steady {s₀ s t : State} (h : Stir s₀ s t) : Quiet s t ∨ s.running ∧ Steady s t := by
  cases h with
  | quiet h => exact .inl h
  | take hr | post hr | free hr | keepServed hr | rebuild hr => exact .inr ⟨hr, rfl, rfl, rfl, fun _ => rfl⟩
  | withdraw p hr => exact .inr ⟨hr, Steady.withdraw s p _⟩
  | offer hr => exact .inr ⟨hr, by simp, by simp, by simp, by simp⟩
  | wake p hr =>
    refine .inr ⟨hr, ?_⟩
    unfold State.takeWake
    split
    · exact .updSession s p fun _ => rfl
    · exact .refl s
  | rouse hr | floor hr => exact .inr ⟨hr, .updSession s _ fun _ => rfl⟩
  | serve hr => exact .inr ⟨hr, rfl, rfl, rfl, fun k => by rw [State.serve_session]; split <;> simp_all⟩
  | handBack hr ho hrec =>
    refine .inr ⟨hr, .trans ?_ (SlotWorks.handBackOffer hrec).steady⟩
    exact ⟨rfl, rfl, rfl, fun k => by rw [State.takeOffer_session]; split <;> simp_all⟩
  | pop hr =>
    refine .inr ⟨hr, .trans ?_ (SlotWorks.popTop s _ _).steady⟩
    exact ⟨rfl, rfl, rfl, fun _ => rfl⟩
  | arrive l hr => exact .inr ⟨hr, (SlotWorks.arrive s l).steady⟩
  | @attach p depth _ hr =>
    refine .inr ⟨hr, .trans ?_ (SlotWorks.steady (SlotWorks.roundEnds _))⟩
    exact .trans (.updSession s p (f := fun e => e.opened depth) fun _ => rfl) ⟨rfl, rfl, rfl, fun _ => rfl⟩
  | @teardown h final k hr =>
    refine .inr ⟨hr, by simp, by simp, by simp, fun k => ?_⟩
    rw [State.teardown_session]
    split <;> simp_all [State.session_updSession]
  | timeout hr => exact .inr ⟨hr, (Steady.withdraw s _ _).trans (SlotWorks.roundEndDelivered _ _).steady⟩

theorem State.QuotaOk.congr {s t : State} (hs : s.QuotaOk) (h : ∀ k, (t.session k).quota = (s.session k).quota) : t.QuotaOk := by
  simpa [State.QuotaOk, State.quotaSum, h] using hs

theorem State.hold_session_quota (s : State) (c : Cause) (k : HostId) : ((s.hold c).session k).quota = (s.session k).quota := by
  unfold State.hold
  split
  · simp [State.session, State.haltForReset]
  · rfl

theorem Stir.quotaOk {s₀ s t : State} (h : Stir s₀ s t) (hs : s.QuotaOk) : t.QuotaOk := by
  rcases h.steady with h | ⟨-, h⟩
  · cases h with
    | session _ _ hq => exact hq hs
    | notify m => exact hs.congr (by simp)
    | hold c => exact hs.congr (State.hold_session_quota s c)
    | complete pins causes => simp [State.QuotaOk, State.quotaSum, State.completed_session, Session.initial]
    | aside | port | line | entry | holder | fetch | epoch | endHold => exact hs.congr fun _ => rfl
  · exact hs.congr h.quota

theorem State.DetectorsOk_iff {s : State} : s.DetectorsOk ↔ (s.running → ∀ l, (s.line l).Agrees) := Iff.rfl

theorem State.hold_not_running (s : State) (c : Cause) : ¬ (s.hold c).running := by
  unfold State.hold
  split <;> rintro ⟨⟩

theorem Stir.detectorsOk {s₀ s t : State} (h : Stir s₀ s t) (hs : s.DetectorsOk) : t.DetectorsOk := by
  rw [State.DetectorsOk_iff] at hs ⊢
  intro hr l
  rcases h.steady with h | ⟨-, h⟩
  · cases h with
    | line hr' hv =>
      rw [State.line_setLine]
      split
      · exact hv (hs hr' _)
      · exact hs hr' l
    | notify m hr' => simpa using hs hr' l
    | hold c => exact absurd hr (State.hold_not_running s c)
    | endHold => cases hr
    | complete pins causes => rw [State.completed_line]; exact trivial
    | aside | port | session | entry | holder | fetch | epoch => exact hs hr l
  · rw [State.line_congr h.lines]
    exact hs (h.inReset.symm.trans hr) l

theorem nextEpoch_ne_zero (e : BitVec 16) : nextEpoch e ≠ 0 := by
  unfold nextEpoch
  split
  · decide
  · rename_i hne
    intro h
    exact hne (by bv_omega)

theorem Stir.epochOk {s₀ s t : State} (h : Stir s₀ s t) (hs : s.EpochOk) : t.EpochOk := by
  rcases h.steady with h | ⟨-, h⟩
  · cases h with
    | epoch he => exact he
    | notify m => simpa [State.EpochOk] using hs
    | hold c =>
      have : (s.hold c).epoch = s.epoch := by unfold State.hold; split <;> rfl
      simpa [State.EpochOk, this] using hs
    | complete pins causes =>
      rw [State.EpochOk, State.completed_epoch]
      split
      · decide
      · exact nextEpoch_ne_zero _
    | aside | port | session | line | entry | holder | fetch | endHold => exact hs
  · rw [State.EpochOk, h.epoch]; exact hs

/-- A running hub has no reset to be as R165 says. -/
theorem State.ResetOk.of_running {s : State} (hr : s.running) : s.ResetOk :=
  ⟨fun r hr' => (by rw [hr] at hr'; cases hr'), fun h => absurd hr h⟩

/-- What a hub in reset holds of queues, timers and exchanges (R165, R187). -/
def State.Halted (s : State) : Prop :=
  (∀ h, (s.port h).queue = [] ∧ (s.port h).partMark = false ∧ (∀ x, (s.port h).cs ≠ .live x) ∧ (s.disp h).claimTimer = none ∧
    (s.session h).wakeTimer = none) ∧ ∀ l a p e, (s.line l).detector ≠ .qualifying a p e

theorem State.haltForReset_halted (s : State) : s.haltForReset.Halted := by
  refine ⟨fun h => ⟨?_, ?_, fun x => ?_, ?_, ?_⟩, fun l a p e => ?_⟩
  · simp [State.port, State.haltForReset]
  · simp [State.port, State.haltForReset]
  · simpa [State.port, State.haltForReset] using ChipSelect.cut_ne_live _ x
  · simp [State.disp, State.haltForReset]
  · simp [State.session, State.haltForReset]
  · have hline : s.haltForReset.line l = { s.line l with detector := (s.line l).detector.stopped } := getElem_mapTable _ _ _ l.isLt
    rw [hline]
    cases hd : (s.line l).detector <;> simp [Detector.stopped]

theorem CauseSet.insert_ne_empty (u : CauseSet) (c : Cause) : u.insert c ≠ CauseSet.empty := fun h => by
  have := CauseSet.eq_empty_iff.1 h c
  simp [CauseSet.has_insert] at this

/-- A hold that appears (R165). -/
theorem State.ResetOk.hold {s : State} (hs : s.ResetOk) (c : Cause) : (s.hold c).ResetOk := by
  unfold State.hold
  split
  · exact ⟨by rintro _ ⟨⟩; exact ⟨CauseSet.insert_ne_empty _ c, fun _ h => h⟩, fun _ => s.haltForReset_halted⟩
  · rename_i r hr
    refine ⟨?_, fun _ => hs.2 (by rw [hr]; nofun)⟩
    rintro _ ⟨⟩
    refine ⟨CauseSet.insert_ne_empty _ c, fun d hd => ?_⟩
    rw [CauseSet.has_insert, Bool.or_eq_true] at hd ⊢
    exact hd.imp_right ((hs.1 r hr).2 d)

theorem Quiet.resetOk {s t : State} (h : Quiet s t) (hs : s.ResetOk) : t.ResetOk := by
  cases h with
  | aside | entry | holder | fetch | epoch => exact hs
  | session hr | line hr => exact .of_running hr
  | notify m hr => exact .of_running (State.running.of_eq hr (by simp))
  | complete pins causes => exact .of_running (State.completed_running s pins causes)
  | hold c => exact hs.hold c
  | @endHold r c hr hne =>
    refine ⟨?_, fun _ => hs.2 (by rw [hr]; nofun)⟩
    rintro _ ⟨⟩
    refine ⟨hne, fun d hd => (hs.1 r hr).2 d ?_⟩
    rw [CauseSet.has_erase, Bool.and_eq_true] at hd
    exact hd.2
  | @port p q hw =>
    by_cases hrun : s.running
    · exact .of_running hrun
    · cases hw with
      | message hr => exact absurd hr hrun
      | marks hq hr =>
        obtain ⟨hpart, hcs⟩ := hr.resolve_left hrun
        refine ⟨hs.1, fun hne => ?_⟩
        obtain ⟨hports, hlines⟩ := hs.2 hne
        refine ⟨fun h => ?_, hlines⟩
        rw [State.port_updPort]
        split
        · rename_i hp
          subst hp
          obtain ⟨hqueue, hmark, -, htimers⟩ := hports h
          exact ⟨hq.trans hqueue, hpart.trans hmark, hcs, htimers⟩
        · exact hports h

theorem Stir.resetOk {s₀ s t : State} (h : Stir s₀ s t) (hs : s.ResetOk) : t.ResetOk := by
  rcases h.steady with h | ⟨hr, h⟩
  · exact h.resetOk hs
  · exact .of_running (h.inReset.trans hr)

end Sys2Proof.Machine
end

