-- ==== Sys2Proof/Proofs/GuestInvariants.lean ====
section
/-! SUPPORT. The lease holders and the loss list, kept by every update. -/

namespace Sys2Proof.Machine

/-! ### The leases and the loss list (R143, R158)

Both speak of the attached hosts. A teardown takes its host out of both; after every other update each attached host is still attached. -/

/-- What an update before its work on the slots leaves alone, when it detaches no host. -/
structure Lodges (s t : State) : Prop where
  loss : t.loss = s.loss
  missed : t.missed = s.missed
  leases : t.leases = s.leases
  attached : ∀ h, s.attached h = true → t.attached h = true

theorem Lodges.refl (s : State) : Lodges s s := ⟨rfl, rfl, rfl, fun _ h => h⟩

theorem Lodges.updSession (s : State) (p : HostId) {f : Session → Session} (hf : s.attached p = true → (f (s.session p)).state.attached = true) :
    Lodges s (s.updSession p f) := ⟨rfl, rfl, rfl, fun h ha => by
  rw [State.attached, State.session_updSession]
  split
  · rename_i hh; exact hf (hh ▸ ha)
  · exact ha⟩

theorem Lodges.withdraw (s : State) (p : HostId) (reason : Reason) : Lodges s (s.withdraw p reason) :=
  ⟨by simp, by simp, by simp, by simp⟩

theorem Stir.lodges {s₀ s t : State} (h : Stir s₀ s t) : Quiet s t ∨
    (∃ p final k, (final = .absent ∨ final = .lost) ∧ t = ((s.updSession p fun e => { e with missCount := k }).teardown p final).state) ∨
    ∃ u, Lodges s u ∧ SlotWorks u t := by
  have plain {s t : State} (h : Lodges s t) : Quiet s t ∨
      (∃ p final k, (final = .absent ∨ final = .lost) ∧ t = ((s.updSession p fun e => { e with missCount := k }).teardown p final).state) ∨
      ∃ u, Lodges s u ∧ SlotWorks u t := .inr (.inr ⟨t, h, .refl⟩)
  cases h with
  | quiet h => exact .inl h
  | take | post | free | keepServed | rebuild => exact plain ⟨rfl, rfl, rfl, fun _ h => h⟩
  | withdraw p => exact plain (Lodges.withdraw s p _)
  | offer => exact plain ⟨by simp, by simp, by simp, by simp⟩
  | wake p =>
    refine plain ?_
    unfold State.takeWake
    split
    · exact .updSession s p fun _ => rfl
    · exact .refl s
  | rouse _ _ hv => exact plain (.updSession s _ fun _ => hv)
  | floor => exact plain (.updSession s _ fun h => h)
  | @serve p o r =>
    refine plain ⟨rfl, rfl, rfl, fun h ha => ?_⟩
    rw [State.attached, State.serve_session]
    split
    · rename_i hh; exact hh ▸ ha
    · exact ha
  | @handBack p o r _ _ hrec =>
    refine .inr (.inr ⟨s.takeOffer p o, ⟨rfl, rfl, rfl, fun h ha => ?_⟩, SlotWorks.handBackOffer hrec⟩)
    rw [State.attached, State.takeOffer_session]
    split
    · rename_i hh; exact hh ▸ ha
    · exact ha
  | @pop p e =>
    refine .inr (.inr ⟨_, ?_, SlotWorks.popTop s p e⟩)
    exact ⟨rfl, rfl, rfl, fun _ h => h⟩
  | arrive l => exact .inr (.inr ⟨s, .refl s, SlotWorks.arrive s l⟩)
  | @attach p depth m =>
    refine .inr (.inr ⟨_, ?_, SlotWorks.roundEnds _⟩)
    obtain ⟨hloss, hmissed, hleases, hatt⟩ := Lodges.updSession s p (f := fun e => e.opened depth) fun _ => rfl
    exact ⟨hloss, hmissed, hleases, hatt⟩
  | teardown _ hf => exact .inr (.inl ⟨_, _, _, hf, rfl⟩)
  | timeout => exact .inr (.inr ⟨_, Lodges.withdraw s _ _, SlotWorks.roundEndDelivered _ _⟩)

theorem State.hold_attached (s : State) (c : Cause) (h : HostId) : (s.hold c).attached h = s.attached h := by
  unfold State.hold
  split
  · simp [State.attached, State.session, State.haltForReset]
  · rfl

theorem State.attached_tuned {s : State} {p : HostId} {e : Session} (he : (s.session p).Tuned e) (h : HostId) :
    (s.updSession p fun _ => e).attached h = s.attached h := by
  rw [State.attached, State.session_updSession]
  split
  · rename_i hh; rw [he.state, hh]; rfl
  · rfl

/-! #### Leases -/

theorem State.LeasesOk.congr {s t : State} (hs : s.LeasesOk) (hleases : t.leases = s.leases)
    (hatt : ∀ h, s.attached h = true → t.attached h = true) : t.LeasesOk := fun g h hg =>
  hatt h (hs g h (by rw [← State.holder_congr hleases]; exact hg))

theorem State.LeasesOk.teardown {s : State} (hs : s.LeasesOk) (h : HostId) (final : HostState) : (s.teardown h final).state.LeasesOk := by
  intro g k hg
  rw [State.teardown_holder] at hg
  split at hg
  · cases hg
  · rename_i hne
    rw [State.attached, State.teardown_session, if_neg]
    · exact hs g k hg
    · rintro rfl; exact hne hg

theorem Stir.leasesOk {s₀ s t : State} (h : Stir s₀ s t) (hs : s.LeasesOk) : t.LeasesOk := by
  rcases h.lodges with h | ⟨p, final, k, -, rfl⟩ | ⟨u, hu, w⟩
  · cases h with
    | aside | port | line | entry | fetch | epoch | endHold => exact hs.congr rfl fun _ h => h
    | notify m => exact hs.congr (by simp) (by simp)
    | session _ he => exact hs.congr rfl fun h ha => by rw [State.attached_tuned he]; exact ha
    | holder hv =>
      intro g h hg
      rw [State.holder_setHolder] at hg
      split at hg
      · exact hv h hg
      · exact hs g h hg
    | hold c => exact hs.congr (by unfold State.hold; split <;> rfl) fun h ha => by rw [State.hold_attached]; exact ha
    | complete pins causes => intro g h hg; rw [State.completed_holder] at hg; cases hg
  · have hu := Lodges.updSession s p (f := fun e => { e with missCount := k }) fun h => h
    exact (hs.congr hu.leases hu.attached).teardown p final
  · exact hs.congr (w.leases.trans hu.leases) fun h ha => by rw [w.attached]; exact hu.attached h ha

/-! #### The loss list -/

/-- The loss list is as R158 says, its unread sets within a set of hosts. -/
def State.LossWithin (s : State) (hosts : HostId → Prop) : Prop :=
  s.loss.length ≤ 16 ∧ (∀ e ∈ s.loss, HostSet.isEmpty e.unread = false ∧ ∀ h, e.unread.get h = true → hosts h) ∧ ∀ h, s.missed.get h ≤ 255

theorem State.LossWithin.congr {s t : State} {hosts hosts' : HostId → Prop} (hs : s.LossWithin hosts) (hloss : t.loss = s.loss)
    (hmissed : t.missed = s.missed) (hle : ∀ h, hosts h → hosts' h) : t.LossWithin hosts' := by
  obtain ⟨hlen, hentries, hcount⟩ := hs
  rw [State.LossWithin, hloss, hmissed]
  exact ⟨hlen, fun e he => ⟨(hentries e he).1, fun h hh => hle h ((hentries e he).2 h hh)⟩, hcount⟩

/-- The unread set of a new entry holds attached hosts (R160). -/
theorem State.unreadFor_attached {s : State} {route : List HostId} {h : HostId} (hh : (s.unreadFor route).get h = true) :
    s.attached h = true := by
  unfold State.unreadFor at hh
  dsimp only at hh
  split at hh
  · simpa using hh
  · simp only [PerHost.get_ofFn, Bool.and_eq_true] at hh; exact hh.1

/-- A loss entry made (R158 to R161). -/
theorem State.LossWithin.makeLoss {s : State} {hosts : HostId → Prop} (hs : s.LossWithin hosts) (hatt : ∀ h, s.attached h = true → hosts h)
    (cause : LossCause) (n : SlotNo) (r : Record) (host : Option HostId) : (s.makeLoss cause n r host).LossWithin hosts := by
  obtain ⟨hlen, hentries, hcount⟩ := hs
  unfold State.makeLoss
  dsimp only
  split
  · exact ⟨hlen, hentries, hcount⟩
  · rename_i hne
    split
    · rename_i hlt
      refine ⟨by rw [List.length_append, List.length_singleton]; exact hlt, fun e he => ?_, hcount⟩
      rcases List.mem_append.1 he with he | he
      · exact hentries e he
      · rw [List.mem_singleton] at he
        subst he
        exact ⟨by simpa using hne, fun h hh => hatt h (State.unreadFor_attached hh)⟩
    · refine ⟨hlen, hentries, fun h => ?_⟩
      simp only [PerHost.get_ofFn]
      split
      · exact min_le_left _ _
      · exact hcount h

theorem SlotWorks.lossWithin {s t : State} (w : SlotWorks s t) {hosts : HostId → Prop} (hatt : ∀ h, s.attached h = true → hosts h)
    (hs : s.LossWithin hosts) : t.LossWithin hosts := by
  induction w with
  | refl => exact hs
  | @tail u v w hw ih =>
    have hatt' (h : HostId) (ha : u.attached h = true) : hosts h := hatt h (by rw [← SlotWorks.attached w]; exact ha)
    cases hw with
    | amend | opens | frees | reopens => exact ih.congr rfl rfl fun _ h => h
    | loses => exact ih.makeLoss hatt' ..
    | notifies => exact ih.congr (by simp) (by simp) fun _ h => h

/-- A torn-down host leaves every unread set, and the entries left with none go (R136). -/
theorem State.LossOk.teardown {s : State} (hs : s.LossOk) (h : HostId) {final : HostState} (hf : final.attached = false) :
    (s.teardown h final).state.LossOk := by
  have hother {k : HostId} (hk : k ≠ h) : (s.unseated h final).attached k = s.attached k := by
    rw [State.attached, State.session_updSession, if_neg hk]; rfl
  have hatt (k : HostId) (ha : (s.unseated h final).attached k = true) : s.attached k = true := by
    by_cases hk : k = h
    · subst hk
      rw [State.attached, State.session_updSession, if_pos rfl] at ha
      exact absurd ha (by simp [hf])
    · rwa [← hother hk]
  have hstart : (TeardownWork.endOffer ⟨s.unseated h final, 0, 0⟩ h).state.LossWithin (s.attached · = true) := by
    cases ho : ((s.unseated h final).disp h).offer with
    | none => rw [TeardownWork.endOffer_none ho]; exact hs
    | some o => exact (SlotWorks.endOffer (w := ⟨s.unseated h final, 0, 0⟩) ho).lossWithin hatt hs
  have hcleared : (s.cleared h final).LossWithin (s.attached · = true) := by
    refine (SlotWorks.cleared s h final).lossWithin (fun k ha => hatt k ?_) hstart
    simpa [State.unburdened] using ha
  obtain ⟨hlen, hentries, hcount⟩ := hcleared
  rw [State.LossOk, State.teardown_loss]
  refine ⟨(List.length_filter_le _ _).trans (by rwa [List.length_map]), fun e he => ?_, fun k => ?_⟩
  · obtain ⟨hmapped, hne⟩ := List.mem_filter.1 he
    obtain ⟨v, hmem, rfl⟩ := List.mem_map.1 hmapped
    refine ⟨by simpa using hne, fun k hk => ?_⟩
    rw [PerHost.get_set] at hk
    split at hk
    · cases hk
    · rename_i hkh
      rw [State.attached, State.teardown_session, if_neg hkh]
      exact (hentries v hmem).2 k hk
  · rw [State.teardown_missed]
    split
    · exact Nat.zero_le _
    · exact hcount k

/-- A fetch takes the host out of one entry (R162). -/
theorem fetchFrom_within {hosts : HostId → Prop} (h : HostId) (l : List LossEntry)
    (hl : ∀ e ∈ l, HostSet.isEmpty e.unread = false ∧ ∀ k, e.unread.get k = true → hosts k) :
    (fetchFrom h l).length ≤ l.length ∧ ∀ e ∈ fetchFrom h l, HostSet.isEmpty e.unread = false ∧ ∀ k, e.unread.get k = true → hosts k := by
  induction l with
  | nil => exact ⟨le_rfl, hl⟩
  | cons e es ih =>
    rw [List.forall_mem_cons] at hl
    obtain ⟨he, hes⟩ := hl
    obtain ⟨hlen, hfetched⟩ := ih hes
    unfold fetchFrom
    split
    · dsimp only
      split
      · exact ⟨Nat.le_succ _, hes⟩
      · rename_i hne
        refine ⟨le_rfl, List.forall_mem_cons.2 ⟨⟨by simpa using hne, fun k hk => ?_⟩, hes⟩⟩
        rw [PerHost.get_set] at hk
        split at hk
        · cases hk
        · exact he.2 k hk
    · exact ⟨Nat.succ_le_succ hlen, List.forall_mem_cons.2 ⟨he, hfetched⟩⟩

theorem Stir.lossOk {s₀ s t : State} (h : Stir s₀ s t) (hs : s.LossOk) : t.LossOk := by
  have hs' : s.LossWithin (s.attached · = true) := hs
  rcases h.lodges with h | ⟨p, final, k, hf, rfl⟩ | ⟨u, hu, w⟩
  · cases h with
    | aside | port | line | entry | holder | epoch | endHold => exact hs'.congr rfl rfl fun _ h => h
    | notify m => exact hs'.congr (by simp) (by simp) (by simp)
    | session _ he => exact hs'.congr rfl rfl fun h ha => by rw [State.attached_tuned he]; exact ha
    | fetch p =>
      obtain ⟨hlen, hentries, hcount⟩ := hs
      obtain ⟨hle, hfetched⟩ := fetchFrom_within p s.loss hentries
      refine ⟨hle.trans hlen, hfetched, fun h => ?_⟩
      rw [PerHost.get_set]
      split
      · exact Nat.zero_le _
      · exact hcount h
    | hold c =>
      refine hs'.congr ?_ ?_ fun h ha => by rw [State.hold_attached]; exact ha
      · unfold State.hold; split <;> rfl
      · unfold State.hold; split <;> rfl
    | complete pins causes => simp [State.LossOk, State.completed_loss, State.completed_missed]
  · have hu := Lodges.updSession s p (f := fun e => { e with missCount := k }) fun h => h
    refine State.LossOk.teardown (hs'.congr hu.loss hu.missed hu.attached) p ?_
    rcases hf with rfl | rfl <;> rfl
  · refine SlotWorks.lossWithin w (fun h ha => by rw [w.attached]; exact ha) (hs'.congr hu.loss hu.missed fun h ha => ?_)
    rw [w.attached]; exact hu.attached h ha

end Sys2Proof.Machine
end

