-- ==== Sys2Proof/Proofs/QueueInvariants.lean ====
section
/-! SUPPORT. The outbound queues, kept by every update. -/

namespace Sys2Proof.Machine

/-! ### The outbound queues (R75, R177) -/

/-- A queue as R177 and R75 say, beside the offer outstanding at its host. -/
def QueueOk (q : List Msg) (offer : Option Offer) : Prop := QueueFits q ∧ OfferBehindWithdraw q offer

theorem QueueFits.sublist {q q' : List Msg} (hq : QueueFits q) (h : q'.Sublist q) : QueueFits q' :=
  ⟨h.countP_le.trans hq.1, h.countP_le.trans hq.2⟩

theorem offerBehindWithdraw_none (q : List Msg) : OfferBehindWithdraw q none := by rintro _ _ _ _ - - ⟨⟩

theorem queueOk_nil {q : List Msg} {offer : Option Offer} (hq : q = []) : QueueOk q offer := by
  subst hq
  exact ⟨by simp [QueueFits, nonWithdraw], fun before after w o he => by simp at he⟩

/-- A WITHDRAW stands in an extended queue just where it stood, when the new message is none. -/
theorem eq_append_of_withdraw {q before after : List Msg} {m w : Msg} (h : q ++ [m] = before ++ w :: after) (hw : w.isWithdraw = true)
    (hm : m.isWithdraw = false) : ∃ rest, after = rest ++ [m] ∧ q = before ++ w :: rest := by
  rcases List.eq_nil_or_concat' after with rfl | ⟨rest, x, rfl⟩
  · obtain ⟨-, hlast⟩ := List.append_inj' h rfl
    obtain rfl : m = w := by simpa using hlast
    rw [hm] at hw; cases hw
  · have h' : q ++ [m] = (before ++ w :: rest) ++ [x] := by simpa using h
    obtain ⟨hq, hlast⟩ := List.append_inj' h' rfl
    obtain rfl : m = x := by simpa using hlast
    exact ⟨rest, rfl, hq⟩

theorem QueueFits.push {q : List Msg} (hq : QueueFits q) {m : Msg} (hm : m.isWithdraw = false) (hroom : nonWithdraw q < 8) :
    QueueFits (q ++ [m]) := by
  refine ⟨?_, ?_⟩
  · rw [nonWithdraw_append, nonWithdraw_singleton hm]; exact hroom
  · rw [List.countP_append, List.countP_singleton, hm]; exact hq.2

theorem QueueOk.push {q : List Msg} {offer : Option Offer} (hq : QueueOk q offer) {m : Msg} (hm : m.isWithdraw = false)
    (hroom : nonWithdraw q < 8) : QueueOk (q ++ [m]) offer := by
  refine ⟨hq.1.push hm hroom, fun before after w o he hw ho => ?_⟩
  obtain ⟨rest, rfl, hold⟩ := eq_append_of_withdraw he hw hm
  rw [List.any_append, hq.2 before rest w o hold hw ho]
  rfl

/-- A new offer's OFFER stands behind every WITHDRAW (R75). -/
theorem QueueOk.pushOffer {q : List Msg} {o : Offer} (hq : QueueFits q) {m : Msg} (hm : m.offers o.handle = true) (hlen : q.length ≤ 5) :
    QueueOk (q ++ [m]) (some o) := by
  have hle : nonWithdraw q ≤ q.length := List.countP_le_length
  refine ⟨hq.push (Msg.not_isWithdraw_of_offers hm) (by omega), fun before after w o' he hw ho => ?_⟩
  cases ho
  obtain ⟨rest, rfl, -⟩ := eq_append_of_withdraw he hw (Msg.not_isWithdraw_of_offers hm)
  simp [hm]

theorem QueueOk.tail {m : Msg} {q : List Msg} {offer : Option Offer} (hq : QueueOk (m :: q) offer) : QueueOk q offer :=
  ⟨hq.1.sublist (List.sublist_cons_self m q), fun before after w o he hw ho => hq.2 (m :: before) after w o (by rw [he]; rfl) hw ho⟩

theorem Port.queueWithoutOffer_sublist {p : Port} {hd : Handle} {q : List Msg} (h : p.queueWithoutOffer hd = some q) : q.Sublist p.queue := by
  obtain ⟨before, m, after, hq, rfl, -⟩ := Port.queueWithoutOffer_some h
  rw [hq]
  exact (List.sublist_cons_self m after).append_left before

/-- The OFFER behind a WITHDRAW is not carried, so it can be deleted (R75). -/
theorem Port.queueWithoutOffer_behind {p : Port} {hd : Handle} {before after : List Msg} {w : Msg} (hq : p.queue = before ++ w :: after)
    (h : after.any (Msg.offers hd) = true) : p.queueWithoutOffer hd ≠ none := by
  unfold Port.queueWithoutOffer
  split
  · rw [hq]
    cases before with
    | nil => simpa using Option.isSome_iff_ne_none.1 (dropOffer_isSome h)
    | cons x before =>
      have hany : (before ++ w :: after).any (Msg.offers hd) = true := by simp_all
      simpa using Option.isSome_iff_ne_none.1 (dropOffer_isSome hany)
  · exact Option.isSome_iff_ne_none.1 (dropOffer_isSome (by rw [hq]; simp_all))

/-- The withdrawal of an offer queues at most one WITHDRAW: while one is queued, the OFFER is deleted (R75, R177). -/
theorem QueueOk.endOffer {p : Port} {o : Offer} (hq : QueueOk p.queue (some o)) (reason : Reason) :
    QueueOk (p.endOffer o.handle reason).queue none := by
  refine ⟨?_, offerBehindWithdraw_none _⟩
  obtain ⟨hfits, hbehind⟩ := hq
  unfold Port.endOffer
  split
  · rename_i q hdrop; exact hfits.sublist (Port.queueWithoutOffer_sublist hdrop)
  · rename_i hdrop
    have hnone : p.queue.countP Msg.isWithdraw = 0 := by
      refine List.countP_eq_zero.2 fun w hw hwith => ?_
      obtain ⟨before, after, he⟩ := List.append_of_mem hw
      exact Port.queueWithoutOffer_behind he (hbehind before after w o he hwith rfl) hdrop
    refine ⟨?_, ?_⟩
    · rw [nonWithdraw_append]; exact hfits.1
    · rw [List.countP_append, hnone]; rfl

theorem QueueFits.deleteOffer {p : Port} (hq : QueueFits p.queue) (hd : Handle) : QueueFits (p.deleteOffer hd).queue := by
  unfold Port.deleteOffer
  split
  · rename_i q hdrop; exact hq.sublist (Port.queueWithoutOffer_sublist hdrop)
  · exact hq

/-! #### Every update keeps the queues -/

theorem State.QueuesOk.congr {s t : State} (hs : s.QueuesOk) (hq : ∀ h, (t.port h).queue = (s.port h).queue)
    (ho : ∀ h, (t.disp h).offer = (s.disp h).offer) : t.QueuesOk := fun h => by rw [hq, ho]; exact hs h

/-- One host's queue and offer change. -/
theorem State.QueuesOk.update {s t : State} (hs : s.QueuesOk) (p : HostId) (hq : ∀ h ≠ p, (t.port h).queue = (s.port h).queue)
    (ho : ∀ h ≠ p, (t.disp h).offer = (s.disp h).offer) (hp : QueueOk (t.port p).queue (t.disp p).offer) : t.QueuesOk := fun h => by
  by_cases hh : h = p
  · exact hh ▸ hp
  · rw [hq h hh, ho h hh]; exact hs h

/-- A COMPLETED notice finds room or is dropped (R118). -/
theorem State.QueuesOk.deliver {s : State} (hs : s.QueuesOk) (m : Notice) : (s.deliver m).QueuesOk := by
  unfold State.deliver
  split
  · split
    · rename_i hroom
      refine hs.update m.sender (fun h hh => ?_) (fun _ _ => rfl) ?_
      · rw [State.enqueue, State.port_updPort, if_neg hh]
      · rw [State.enqueue, State.port_updPort, if_pos rfl]
        exact QueueOk.push (hs m.sender) rfl (Nat.lt_succ_of_le (by simpa [Port.hasNoticeRoom] using hroom))
    · refine hs.congr (fun h => ?_) fun _ => rfl
      rw [State.port_updPort]
      split
      · rename_i hh; rw [hh]
      · rfl
  · exact hs

theorem SlotWorks.queuesOk {s t : State} (w : SlotWorks s t) (hs : s.QueuesOk) : t.QueuesOk := by
  induction w with
  | refl => exact hs
  | tail _ hw ih =>
    cases hw with
    | amend | opens | frees | reopens => exact ih.congr (fun _ => rfl) fun _ => rfl
    | loses => exact ih.congr (by simp) (by simp)
    | notifies m => exact ih.deliver m

theorem State.QueuesOk.withdraw {s : State} (hs : s.QueuesOk) (p : HostId) (reason : Reason) : (s.withdraw p reason).QueuesOk := by
  cases ho : (s.disp p).offer with
  | none => rwa [State.withdraw_none ho]
  | some o =>
    have hp := hs p
    rw [ho] at hp
    refine hs.update p (fun h hh => by rw [State.withdraw_port ho, if_neg hh]) (fun h hh => by rw [State.withdraw_offer, if_neg hh]) ?_
    rw [State.withdraw_port ho, if_pos rfl, State.withdraw_offer, if_pos rfl]
    exact QueueOk.endOffer hp reason

/-- A host that answers its offer has the OFFER deleted (R69). -/
theorem State.QueuesOk.answered {s t : State} (hs : s.QueuesOk) {p : HostId} {hd : Handle}
    (hq : ∀ h, t.port h = if h = p then (s.port p).deleteOffer hd else s.port h)
    (ho : ∀ h, (t.disp h).offer = if h = p then none else (s.disp h).offer) : t.QueuesOk := by
  refine hs.update p (fun h hh => by rw [hq, if_neg hh]) (fun h hh => by rw [ho, if_neg hh]) ?_
  rw [hq, if_pos rfl, ho, if_pos rfl]
  exact ⟨(hs p).1.deleteOffer hd, offerBehindWithdraw_none _⟩

theorem State.QueuesOk.makeOffer {s : State} (hs : s.QueuesOk) {h : HostId} {n : SlotNo} (hready : s.readyForOffer h = true)
    (hfill : s.Fillable h n) : (s.makeOffer h n).QueuesOk := by
  obtain ⟨r, hr, -⟩ := hfill
  refine hs.update h (fun k hk => by rw [State.makeOffer_port hr, if_neg hk]) (fun k hk => by rw [State.makeOffer_disp hr, if_neg hk]) ?_
  rw [State.makeOffer_port hr, if_pos rfl, State.makeOffer_disp hr, if_pos rfl]
  exact QueueOk.pushOffer (hs h).1 (by simp [Msg.offers]) (State.readyForOffer_iff.1 hready).2

/-- A torn-down host's queue is emptied; the others may get notices (R137). -/
theorem State.QueuesOk.teardown {s : State} (hs : s.QueuesOk) (h : HostId) (final : HostState) : (s.teardown h final).state.QueuesOk := by
  have hunseated : (s.unseated h final).QueuesOk := hs.congr (fun _ => rfl) fun _ => rfl
  have hend : (TeardownWork.endOffer ⟨s.unseated h final, 0, 0⟩ h).state.QueuesOk := by
    cases ho : ((s.unseated h final).disp h).offer with
    | none => rwa [TeardownWork.endOffer_none ho]
    | some o =>
      refine (SlotWorks.endOffer (w := ⟨s.unseated h final, 0, 0⟩) ho).queuesOk ?_
      refine hunseated.update h (fun _ _ => rfl) (fun k hk => by rw [State.disp_updDisp, if_neg hk]) ?_
      rw [State.disp_updDisp, if_pos rfl]
      exact ⟨(hunseated h).1, offerBehindWithdraw_none _⟩
  have hcleared : (s.cleared h final).QueuesOk := by
    refine (SlotWorks.cleared s h final).queuesOk (hend.congr (fun k => ?_) fun k => ?_)
    · simp [State.unburdened]
    · rw [State.unburdened, State.disp_updDisp]
      split
      · rename_i hk; rw [hk]
      · rfl
  refine hcleared.update h (fun k hk => by rw [State.teardown_port, if_neg hk]) (fun k hk => ?_) ?_
  · rw [State.teardown_disp, if_neg hk]
    rw [(SlotWorks.cleared s h final).disp k, State.unburdened_disp, if_neg hk, State.disp_updSession]
  · rw [State.teardown_port, if_pos rfl, State.teardown_disp, if_pos rfl]
    exact queueOk_nil rfl

theorem Quiet.queuesOk {s t : State} (h : Quiet s t) (hs : s.QueuesOk) : t.QueuesOk := by
  cases h with
  | aside | session | line | entry | holder | fetch | epoch | endHold => exact hs.congr (fun _ => rfl) fun _ => rfl
  | notify m => exact hs.deliver m
  | @port p q hw =>
    refine hs.update p (fun h hh => by rw [State.port_updPort, if_neg hh]) (fun _ _ => rfl) ?_
    rw [State.port_updPort, if_pos rfl]
    cases hw with
    | marks hq => rw [hq]; exact hs p
    | message _ hm hroom => exact QueueOk.push (hs p) hm hroom
  | hold c =>
    unfold State.hold
    split
    · intro h
      have hq : ((s.haltForReset.port h)).queue = [] := by simp [State.port, State.haltForReset]
      exact queueOk_nil hq
    · exact hs.congr (fun _ => rfl) fun _ => rfl
  | complete pins causes =>
    intro h
    rw [State.completed_port, State.completed_disp]
    exact queueOk_nil rfl

theorem Stir.queuesOk {s₀ s t : State} (h : Stir s₀ s t) (hs : s.QueuesOk) : t.QueuesOk := by
  cases h with
  | quiet h => exact h.queuesOk hs
  | post | free | keepServed | rebuild | rouse | floor => exact hs.congr (fun _ => rfl) fun _ => rfl
  | @take p q m _ hq =>
    refine hs.update p (fun h hh => by rw [State.port_updPort, if_neg hh]) (fun _ _ => rfl) ?_
    rw [State.port_updPort, if_pos rfl]
    exact QueueOk.tail (hq ▸ hs p)
  | withdraw p => exact State.QueuesOk.withdraw hs p _
  | offer _ hready hfill => exact hs.makeOffer hready hfill
  | wake => exact hs.congr (by simp) (by simp)
  | @serve p o r =>
    exact hs.answered (State.serve_port s p · o r) fun h => by rw [State.serve_disp]; split <;> rfl
  | @handBack p o r _ _ hrec =>
    refine (SlotWorks.handBackOffer hrec).queuesOk ?_
    exact hs.answered (State.takeOffer_port s p · o) fun h => by rw [State.takeOffer_disp]; split <;> rfl
  | @pop p e =>
    refine (SlotWorks.popTop s p e).queuesOk (hs.congr (fun _ => rfl) fun h => ?_)
    rw [State.disp_updDisp]
    split
    · rename_i hh; rw [hh]
    · rfl
  | arrive l => exact (SlotWorks.arrive s l).queuesOk hs
  | @attach p depth m _ _ _ hm hroom =>
    refine (SlotWorks.roundEnds _).queuesOk (hs.update p (fun h hh => ?_) (fun _ _ => rfl) ?_)
    · rw [State.enqueue, State.port_updPort, if_neg hh]; rfl
    · rw [State.enqueue, State.port_updPort, if_pos rfl]
      exact QueueOk.push (hs p) hm hroom
  | teardown =>
    refine State.QueuesOk.teardown ?_ _ _
    exact hs.congr (fun _ => rfl) fun _ => rfl
  | timeout => exact (SlotWorks.roundEndDelivered _ _).queuesOk (State.QueuesOk.withdraw hs _ _)

end Sys2Proof.Machine
end

