-- ==== Sys2Proof/Proofs/RoundInvariants.lean ====
section
/-! SUPPORT. No round end is due between updates. -/

namespace Sys2Proof.Machine

/-! ### No round end is due between updates (R54) -/

/-- No record's round has ended. -/
def State.RoundsOk (s : State) : Prop := ∀ n r, s.record n = some r → s.roundOver r = false

section
variable {s t : State} {r : Record}

theorem State.roundOver_iff : s.roundOver r = true ↔ r.mode = .any ∧ (∃ c ∈ r.copies, c.state = .waiting) ∧
    (∃ h ∈ r.route, s.attached h = true) ∧ ∀ h ∈ r.route, s.attached h = true → r.declined.get h = true := by
  simp only [State.roundOver, Bool.and_eq_true, decide_eq_true_eq, List.any_eq_true, List.all_eq_true, Bool.or_eq_true, Bool.not_eq_true', and_assoc]
  refine and_congr_right fun _ => and_congr_right fun _ => and_congr_right fun _ => forall₂_congr fun h _ => ?_
  cases s.attached h <;> simp

theorem State.roundOver_each (hm : r.mode = .each) : s.roundOver r = false := by
  rw [← Bool.not_eq_true, State.roundOver_iff]
  exact fun h => absurd (hm.symm.trans h.1) (by simp)

theorem State.roundOver_none_waiting (hw : ∀ c ∈ r.copies, c.state ≠ .waiting) : s.roundOver r = false := by
  rw [← Bool.not_eq_true, State.roundOver_iff]
  rintro ⟨-, ⟨c, hc, hwait⟩, -⟩
  exact hw c hc hwait

/-- A round goes on while an attached host of the route list has not declined (R54). -/
theorem State.roundOver_undeclined {h : HostId} (hon : h ∈ r.route) (ha : s.attached h = true) (hd : r.declined.get h = false) :
    s.roundOver r = false := by
  rw [← Bool.not_eq_true, State.roundOver_iff]
  rintro ⟨-, -, -, hall⟩
  simp [hall h hon ha] at hd

theorem State.roundOver_empty (hd : r.declined = HostSet.empty) : s.roundOver r = false := by
  rw [← Bool.not_eq_true, State.roundOver_iff]
  rintro ⟨-, -, ⟨h, hon, ha⟩, hall⟩
  simpa [hd] using hall h hon ha

theorem State.roundOver_congr (hatt : ∀ h, t.attached h = s.attached h) (r : Record) : t.roundOver r = s.roundOver r := by
  rw [Bool.eq_iff_iff, State.roundOver_iff, State.roundOver_iff]
  simp only [hatt]

/-- A record whose round goes on, with fewer copies or only its counts changed. -/
theorem State.roundOver_mono {r' : Record} (h : s.roundOver r = false) (hm : r'.mode = r.mode) (hroute : r'.route = r.route)
    (hd : r'.declined = r.declined) (hc : ∀ c ∈ r'.copies, c ∈ r.copies) : s.roundOver r' = false := by
  rw [← Bool.not_eq_true] at h ⊢
  refine fun h' => h ?_
  rw [State.roundOver_iff] at h' ⊢
  rw [hm, hroute, hd] at h'
  obtain ⟨hany, ⟨c, hmem, hw⟩, hrest⟩ := h'
  exact ⟨hany, ⟨c, hc c hmem, hw⟩, hrest⟩

theorem State.RoundsOk.congr (hs : s.RoundsOk) (hatt : ∀ h, t.attached h = s.attached h) (hrec : ∀ n, t.record n = s.record n) :
    t.RoundsOk := fun n r hr => by
  rw [State.roundOver_congr hatt]
  exact hs n r (by rw [← hrec]; exact hr)

/-- The record of one slot is written. -/
theorem State.RoundsOk.written (hs : s.RoundsOk) (hatt : ∀ h, t.attached h = s.attached h) {n : SlotNo} {r? : Option Record}
    (hrec : ∀ m, t.record m = if m = n then r? else s.record m) (hn : ∀ r, r? = some r → s.roundOver r = false) : t.RoundsOk :=
  fun m r hr => by
    rw [State.roundOver_congr hatt]
    rw [hrec] at hr
    split at hr
    · exact hn r hr
    · exact hs m r hr

/-! #### Completions and round ends -/

/-- A completion writes one slot: FREE, or a record with no host declined (R14 to R17). -/
theorem State.complete_record (s : State) (n : SlotNo) (r : Record) (outcome : CompletionOutcome) : ∃ r? : Option Record,
    (∀ m, (s.complete n r outcome).state.record m = if m = n then r? else s.record m) ∧ ∀ r', r? = some r' → r'.declined = HostSet.empty := by
  cases hsource : r.source with
  | host k => rw [State.complete_host hsource]; exact ⟨none, State.record_freeSlot s n, nofun⟩
  | line l =>
    cases hcount : reopenCount (s.entry l) (s.lineActive l) r.backlog with
    | none => rw [State.complete_line_free hsource hcount]; exact ⟨none, State.record_freeSlot s n, nofun⟩
    | some c =>
      rw [State.complete_line_reopen hsource hcount]
      exact ⟨_, fun m => State.record_reopenRecord s n m _, by rintro _ ⟨⟩; rfl⟩

theorem State.RoundsOk.complete (hs : s.RoundsOk) (n : SlotNo) (r : Record) (outcome : CompletionOutcome) :
    (s.complete n r outcome).state.RoundsOk := by
  obtain ⟨r?, hrec, hempty⟩ := s.complete_record n r outcome
  exact hs.written (by simp) hrec fun r' hr' => State.roundOver_empty (hempty r' hr')

theorem State.RoundsOk.removeCopy (hs : s.RoundsOk) (n : SlotNo) (h : HostId) : (s.removeCopy n h).state.RoundsOk := by
  cases hr : s.record n with
  | none => simpa [State.removeCopy, hr] using hs
  | some r =>
    rw [State.removeCopy_some hr]
    split
    · exact hs.complete n r .done
    · refine hs.written (fun _ => rfl) (State.record_setRecord s n · _) ?_
      rintro _ ⟨⟩
      exact State.roundOver_mono (hs n r hr) rfl rfl rfl fun c hc => List.mem_of_mem_filter hc

/-- A round end writes its own slot alone, and no round end is due there after it (R54, R55). -/
theorem State.roundEnd_record (s : State) (n : SlotNo) : ∃ r? : Option Record,
    (∀ m, (s.roundEnd n).1.record m = if m = n then r? else s.record m) ∧ ∀ r, r? = some r → s.roundOver r = false := by
  have kept (h : ∀ r, s.record n = some r → s.roundOver r = false) : ∃ r? : Option Record,
      (∀ m, s.record m = if m = n then r? else s.record m) ∧ ∀ r, r? = some r → s.roundOver r = false :=
    ⟨s.record n, fun m => by split <;> simp_all, h⟩
  unfold State.roundEnd
  split
  · rename_i hnone
    exact kept fun r hr => by rw [hnone] at hr; cases hr
  · rename_i r hr
    split
    · split
      · exact ⟨_, fun m => State.record_setRecord s n m _, by rintro _ ⟨⟩; exact State.roundOver_empty rfl⟩
      · obtain ⟨r?, hrec, hempty⟩ := (s.makeLoss .unwanted n r none).complete_record n r .dropped
        exact ⟨r?, fun m => by rw [hrec]; simp, fun v hv => State.roundOver_empty (hempty v hv)⟩
    · rename_i hover
      exact kept fun v hv => by rw [hr] at hv; cases hv; simpa using hover

theorem State.roundEndDelivered_record (s : State) (n : SlotNo) : ∃ r? : Option Record,
    (∀ m, (s.roundEndDelivered n).record m = if m = n then r? else s.record m) ∧ ∀ r, r? = some r → s.roundOver r = false := by
  obtain ⟨r?, hrec, hn⟩ := s.roundEnd_record n
  exact ⟨r?, fun m => by rw [State.roundEndDelivered, ← hrec]; simp, hn⟩

/-- A round end that is due at one slot at most. -/
theorem State.roundsOk_roundEnd {n : SlotNo} (hs : ∀ m r, m ≠ n → s.record m = some r → s.roundOver r = false) : (s.roundEnd n).1.RoundsOk := by
  obtain ⟨r?, hrec, hn⟩ := s.roundEnd_record n
  intro m r hr
  rw [State.roundOver_congr (s := s) (by simp)]
  rw [hrec] at hr
  split at hr
  · exact hn r hr
  · rename_i hm; exact hs m r hm hr

/-- The round ends of the arrival list leave none due (R54). -/
theorem State.roundsOk_roundEnds (ha : s.ArrivalsOk) : s.roundEnds.RoundsOk := by
  have settles (l : List SlotNo) {u : State} (hu : ∀ m r, u.record m = some r → u.roundOver r = false ∨ m ∈ l) :
      (l.foldl State.roundEndDelivered u).RoundsOk := by
    induction l generalizing u with
    | nil => exact fun m r hr => (hu m r hr).resolve_right (by simp)
    | cons n l ih =>
      refine ih fun m r hr => ?_
      obtain ⟨r?, hrec, hn⟩ := u.roundEndDelivered_record n
      rw [State.roundOver_congr (s := u) (by simp [State.roundEndDelivered])]
      rw [hrec] at hr
      split at hr
      · exact .inl (hn r hr)
      · rename_i hm
        exact (hu m r hr).imp_right fun hmem => (List.mem_cons.1 hmem).resolve_left hm
  exact settles s.arrivals fun m r hr => .inr ((ha.2 m).2 (by rw [hr]; simp))

end

/-! #### Every update leaves no round end due -/

section
variable {s : State}

/-- A host whose offer is withdrawn is attached, on the route list and not declined (R44, R53). -/
theorem State.RoundsOk.withdraw (hs : s.RoundsOk) (hosts : s.HostsOk) (hcopies : s.CopiesOk) (p : HostId) {reason : Reason}
    (hne : reason ≠ .timeout) : (s.withdraw p reason).RoundsOk := by
  cases ho : (s.disp p).offer with
  | none => rwa [State.withdraw_none ho]
  | some o =>
    obtain ⟨r, hr, hmine, -⟩ := hcopies.offer p o ho
    refine hs.written (r? := some (r.withdrawn p o.handle reason)) (n := o.handle.slot) (by simp) (fun m => ?_) ?_
    · rw [State.withdraw_record ho]
      split
      · rename_i hm; rw [hm, hr]; rfl
      · rfl
    · rintro _ ⟨⟩
      cases hm : r.mode with
      | each => exact State.roundOver_each hm
      | any =>
        obtain ⟨hon, hdecl⟩ := ((hcopies.lists _ r hr).anyCopy hm).2 _ hmine |>.2 p rfl
        refine State.roundOver_undeclined hon ((hosts p).attached_of_offer ho) ?_
        simpa [Record.withdrawn, hne] using hdecl

/-- A WAITING ANY copy put to a host waits no more (R66). -/
theorem State.RoundsOk.makeOffer (hs : s.RoundsOk) {h : HostId} {n : SlotNo} (hfill : s.Fillable h n) : (s.makeOffer h n).RoundsOk := by
  obtain ⟨r, hr, -⟩ := hfill
  refine hs.written (r? := some _) (n := n) (by simp) (State.makeOffer_record hr) ?_
  rintro _ ⟨⟩
  cases hm : r.mode with
  | each => exact State.roundOver_each hm
  | any =>
    refine State.roundOver_none_waiting fun c hc => ?_
    obtain ⟨d, -, rfl⟩ := List.mem_map.1 hc
    split
    · simp
    · rename_i hnot; exact fun hw => hnot ⟨hw, .inl hm⟩

theorem State.RoundsOk.serve (hs : s.RoundsOk) (p : HostId) (o : Offer) (r : Record) : (s.serve p o r).RoundsOk := by
  refine hs.written (fun h => ?_) (State.serve_record s p o r) ?_
  · rw [State.attached, State.serve_session]
    split
    · rename_i hh; rw [hh]; rfl
    · rfl
  · rintro _ ⟨⟩
    cases hm : r.mode with
    | each => exact State.roundOver_each hm
    | any => exact State.roundOver_empty (by simp [Record.claimed, hm])

/-- A DECLINE ends the round it completes (R54, R72). -/
theorem State.RoundsOk.handBackOffer (hs : s.RoundsOk) (p : HostId) (o : Offer) (r : Record) : (s.handBackOffer p o r).1.RoundsOk := by
  have htaken : (s.takeOffer p o).RoundsOk := by
    refine hs.congr (fun h => ?_) fun _ => rfl
    rw [State.attached, State.takeOffer_session]
    split
    · rename_i hh; rw [hh]; rfl
    · rfl
  unfold State.handBackOffer
  dsimp only
  split
  · refine State.roundsOk_roundEnd fun m v hm hv => ?_
    rw [State.record_setRecord, if_neg hm] at hv
    exact (State.roundOver_congr (fun _ => rfl) v).trans (htaken m v hv)
  · exact htaken.removeCopy _ p

theorem State.RoundsOk.arrive (hs : s.RoundsOk) (l : LineNo) : (s.arrive l).RoundsOk := by
  cases hr : s.record (slotOfLine l) with
  | none =>
    rw [State.arrive_free hr]
    exact hs.written (fun _ => rfl) (State.record_openRecord s _ · _) (by rintro _ ⟨⟩; exact State.roundOver_empty rfl)
  | some r =>
    have counted {t : State} {r' : Record} (hrec : ∀ m, t.record m = if m = slotOfLine l then some r' else s.record m)
        (hatt : ∀ h, t.attached h = s.attached h) (hm : r'.mode = r.mode) (hroute : r'.route = r.route) (hd : r'.declined = r.declined)
        (hc : r'.copies = r.copies) : t.RoundsOk := by
      refine hs.written hatt hrec ?_
      rintro _ ⟨⟩
      exact State.roundOver_mono (hs _ r hr) hm hroute hd fun c hmem => hc ▸ hmem
    have hrec (r' : Record) (m : SlotNo) := State.record_setRecord s (slotOfLine l) m (some r')
    have hsat (m : SlotNo) := State.saturate_record s (slotOfLine l) m r
    have hsatatt (h : HostId) : (s.saturate (slotOfLine l) r).attached h = s.attached h := by unfold State.saturate; dsimp only; split <;> simp
    cases hsense : (s.entry l).sense.isLevel <;> cases hp : r.phase
    · rw [State.arrive_edge_opened hr hsense hp]
      split
      · exact counted (hrec _) (fun _ => rfl) rfl rfl rfl rfl
      · exact counted hsat hsatatt rfl rfl rfl rfl
    · rw [State.arrive_edge_captured hr hsense hp]
      split
      · exact counted (hrec _) (fun _ => rfl) rfl rfl rfl rfl
      · exact counted hsat hsatatt rfl rfl rfl rfl
    · rwa [State.arrive_level_opened hr hsense hp]
    · rw [State.arrive_level_captured hr hsense hp]
      exact counted (hrec _) (fun _ => rfl) rfl rfl rfl rfl

theorem Touches.arrivalsOk {t : State} (h : Touches s t) (hs : s.ArrivalsOk) : t.ArrivalsOk := by
  induction h with
  | refl => exact hs
  | tail _ hw ih => exact hw.arrivalsOk ih

/-- A torn-down host's round ends are taken within the teardown (R98). -/
theorem State.teardown_roundsOk (ha : s.ArrivalsOk) (h : HostId) (final : HostState) : (s.teardown h final).state.RoundsOk := by
  have hwork : Touches (s.unseated h final) ((s.unseated h final).releaseCopies h).state :=
    (Touches.unburdened _ h).trans (SlotWorks.releaseCopies _ h).touches
  have hcleared : (s.cleared h final).RoundsOk := State.roundsOk_roundEnds (Touches.arrivalsOk hwork ha)
  exact hcleared.congr (fun k => by simp [State.teardown_eq]) (State.teardown_record s h final)

/-- A TIMEOUT takes the round end it may make (R77). -/
theorem State.RoundsOk.timeout (hs : s.RoundsOk) {h : HostId} {o : Offer} (ho : (s.disp h).offer = some o) :
    ((s.withdraw h .timeout).roundEndDelivered o.handle.slot).RoundsOk := by
  have hend : ((s.withdraw h .timeout).roundEnd o.handle.slot).1.RoundsOk := by
    refine State.roundsOk_roundEnd fun m v hm hv => ?_
    rw [State.withdraw_record ho, if_neg hm] at hv
    exact (State.roundOver_congr (by simp) v).trans (hs m v hv)
  exact hend.congr (by simp [State.roundEndDelivered]) (by simp [State.roundEndDelivered])

end

theorem State.attached_updSession {s : State} {p : HostId} {f : Session → Session} (hf : (f (s.session p)).state.attached = s.attached p)
    (h : HostId) : (s.updSession p f).attached h = s.attached h := by
  rw [State.attached, State.session_updSession]
  split
  · rename_i hh; rw [hf, hh]
  · rfl

theorem State.takeWake_attached (s : State) (p h : HostId) : (s.takeWake p).attached h = s.attached h := by
  unfold State.takeWake
  split
  · rename_i htrigger
    exact State.attached_updSession (by rw [State.attached, State.wakeTriggered_deep htrigger]; rfl) h
  · rfl

theorem Quiet.roundsOk {s t : State} (h : Quiet s t) (hs : s.RoundsOk) : t.RoundsOk := by
  cases h with
  | aside | port | line | entry | holder | fetch | epoch | endHold => exact hs.congr (fun _ => rfl) fun _ => rfl
  | notify m => exact hs.congr (by simp) (by simp)
  | session _ he => exact hs.congr (State.attached_tuned he) fun _ => rfl
  | hold c => exact hs.congr (State.hold_attached s c) fun n => by unfold State.hold; split <;> rfl
  | complete pins causes => exact fun n r hr => by rw [State.completed_record] at hr; cases hr

/-- Every update leaves no round end due (R54). -/
theorem Stir.roundsOk {s₀ s t : State} (h : Stir s₀ s t) (hosts : s.HostsOk) (ha : s.ArrivalsOk) (hcopies : s.CopiesOk) (hs : s.RoundsOk) :
    t.RoundsOk := by
  cases h with
  | quiet h => exact h.roundsOk hs
  | take => exact hs.congr (fun _ => rfl) fun _ => rfl
  | withdraw p _ hne => exact hs.withdraw hosts hcopies p hne
  | offer _ _ hfill => exact hs.makeOffer hfill
  | wake p => exact hs.congr (State.takeWake_attached s p) (by simp)
  | rouse _ hatt hv => exact hs.congr (State.attached_updSession (by rw [hatt]; exact hv)) fun _ => rfl
  | floor => exact hs.congr (State.attached_updSession rfl) fun _ => rfl
  | serve => exact State.RoundsOk.serve hs _ _ _
  | handBack => exact State.RoundsOk.handBackOffer hs _ _ _
  | @pop p e =>
    have hpopped : (s.updDisp p fun d => { d with stack := d.stack.dropLast }).RoundsOk := hs.congr (fun _ => rfl) fun _ => rfl
    exact hpopped.removeCopy _ p
  | post => exact hs.written (fun _ => rfl) (State.record_openRecord s _ · _) (by rintro _ ⟨⟩; exact State.roundOver_empty rfl)
  | arrive l => exact hs.arrive l
  | free => exact hs.written (fun _ => rfl) (State.record_freeSlot s _) nofun
  | keepServed _ _ hm => exact hs.written (fun _ => rfl) (State.record_setRecord s _ · _) (by rintro _ ⟨⟩; exact State.roundOver_each hm)
  | rebuild => exact hs.written (fun _ => rfl) (State.record_setRecord s _ · _) (by rintro _ ⟨⟩; exact State.roundOver_empty rfl)
  | attach =>
    refine State.roundsOk_roundEnds ?_
    exact ha
  | teardown =>
    refine State.teardown_roundsOk ?_ _ _
    exact ha
  | timeout _ ho => exact hs.timeout ho

end Sys2Proof.Machine
end

