-- ==== Sys2Proof/Proofs/Fills.lean ====
section
/-! SUPPORT. The arbiters' choices, the fills of an event and its preemptions. -/

namespace Sys2Proof.Machine

/-! ### Fills leave nothing to fill and nothing to preempt (R64, R65, R76) -/

/-- No offer is due to be preempted (R76). -/
def State.Unpreempted (s : State) : Prop := ∀ h o, (s.disp h).offer = some o → ∀ w ∈ s.candidatesOf h, w.record.band ≤ o.band

/-- No arbiter has a fill to make (R64). -/
def State.Filled (s : State) : Prop := ∀ h, s.readyForOffer h = true → s.choose h = none

/-! #### The arbiter's choice -/

theorem preferred_foldl_some (l : List PlacedCopy) (b : PlacedCopy) : ∃ w, l.foldl preferred (some b) = some w ∧
    b.record.band ≤ w.record.band ∧ ∀ v ∈ l, v.record.band ≤ w.record.band := by
  induction l generalizing b with
  | nil => exact ⟨b, rfl, le_rfl, by simp⟩
  | cons a l ih =>
    rw [List.foldl_cons, preferred]
    split
    · rename_i hlt
      obtain ⟨w, hw, hb, hl⟩ := ih a
      exact ⟨w, hw, hlt.le.trans hb, List.forall_mem_cons.2 ⟨hb, hl⟩⟩
    · rename_i hle
      obtain ⟨w, hw, hb, hl⟩ := ih b
      exact ⟨w, hw, hb, List.forall_mem_cons.2 ⟨(Nat.not_lt.1 hle).trans hb, hl⟩⟩

/-- The arbiter chooses a copy just when there is one (R65). -/
theorem State.choose_none {s : State} {h : HostId} : s.choose h = none ↔ s.candidatesOf h = [] := by
  unfold State.choose
  cases s.candidatesOf h with
  | nil => simp
  | cons a l =>
    obtain ⟨w, hw, -⟩ := preferred_foldl_some l a
    simp [preferred, hw]

/-- No candidate of a host has a higher band than its arbiter's choice (R65). -/
theorem State.choose_max {s : State} {h : HostId} {w : PlacedCopy} (hw : s.choose h = some w) : ∀ v ∈ s.candidatesOf h, v.record.band ≤ w.record.band := by
  unfold State.choose at hw
  cases hl : s.candidatesOf h with
  | nil => simp
  | cons a l =>
    obtain ⟨x, hx, ha, hall⟩ := preferred_foldl_some l a
    rw [hl, List.foldl_cons, preferred, hx] at hw
    cases hw
    exact List.forall_mem_cons.2 ⟨ha, hall⟩

/-! #### One offer -/

/-- What offers leave of the Router's answers: hosts become less ready, copies cease to be candidates. -/
structure Fills (s t : State) : Prop where
  ready : ∀ h, t.readyForOffer h = true → s.readyForOffer h = true
  candidates : ∀ h, ∀ w ∈ t.candidatesOf h, ∃ v ∈ s.candidatesOf h, v.record.band = w.record.band
  bands : ∀ n r, t.record n = some r → ∃ v, s.record n = some v ∧ v.band = r.band

theorem Fills.refl (s : State) : Fills s s := ⟨fun _ h => h, fun _ w hw => ⟨w, hw, rfl⟩, fun _ r hr => ⟨r, hr, rfl⟩⟩

theorem Fills.trans {s t u : State} (h : Fills s t) (h' : Fills t u) : Fills s u where
  ready k hk := h.ready k (h'.ready k hk)
  candidates k w hw := by
    obtain ⟨v, hv, hb⟩ := h'.candidates k w hw
    obtain ⟨x, hx, hb'⟩ := h.candidates k v hv
    exact ⟨x, hx, hb'.trans hb⟩
  bands n r hr := by
    obtain ⟨v, hv, hb⟩ := h'.bands n r hr
    obtain ⟨x, hx, hb'⟩ := h.bands n v hv
    exact ⟨x, hx, hb'.trans hb⟩

theorem Fills.makeOffer {s : State} {h : HostId} {n : SlotNo} (hfill : s.Fillable h n) : Fills s (s.makeOffer h n) := by
  obtain ⟨r, hr, -⟩ := id hfill
  refine ⟨fun k hk => ?_, fun k w hw => ?_, fun m v hv => ?_⟩
  · rw [State.makeOffer_readyForOffer hfill] at hk
    split at hk
    · cases hk
    · exact hk
  · obtain ⟨hplaced, hcand⟩ := State.mem_candidatesOf.1 hw
    obtain ⟨harr, hrec, hmem⟩ := State.mem_placedCopies.1 hplaced
    rw [State.makeOffer_candidate] at hcand
    rw [State.makeOffer_record hr] at hrec
    have harr' : w.slot ∈ s.arrivals := by simpa using harr
    split at hrec
    · rename_i hslot
      have hrecord : w.record = r.offerTo h ⟨n, s.serial n + 1⟩ := (Option.some.inj hrec).symm
      rw [hrecord] at hmem hcand
      obtain ⟨c, hc, hcopy⟩ := List.mem_map.1 hmem
      have hwait := (State.candidate_some hcand).1
      split at hcopy
      · rw [← hcopy] at hwait; cases hwait
      · rw [← hcopy] at hcand
        refine ⟨⟨n, r, c⟩, State.mem_candidatesOf.2 ⟨State.mem_placedCopies.2 ⟨hslot ▸ harr', hr, hc⟩, hcand⟩, ?_⟩
        rw [hrecord]; rfl
    · exact ⟨w, State.mem_candidatesOf.2 ⟨State.mem_placedCopies.2 ⟨harr', hrec, hmem⟩, hcand⟩, rfl⟩
  · rw [State.makeOffer_record hr] at hv
    split at hv
    · rename_i hm; cases hv; exact ⟨r, hm ▸ hr, rfl⟩
    · exact ⟨v, hv, rfl⟩

/-- What the offers of one event do, each made while its host is ready (R64): their hosts are ready no more, and a new offer has its record's band. -/
theorem State.fillDue_fills (os : List (HostId × SlotNo)) {s : State} (hos : ∀ o ∈ os, s.readyForOffer o.1 = true → s.Fillable o.1 o.2) :
    Fills s (os.foldl State.fillDue s) ∧ (∀ o ∈ os, (os.foldl State.fillDue s).readyForOffer o.1 = false) ∧
      ∀ h o, ((os.foldl State.fillDue s).disp h).offer = some o → (s.disp h).offer = some o ∨
        ∃ n r, (h, n) ∈ os ∧ s.record n = some r ∧ o.band = r.band := by
  induction os generalizing s with
  | nil => exact ⟨.refl s, by simp, fun h o ho => .inl ho⟩
  | cons o os ih =>
    rw [List.foldl_cons]
    by_cases hready : s.readyForOffer o.1 = true
    · have hfill := hos o (List.mem_cons_self ..) hready
      have hdue : s.fillDue o = s.makeOffer o.1 o.2 := by simp [State.fillDue, hready]
      have hone := Fills.makeOffer hfill
      rw [hdue]
      obtain ⟨hfills, hunready, hoffers⟩ := ih (s := s.makeOffer o.1 o.2) fun o' ho' hready' => by
        rw [State.makeOffer_readyForOffer hfill] at hready'
        split at hready'
        · cases hready'
        · rename_i hne; exact State.makeOffer_fillable hfill (hos o' (List.mem_cons_of_mem _ ho') hready') hne
      refine ⟨hone.trans hfills, List.forall_mem_cons.2 ⟨?_, hunready⟩, fun h o' ho' => ?_⟩
      · rw [← Bool.not_eq_true]
        intro hlate
        have := hfills.ready _ hlate
        rw [State.makeOffer_readyForOffer hfill, if_pos rfl] at this
        cases this
      · rcases hoffers h o' ho' with hold | ⟨n, r, hmem, hr, hb⟩
        · obtain ⟨r, hr, -⟩ := hfill
          rw [State.makeOffer_disp hr] at hold
          split at hold
          · rename_i hh
            cases hold
            exact .inr ⟨o.2, r, by rw [hh]; exact List.mem_cons_self .., hr, rfl⟩
          · exact .inl hold
        · obtain ⟨v, hv, hvb⟩ := hone.bands n r hr
          exact .inr ⟨n, v, List.mem_cons_of_mem _ hmem, hv, hb.trans hvb.symm⟩
    · have hdue : s.fillDue o = s := by simp [State.fillDue, hready]
      rw [hdue]
      obtain ⟨hfills, hunready, hoffers⟩ := ih fun o' ho' => hos o' (List.mem_cons_of_mem _ ho')
      refine ⟨hfills, List.forall_mem_cons.2 ⟨?_, hunready⟩, fun h o' ho' => (hoffers h o' ho').imp_right ?_⟩
      · rw [← Bool.not_eq_true]
        exact fun hlate => hready (hfills.ready _ hlate)
      · rintro ⟨n, r, hmem, hr, hb⟩
        exact ⟨n, r, List.mem_cons_of_mem _ hmem, hr, hb⟩

/-- An offer is due at every ready host with a candidate (R64). -/
theorem State.mem_offersDue {s : State} {h : HostId} {w : PlacedCopy} (hready : s.readyForOffer h = true) (hw : s.choose h = some w) :
    (h, w.slot) ∈ s.offersDue := by
  obtain ⟨hplaced, hcand⟩ := State.mem_candidatesOf.1 (State.choose_mem hw)
  refine List.mem_filterMap.2 ⟨w, hplaced, ?_⟩
  simp [hcand, hready, hw]

/-- After the fills of an event no arbiter has a fill to make, and the new offers are not due to be preempted (R64, R76). -/
theorem State.fillAll_settles {s : State} (hs : s.Unpreempted) : s.fillAll.Filled ∧ s.fillAll.Unpreempted := by
  obtain ⟨hfills, hunready, hoffers⟩ := State.fillDue_fills s.offersDue (s := s) fun o ho _ => by
    obtain ⟨-, w, hw, hslot⟩ := State.offersDue_spec ho
    rw [← hslot]
    exact State.fillable_of_mem (State.choose_mem hw)
  change Fills s s.fillAll at hfills
  refine ⟨fun h hready => ?_, fun h o ho w hw => ?_⟩
  · have hbefore := hfills.ready h hready
    cases hchoose : s.choose h with
    | some w =>
      have : s.fillAll.readyForOffer h = false := hunready _ (State.mem_offersDue hbefore hchoose)
      rw [hready] at this; cases this
    | none =>
      rw [State.choose_none] at hchoose ⊢
      refine List.eq_nil_iff_forall_not_mem.2 fun w hw => ?_
      obtain ⟨v, hv, -⟩ := hfills.candidates h w hw
      rw [hchoose] at hv; cases hv
  · obtain ⟨v, hv, hb⟩ := hfills.candidates h w hw
    rw [← hb]
    rcases hoffers h o ho with hold | ⟨n, r, hmem, hr, hband⟩
    · exact hs h o hold v hv
    · obtain ⟨-, x, hx, hslot⟩ := State.offersDue_spec hmem
      obtain ⟨hplaced, -⟩ := State.mem_candidatesOf.1 (State.choose_mem hx)
      obtain ⟨-, hrec, -⟩ := State.mem_placedCopies.1 hplaced
      rw [hslot, hr] at hrec
      cases hrec
      rw [hband]
      exact State.choose_max hx v hv

/-! #### Preemption -/

/-- The number of outstanding offers. -/
def State.outstanding (s : State) : Nat := HostId.all.countP fun h => (s.disp h).offer.isSome

theorem State.outstanding_withdraw {s : State} {h : HostId} {o : Offer} (ho : (s.disp h).offer = some o) (reason : Reason) :
    (s.withdraw h reason).outstanding < s.outstanding := by
  unfold State.outstanding
  refine Nat.lt_of_lt_of_le (Nat.lt_succ_self _) (Nat.le_of_eq (Eq.symm ?_))
  refine countP_eq_add_one (n := h) (by decide) (HostId.mem_all h) (fun k hk => ?_) (by simp [ho]) (by simp [State.withdraw_offer])
  rw [State.withdraw_offer, if_neg hk]

theorem State.preemptAt_settles (s : State) (h : HostId) :
    (∀ o, (s.disp h).offer = some o → ∀ w ∈ s.candidatesOf h, w.record.band ≤ o.band) ∧ s.preemptAt h = s ∨
      (s.preemptAt h).outstanding < s.outstanding := by
  unfold State.preemptAt
  split
  · rename_i o ho
    split
    · exact .inr (State.outstanding_withdraw ho _)
    · rename_i hnone
      refine .inl ⟨fun o' ho' w hw => ?_, rfl⟩
      rw [ho] at ho'
      cases ho'
      simp only [List.any_eq_true, decide_eq_true_eq, not_exists, not_and, Nat.not_lt] at hnone
      exact hnone w hw
  · rename_i hnone
    exact .inl ⟨fun o ho => (by rw [hnone] at ho; cases ho), rfl⟩

/-- A pass that preempts nothing has nothing to preempt; any other leaves fewer offers (R76). -/
theorem State.preemptPass_settles (s : State) : s.Unpreempted ∧ s.preemptPass = s ∨ s.preemptPass.outstanding < s.outstanding := by
  have pass (l : List HostId) (u : State) :
      (∀ h ∈ l, ∀ o, (u.disp h).offer = some o → ∀ w ∈ u.candidatesOf h, w.record.band ≤ o.band) ∧ l.foldl State.preemptAt u = u ∨
        (l.foldl State.preemptAt u).outstanding < u.outstanding := by
    induction l generalizing u with
    | nil => exact .inl ⟨by simp, rfl⟩
    | cons h l ih =>
      rw [List.foldl_cons]
      rcases u.preemptAt_settles h with ⟨hnone, hsame⟩ | hless
      · rw [hsame]
        exact (ih u).imp_left fun ⟨hrest, hend⟩ => ⟨List.forall_mem_cons.2 ⟨hnone, hrest⟩, hend⟩
      · rcases ih (u.preemptAt h) with ⟨-, hend⟩ | hlesser
        · rw [hend]; exact .inr hless
        · exact .inr (hlesser.trans hless)
  exact (pass HostId.all s).imp_left fun ⟨hall, hsame⟩ => ⟨fun h => hall h (HostId.mem_all h), hsame⟩

/-- Four passes empty four slots, so nothing is left to preempt (R76, log entry 17). -/
theorem State.preemptAll_settles (s : State) : s.preemptAll.Unpreempted := by
  have pass {k : Nat} {u : State} (hu : u.Unpreempted ∧ u.preemptPass = u ∨ u.outstanding + k ≤ 4) :
      u.preemptPass.Unpreempted ∧ u.preemptPass.preemptPass = u.preemptPass ∨ u.preemptPass.outstanding + (k + 1) ≤ 4 := by
    have settled (hdone : u.Unpreempted ∧ u.preemptPass = u) :
        u.preemptPass.Unpreempted ∧ u.preemptPass.preemptPass = u.preemptPass := by
      obtain ⟨hdone, hsame⟩ := hdone
      rw [hsame]; exact ⟨hdone, hsame⟩
    rcases hu with hu | hu
    · exact .inl (settled hu)
    · rcases u.preemptPass_settles with hdone | hless
      · exact .inl (settled hdone)
      · exact .inr (by omega)
  have hstart : s.outstanding + 0 ≤ 4 := (List.countP_le_length : s.outstanding ≤ HostId.all.length)
  rcases pass (pass (pass (pass (.inr hstart)))) with ⟨hdone, -⟩ | hnone
  · exact hdone
  · intro h o ho
    have hzero : s.preemptAll.outstanding = 0 := by unfold State.preemptAll; omega
    exact absurd (List.countP_eq_zero.1 hzero h (HostId.mem_all h)) (by simp [ho])

end Sys2Proof.Machine
end

