-- ==== Sys2Proof/Proofs/Wakes.lean ====
section
/-! SUPPORT. The wakes of an event, and the fill of one host. -/

namespace Sys2Proof.Machine

/-! ### Wakes and calm updates leave the hub settled (R59, R130) -/

/-- No wake trigger is untaken (R59). -/
def State.Woken (s : State) : Prop := ∀ h, s.wakeTriggered h = false

section
variable {s t : State}

/-- What the Router reads stays; a host may only become less ready. -/
structure SameRouting (s t : State) : Prop where
  candidates : ∀ h, t.candidatesOf h = s.candidatesOf h
  wakeCopies : ∀ h, t.wakeCopies h = s.wakeCopies h
  offer : ∀ h, (t.disp h).offer = (s.disp h).offer
  ready : ∀ h, t.readyForOffer h = true → s.readyForOffer h = true

theorem SameRouting.unpreempted (h : SameRouting s t) (hs : s.Unpreempted) : t.Unpreempted := fun k o ho w hw => by
  rw [h.offer] at ho
  rw [h.candidates] at hw
  exact hs k o ho w hw

theorem SameRouting.choose (h : SameRouting s t) (k : HostId) : t.choose k = s.choose k := by
  simp only [State.choose, h.candidates]

theorem SameRouting.filled (h : SameRouting s t) (hs : s.Filled) : t.Filled := fun k hk => by
  rw [h.choose]; exact hs k (h.ready k hk)

/-- The wake trigger of a host (R58, R59). -/
theorem State.wakeTriggered_iff {h : HostId} : s.wakeTriggered h = true ↔ (s.session h).state = .deep ∧
    ((∃ w ∈ s.wakeCopies h, (s.session h).wakeBand ≤ w.record.band) ∨ (s.session h).batchThreshold ≤ (s.wakeCopies h).length) := by
  rw [State.wakeTriggered, Bool.and_eq_true, decide_eq_true_eq]
  refine and_congr_right fun hdeep => ?_
  have htally : s.batchTally h = (s.wakeCopies h).length := by simp [State.batchTally, hdeep, HostState.asleep]
  simp [htally]

/-- A host's wake trigger is read from its state, wake band and batch threshold and from the copies whose wake target it is (R59). -/
theorem SameRouting.wakeTriggered (h : SameRouting s t) {k : HostId} (hstate : (t.session k).state = (s.session k).state)
    (hdeep : (s.session k).state = .deep → (t.session k).wakeBand = (s.session k).wakeBand ∧
      (t.session k).batchThreshold = (s.session k).batchThreshold) : t.wakeTriggered k = s.wakeTriggered k := by
  rw [Bool.eq_iff_iff, State.wakeTriggered_iff, State.wakeTriggered_iff, h.wakeCopies, hstate]
  refine and_congr_right fun hd => ?_
  obtain ⟨hband, hbatch⟩ := hdeep hd
  rw [hband, hbatch]

/-- The candidate and the wake target of a copy are read from the stacks, and of a session from whether its host listens or sleeps, from its floor and
from its nesting depth (R44, R48). -/
theorem State.routing_congr (hstack : ∀ h, (t.disp h).stack = (s.disp h).stack)
    (hlisten : ∀ h, (t.session h).state.listening = (s.session h).state.listening)
    (hasleep : ∀ h, (t.session h).state.asleep = (s.session h).state.asleep) (hfloor : ∀ h, (t.session h).floor = (s.session h).floor)
    (hdepth : ∀ h, (t.session h).depth = (s.session h).depth) : t.candidate = s.candidate ∧ t.wakeTarget = s.wakeTarget := by
  have hroom : t.hasRoomFor = s.hasRoomFor := by
    funext h band
    rw [State.hasRoomFor, State.hasRoomFor, State.level_of_stack (hstack h), hfloor, hdepth, hstack]
  have heligible : t.eligible = s.eligible := by
    funext h band
    rw [State.eligible, State.eligible, hroom, hlisten]
  have haccept : t.wouldAccept = s.wouldAccept := by
    funext h band
    rw [State.wouldAccept, State.wouldAccept, hroom, hasleep]
  have hcandidate : t.candidate = s.candidate := by
    funext r c
    simp only [State.candidate, heligible]
  refine ⟨hcandidate, ?_⟩
  funext r c
  simp only [State.wakeTarget, hcandidate, haccept]

/-- The Router's answers read the records and the arrival list besides (R50). -/
theorem SameRouting.of_sessions (harr : t.arrivals = s.arrivals) (hrec : ∀ n, t.record n = s.record n)
    (hoffer : ∀ h, (t.disp h).offer = (s.disp h).offer) (hstack : ∀ h, (t.disp h).stack = (s.disp h).stack)
    (hlisten : ∀ h, (t.session h).state.listening = (s.session h).state.listening)
    (hasleep : ∀ h, (t.session h).state.asleep = (s.session h).state.asleep) (hfloor : ∀ h, (t.session h).floor = (s.session h).floor)
    (hdepth : ∀ h, (t.session h).depth = (s.session h).depth) (hready : ∀ h, t.readyForOffer h = true → s.readyForOffer h = true) :
    SameRouting s t := by
  obtain ⟨hcandidate, htarget⟩ := State.routing_congr hstack hlisten hasleep hfloor hdepth
  have hplaced : t.placedCopies = s.placedCopies := by
    simp only [State.placedCopies, harr, hrec]
  exact ⟨fun h => by rw [State.candidatesOf, State.candidatesOf, hplaced, hcandidate],
    fun h => by rw [State.wakeCopies, State.wakeCopies, hplaced, htarget], hoffer, hready⟩

/-! #### The wakes -/

/-- A taken wake moves its host from DEEP to WAKING, which the Router does not tell apart (R48, R130). -/
theorem SameRouting.takeWake (s : State) (p : HostId) : SameRouting s (s.takeWake p) := by
  have hsession (h : HostId) : (s.takeWake p).session h = s.session h ∨
      (s.session h).state = .deep ∧ (s.takeWake p).session h = { s.session h with state := .waking, wakeTimer := ((s.takeWake p).session h).wakeTimer } := by
    unfold State.takeWake
    split
    · rename_i htrigger
      rw [State.session_updSession]
      split
      · rename_i hh
        exact .inr ⟨by rw [hh]; exact State.wakeTriggered_deep htrigger, by rw [hh]⟩
      · exact .inl rfl
    · exact .inl rfl
  refine .of_sessions (by simp) (by simp) (by simp) (by simp) (fun h => ?_) (fun h => ?_) (fun h => ?_) (fun h => ?_) (fun h => ?_)
  · rcases hsession h with he | ⟨hd, he⟩
    · rw [he]
    · rw [he, hd]; rfl
  · rcases hsession h with he | ⟨hd, he⟩
    · rw [he]
    · rw [he, hd]; rfl
  · rcases hsession h with he | ⟨-, he⟩ <;> rw [he]
  · rcases hsession h with he | ⟨-, he⟩ <;> rw [he]
  · simp [State.readyForOffer]

theorem State.takeWake_wakeTriggered (s : State) (p k : HostId) :
    (s.takeWake p).wakeTriggered k = if k = p then false else s.wakeTriggered k := by
  split
  · rename_i hk
    subst hk
    by_cases ht : s.wakeTriggered k = true
    · have hwaking : ((s.takeWake k).session k).state = .waking := by simp [State.takeWake, ht, State.session_updSession]
      simp [State.wakeTriggered, hwaking]
    · rw [State.takeWake, if_neg ht]; simpa using ht
  · rename_i hk
    have hsession : (s.takeWake p).session k = s.session k := by
      unfold State.takeWake
      split
      · rw [State.session_updSession, if_neg hk]
      · rfl
    exact (SameRouting.takeWake s p).wakeTriggered (by rw [hsession]) fun _ => by rw [hsession]; exact ⟨rfl, rfl⟩

/-- After the wakes of an event no trigger is untaken, and fills and offers are as they were (R59). -/
theorem State.takeWakes_settles (hf : s.Filled) (hu : s.Unpreempted) : s.takeWakes.Filled ∧ s.takeWakes.Unpreempted ∧ s.takeWakes.Woken := by
  have wakes (l : List HostId) {u : State} (hf : u.Filled) (hu : u.Unpreempted) (hw : ∀ h, h ∉ l → u.wakeTriggered h = false) :
      (l.foldl State.takeWake u).Filled ∧ (l.foldl State.takeWake u).Unpreempted ∧ (l.foldl State.takeWake u).Woken := by
    induction l generalizing u with
    | nil => exact ⟨hf, hu, fun h => hw h (by simp)⟩
    | cons p l ih =>
      have hsame := SameRouting.takeWake u p
      refine ih (hsame.filled hf) (hsame.unpreempted hu) fun h hh => ?_
      rw [State.takeWake_wakeTriggered]
      split
      · rfl
      · rename_i hne; exact hw h (by simp [hne, hh])
  exact wakes HostId.all hf hu fun h hh => absurd (HostId.mem_all h) hh

/-- The Router's recomputation leaves no preemption, no fill and no wake due (R50). -/
theorem State.recompute_settles (s : State) : s.recompute.Filled ∧ s.recompute.Unpreempted ∧ s.recompute.Woken := by
  obtain ⟨hf, hu⟩ := State.fillAll_settles s.preemptAll_settles
  exact State.takeWakes_settles hf hu

/-! #### One fill -/

/-- The copies of the other records and the copies that do not wait are placed as they were after an offer. -/
def PlacedCopy.offered (w : PlacedCopy) (h : HostId) (n : SlotNo) (hd : Handle) : PlacedCopy :=
  if w.slot = n then
    ⟨n, w.record.offerTo h hd, if w.copy.state = .waiting ∧ (w.record.mode = .any ∨ w.copy.host = some h) then ⟨some h, .offered hd⟩ else w.copy⟩
  else w

theorem State.makeOffer_placedCopies {h : HostId} {n : SlotNo} {r : Record} (hr : s.record n = some r) :
    (s.makeOffer h n).placedCopies = s.placedCopies.map (PlacedCopy.offered · h n ⟨n, s.serial n + 1⟩) := by
  have harr : (s.makeOffer h n).arrivals = s.arrivals := by simp
  unfold State.placedCopies
  rw [harr, List.map_flatMap]
  refine List.flatMap_congr fun m _ => ?_
  rw [State.makeOffer_record hr]
  by_cases hm : m = n
  · subst hm
    simp [hr, Record.offerTo, PlacedCopy.offered, Function.comp_def]
  · cases hv : s.record m <;> simp [hm, PlacedCopy.offered, Function.comp_def]

theorem State.makeOffer_wakeTarget_eq (s : State) (h : HostId) (n : SlotNo) : (s.makeOffer h n).wakeTarget = s.wakeTarget :=
  (State.routing_congr (State.makeOffer_stack s h · n) (by simp) (by simp) (by simp) (by simp)).2

/-- An offer takes its copy out of the wake copies, if it was one (R48). -/
theorem State.wakeTarget_offered {h k : HostId} {n : SlotNo} {hd : Handle} {w : PlacedCopy}
    (hw : s.wakeTarget (w.offered h n hd).record (w.offered h n hd).copy = some k) : s.wakeTarget w.record w.copy = some k := by
  unfold PlacedCopy.offered at hw
  split at hw
  · dsimp only at hw
    split at hw
    · cases hw
    · exact hw
  · exact hw

theorem PlacedCopy.offered_band (w : PlacedCopy) (h : HostId) (n : SlotNo) (hd : Handle) : (w.offered h n hd).record.band = w.record.band := by
  unfold PlacedCopy.offered
  split <;> rfl

theorem State.makeOffer_wakeTriggered {h k : HostId} {n : SlotNo} (hfill : s.Fillable h n) (hw : s.wakeTriggered k = false) :
    (s.makeOffer h n).wakeTriggered k = false := by
  obtain ⟨r, hr, -⟩ := hfill
  have hwake : (s.makeOffer h n).wakeCopies k = (s.placedCopies.map (PlacedCopy.offered · h n ⟨n, s.serial n + 1⟩)).filter fun w =>
      decide (s.wakeTarget w.record w.copy = some k) := by
    rw [State.wakeCopies, State.makeOffer_placedCopies hr, State.makeOffer_wakeTarget_eq]
  have hmem {w : PlacedCopy} (hw : w ∈ (s.makeOffer h n).wakeCopies k) : ∃ v ∈ s.wakeCopies k, v.record.band = w.record.band := by
    rw [hwake, List.mem_filter, decide_eq_true_eq, List.mem_map] at hw
    obtain ⟨⟨v, hv, rfl⟩, htarget⟩ := hw
    exact ⟨v, List.mem_filter.2 ⟨hv, by simpa using State.wakeTarget_offered htarget⟩, (v.offered_band ..).symm⟩
  have hlen : ((s.makeOffer h n).wakeCopies k).length ≤ (s.wakeCopies k).length := by
    rw [hwake, State.wakeCopies, ← List.countP_eq_length_filter, ← List.countP_eq_length_filter, List.countP_map]
    refine List.countP_mono_left fun w _ hw => ?_
    simpa using State.wakeTarget_offered (by simpa using hw)
  have hsession : (s.makeOffer h n).session k = s.session k := by simp
  rw [← Bool.not_eq_true] at hw ⊢
  refine fun htrigger => hw ?_
  rw [State.wakeTriggered_iff, hsession] at htrigger
  obtain ⟨hdeep, hcause⟩ := htrigger
  refine State.wakeTriggered_iff.2 ⟨hdeep, ?_⟩
  rcases hcause with ⟨w, hmine, hb⟩ | hbatch
  · obtain ⟨v, hv, hvb⟩ := hmem hmine
    exact .inl ⟨v, hv, hvb ▸ hb⟩
  · exact .inr (hbatch.trans hlen)

/-- The fill of one host (R64). -/
theorem State.arbiterFill_settles {p : HostId} (hf : ∀ h ≠ p, s.readyForOffer h = true → s.choose h = none) (hu : s.Unpreempted)
    (hw : s.Woken) : (s.arbiterFill p).Filled ∧ (s.arbiterFill p).Unpreempted ∧ (s.arbiterFill p).Woken := by
  unfold State.arbiterFill
  split
  · rename_i hready
    split
    · rename_i w hchoose
      have hfill := State.fillable_of_mem (State.choose_mem hchoose)
      have hfills := Fills.makeOffer hfill
      obtain ⟨hplaced, -⟩ := State.mem_candidatesOf.1 (State.choose_mem hchoose)
      obtain ⟨-, hrec, -⟩ := State.mem_placedCopies.1 hplaced
      refine ⟨fun h hh => ?_, fun h o ho v hv => ?_, fun h => State.makeOffer_wakeTriggered hfill (hw h)⟩
      · have hne : h ≠ p := by
          rintro rfl
          rw [State.makeOffer_readyForOffer hfill, if_pos rfl] at hh
          cases hh
        have hnone := hf h hne (hfills.ready h hh)
        rw [State.choose_none] at hnone ⊢
        refine List.eq_nil_iff_forall_not_mem.2 fun v hv => ?_
        obtain ⟨x, hx, -⟩ := hfills.candidates h v hv
        rw [hnone] at hx; cases hx
      · obtain ⟨x, hx, hb⟩ := hfills.candidates h v hv
        rw [← hb]
        rw [State.makeOffer_disp hrec] at ho
        split at ho
        · rename_i hh
          cases ho
          subst hh
          exact State.choose_max hchoose x hx
        · exact hu h o ho x hx
    · rename_i hnone
      exact ⟨fun h hh => if hp : h = p then hp ▸ hnone else hf h hp hh, hu, hw⟩
  · rename_i hready
    exact ⟨fun h hh => if hp : h = p then absurd (hp ▸ hh) hready else hf h hp hh, hu, hw⟩

end

end Sys2Proof.Machine
end

