-- ==== Sys2Proof/Proofs/SafetyInvariants.lean ====
section
/-! SUPPORT. Calm updates and the Router's recomputation leave the hub settled, and every step of a safe hub leaves a safe hub. -/

namespace Sys2Proof.Machine

/-! ### Every step of a safe hub leaves a safe hub -/

/-- Nothing is left to the Router: no fill, no preemption, no wake (R50). -/
structure State.Routed (s : State) : Prop where
  filled : s.Filled
  unpreempted : s.Unpreempted
  woken : s.Woken

section
variable {s t : State}

theorem State.settled_iff : s.Settled ↔ s.Routed ∧ s.RoundsOk :=
  ⟨fun h => ⟨⟨h.fills, h.preemptions, h.wakes⟩, h.rounds⟩, fun h => ⟨h.1.filled, h.1.unpreempted, h.1.woken, h.2⟩⟩

theorem State.Routed.of_same (hs : s.Routed) (h : SameRouting s t) (hstate : ∀ k, (t.session k).state = (s.session k).state)
    (hdeep : ∀ k, (s.session k).state = .deep → (t.session k).wakeBand = (s.session k).wakeBand ∧
      (t.session k).batchThreshold = (s.session k).batchThreshold) : t.Routed :=
  ⟨h.filled hs.filled, h.unpreempted hs.unpreempted, fun k => by rw [h.wakeTriggered (hstate k) (hdeep k)]; exact hs.woken k⟩

/-- Ports change at most, and their queues grow at most. -/
theorem State.Routed.of_ports (hs : s.Routed) (harr : t.arrivals = s.arrivals) (hrec : ∀ n, t.record n = s.record n)
    (hsession : ∀ h, t.session h = s.session h) (hdisp : ∀ h, t.disp h = s.disp h)
    (hlen : ∀ h, (s.port h).queue.length ≤ (t.port h).queue.length) : t.Routed := by
  refine hs.of_same (.of_sessions harr hrec (fun h => by rw [hdisp]) (fun h => by rw [hdisp]) (fun h => by rw [hsession])
    (fun h => by rw [hsession]) (fun h => by rw [hsession]) (fun h => by rw [hsession]) fun h hready => ?_) (fun k => by rw [hsession])
    fun k _ => by rw [hsession]; exact ⟨rfl, rfl⟩
  rw [State.readyForOffer_iff, hdisp] at hready
  exact State.readyForOffer_iff.2 ⟨hready.1, (hlen h).trans hready.2⟩

theorem State.deliver_length (s : State) (m : Notice) (h : HostId) : (s.port h).queue.length ≤ ((s.deliver m).port h).queue.length := by
  unfold State.deliver
  split
  · split
    · rw [State.enqueue, State.port_updPort]
      split
      · rename_i hh; subst hh; simp
      · exact le_rfl
    · rw [State.port_updPort]
      split
      · rename_i hh; subst hh; exact le_rfl
      · exact le_rfl
  · exact le_rfl

theorem PortWork.length_le {running : Prop} {a b : Port} (h : PortWork running a b) : a.queue.length ≤ b.queue.length := by
  cases h with
  | marks hq => rw [hq]
  | message => simp

/-- A quiet update changes nothing that the Router answers from, but for the sessions' waking of a host that is not DEEP (R50). -/
theorem Quiet.routed (h : Quiet s t) (ht : t.running) (hs : s.running → s.Routed) : t.Routed := by
  cases h with
  | aside | line | entry | holder | fetch | epoch =>
    exact (hs ht).of_ports rfl (fun _ => rfl) (fun _ => rfl) (fun _ => rfl) fun _ => le_rfl
  | @port p q hw =>
    refine (hs ht).of_ports rfl (fun _ => rfl) (fun _ => rfl) (fun _ => rfl) fun h => ?_
    rw [State.port_updPort]
    split
    · rename_i hh; subst hh; exact hw.length_le
    · exact le_rfl
  | notify m hr => exact (hs hr).of_ports (by simp) (by simp) (by simp) (by simp) (s.deliver_length m)
  | @session p e hr he =>
    have hsession (h : HostId) : (s.updSession p fun _ => e).session h = if h = p then e else s.session h := State.session_updSession s p h _
    have hfield {β : Type} {f : Session → β} (hf : f e = f (s.session p)) (h : HostId) :
        f ((s.updSession p fun _ => e).session h) = f (s.session h) := by
      rw [hsession]
      split
      · rename_i hh; rw [hf, hh]
      · rfl
    refine (hs hr).of_same (.of_sessions rfl (fun _ => rfl) (fun _ => rfl) (fun _ => rfl) (hfield (f := fun e => e.state.listening) (by rw [he.state]))
      (hfield (f := fun e => e.state.asleep) (by rw [he.state])) (hfield he.floor) (hfield he.depth) fun _ h => h) (hfield he.state) fun k hd => ?_
    rw [hsession]
    split
    · rename_i hh; subst hh; exact he.deep hd
    · exact ⟨rfl, rfl⟩
  | hold c => exact absurd ht (State.hold_not_running s c)
  | endHold => cases ht
  | complete pins causes =>
    exact (State.settled_iff.1 (State.settled_of_empty (State.completed_record s pins causes) (State.completed_session s pins causes))).1

/-- Step 3 of an exchange leaves the queue, or takes its head (R173, R180). -/
theorem Port.takeCarried_kept {q : Port} (h : q.takeCarried.2 = false) : q.takeCarried.1.queue = q.queue := by
  unfold Port.takeCarried at h ⊢
  split
  · rename_i hc
    rw [if_pos hc] at h
    split
    · rfl
    · rename_i m rest hq
      split
      · rfl
      · rename_i htwo
        rw [hq] at h
        simp only [htwo] at h
        cases h
  · rfl

/-- The end of an exchange, with the fill that the message taken makes room for (R64, R173). -/
theorem State.Routed.finishExchange (hs : s.Routed) (p : HostId) : (s.finishExchange p).Routed := by
  unfold State.finishExchange
  dsimp only
  generalize hq : (s.port p).takeCarried = q
  split
  · have hnone (h : HostId) (hne : h ≠ p) (hready : (s.updPort p fun _ => { q.1 with cs := .idle }).readyForOffer h = true) :
        (s.updPort p fun _ => { q.1 with cs := .idle }).choose h = none := by
      have hsame : (s.updPort p fun _ => { q.1 with cs := .idle }).choose = s.choose := State.choose_congr rfl rfl rfl rfl
      rw [hsame]
      refine hs.filled h (State.readyForOffer_iff.2 ?_)
      have := State.readyForOffer_iff.1 hready
      rwa [State.port_updPort, if_neg hne] at this
    have hcandidates : (s.updPort p fun _ => { q.1 with cs := .idle }).candidatesOf = s.candidatesOf := State.candidatesOf_congr rfl rfl rfl rfl
    have hwake : (s.updPort p fun _ => { q.1 with cs := .idle }).wakeCopies = s.wakeCopies := State.wakeCopies_congr rfl rfl rfl rfl
    obtain ⟨hfilled, hunpreempted, hwoken⟩ := State.arbiterFill_settles hnone (fun h o ho => by rw [hcandidates]; exact hs.unpreempted h o ho)
      fun h => by
        have := hs.woken h
        rw [← Bool.not_eq_true, State.wakeTriggered_iff] at this ⊢
        rwa [hwake]
    exact ⟨hfilled, hunpreempted, hwoken⟩
  · rename_i hkept
    refine hs.of_ports rfl (fun _ => rfl) (fun _ => rfl) (fun _ => rfl) fun h => ?_
    rw [State.port_updPort]
    split
    · rename_i hh
      have hqueue : q.1.queue = (s.port p).queue := by rw [← hq]; exact Port.takeCarried_kept (by rw [hq]; simpa using hkept)
      rw [hh, ← hqueue]
    · exact le_rfl

/-- Calm updates leave nothing to the Router (R50, R64). -/
theorem Calm.routed (h : Calm s t) (ht : t.running) (hs : s.running → s.Routed) : t.Routed := by
  cases h with
  | quiet h => exact h.routed ht hs
  | finish p hr => exact (hs hr).finishExchange p
  | fill p hr =>
    have hrouted := hs hr
    obtain ⟨hfilled, hunpreempted, hwoken⟩ := State.arbiterFill_settles (p := p) (fun h _ => hrouted.filled h) hrouted.unpreempted hrouted.woken
    exact ⟨hfilled, hunpreempted, hwoken⟩

end

/-! #### The invariants that every update keeps -/

/-- What every update keeps of hosts, records and copies, with no round end due while the hub runs (R54). -/
structure State.Coherent (s : State) : Prop where
  hosts : s.HostsOk
  arrivals : s.ArrivalsOk
  records : s.RecordsOk
  copies : s.CopiesOk
  rounds : s.running → s.RoundsOk

/-- A hub runs after an update only if it ran before, or if the update completes a reset (R167). -/
theorem Stir.was_running {s₀ s t : State} (h : Stir s₀ s t) (ht : t.running) : s.running ∨ t.RoundsOk := by
  rcases h.steady with h | ⟨hr, -⟩
  · cases h with
    | aside | port | line | entry | holder | fetch | epoch => exact .inl ht
    | notify _ hr | session hr => exact .inl hr
    | hold c => exact absurd ht (State.hold_not_running s c)
    | endHold => cases ht
    | complete pins causes => exact .inr fun n r hr => by rw [State.completed_record] at hr; cases hr
  · exact .inl hr

theorem Stir.coherent {s₀ s t : State} (h : Stir s₀ s t) (hs₀ : s₀.Coherent) (hs : s.Coherent) : t.Coherent where
  hosts := h.hostsOk hs₀.hosts hs.hosts
  arrivals := Touches.arrivalsOk h.touches hs.arrivals
  records := h.touches.recordsOk hs.records
  copies := h.copiesOk hs.hosts hs.records hs.copies
  rounds ht := (h.was_running ht).elim (fun hr => h.roundsOk hs.hosts hs.arrivals hs.copies (hs.rounds hr)) id

/-- A coherent hub that is settled while it runs stays so (R50, R54). -/
theorem step_settledOk {s t : State} (hosts : s.HostsOk) (ha : s.ArrivalsOk) (hok : s.RecordsOk) (hcopies : s.CopiesOk) (hs : s.SettledOk)
    (h : step s = .next t) : t.Coherent ∧ (t.running → t.Routed) := by
  refine step_keeps_settled (L := State.Coherent) (Q := fun u => u.Coherent ∧ (u.running → u.Routed)) (fun _ h => h.1)
    (fun _ _ _ h₀ hstir hu => hstir.coherent h₀ hu) (fun u v hcalm hu => ⟨?_, fun hr => hcalm.routed hr hu.2⟩)
    (fun u hr hu => ⟨?_, fun _ => ?_⟩) ⟨⟨hosts, ha, hok, hcopies, fun hr => (hs hr).rounds⟩, fun hr => (State.settled_iff.1 (hs hr)).1⟩ h
  · exact (Stirs.of_calm hcalm).keeps (fun _ _ hstir hv => hstir.coherent hu.1 hv) hu.1
  · exact (Stirs.recompute hr).keeps (fun _ _ hstir hv => hstir.coherent hu hv) hu
  · obtain ⟨hfilled, hunpreempted, hwoken⟩ := u.recompute_settles
    exact ⟨hfilled, hunpreempted, hwoken⟩

/-- Settles O15: every update keeps each invariant but the settled one, and the Router's recomputation with the calm updates after it restores that one. -/
theorem safetyKept : Obligations.SafetyKept := by
  unfold Obligations.SafetyKept
  intro s t hs h
  obtain ⟨hcoherent, hrouted⟩ := step_settledOk hs.hosts hs.arrivals hs.records hs.copies hs.settled h
  exact {
    quota := step_keeps (fun _ _ _ _ hstir => hstir.quotaOk) hs.quota h
    hosts := hcoherent.hosts
    leases := step_keeps (fun _ _ _ _ hstir => hstir.leasesOk) hs.leases h
    loss := step_keeps (fun _ _ _ _ hstir => hstir.lossOk) hs.loss h
    arrivals := hcoherent.arrivals
    records := hcoherent.records
    copies := hcoherent.copies
    queues := step_keeps (fun _ _ _ _ hstir => hstir.queuesOk) hs.queues h
    detectors := step_keeps (fun _ _ _ _ hstir => hstir.detectorsOk) hs.detectors h
    epoch := step_keeps (fun _ _ _ _ hstir => hstir.epochOk) hs.epoch h
    inReset := step_keeps (fun _ _ _ _ hstir => hstir.resetOk) hs.inReset h
    settled := fun hr => State.settled_iff.2 ⟨hrouted hr, hcoherent.rounds hr⟩ }

end Sys2Proof.Machine
end

section
/-! SUPPORT. The detectors and a hub in reset through every step, and the argument encodings of R176. -/

namespace Sys2Proof.Machine

/-! ### Detectors, epoch and reset (R28 to R31, R164, R165, R187) -/

/-- Settles O13: every update keeps the detectors, the epoch and what a hub in reset holds, so every step does. -/
theorem detectorsAndResetKept : Obligations.DetectorsAndResetKept := by
  unfold Obligations.DetectorsAndResetKept
  exact ⟨fun _ _ hs h => step_keeps (fun _ _ _ _ hstir => hstir.detectorsOk) hs h,
    fun _ _ h => ⟨fun hs => step_keeps (fun _ _ _ _ hstir => hstir.epochOk) hs h,
      fun hs => step_keeps (fun _ _ _ _ hstir => hstir.resetOk) hs h⟩⟩

/-! ### The argument encodings (R176) -/

theorem HostId.toNat_injective : Function.Injective HostId.toNat := fun a b h =>
  Option.some.inj (by rw [← HostId.ofNat?_toNat a, h, HostId.ofNat?_toNat])

/-- A 2-bit field of a route list names the host of its number. -/
theorem routeField_toNat (hosts : Byte) (i : Nat) : (routeField hosts i).toNat = hosts.toNat / 4 ^ i % 4 := by
  have hlt : hosts.toNat / 4 ^ i % 4 < 4 := Nat.mod_lt _ (by decide)
  unfold routeField
  generalize hosts.toNat / 4 ^ i % 4 = k at hlt ⊢
  match k, hlt with
  | 0, _ | 1, _ | 2, _ | 3, _ => rfl

/-- The four hosts that the second byte of a route list names. -/
def routeHosts (hosts : Byte) : List HostId := [routeField hosts 0, routeField hosts 1, routeField hosts 2, routeField hosts 3]

theorem parseRoute_eq_ite (count hosts : Byte) : parseRoute count hosts =
    if 1 ≤ count.toNat ∧ count.toNat ≤ 4 ∧ ((routeHosts hosts).take count.toNat).Nodup then some ((routeHosts hosts).take count.toNat)
    else none := rfl

theorem parseRoute_eq {count hosts : Byte} {route : List HostId} : parseRoute count hosts = some route ↔
    (1 ≤ count.toNat ∧ count.toNat ≤ 4 ∧ ((routeHosts hosts).take count.toNat).Nodup) ∧ route = (routeHosts hosts).take count.toNat := by
  rw [parseRoute_eq_ite, Option.ite_none_right_eq_some, Option.some.injEq, eq_comm (a := route)]

theorem parseRoute_none {count hosts : Byte} : parseRoute count hosts = none ↔
    count = 0 ∨ 4 < count.toNat ∨ ¬((routeHosts hosts).take count.toNat).Nodup := by
  have hzero : count = 0 ↔ ¬1 ≤ count.toNat := by bv_omega
  rw [parseRoute_eq_ite, hzero, ← Nat.not_le, ← not_and_or, ← not_and_or]
  simp

/-- The numbers of the hosts are the bit fields. -/
theorem routeHosts_take_toNat (count hosts : Byte) : ((routeHosts hosts).take count.toNat).map HostId.toNat =
    [hosts.toNat % 4, hosts.toNat / 4 % 4, hosts.toNat / 16 % 4, hosts.toNat / 64 % 4].take count.toNat := by
  rw [List.map_take]
  simp [routeHosts, routeField_toNat]

theorem parseConfigFlags_none {b : Byte} : parseConfigFlags b = none ↔ 4 ≤ b.toNat := by simp [parseConfigFlags]

theorem parseConfigFlags_of_le {b : Byte} (h : b.toNat ≤ 3) : parseConfigFlags b = some (b.getLsbD 0, b.getLsbD 1) :=
  if_pos (Nat.lt_succ_of_le h)

theorem parseQualification_of_mem {b : Byte} (h : b.toNat ∈ [0, 1, 2, 4, 8, 16, 32, 64]) : parseQualification b = some b.toNat :=
  if_pos (List.contains_iff_mem.2 h)

theorem parseSense_of_le {b : Byte} (h : b.toNat ≤ 4) : ∃ v, parseSense b = some v :=
  Option.ne_none_iff_exists'.1 fun hnone => absurd (parseSense_none.1 hnone) (by omega)

/-- A CONFIG_LINE is outside its values when its flag byte is (log entry 12). -/
theorem parseLineEntry_flags_none {flags sense qual band mode rc rh : Byte} (h : parseConfigFlags flags = none) :
    parseLineEntry flags sense qual band mode rc rh = none := by
  simp [parseLineEntry, h]

/-- Settles O52: the hosts of a route list are its 2-bit fields, and each field of a CONFIG_LINE is read by its own form. -/
theorem argumentEncodings : Obligations.ArgumentEncodings := by
  unfold Obligations.ArgumentEncodings
  refine ⟨fun count hosts => ?_, fun flags sense qual band mode rc rh route hsense hqual hband hmode hroute => ⟨fun hflags => ?_, fun hflags => ?_⟩⟩
  · dsimp only
    rw [← routeHosts_take_toNat, List.nodup_map_iff HostId.toNat_injective]
    refine ⟨fun route => ?_, parseRoute_none⟩
    rw [parseRoute_eq, (List.map_injective_iff.2 HostId.toNat_injective).eq_iff]
  · exact parseLineEntry_flags_none (parseConfigFlags_none.2 hflags)
  · obtain ⟨v, hv⟩ := parseSense_of_le hsense
    have hb : parseRange 0 7 band = some band.toNat := parseRange_eq.2 ⟨rfl, Nat.zero_le _, hband⟩
    simp only [parseLineEntry, parseConfigFlags_of_le hflags, hv, parseQualification_of_mem hqual, hb, parseMode_of_le hmode, hroute]
    rw [parseSense_eq.1 hv]
    cases v <;> rfl

end Sys2Proof.Machine
end

section
/-! SUPPORT. The detector of a line, from the raw change of its pin to the acceptance of a level (chapter 2). -/

namespace Sys2Proof.Machine

/-! ### The acceptance of a level (R31, R32) -/

theorem Sense.asksFor_iff (v : Sense) (level : Level) : v.asksFor level = true ↔
    v = .both ∨ (level = .high ∧ (v = .rise ∨ v = .high)) ∨ (level = .low ∧ (v = .fall ∨ v = .low)) := by
  cases v <;> cases level <;> simp [Sense.asksFor]

theorem State.accept_eq (s : State) (l : LineNo) (level : Level) : s.accept l level =
    if (s.entry l).enabled && (s.entry l).sense.asksFor level then ((s.setLine l ⟨(s.line l).raw, .steady level⟩).arrive l).recompute
    else s.setLine l ⟨(s.line l).raw, .steady level⟩ := rfl

/-- An acceptance reads the raw level of the line alone, whatever its detector was. -/
theorem State.accept_setLine (s : State) (l : LineNo) (v : LineState) (level : Level) : (s.setLine l v).accept l level =
    if (s.entry l).enabled && (s.entry l).sense.asksFor level then ((s.setLine l ⟨v.raw, .steady level⟩).arrive l).recompute
    else s.setLine l ⟨v.raw, .steady level⟩ := by
  rw [State.accept_eq, State.entry_setLine, State.setLine_setLine, State.line_setLine, if_pos rfl]

/-! ### The raw changes (R27 to R30) -/

section rawChange
variable {s : State} {l : LineNo} {level a : Level}

theorem State.rawChange_unprimed (hd : (s.line l).detector = .unprimed) : s.rawChange l level = s.setLine l ⟨level, .unprimed⟩ := by
  simp [State.rawChange, hd]

theorem State.rawChange_steady_same (hd : (s.line l).detector = .steady a) (ha : a = level) :
    s.rawChange l level = s.setLine l ⟨level, .steady a⟩ := by
  simp [State.rawChange, hd, ha]

theorem State.rawChange_qualifies (hd : (s.line l).detector = .steady a) (ha : a ≠ level) (hq : (s.entry l).qualification ≠ 0) :
    s.rawChange l level = s.setLine l ⟨level, .qualifying a level (s.now + (s.entry l).qualification)⟩ := by
  simp [State.rawChange, hd, ha.symm, hq, State.setLine_setLine]

theorem State.rawChange_accepts (hd : (s.line l).detector = .steady a) (ha : a ≠ level) (hq : (s.entry l).qualification = 0) :
    s.rawChange l level =
      if (s.entry l).enabled && (s.entry l).sense.asksFor level then ((s.setLine l ⟨level, .steady level⟩).arrive l).recompute
      else s.setLine l ⟨level, .steady level⟩ := by
  simp [State.rawChange, hd, ha.symm, hq, State.accept_setLine]

theorem State.rawChange_cancels {pending : Level} {expiry : Nat} (hd : (s.line l).detector = .qualifying a pending expiry)
    (ha : a = level) : s.rawChange l level = s.setLine l ⟨level, .steady a⟩ := by
  simp [State.rawChange, hd, ha, State.setLine_setLine]

/-- A sample that differs is taken while the hub runs (R27). -/
theorem exec_rawChange (hr : s.running) (hraw : (s.line l).raw ≠ level) : exec (.rawChange l level) s = .next (s.rawChange l level) := by
  have hr' : s.inReset = none := hr
  simp [exec, execRawChange, hr', hraw]

/-- The expiry of a running qualification timer accepts the pending level (R31). -/
theorem exec_qualificationTimerExpiry {pending : Level} {expiry : Nat} (hr : s.running)
    (hd : (s.line l).detector = .qualifying a pending expiry) :
    exec (.qualificationTimerExpiry l) s = .next (({ s with now := max s.now expiry } : State).accept l pending) := by
  have hr' : s.inReset = none := hr
  simp [exec, execQualificationTimerExpiry, hr', hd]

end rawChange

/-- Settles O56, one clause for each state of the detector in which a raw change or an expiry finds it. -/
theorem detectorFollowsPin : Obligations.DetectorFollowsPin := by
  unfold Obligations.DetectorFollowsPin
  refine ⟨fun l level s hr hraw => ?_, fun l a pending expiry s hr hd => exec_qualificationTimerExpiry hr hd, Sense.asksFor_iff⟩
  dsimp only
  rw [exec_rawChange hr hraw]
  exact ⟨fun hd => congrArg _ (State.rawChange_unprimed hd), fun a hd ha => congrArg _ (State.rawChange_steady_same hd ha),
    fun a hd ha hq => congrArg _ (State.rawChange_qualifies hd ha hq), fun a hd ha hq => congrArg _ (State.rawChange_accepts hd ha hq),
    fun a pending expiry hd ha => congrArg _ (State.rawChange_cancels hd ha)⟩

end Sys2Proof.Machine
end

section
/-! SUPPORT. Which commands and events change the line table (R25, R147, R157). -/

namespace Sys2Proof.Machine

/-! ### An exchange and its command

What an exchange leaves of the line table is what its command's own rule leaves of it. -/

theorem State.csFall_outline (s : State) (p : HostId) :
    s.csFall p = { s with ports := (s.csFall p).ports, freeIdx := (s.csFall p).freeIdx } := by
  unfold State.csFall
  repeat' split
  all_goals rfl

theorem State.ensureExchange_outline (s : State) (p : HostId) :
    s.ensureExchange p = { s with ports := (s.ensureExchange p).ports, freeIdx := (s.ensureExchange p).freeIdx } := by
  unfold State.ensureExchange
  split
  · exact State.csFall_outline s p
  all_goals rfl

theorem State.clearMarks_outline (s : State) (p : HostId) (bytes : Nat) :
    s.clearMarks p bytes = { s with ports := (s.clearMarks p bytes).ports } := by
  unfold State.clearMarks
  split <;> rfl

/-- The state in which a command is judged differs from the one before in the ports and the count of formed frames alone, whether or not the exchange
can be (R172, R173). -/
theorem State.judged_outline (s : State) (p : HostId) :
    s.judged p = { s with ports := (s.judged p).ports, freeIdx := (s.judged p).freeIdx } := by
  unfold State.judged
  rw [State.clearMarks_outline, State.ensureExchange_outline]

/-- The line table after a rise of CS is the one before it, or what the command leaves of it in a running hub (R173, R174, R187). -/
theorem State.csRise_table (s : State) (p : HostId) (bytes : Nat) (take : State → State) :
    (s.csRise p bytes take).table = s.table ∨
      s.running ∧ (s.csRise p bytes take).table = (take (s.clearMarks p bytes)).table := by
  unfold State.csRise
  split
  · exact .inl rfl
  · rename_i hr _
    split
    · exact .inl rfl
    · exact .inr ⟨hr, by simp⟩
  · exact .inl rfl

/-- The line table after a full exchange is the one before it, or what the command leaves of it in a running hub (R173, R187). -/
theorem State.fullExchange_table (s : State) (p : HostId) (take : State → State) :
    (s.fullExchange p take).table = s.table ∨ s.running ∧ (s.fullExchange p take).table = (take (s.judged p)).table := by
  have houtline := State.ensureExchange_outline s p
  rcases State.csRise_table (s.ensureExchange p) p 12 take with h | ⟨hr, h⟩
  · exact .inl (h.trans (by rw [houtline]))
  · exact .inr ⟨by rw [houtline] at hr; exact hr, h⟩

theorem State.fullExchange_keeps_table {s : State} {p : HostId} {take : State → State} (h : ∀ v, (take v).table = v.table) :
    (s.fullExchange p take).table = s.table := by
  rcases State.fullExchange_table s p take with he | ⟨-, he⟩
  · exact he
  · rw [he, h, State.judged_outline]

theorem State.withReplyRoom_keeps_table {s : State} {p : HostId} {take : State → State} (h : (take s).table = s.table) :
    (s.withReplyRoom p take).table = s.table := by
  unfold State.withReplyRoom
  split
  · exact h
  · rfl

/-- The line table after a command is the one before it, or what the command's own rule leaves of it for an attached host (R126, R178). -/
theorem State.command_table (s : State) (p : HostId) (q : Byte) (act : State → Effect) :
    (s.command p q act).table = s.table ∨
      s.attached p = true ∧ (s.command p q act).table = (act (s.wakeUp p)).state.table := by
  unfold State.command State.withReplyRoom
  dsimp only
  split
  · split
    · rename_i ha
      split
      · exact .inr ⟨ha, by simp⟩
      · exact .inr ⟨ha, rfl⟩
    · exact .inl rfl
  · exact .inl rfl

/-- The line table after a command row, by the command's own rule. -/
theorem State.commandRow_table (s : State) (p : HostId) (q : Byte) (act : State → Effect) :
    (s.fullExchange p fun s => s.command p q act).table = s.table ∨
      s.running ∧ s.attached p = true ∧ (s.fullExchange p fun s => s.command p q act).table = (act (s.heard p)).state.table := by
  have houtline := State.judged_outline s p
  rcases State.fullExchange_table s p fun s => s.command p q act with h | ⟨hr, h⟩
  · exact .inl h
  · rcases State.command_table (s.judged p) p q act with h' | ⟨ha, h'⟩
    · exact .inl ((h.trans h').trans (by rw [houtline]))
    · have ha' : s.attached p = true := by rw [houtline] at ha; exact ha
      exact .inr ⟨hr, ha', h.trans h'⟩

theorem State.commandRow_keeps_table {s : State} {p : HostId} {q : Byte} {act : State → Effect} (h : ∀ v, (act v).state.table = v.table) :
    (s.fullExchange p fun s => s.command p q act).table = s.table := by
  rcases State.commandRow_table s p q act with he | ⟨-, -, he⟩
  · exact he
  · rw [he, h, State.heard, State.wakeUp_table, State.judged_outline]

/-! ### What the other rows leave of the line table -/

@[simp] theorem State.answer_table (s : State) (p : HostId) (q : Byte) (result : ResultCode) (data : ReplyData) :
    (s.answer p q result data).state.table = s.table := rfl

theorem State.fetchLoss_table (s : State) (p : HostId) (q : Byte) : (s.fetchLoss p q).table = s.table := by
  unfold State.fetchLoss
  dsimp only
  split <;> rfl

theorem State.claimOffer_table (s : State) (p : HostId) (q : Byte) (o : Offer) (r : Record) : (s.claimOffer p q o r).table = s.table := rfl

theorem State.declineOffer_table (s : State) (p : HostId) (q : Byte) (o : Offer) (r : Record) :
    (s.declineOffer p q o r).table = s.table := by
  unfold State.declineOffer
  dsimp only
  split <;> simp

theorem State.finishService_table (s : State) (p : HostId) (q : Byte) (e : StackEntry) : (s.finishService p q e).table = s.table := by
  simp [State.finishService]

theorem State.retractAny_table (s : State) (p : HostId) (q : Byte) (n : SlotNo) (r : Record) :
    (s.retractAny p q n r).state.table = s.table := by
  unfold State.retractAny
  split <;> simp

theorem State.retractEach_table (s : State) (p : HostId) (q : Byte) (n : SlotNo) (r : Record) :
    (s.retractEach p q n r).state.table = s.table := by
  unfold State.retractEach
  dsimp only
  split <;> simp

theorem State.openSession_table (s : State) (p : HostId) (q : Byte) (depth : Nat) : (s.openSession p q depth).table = s.table := by
  simp [State.openSession]

theorem State.closeSession_table (s : State) (p : HostId) (q : Byte) : (s.closeSession p q).table = s.table := by
  simp [State.closeSession]

theorem State.sleepDoze_table (s : State) (p : HostId) (q : Byte) : (s.sleepDoze p q).table = s.table := by
  unfold State.sleepDoze
  split <;> simp

theorem State.sleepDeep_table (s : State) (p : HostId) (q : Byte) : (s.sleepDeep p q).table = s.table := by
  unfold State.sleepDeep
  split <;> simp

theorem State.answerHost_table (s : State) (p : HostId) (q host view : Byte) : (s.answerHost p q host view).table = s.table := by
  unfold State.answerHost
  split <;> rfl

theorem State.accept_table (s : State) (l : LineNo) (level : Level) : (s.accept l level).table = s.table := by
  unfold State.accept
  dsimp only
  split <;> simp

theorem State.rawChange_table (s : State) (l : LineNo) (level : Level) : (s.rawChange l level).table = s.table := by
  unfold State.rawChange
  dsimp only
  repeat' split
  all_goals simp [State.accept_table]

theorem State.miss_table {s : State} {h : HostId} {cause : EvictCause} {survive : State → State} (hs : ∀ v, (survive v).table = v.table) :
    (s.miss h cause survive).table = s.table := by
  unfold State.miss
  dsimp only
  split
  · simp
  · rw [hs]; rfl

theorem State.hold_table (s : State) (c : Cause) : (s.hold c).table = s.table := by
  unfold State.hold
  split <;> rfl

theorem State.arm_table (s : State) (l : LineNo) : (s.arm l).table = s.table := by
  unfold State.arm
  dsimp only
  split <;> simp

theorem State.rebuild_table (s : State) (l : LineNo) : (s.rebuild l).table = s.table := by
  simp [State.rebuild]

/-! ### Each command -/

section command
variable {s t : State} {p : HostId} {q : Byte}

theorem exec_claim_table {slot serial : Byte} (h : exec (.claim p q slot serial) s = .next t) : t.table = s.table := by
  cases h
  refine State.commandRow_keeps_table fun v => ?_
  split
  · exact State.claimOffer_table ..
  · rfl

theorem exec_decline_table {slot serial : Byte} (h : exec (.decline p q slot serial) s = .next t) : t.table = s.table := by
  cases h
  refine State.commandRow_keeps_table fun v => ?_
  split
  · exact State.declineOffer_table ..
  · rfl

theorem exec_done_table {slot serial : Byte} (h : exec (.done p q slot serial) s = .next t) : t.table = s.table := by
  cases h
  refine State.commandRow_keeps_table fun v => ?_
  split
  · split
    · split
      · exact State.finishService_table ..
      · rfl
    · rfl
  · rfl

theorem exec_post_table {band mode notify rc rh : Byte} {payload : BitVec 32}
    (h : exec (.post p q band mode notify rc rh payload) s = .next t) : t.table = s.table := by
  cases h
  refine State.commandRow_keeps_table fun v => ?_
  split
  · rfl
  · dsimp only
    split
    · split <;> simp
    · rfl

theorem exec_retract_table {slot : Byte} (h : exec (.retract p q slot) s = .next t) : t.table = s.table := by
  cases h
  refine State.commandRow_keeps_table fun v => ?_
  split
  · rfl
  · split
    · rfl
    · split
      · split
        · exact State.retractAny_table ..
        · exact State.retractEach_table ..
      · rfl

theorem exec_attach_table {depth : Byte} (h : exec (.attach p q depth) s = .next t) : t.table = s.table := by
  cases h
  refine State.fullExchange_keeps_table fun v => State.withReplyRoom_keeps_table ?_
  split
  · rfl
  · split
    · rfl
    · exact State.openSession_table ..

theorem exec_detach_table (h : exec (.detach p q) s = .next t) : t.table = s.table := by
  cases h
  refine State.fullExchange_keeps_table fun v => State.withReplyRoom_keeps_table ?_
  split
  · exact (State.closeSession_table ..).trans (State.wakeUp_table ..)
  · rfl

theorem exec_sleep_table {depth : Byte} (h : exec (.sleep p q depth) s = .next t) : t.table = s.table := by
  cases h
  refine State.fullExchange_keeps_table fun v => State.withReplyRoom_keeps_table ?_
  split
  · split
    · exact State.sleepDoze_table ..
    · exact State.sleepDeep_table ..
    · rfl
  · rfl

theorem exec_queryHost_table {host view : Byte} (h : exec (.queryHost p q host view) s = .next t) : t.table = s.table := by
  cases h
  refine State.fullExchange_keeps_table fun v => State.withReplyRoom_keeps_table ?_
  have hanswer : ((v.wakeUp p).answerHost p q host view).table = v.table := (State.answerHost_table ..).trans (State.wakeUp_table ..)
  dsimp only
  split
  · simpa using hanswer
  · exact hanswer

theorem exec_setFloor_table {floor : Byte} (h : exec (.setFloor p q floor) s = .next t) : t.table = s.table := by
  cases h
  refine State.commandRow_keeps_table fun v => ?_
  split
  · rfl
  · dsimp only
    split
    · split <;> simp
    · rfl

theorem exec_setQuota_table {quota : Byte} (h : exec (.setQuota p q quota) s = .next t) : t.table = s.table := by
  cases h
  refine State.commandRow_keeps_table fun v => ?_
  split
  · rfl
  · dsimp only
    split <;> rfl

theorem exec_lease_table {group : Byte} (h : exec (.lease p q group) s = .next t) : t.table = s.table := by
  cases h
  refine State.commandRow_keeps_table fun v => ?_
  split
  · rfl
  · split <;> rfl

theorem exec_release_table {group : Byte} (h : exec (.release p q group) s = .next t) : t.table = s.table := by
  cases h
  refine State.commandRow_keeps_table fun v => ?_
  split
  · rfl
  · split <;> rfl

end command

/-! ### Each event -/

section event
variable {s t : State}

theorem exec_shortExchange_table {p : HostId} {counted : Fin 12} (h : exec (.shortExchange p counted) s = .next t) : t.table = s.table := by
  cases h
  rcases State.csRise_table s p counted.val id with he | ⟨-, he⟩
  · exact he
  · rw [he, id, State.clearMarks_outline]

theorem exec_rawChange_table {l : LineNo} {level : Level} (h : exec (.rawChange l level) s = .next t) : t.table = s.table := by
  simp only [exec, execRawChange] at h
  split at h <;> cases h
  · split
    · rfl
    · exact State.rawChange_table ..
  · rfl

theorem exec_qualificationTimerExpiry_table {l : LineNo} (h : exec (.qualificationTimerExpiry l) s = .next t) : t.table = s.table := by
  simp only [exec, execQualificationTimerExpiry] at h
  split at h <;> cases h
  · exact State.accept_table ..
  · rfl

theorem exec_claimTimerExpiry_table {k : HostId} (h : exec (.claimTimerExpiry k) s = .next t) : t.table = s.table := by
  simp only [exec, execClaimTimerExpiry] at h
  split at h <;> cases h
  · unfold State.claimExpiry
    rw [State.miss_table fun v => by simp]
    simp
  · rfl

theorem exec_wakeTimerExpiry_table {k : HostId} (h : exec (.wakeTimerExpiry k) s = .next t) : t.table = s.table := by
  simp only [exec, execWakeTimerExpiry] at h
  split at h <;> cases h
  · exact State.miss_table fun _ => rfl
  · rfl

theorem exec_arbiterFill_table {k : HostId} (h : exec (.arbiterFill k) s = .next t) : t.table = s.table := by
  simp only [exec, execArbiterFill] at h
  split at h <;> cases h
  · simp
  · rfl

theorem exec_powerOn_table (h : exec .powerOn s = .next t) : t.table = s.table := by
  cases h
  exact State.hold_table s .powerOn

theorem exec_exchangeDiscarded_table {p : HostId} (h : exec (.exchangeDiscarded p) s = .next t) : t.table = s.table := by
  simp only [exec, execExchangeDiscarded] at h
  split at h <;> cases h <;> rfl

theorem exec_holdEnds_table {c : Cause} (h : exec (.holdEnds c) s = .next t) : t.table = s.table := by
  simp only [exec, execHoldEnds] at h
  split at h
  · cases h; rfl
  · split at h <;> cases h <;> rfl

/-- A running hub has no reset to complete (R165). -/
theorem exec_hubResetCompletion_running {pins : BitVec 48} (hr : s.running) (h : exec (.hubResetCompletion pins) s = .next t) : t = s := by
  have hr' : s.inReset = none := hr
  simp only [exec, execHubResetCompletion, hr'] at h
  cases h
  rfl

end event

/-! ### CONFIG_LINE -/

/-- A CONFIG_LINE that has passed its checks replaces the entry of its line alone (R148). -/
theorem State.configure_table (s : State) (p : HostId) (q : Byte) (l : LineNo) (new : LineEntry) (apply : Bool) :
    (s.configure p q l new apply).table = (s.setEntry l new).table := by
  unfold State.configure
  dsimp only
  have harmed : (if armsDetector (s.entry l) new then (s.setEntry l new).arm l else s.setEntry l new).table = (s.setEntry l new).table := by
    split
    · exact State.arm_table ..
    · rfl
  generalize (if armsDetector (s.entry l) new then (s.setEntry l new).arm l else s.setEntry l new) = u at harmed ⊢
  split
  · exact (State.rebuild_table u l).trans harmed
  · exact harmed

/-- The entry that a CONFIG_LINE changes is its line's, and its caller holds the lease (R147). -/
theorem exec_configLine_entry {s t : State} {p : HostId} {q line flags sense qual band mode rc rh : Byte} {l : LineNo}
    (h : exec (.configLine p q line flags sense qual band mode rc rh) s = .next t) (hne : t.entry l ≠ s.entry l) :
    line.toNat = l.val ∧ s.running ∧ s.attached p = true ∧ s.holder (groupOfLine l) = some p := by
  cases h
  have hheard : (s.heard p).table = s.table ∧ (s.heard p).leases = s.leases := by
    rw [State.heard, State.wakeUp_table, State.wakeUp_leases, State.judged_outline]
    exact ⟨rfl, rfl⟩
  obtain ⟨htable, hleases⟩ := hheard
  rcases State.commandRow_table s p q _ with he | ⟨hr, ha, he⟩
  · exact absurd (congrFun (State.entry_congr he) l) hne
  · have hsame {v : State} (hv : v.table = (s.heard p).table) : v.entry l = s.entry l :=
      congrFun (State.entry_congr (hv.trans htable)) l
    rw [State.entry_congr he] at hne
    split at hne
    · exact absurd (hsame rfl) hne
    · rename_i k hk
      split at hne
      · rename_i hholder
        split at hne
        · exact absurd (hsame rfl) hne
        · rename_i new apply _
          rw [State.entry_congr (State.configure_table ..), State.entry_setEntry, State.entry_congr htable] at hne
          obtain rfl : l = k := by
            by_contra hlk
            exact hne (if_neg hlk)
          rw [State.holder_congr hleases] at hholder
          exact ⟨parseLine_eq.1 hk, hr, ha, hholder⟩
      · exact absurd (hsame rfl) hne

/-- Settles O16: every row but CONFIG_LINE and the completion of a reset leaves the whole line table as it is. -/
theorem lineTableGuarded : Obligations.LineTableGuarded := by
  unfold Obligations.LineTableGuarded
  intro i s t l h hne
  have hkept (htable : t.table = s.table) {P : Prop} : P := absurd (congrFun (State.entry_congr htable) l) hne
  cases i with
  | configLine p q line flags sense qual band mode rc rh =>
    exact .inl ⟨p, q, line, flags, sense, qual, band, mode, rc, rh, rfl, exec_configLine_entry h hne⟩
  | hubResetCompletion pins =>
    refine .inr ⟨pins, rfl, fun hr => hne ?_⟩
    rw [exec_hubResetCompletion_running hr h]
  | exchangeStart p => cases h; exact hkept (by rw [State.csFall_outline])
  | shortExchange p counted => exact hkept (exec_shortExchange_table h)
  | nop p q => cases h; exact hkept (State.fullExchange_keeps_table fun _ => rfl)
  | unknownCommand p q code => cases h; exact hkept (State.commandRow_keeps_table fun _ => rfl)
  | attach p q depth => exact hkept (exec_attach_table h)
  | detach p q => exact hkept (exec_detach_table h)
  | sleep p q depth => exact hkept (exec_sleep_table h)
  | setHost p q param value => cases h; exact hkept (State.commandRow_keeps_table fun _ => by split <;> rfl)
  | setFloor p q floor => exact hkept (exec_setFloor_table h)
  | setQuota p q quota => exact hkept (exec_setQuota_table h)
  | queryHost p q host view => exact hkept (exec_queryHost_table h)
  | claim p q slot serial => exact hkept (exec_claim_table h)
  | decline p q slot serial => exact hkept (exec_decline_table h)
  | done p q slot serial => exact hkept (exec_done_table h)
  | post p q band mode notify rc rh payload => exact hkept (exec_post_table h)
  | retract p q slot => exact hkept (exec_retract_table h)
  | lease p q group => exact hkept (exec_lease_table h)
  | release p q group => exact hkept (exec_release_table h)
  | fetchLoss p q => cases h; exact hkept (State.commandRow_keeps_table fun v => State.fetchLoss_table v p q)
  | ackNotice p q causes => cases h; exact hkept (State.commandRow_keeps_table fun _ => by split <;> rfl)
  | queryEvent p q slot view => cases h; exact hkept (State.commandRow_keeps_table fun _ => by split <;> rfl)
  | queryLine p q line => cases h; exact hkept (State.commandRow_keeps_table fun _ => by split <;> rfl)
  | rawChange k level => exact hkept (exec_rawChange_table h)
  | qualificationTimerExpiry k => exact hkept (exec_qualificationTimerExpiry_table h)
  | claimTimerExpiry k => exact hkept (exec_claimTimerExpiry_table h)
  | wakeTimerExpiry k => exact hkept (exec_wakeTimerExpiry_table h)
  | arbiterFill k => exact hkept (exec_arbiterFill_table h)
  | resetLine => cases h; exact hkept (State.hold_table s .resetLine)
  | supplyLow => cases h; exact hkept (State.hold_table s .supplyLow)
  | powerOn => exact hkept (exec_powerOn_table h)
  | exchangeDiscarded p => exact hkept (exec_exchangeDiscarded_table h)
  | holdEnds c => exact hkept (exec_holdEnds_table h)

end Sys2Proof.Machine
end

