-- ==== Sys2Proof/Proofs/Routing.lean ====
section
/-! SUPPORT. The answers of the Router, the end of a decline round, SET_FLOOR, and what the Router's recomputation settles. -/

namespace Sys2Proof.Machine

/-! ### The Router leaves nothing undone (R50, R54, R59, R64, R76) -/

/-- Settles O14: every update keeps hosts, records, copies and rounds, and the Router's recomputation with the calm updates after it settles the rest. -/
theorem settledKept : Obligations.SettledKept := by
  unfold Obligations.SettledKept
  intro s t hosts harrivals hrecords hcopies hs h hr
  obtain ⟨hcoherent, hrouted⟩ := step_settledOk hosts harrivals hrecords hcopies hs h
  exact State.settled_iff.2 ⟨hrouted hr, hcoherent.rounds hr⟩

/-- Settles O28: the passes of preemption, the fills and the wakes each leave nothing of their kind to do, and undo nothing of the others. -/
theorem recomputationSettles : Obligations.RecomputationSettles := State.recompute_settles

/-! ### Eligibility and candidates (R44 to R46, R90) -/

section
variable {s : State} {r : Record} {c : Copy}

theorem HostState.listening_iff {v : HostState} : v.listening = true ↔ v = .awake ∨ v = .doze := by cases v <;> decide

theorem HostState.asleep_iff {v : HostState} : v.asleep = true ↔ v = .deep ∨ v = .waking := by cases v <;> decide

theorem State.eligible_iff {h : HostId} {band : Nat} : s.eligible h band = true ↔
    ((s.session h).state = .awake ∨ (s.session h).state = .doze) ∧ (s.session h).floor < band ∧ s.level h < band ∧
      (s.disp h).stack.length < (s.session h).depth := by
  rw [State.eligible, Bool.and_eq_true, HostState.listening_iff, State.hasRoomFor_iff]

theorem State.wouldAccept_iff {h : HostId} {band : Nat} : s.wouldAccept h band = true ↔
    ((s.session h).state = .deep ∨ (s.session h).state = .waking) ∧ (s.session h).floor < band ∧ s.level h < band ∧
      (s.disp h).stack.length < (s.session h).depth := by
  rw [State.wouldAccept, Bool.and_eq_true, HostState.asleep_iff, State.hasRoomFor_iff]

theorem State.level_empty {h : HostId} (hs : (s.disp h).stack = []) : s.level h = 0 := by simp [State.level, hs]

theorem State.level_newest {h : HostId} {es : List StackEntry} {e : StackEntry} (hs : (s.disp h).stack = es ++ [e]) : s.level h = e.band := by
  simp [State.level, hs]

theorem State.candidate_any (hw : c.state = .waiting) (hm : r.mode = .any) :
    s.candidate r c = r.route.find? fun h => s.eligible h r.band && !r.declined.get h := by simp [State.candidate, hw, hm]

theorem State.candidate_each (hw : c.state = .waiting) (hm : r.mode = .each) :
    s.candidate r c = c.host.filter fun h => s.eligible h r.band := by simp [State.candidate, hw, hm]

theorem State.candidate_not_waiting (hw : c.state ≠ .waiting) : s.candidate r c = none := by
  rw [Option.eq_none_iff_forall_ne_some]
  exact fun h hc => hw (State.candidate_some hc).1

/-- No band is below 0, so nothing accepts a copy of band 0 (R44). -/
theorem State.candidate_band_zero (hb : r.band = 0) : s.candidate r c = none := by
  rw [Option.eq_none_iff_forall_ne_some]
  intro h hc
  obtain ⟨-, hfloor, -⟩ := State.eligible_iff.1 (State.candidate_some hc).2.1
  omega

/-- The first host of a route list that a test accepts and that is not declined (R45, R48). -/
theorem find_undeclined_eq_some {route : List HostId} {accepts : HostId → Bool} {declined : HostSet} {h : HostId} :
    (route.find? fun k => accepts k && !declined.get k) = some h ↔ ∃ before after, route = before ++ h :: after ∧
      (accepts h = true ∧ declined.get h = false) ∧ ∀ k ∈ before, ¬(accepts k = true ∧ declined.get k = false) := by
  rw [List.find?_eq_some_iff_append]
  simp only [Bool.and_eq_true, Bool.not_eq_eq_eq_not, Bool.not_true]
  constructor
  · rintro ⟨haccepts, before, after, hroute, hbefore⟩
    exact ⟨before, after, hroute, haccepts, fun k hk => by simpa using hbefore k hk⟩
  · rintro ⟨before, after, hroute, haccepts, hbefore⟩
    exact ⟨haccepts, before, after, hroute, fun k hk => by simpa using hbefore k hk⟩

theorem find_undeclined_eq_none {route : List HostId} {accepts : HostId → Bool} {declined : HostSet} :
    (route.find? fun k => accepts k && !declined.get k) = none ↔ ∀ k ∈ route, ¬(accepts k = true ∧ declined.get k = false) := by
  simp

/-- Settles O23: the candidate is a search of the route list (ANY) or a test of the copy's own host (EACH), of a WAITING copy alone. -/
theorem candidateAnswers : Obligations.CandidateAnswers := by
  unfold Obligations.CandidateAnswers
  refine ⟨fun _ _ _ => State.eligible_iff, fun _ _ => ⟨State.level_empty, fun _ _ => State.level_newest⟩, ?_, ?_,
    fun _ _ _ => State.candidate_not_waiting, fun _ _ _ => State.candidate_band_zero⟩
  · intro s r c hw hm
    rw [State.candidate_any hw hm]
    exact ⟨fun _ => find_undeclined_eq_some, find_undeclined_eq_none⟩
  · intro s r c hw hm h
    rw [State.candidate_each hw hm, Option.filter_eq_some_iff]

/-! ### Wake targets and the wake trigger (R48, R49, R58, R59) -/

theorem State.wakeTarget_any (hw : c.state = .waiting) (hm : r.mode = .any) (hc : s.candidate r c = none) :
    s.wakeTarget r c = r.route.find? fun h => s.wouldAccept h r.band && !r.declined.get h := by simp [State.wakeTarget, hw, hm, hc]

theorem State.wakeTarget_each (hw : c.state = .waiting) (hm : r.mode = .each) (hc : s.candidate r c = none) :
    s.wakeTarget r c = c.host.filter fun h => s.wouldAccept h r.band := by simp [State.wakeTarget, hw, hm, hc]

/-- A copy that has a wake target is WAITING without candidate, and its target is a sleeping host that would accept it (R48, R49). -/
theorem State.wakeTarget_some {h : HostId} (ht : s.wakeTarget r c = some h) :
    c.state = .waiting ∧ s.candidate r c = none ∧ s.wouldAccept h r.band = true := by
  have hw : c.state = .waiting := by
    cases hstate : c.state with
    | waiting => rfl
    | offered | inService => simp [State.wakeTarget, hstate] at ht
  have hc : s.candidate r c = none := by
    rw [← Option.not_isSome_iff_eq_none]
    intro hc
    simp [State.wakeTarget, hw, hc] at ht
  refine ⟨hw, hc, ?_⟩
  cases hm : r.mode with
  | any =>
    rw [State.wakeTarget_any hw hm hc, find_undeclined_eq_some] at ht
    obtain ⟨_, _, _, ⟨haccept, -⟩, -⟩ := ht
    exact haccept
  | each =>
    rw [State.wakeTarget_each hw hm hc, Option.filter_eq_some_iff] at ht
    exact ht.2

theorem State.wakeTarget_none (h : c.state ≠ .waiting ∨ s.candidate r c ≠ none ∨ r.band = 0) : s.wakeTarget r c = none := by
  rw [Option.eq_none_iff_forall_ne_some]
  intro k ht
  obtain ⟨hw, hc, haccept⟩ := State.wakeTarget_some ht
  obtain ⟨-, hfloor, -⟩ := State.wouldAccept_iff.1 haccept
  rcases h with h | h | h
  · exact h hw
  · exact h hc
  · omega

theorem State.mem_wakeCopies {h : HostId} {w : PlacedCopy} :
    w ∈ s.wakeCopies h ↔ w ∈ s.placedCopies ∧ s.wakeTarget w.record w.copy = some h := by
  simp [State.wakeCopies]

/-- Only a sleeping host is a wake target, so the batch tally of any other is the 0 that R58 gives it. -/
theorem State.batchTally_eq (s : State) (h : HostId) : s.batchTally h = (s.wakeCopies h).length := by
  rw [State.batchTally]
  split
  · rfl
  · rename_i hawake
    suffices s.wakeCopies h = [] by rw [this, List.length_nil]
    refine List.eq_nil_iff_forall_not_mem.2 fun w hw => hawake ?_
    obtain ⟨-, -, haccept⟩ := State.wakeTarget_some (State.mem_wakeCopies.1 hw).2
    rw [HostState.asleep_iff]
    exact (State.wouldAccept_iff.1 haccept).1

/-- Settles O24: a wake target is what a candidate is, with the sleeping hosts in place of the listening ones, of a copy without candidate; and the copies
counted for a host are those that a DEEP host's wake trigger is read from. -/
theorem wakeTargetsAndTrigger : Obligations.WakeTargetsAndTrigger := by
  unfold Obligations.WakeTargetsAndTrigger
  refine ⟨⟨fun _ _ _ => State.wouldAccept_iff, fun _ _ _ => State.wakeTarget_none, ?_, ?_⟩, fun s h => ⟨fun w => ?_, s.batchTally_eq h, ?_⟩⟩
  · intro s r c hw hm hc
    rw [State.wakeTarget_any hw hm hc]
    exact ⟨fun _ => find_undeclined_eq_some, find_undeclined_eq_none⟩
  · intro s r c hw hm hc h
    rw [State.wakeTarget_each hw hm hc, Option.filter_eq_some_iff]
  · rw [State.mem_wakeCopies, State.mem_placedCopies]
    constructor
    · rintro ⟨⟨harr, hrec, hcopy⟩, htarget⟩
      exact ⟨w.record, harr, hrec, rfl, hcopy, htarget⟩
    · rintro ⟨_, harr, hrec, rfl, hcopy, htarget⟩
      exact ⟨⟨harr, hrec, hcopy⟩, htarget⟩
  · rw [State.wakeTriggered_iff, State.batchTally_eq]

end

/-! ### The end of a decline round (R54, R55) -/

section
variable {s : State} {n : SlotNo} {r : Record} (hr : s.record n = some r)
include hr

theorem State.roundEnd_not_over (h : s.roundOver r = false) : s.roundEnd n = (s, none) := by simp [State.roundEnd, hr, h]

/-- The first and the second round end start a new round (R54). -/
theorem State.roundEnd_again (h : s.roundOver r = true) (hrounds : r.rounds ≤ 1) :
    s.roundEnd n = (s.setRecord n (some { r with rounds := r.rounds + 1, declined := HostSet.empty }), none) := by
  have hmore : r.rounds + 1 < 3 := by omega
  simp [State.roundEnd, hr, h, hmore]

/-- The third round end gives the record up (R55). -/
theorem State.roundEnd_third (h : s.roundOver r = true) (hrounds : 2 ≤ r.rounds) :
    s.roundEnd n = (((s.makeLoss .unwanted n r none).complete n r .dropped).state,
      ((s.makeLoss .unwanted n r none).complete n r .dropped).notice) := by
  have hmore : ¬r.rounds + 1 < 3 := by omega
  simp [State.roundEnd, hr, h, hmore]

end

/-- Settles O34, by the rounds that the record has behind it. -/
theorem roundEndTaken : Obligations.RoundEndTaken := by
  unfold Obligations.RoundEndTaken
  exact fun s n r hr => ⟨State.roundOver_iff, State.roundEnd_not_over hr, State.roundEnd_again hr, State.roundEnd_third hr⟩

/-! ### SET_FLOOR (R61, R81) -/

section
variable {s : State} {p : HostId} (ht : s.takes p) (ha : s.attached p = true) (q : Byte) {floor : Byte}
include ht ha

theorem exec_setFloor_outside (hf : 7 < floor.toNat) :
    exec (.setFloor p q floor) s = .next (s.ended p false ((s.heard p).reply p q .badArg .empty)) := by
  have hparse : parseRange 0 7 floor = none := parseRange_none.2 (.inr hf)
  simp only [exec, execSetFloor, State.fullExchange_command ht ha, hparse, State.answer]

/-- A floor within its range is set; an offer of a band above it stands (R61). -/
theorem exec_setFloor_stands (hf : floor.toNat ≤ 7) (habove : ∀ o, (s.disp p).offer = some o → floor.toNat < o.band) :
    exec (.setFloor p q floor) s = .next (s.ended p true
      (((s.heard p).updSession p fun e => { e with floor := floor.toNat }).reply p q .ok (.floorSet floor))) := by
  have hparse : parseRange 0 7 floor = some floor.toNat := parseRange_eq.2 ⟨rfl, Nat.zero_le _, hf⟩
  simp only [exec, execSetFloor, State.fullExchange_command ht ha, hparse, State.disp_updSession, State.heard_disp ht.1]
  cases ho : (s.disp p).offer with
  | none => rfl
  | some o => simp only [Nat.not_le.2 (habove o ho), if_false]

/-- An offer of a band at or below the new floor is withdrawn before the REPLY (R61, R81). -/
theorem exec_setFloor_withdraws {o : Offer} (hf : floor.toNat ≤ 7) (ho : (s.disp p).offer = some o) (hbelow : o.band ≤ floor.toNat) :
    exec (.setFloor p q floor) s = .next (s.ended p true
      ((((s.heard p).updSession p fun e => { e with floor := floor.toNat }).withdraw p .floor).reply p q .ok (.floorSet floor))) := by
  have hparse : parseRange 0 7 floor = some floor.toNat := parseRange_eq.2 ⟨rfl, Nat.zero_le _, hf⟩
  simp only [exec, execSetFloor, State.fullExchange_command ht ha, hparse, State.disp_updSession, State.heard_disp ht.1, ho, hbelow, if_true]

end

/-- Settles O44, by the byte of the floor and by the offer that the caller holds. -/
theorem setFloorWithdrawsOffer : Obligations.SetFloorWithdrawsOffer := by
  unfold Obligations.SetFloorWithdrawsOffer
  intro p q floor s ht ha
  exact ⟨exec_setFloor_outside ht ha q, exec_setFloor_stands ht ha q, fun _ => exec_setFloor_withdraws ht ha q⟩

end Sys2Proof.Machine
end

