-- ==== Sys2Proof/Proofs/Recomputation.lean ====
section
/-! SUPPORT. The Router's recomputation in its order: the preemptions one after the other, the offers, the wakes, and what they leave alone. -/

namespace Sys2Proof.Machine

/-! ### What the recomputation leaves alone (R50) -/

/-- A record whose copies alone have changed, and of those none that is IN_SERVICE. -/
structure Record.Recopied (r r' : Record) : Prop where
  rest : r' = { r with copies := r'.copies }
  length : r'.copies.length = r.copies.length
  served : ∀ c hd, c.state = .inService hd → (c ∈ r'.copies ↔ c ∈ r.copies)

theorem Record.Recopied.refl (r : Record) : r.Recopied r := ⟨rfl, rfl, fun _ _ _ => Iff.rfl⟩

theorem Record.Recopied.trans {r r' r'' : Record} (h : r.Recopied r') (h' : r'.Recopied r'') : r.Recopied r'' where
  rest := h'.rest.trans (congrArg (fun v : Record => { v with copies := r''.copies }) h.rest)
  length := h'.length.trans h.length
  served c hd hc := (h'.served c hd hc).trans (h.served c hd hc)

/-- A change from copy to copy that neither takes nor gives a copy IN_SERVICE. -/
theorem Record.Recopied.of_map {r : Record} {f : Copy → Copy}
    (hf : ∀ c, f c = c ∨ ∀ hd, c.state ≠ .inService hd ∧ (f c).state ≠ .inService hd) :
    r.Recopied { r with copies := r.copies.map f } where
  rest := rfl
  length := List.length_map ..
  served c hd hc := by
    rw [List.mem_map]
    constructor
    · rintro ⟨d, hd', rfl⟩
      rcases hf d with hsame | hother
      · rwa [hsame]
      · exact absurd hc (hother hd).2
    · intro hmem
      exact ⟨c, hmem, (hf c).resolve_right fun hother => (hother hd).1 hc⟩

theorem Record.recopied_withdrawn (r : Record) (h : HostId) (hd : Handle) {reason : Reason} (hne : reason ≠ .timeout) :
    r.Recopied (r.withdrawn h hd reason) := by
  simp only [Record.withdrawn, hne, false_and, if_false]
  refine .of_map fun c => ?_
  split
  · rename_i hoffered
    exact .inr fun _ => by simp [hoffered.2]
  · exact .inl rfl

theorem Record.recopied_offerTo (r : Record) (h : HostId) (hd : Handle) : r.Recopied (r.offerTo h hd) := by
  refine .of_map fun c => ?_
  split
  · rename_i hwaiting
    exact .inr fun _ => by simp [hwaiting.1]
  · exact .inl rfl

/-- What withdrawals, offers and wakes leave alone: the stacks, the ports but for their queues, and the records but for copies that are not
IN_SERVICE. -/
structure Rerouted (s t : State) : Prop where
  stack : ∀ h, (t.disp h).stack = (s.disp h).stack
  port : ∀ h, t.port h = { s.port h with queue := (t.port h).queue }
  free : ∀ n, s.record n = none → t.record n = none
  records : ∀ n r, s.record n = some r → ∃ r', t.record n = some r' ∧ r.Recopied r'

theorem Rerouted.refl (s : State) : Rerouted s s := ⟨fun _ => rfl, fun _ => rfl, fun _ h => h, fun _ r hr => ⟨r, hr, .refl r⟩⟩

theorem Rerouted.trans {s t u : State} (h : Rerouted s t) (h' : Rerouted t u) : Rerouted s u where
  stack k := (h'.stack k).trans (h.stack k)
  port k := (h'.port k).trans (congrArg (fun q : Port => { q with queue := (u.port k).queue }) (h.port k))
  free n hn := h'.free n (h.free n hn)
  records n r hr := by
    obtain ⟨r', hr', hcopies⟩ := h.records n r hr
    obtain ⟨r'', hr'', hcopies'⟩ := h'.records n r' hr'
    exact ⟨r'', hr'', hcopies.trans hcopies'⟩

theorem Rerouted.foldl {α : Type} {f : State → α → State} (hf : ∀ s a, Rerouted s (f s a)) (l : List α) (s : State) :
    Rerouted s (l.foldl f s) := by
  induction l generalizing s with
  | nil => exact .refl s
  | cons a l ih => exact (hf s a).trans (ih (f s a))

theorem Port.endOffer_eq (p : Port) (hd : Handle) (reason : Reason) :
    p.endOffer hd reason = { p with queue := (p.endOffer hd reason).queue } := by
  unfold Port.endOffer
  split <;> rfl

theorem Rerouted.withdraw (s : State) (h : HostId) {reason : Reason} (hne : reason ≠ .timeout) : Rerouted s (s.withdraw h reason) := by
  cases ho : (s.disp h).offer with
  | none => rw [State.withdraw_none ho]; exact .refl s
  | some o =>
    refine ⟨fun k => ?_, fun k => ?_, fun n hn => ?_, fun n r hr => ?_⟩
    · rw [State.withdraw_disp ho]
      split
      · rename_i hk; rw [hk]
      · rfl
    · rw [State.withdraw_port ho]
      split
      · rename_i hk; rw [hk]; exact Port.endOffer_eq ..
      · rfl
    · rw [State.withdraw_record ho, hn]; simp
    · rw [State.withdraw_record ho, hr]
      split
      · exact ⟨_, rfl, r.recopied_withdrawn h o.handle hne⟩
      · exact ⟨r, rfl, .refl r⟩

theorem Rerouted.makeOffer (s : State) (h : HostId) (n : SlotNo) : Rerouted s (s.makeOffer h n) := by
  cases hr : s.record n with
  | none =>
    have hsame : s.makeOffer h n = s := by simp [State.makeOffer, hr]
    rw [hsame]; exact .refl s
  | some r =>
    refine ⟨fun k => State.makeOffer_stack s h k n, fun k => ?_, fun m hm => ?_, fun m v hv => ?_⟩
    · rw [State.makeOffer_port hr]
      split
      · rename_i hk; rw [hk]
      · rfl
    · rw [State.makeOffer_record hr, if_neg, hm]
      rintro rfl
      rw [hr] at hm; cases hm
    · rw [State.makeOffer_record hr]
      split
      · rename_i hm
        rw [hm, hr] at hv
        cases hv
        exact ⟨_, rfl, r.recopied_offerTo h _⟩
      · exact ⟨v, hv, .refl v⟩

theorem Rerouted.preemptAt (s : State) (h : HostId) : Rerouted s (s.preemptAt h) := by
  unfold State.preemptAt
  split
  · split
    · exact .withdraw s h (by decide)
    · exact .refl s
  · exact .refl s

theorem Rerouted.preemptAll (s : State) : Rerouted s s.preemptAll := by
  have pass (u : State) : Rerouted u u.preemptPass := .foldl .preemptAt HostId.all u
  exact (((pass _).trans (pass _)).trans (pass _)).trans (pass _)

theorem Rerouted.fillAll (s : State) : Rerouted s s.fillAll := by
  refine .foldl (fun u o => ?_) s.offersDue s
  unfold State.fillDue
  split
  · exact .makeOffer u o.1 o.2
  · exact .refl u

theorem Rerouted.takeWakes (s : State) : Rerouted s s.takeWakes :=
  ⟨fun h => by simp, fun h => by simp, fun n hn => by simpa using hn, fun n r hr => ⟨r, by simpa using hr, .refl r⟩⟩

theorem Rerouted.recompute (s : State) : Rerouted s s.recompute :=
  ((Rerouted.preemptAll s).trans (.fillAll _)).trans (.takeWakes _)

/-- The recomputation writes four tables of the state (R50). -/
theorem State.recompute_eq (s : State) : s.recompute =
    { s with
      slots := s.recompute.slots, dispatch := s.recompute.dispatch, sessions := s.recompute.sessions, ports := s.recompute.ports } := by
  obtain ⟨hnow, hlines, htable, hleases, harrivals, hloss, hmissed, hepoch, hcauses, hinReset, hfreeIdx, hpending, -⟩ := s.recompute_frame
  generalize s.recompute = t at *
  rw [← hnow, ← hlines, ← htable, ← hleases, ← harrivals, ← hloss, ← hmissed, ← hepoch, ← hcauses, ← hinReset, ← hfreeIdx, ← hpending]

/-! ### The wakes (R59, R130) -/

/-- The session of a host that a wake has left WAKING with its wake timer started (R130). -/
def Session.roused (e : Session) (now : Nat) : Session := { e with state := .waking, wakeTimer := some (now + e.wakeTimeout) }

theorem State.takeWake_eq (s : State) (p : HostId) : s.takeWake p = { s with sessions := (s.takeWake p).sessions } := by
  unfold State.takeWake
  split <;> rfl

theorem State.takeWake_session (s : State) (p h : HostId) :
    (s.takeWake p).session h = if h = p ∧ s.wakeTriggered p = true then (s.session h).roused s.now else s.session h := by
  unfold State.takeWake
  by_cases ht : s.wakeTriggered p = true
  · rw [if_pos ht, State.session_updSession]
    by_cases hh : h = p
    · simp [hh, ht, Session.roused]
    · simp [hh]
  · simp [ht]

/-- The wakes change sessions alone. -/
theorem State.takeWakes_eq (s : State) : s.takeWakes = { s with sessions := s.takeWakes.sessions } := by
  have wakes (l : List HostId) (u : State) : l.foldl State.takeWake u = { u with sessions := (l.foldl State.takeWake u).sessions } := by
    induction l generalizing u with
    | nil => rfl
    | cons p l ih =>
      exact (ih (u.takeWake p)).trans (congrArg (fun v : State => { v with sessions := (l.foldl State.takeWake (u.takeWake p)).sessions })
        (u.takeWake_eq p))
  exact wakes HostId.all s

/-- A wake leaves the other triggers as they are, so the hosts woken are those whose triggers hold before the first wake. -/
theorem State.takeWakes_session (s : State) (h : HostId) :
    s.takeWakes.session h = if s.wakeTriggered h = true then (s.session h).roused s.now else s.session h := by
  have wakes (l : List HostId) (u : State) : (l.foldl State.takeWake u).session h =
      if h ∈ l ∧ u.wakeTriggered h = true then (u.session h).roused u.now else u.session h := by
    induction l generalizing u with
    | nil => simp
    | cons p l ih =>
      have hnow : (u.takeWake p).now = u.now := by simp
      rw [List.foldl_cons, ih, State.takeWake_wakeTriggered, State.takeWake_session, hnow]
      by_cases hh : h = p
      · subst hh; simp
      · simp [hh]
  rw [State.takeWakes, wakes HostId.all s]
  simp

/-- A host is woken by the recomputation when its trigger holds after the fills (R59). -/
theorem State.recompute_session (s : State) (h : HostId) : s.recompute.session h =
    if s.preemptAll.fillAll.wakeTriggered h = true then (s.session h).roused s.now else s.session h := by
  have hsession : s.preemptAll.fillAll.session h = s.session h := by simp
  have hnow : s.preemptAll.fillAll.now = s.now := by simp
  rw [State.recompute, State.takeWakes_session, hsession, hnow]

/-- The recomputation changes no session but by the wake of a DEEP host (R59, R130). -/
theorem State.recompute_session_cases (s : State) (h : HostId) : s.recompute.session h = s.session h ∨
    (s.session h).state = .deep ∧ s.recompute.session h = (s.session h).roused s.now := by
  rw [State.recompute_session]
  split
  · rename_i htrigger
    have hsession : s.preemptAll.fillAll.session h = s.session h := by simp
    exact .inr ⟨hsession ▸ State.wakeTriggered_deep htrigger, rfl⟩
  · exact .inl rfl

/-! ### The preemptions, one after the other (R51, R76) -/

/-- Withdrawals of which each ends an offer that is due to be preempted at that moment (R76). -/
def State.PreemptsInTurn (s : State) (hs : List HostId) : Prop :=
  ∀ before h after, hs = before ++ h :: after → (s.preempted before).PreemptionDue h

theorem State.preemptsInTurn_nil (s : State) : s.PreemptsInTurn [] := fun before h after he => by simp at he

theorem State.preemptsInTurn_cons {s : State} {k : HostId} {hs : List HostId} (hk : s.PreemptionDue k)
    (hrest : (s.withdraw k .preempted).PreemptsInTurn hs) : s.PreemptsInTurn (k :: hs) := by
  intro before h after he
  cases before with
  | nil =>
    obtain ⟨rfl, -⟩ := List.cons.inj he
    exact hk
  | cons b before =>
    obtain ⟨rfl, htail⟩ := List.cons.inj he
    exact hrest before h after htail

theorem State.preemptsInTurn_head {s : State} {k : HostId} {hs : List HostId} (h : s.PreemptsInTurn (k :: hs)) :
    s.PreemptionDue k ∧ (s.withdraw k .preempted).PreemptsInTurn hs :=
  ⟨h [] k hs rfl, fun before j after he => h (k :: before) j after (by rw [he]; rfl)⟩

/-- A state that due preemptions, one after the other, make of another. -/
def State.Preempts (s t : State) : Prop := ∃ hs, s.PreemptsInTurn hs ∧ t = s.preempted hs

theorem State.Preempts.refl (s : State) : s.Preempts s := ⟨[], s.preemptsInTurn_nil, rfl⟩

theorem State.Preempts.trans {s t u : State} (h : s.Preempts t) (h' : t.Preempts u) : s.Preempts u := by
  obtain ⟨hs, hturn, rfl⟩ := h
  induction hs generalizing s with
  | nil => exact h'
  | cons k hs ih =>
    obtain ⟨hdue, hrest⟩ := State.preemptsInTurn_head hturn
    obtain ⟨js, hjs, rfl⟩ := ih hrest h'
    exact ⟨k :: js, State.preemptsInTurn_cons hdue hjs, rfl⟩

theorem State.Preempts.preemptAt (s : State) (h : HostId) : s.Preempts (s.preemptAt h) := by
  unfold State.preemptAt
  split
  · rename_i o ho
    split
    · rename_i hany
      simp only [List.any_eq_true, decide_eq_true_eq] at hany
      obtain ⟨w, hw, hband⟩ := hany
      exact ⟨[h], State.preemptsInTurn_cons ⟨o, w, ho, hw, hband⟩ (State.preemptsInTurn_nil _), rfl⟩
    · exact .refl s
  · exact .refl s

theorem State.Preempts.preemptAll (s : State) : s.Preempts s.preemptAll := by
  have hosts (l : List HostId) (u : State) : u.Preempts (l.foldl State.preemptAt u) := by
    induction l generalizing u with
    | nil => exact .refl u
    | cons h l ih => exact (State.Preempts.preemptAt u h).trans (ih (u.preemptAt h))
  have pass (u : State) : u.Preempts u.preemptPass := hosts HostId.all u
  exact (((pass _).trans (pass _)).trans (pass _)).trans (pass _)

theorem State.Unpreempted.not_due {s : State} (hs : s.Unpreempted) (h : HostId) : ¬s.PreemptionDue h := by
  rintro ⟨o, w, ho, hw, hband⟩
  exact absurd (hs h o ho w hw) (Nat.not_le.2 hband)

/-! ### The copy lists through the preemptions (R4) -/

/-- Every record's copy list and route list are as R4 and R2 say. -/
def State.ListsOk (s : State) : Prop := ∀ n r, s.record n = some r → r.CopiesOk ∧ RouteOk r.route

/-- A withdrawn copy waits as R4 has a copy wait: without host in an ANY record, with its own host in an EACH record (R73). -/
theorem Record.CopiesOk.withdrawn {r : Record} (hr : r.CopiesOk) (h : HostId) (hd : Handle) {reason : Reason} (hne : reason ≠ .timeout) :
    (r.withdrawn h hd reason).CopiesOk := by
  simp only [Record.withdrawn, hne, false_and, if_false]
  refine ⟨by simpa using hr.nonempty, fun hm => ?_, fun hm => ?_, fun hp c hc hd' => ?_⟩
  · obtain ⟨hlen, hany⟩ := hr.anyCopy hm
    refine ⟨by simpa using hlen, fun c hc => ?_⟩
    obtain ⟨d, hd', rfl⟩ := List.mem_map.1 hc
    split
    · simp
    · exact hany d hd'
  · have hhost : (r.copies.map fun c =>
        if c.host = some h ∧ c.state = .offered hd then ⟨if r.mode = .any then none else c.host, .waiting⟩ else c).map Copy.host =
        r.copies.map Copy.host := by
      rw [List.map_map]
      refine List.map_congr_left fun c _ => ?_
      have heach : r.mode ≠ .any := by rw [show r.mode = .each from hm]; decide
      simp only [Function.comp_apply, heach, if_false]
      split <;> rfl
    rw [hhost]
    exact hr.eachCopies hm
  · obtain ⟨d, hmem, rfl⟩ := List.mem_map.1 hc
    split
    · simp
    · exact hr.opened hp d hmem hd'

theorem State.ListsOk.withdraw {s : State} (hs : s.ListsOk) (h : HostId) {reason : Reason} (hne : reason ≠ .timeout) :
    (s.withdraw h reason).ListsOk := by
  cases ho : (s.disp h).offer with
  | none => rwa [State.withdraw_none ho]
  | some o =>
    intro n r hr
    rw [State.withdraw_record ho] at hr
    split at hr
    · obtain ⟨v, hv, rfl⟩ := Option.map_eq_some_iff.1 hr
      obtain ⟨hcopies, hroute⟩ := hs n v hv
      exact ⟨hcopies.withdrawn h o.handle hne, hroute⟩
    · exact hs n r hr

theorem State.ListsOk.preempted {s : State} (hs : s.ListsOk) (hosts : List HostId) : (s.preempted hosts).ListsOk := by
  induction hosts generalizing s with
  | nil => exact hs
  | cons h hosts ih => exact ih (hs.withdraw h (by decide))

/-- A copy list holds no copy twice (R4). -/
theorem Record.CopiesOk.nodup {r : Record} (hr : r.CopiesOk) (hroute : RouteOk r.route) : r.copies.Nodup := by
  cases hm : r.mode with
  | any =>
    obtain ⟨c, hc⟩ := List.length_eq_one_iff.1 (hr.anyCopy hm).1
    rw [hc]; exact List.nodup_singleton c
  | each =>
    obtain ⟨-, hnodup⟩ := hroute
    exact .of_map Copy.host ((hr.eachCopies hm).nodup ((List.nodup_map_iff (Option.some_injective _)).2 hnodup))

/-- A host is candidate of at most one copy of a record (R45, R46). -/
theorem State.ListsOk.candidate_unique {s : State} (hs : s.ListsOk) {h : HostId} {v w : PlacedCopy} (hv : v ∈ s.candidatesOf h)
    (hw : w ∈ s.candidatesOf h) (hslot : v.slot = w.slot) : v = w := by
  obtain ⟨n, r, c⟩ := v
  obtain ⟨m, r', d⟩ := w
  obtain rfl : n = m := hslot
  obtain ⟨hplaced, hcand⟩ := State.mem_candidatesOf.1 hv
  obtain ⟨hplaced', hcand'⟩ := State.mem_candidatesOf.1 hw
  obtain ⟨-, hr, hc⟩ := State.mem_placedCopies.1 hplaced
  obtain ⟨-, hr', hd⟩ := State.mem_placedCopies.1 hplaced'
  dsimp only at hr hc hcand hr' hd hcand'
  obtain rfl : r = r' := Option.some.inj (hr.symm.trans hr')
  obtain ⟨hcopies, hroute⟩ := hs n r hr
  suffices c = d by rw [this]
  cases hm : r.mode with
  | any =>
    obtain ⟨a, ha⟩ := List.length_eq_one_iff.1 (hcopies.anyCopy hm).1
    rw [ha, List.mem_singleton] at hc hd
    rw [hc, hd]
  | each =>
    obtain ⟨-, -, -, hhost⟩ := State.candidate_some hcand
    obtain ⟨-, -, -, hhost'⟩ := State.candidate_some hcand'
    exact hcopies.copy_unique hroute hc hd (hhost hm) (hhost' hm)

/-! ### The offers, in their order (R64 to R66) -/

/-- The offer that is made of a placed copy: to its candidate, when that host is ready and its arbiter chooses the copy (R64, R65). -/
def State.offerOf (s : State) (w : PlacedCopy) : Option (HostId × PlacedCopy) :=
  (s.candidate w.record w.copy).bind fun h => if s.readyForOffer h = true ∧ s.choose h = some w then some (h, w) else none

/-- The offers of one recomputation, in arrival-list order and then copy-list order (R66). -/
def State.offersMade (s : State) : List (HostId × PlacedCopy) := s.placedCopies.filterMap s.offerOf

theorem State.offerOf_eq_some {s : State} {w : PlacedCopy} {o : HostId × PlacedCopy} (h : s.offerOf w = some o) :
    o.2 = w ∧ s.readyForOffer o.1 = true ∧ s.choose o.1 = some w := by
  obtain ⟨k, -, hk⟩ := Option.bind_eq_some_iff.1 h
  split at hk
  · rename_i hmade
    cases hk
    exact ⟨rfl, hmade⟩
  · cases hk

theorem State.mem_offersMade {s : State} {h : HostId} {w : PlacedCopy} :
    (h, w) ∈ s.offersMade ↔ s.readyForOffer h = true ∧ s.choose h = some w := by
  rw [State.offersMade, List.mem_filterMap]
  constructor
  · rintro ⟨v, -, hmade⟩
    obtain ⟨rfl, hready, hchoose⟩ := State.offerOf_eq_some hmade
    exact ⟨hready, hchoose⟩
  · rintro ⟨hready, hchoose⟩
    obtain ⟨hplaced, hcand⟩ := State.mem_candidatesOf.1 (State.choose_mem hchoose)
    exact ⟨w, hplaced, by simp [State.offerOf, hcand, hready, hchoose]⟩

/-- The offers due are those made: a host has one candidate copy in a slot, so its slot names it. -/
theorem State.ListsOk.offersDue_eq {s : State} (hs : s.ListsOk) : s.offersDue = s.offersMade.map fun o => (o.1, o.2.slot) := by
  rw [State.offersDue, State.offersMade, List.map_filterMap]
  refine List.filterMap_congr fun w hw => ?_
  cases hcand : s.candidate w.record w.copy with
  | none => simp [State.offerOf, hcand]
  | some h =>
    have hmine : w ∈ s.candidatesOf h := State.mem_candidatesOf.2 ⟨hw, hcand⟩
    have hchosen : (s.choose h).map PlacedCopy.slot = some w.slot ↔ s.choose h = some w := by
      rw [Option.map_eq_some_iff]
      constructor
      · rintro ⟨v, hv, hslot⟩
        rw [hv, hs.candidate_unique (State.choose_mem hv) hmine hslot]
      · intro hv
        exact ⟨w, hv, rfl⟩
    simp only [State.offerOf, hcand, Option.bind_some, Bool.and_eq_true, decide_eq_true_eq, hchosen]
    split <;> rfl

/-- The copies of the record in one slot, in copy-list order. -/
def State.copiesAt (s : State) (n : SlotNo) : List PlacedCopy :=
  match s.record n with
  | some r => r.copies.map fun c => ⟨n, r, c⟩
  | none => []

theorem State.placedCopies_eq (s : State) : s.placedCopies = s.arrivals.flatMap s.copiesAt := rfl

theorem State.copiesAt_slot {s : State} {n : SlotNo} {w : PlacedCopy} (hw : w ∈ s.copiesAt n) : w.slot = n := by
  unfold State.copiesAt at hw
  split at hw
  · obtain ⟨_, -, rfl⟩ := List.mem_map.1 hw; rfl
  · cases hw

/-- The placed copies are all different, and those of one record stand in copy-list order (R20, R66). -/
theorem State.ListsOk.placedCopies_pairwise {s : State} (hs : s.ListsOk) (ha : s.arrivals.Nodup) :
    s.placedCopies.Pairwise fun a b => a ≠ b ∧ (a.slot = b.slot → [a.copy, b.copy].Sublist a.record.copies) := by
  rw [State.placedCopies_eq, List.pairwise_flatMap]
  refine ⟨fun n _ => ?_, ha.imp fun hne a haa b hb => ?_⟩
  · unfold State.copiesAt
    split
    · rename_i r hr
      obtain ⟨hcopies, hroute⟩ := hs n r hr
      rw [List.pairwise_map, List.pairwise_iff_forall_sublist]
      intro c d hcd
      have hne : c ≠ d := by simpa using hcd.nodup (hcopies.nodup hroute)
      exact ⟨fun he => hne (congrArg PlacedCopy.copy he), fun _ => hcd⟩
    · exact .nil
  · have hdiffer : a.slot ≠ b.slot := by rw [State.copiesAt_slot haa, State.copiesAt_slot hb]; exact hne
    exact ⟨fun he => hdiffer (congrArg PlacedCopy.slot he), fun he => absurd he hdiffer⟩

/-- Each host is offered one copy, and the offers of one record are made in copy-list order (R64, R66). -/
theorem State.ListsOk.offersMade_order {s : State} (hs : s.ListsOk) (ha : s.arrivals.Nodup) : (s.offersMade.map Prod.fst).Nodup ∧
    s.offersMade.Pairwise fun a b => a.2.slot = b.2.slot → [a.2.copy, b.2.copy].Sublist a.2.record.copies := by
  have hplaced := hs.placedCopies_pairwise ha
  rw [List.Nodup, List.pairwise_map, State.offersMade]
  refine ⟨List.Pairwise.filterMap _ (fun v w hvw o ho o' ho' hsame => ?_) hplaced,
    List.Pairwise.filterMap _ (fun v w hvw o ho o' ho' => ?_) hplaced⟩
  · obtain ⟨-, -, hchoose⟩ := State.offerOf_eq_some ho
    obtain ⟨-, -, hchoose'⟩ := State.offerOf_eq_some ho'
    rw [hsame, hchoose'] at hchoose
    exact hvw.1 (Option.some.inj hchoose).symm
  · obtain ⟨rfl, -⟩ := State.offerOf_eq_some ho
    obtain ⟨rfl, -⟩ := State.offerOf_eq_some ho'
    exact hvw.2

/-- Offers to different hosts that are ready for them are all made: none takes another's slot, room or copy (R64). -/
theorem State.fillDue_eq_offeredAll (os : List (HostId × PlacedCopy)) {s : State} (hnodup : (os.map Prod.fst).Nodup)
    (hos : ∀ o ∈ os, s.readyForOffer o.1 = true ∧ s.Fillable o.1 o.2.slot) :
    (os.map fun o => (o.1, o.2.slot)).foldl State.fillDue s = s.offeredAll os := by
  induction os generalizing s with
  | nil => rfl
  | cons o os ih =>
    obtain ⟨hready, hfill⟩ := hos o (List.mem_cons_self ..)
    obtain ⟨hnew, hnodup⟩ := List.nodup_cons.1 hnodup
    have hdue : s.fillDue (o.1, o.2.slot) = s.makeOffer o.1 o.2.slot := by simp [State.fillDue, hready]
    rw [List.map_cons, List.foldl_cons, hdue]
    refine ih hnodup fun o' ho' => ?_
    have hne : o'.1 ≠ o.1 := fun he => hnew (he ▸ List.mem_map_of_mem ho')
    obtain ⟨hready', hfill'⟩ := hos o' (List.mem_cons_of_mem _ ho')
    exact ⟨by rw [State.makeOffer_readyForOffer hfill, if_neg hne]; exact hready', State.makeOffer_fillable hfill hfill' hne⟩

theorem State.ListsOk.fillAll_eq {s : State} (hs : s.ListsOk) (ha : s.arrivals.Nodup) : s.fillAll = s.offeredAll s.offersMade := by
  rw [State.fillAll, hs.offersDue_eq]
  refine State.fillDue_eq_offeredAll s.offersMade (hs.offersMade_order ha).1 fun o ho => ?_
  obtain ⟨hready, hchoose⟩ := State.mem_offersMade.1 ho
  exact ⟨hready, State.fillable_of_mem (State.choose_mem hchoose)⟩

/-- Settles O27: each withdrawal, offer and wake leaves alone what the frame says, and the recomputation is the preemptions that fall due one after the
other, then one offer for each ready host with a candidate, then the wakes. -/
theorem recomputationFrame : Obligations.RecomputationFrame := by
  unfold Obligations.RecomputationFrame
  refine ⟨fun s => ⟨s.recompute_eq, fun h => ?_, fun n => ?_⟩, fun s harrivals hlists => ?_⟩
  · have hframe := Rerouted.recompute s
    exact ⟨hframe.stack h, hframe.port h, s.recompute_session_cases h⟩
  · have hframe := Rerouted.recompute s
    refine ⟨hframe.free n, fun r hr => ?_⟩
    obtain ⟨r', hr', hcopies⟩ := hframe.records n r hr
    exact ⟨r'.copies, hr'.trans (congrArg some hcopies.rest), hcopies.length, hcopies.served⟩
  · obtain ⟨hs, hturn, hpreempted⟩ := State.Preempts.preemptAll s
    have hlists' : (s.preempted hs).ListsOk := State.ListsOk.preempted hlists hs
    have harrivals' : (s.preempted hs).arrivals.Nodup := by
      have hsame : s.preemptAll.arrivals = s.arrivals := by simp
      rw [← hpreempted, hsame]
      exact harrivals.1
    have hfilled : s.preemptAll.fillAll = (s.preempted hs).offeredAll (s.preempted hs).offersMade := by
      rw [hpreempted]; exact hlists'.fillAll_eq harrivals'
    obtain ⟨hnodup, horder⟩ := hlists'.offersMade_order harrivals'
    refine ⟨hs, (s.preempted hs).offersMade, hturn, fun h => ?_, fun h w => ?_, hnodup, horder, ?_, fun h => ?_⟩
    · rw [← hpreempted]
      exact s.preemptAll_settles.not_due h
    · rw [State.mem_offersMade, State.readyForOffer_iff, and_assoc]
    · rw [← hfilled]
      exact s.preemptAll.fillAll.takeWakes_eq
    · rw [← hfilled]
      exact s.recompute_session h

end Sys2Proof.Machine
end

