-- ==== Sys2Proof/Proofs/OfferExchange.lean ====
section
/-! SUPPORT. The hosts and the queues through every step, the arbiter's choice and its offer, DECLINE, and the expiries of the host timers. -/

namespace Sys2Proof.Machine

/-! ### Hosts and queues (R63, R75, R88, R177) -/

/-- Settles O6: every update keeps every host's session, offer slot and stack in agreement. -/
theorem hostsKept : Obligations.HostsKept :=
  fun _ _ hs h => step_keeps (fun _ _ _ hs₀ hstir hu => hstir.hostsOk hs₀ hu) hs h

/-- Settles O12: every update keeps every queue within its places, with the OFFER behind the WITHDRAW. -/
theorem queuesKept : Obligations.QueuesKept := fun _ _ hs h => step_keeps (fun _ _ _ _ hstir => hstir.queuesOk) hs h

/-! ### The arbiter's choice (R65) -/

/-- The arbiter's choice is the first copy of the highest band: what stands before it has a lower band. -/
theorem preferred_foldl_first {l : List PlacedCopy} {b w : PlacedCopy} (h : l.foldl preferred (some b) = some w) :
    ∃ before after, b :: l = before ++ w :: after ∧ ∀ v ∈ before, v.record.band < w.record.band := by
  induction l using List.reverseRecOn generalizing w with
  | nil =>
    obtain rfl : b = w := Option.some.inj h
    exact ⟨[], [], rfl, by simp⟩
  | append_singleton l a ih =>
    obtain ⟨x, hx, hb, hl⟩ := preferred_foldl_some l b
    rw [List.foldl_append, hx, List.foldl_cons, List.foldl_nil, preferred] at h
    split at h
    · rename_i hlt
      obtain rfl : a = w := Option.some.inj h
      exact ⟨b :: l, [], rfl, List.forall_mem_cons.2 ⟨hb.trans_lt hlt, fun v hv => (hl v hv).trans_lt hlt⟩⟩
    · obtain rfl : x = w := Option.some.inj h
      obtain ⟨before, after, heq, hbefore⟩ := ih hx
      exact ⟨before, after ++ [a], by rw [← List.cons_append, heq, List.append_assoc, List.cons_append], hbefore⟩

theorem State.choose_first {s : State} {h : HostId} {w : PlacedCopy} (hw : s.choose h = some w) :
    ∃ before after, s.candidatesOf h = before ++ w :: after ∧ ∀ v ∈ before, v.record.band < w.record.band := by
  unfold State.choose at hw
  cases hl : s.candidatesOf h with
  | nil => rw [hl] at hw; cases hw
  | cons a l =>
    rw [hl] at hw
    exact preferred_foldl_first hw

/-- In a list put together block by block, the key of what stands before an entry does not come later among the blocks than the entry's own. -/
theorem idxOf_le_of_flatMap {α β : Type} [DecidableEq α] {f : α → List β} {key : β → α} (hkey : ∀ a, ∀ b ∈ f a, key b = a) {l : List α}
    {before after : List β} {v w : β} (hl : l.flatMap f = before ++ w :: after) (hv : v ∈ l.flatMap f) (hbefore : v ∉ before) :
    l.idxOf (key w) ≤ l.idxOf (key v) := by
  induction l generalizing before with
  | nil => simp at hv
  | cons a l ih =>
    by_cases hw : a = key w
    · rw [hw, List.idxOf_cons_self]; exact Nat.zero_le _
    · have hnew : w ∉ f a := fun hmem => hw (hkey a w hmem).symm
      rw [List.flatMap_cons] at hl hv
      obtain ⟨rest, rfl, hrest⟩ : ∃ rest, before = f a ++ rest ∧ l.flatMap f = rest ++ w :: after := by
        rcases List.append_eq_append_iff.1 hl with ⟨rest, hb, hr⟩ | ⟨rest, ha, hr⟩
        · exact ⟨rest, hb, hr⟩
        · cases rest with
          | nil => exact ⟨[], by simpa using ha.symm, by simpa using hr.symm⟩
          | cons x rest =>
            obtain ⟨rfl, -⟩ := List.cons.inj hr
            exact absurd (by simp [ha]) hnew
      rw [List.mem_append, not_or] at hbefore
      have hv' : v ∈ l.flatMap f := (List.mem_append.1 hv).resolve_left hbefore.1
      have hne : a ≠ key v := by
        rintro rfl
        obtain ⟨m, -, hm⟩ := List.mem_flatMap.1 hv'
        exact hbefore.1 (hkey m v hm ▸ hm)
      rw [List.idxOf_cons_ne _ hw, List.idxOf_cons_ne _ hne]
      exact Nat.succ_le_succ (ih hrest hv' hbefore.2)

/-- The copies whose candidate a host is, record by record in arrival-list order. -/
theorem State.candidatesOf_eq (s : State) (h : HostId) : s.candidatesOf h =
    s.arrivals.flatMap fun n => (s.copiesAt n).filter fun w => decide (s.candidate w.record w.copy = some h) := by
  rw [State.candidatesOf, State.placedCopies_eq, List.filter_flatMap]

/-- Among the candidates of the chosen band, no record stands earlier in the arrival list than the chosen one (R65). -/
theorem State.choose_oldest {s : State} {h : HostId} {w v : PlacedCopy} (hw : s.choose h = some w) (hv : v ∈ s.candidatesOf h)
    (hband : v.record.band = w.record.band) : s.arrivals.idxOf w.slot ≤ s.arrivals.idxOf v.slot := by
  obtain ⟨before, after, hsplit, hlower⟩ := State.choose_first hw
  have hlate : v ∉ before := fun hmem => (hlower v hmem).ne hband
  rw [State.candidatesOf_eq] at hsplit hv
  exact idxOf_le_of_flatMap (key := PlacedCopy.slot) (fun n b hb => State.copiesAt_slot (List.mem_filter.1 hb).1) hsplit hv hlate

/-- Settles O25: the choice is the first candidate of the highest band, and the candidates stand in arrival-list order. -/
theorem arbiterChoosesHighestThenOldest : Obligations.ArbiterChoosesHighestThenOldest := by
  unfold Obligations.ArbiterChoosesHighestThenOldest
  refine fun s h => ⟨fun w => ?_, State.choose_none, fun w hw => ⟨State.choose_mem hw, fun v hv => ⟨State.choose_max hw v hv, ?_⟩⟩⟩
  · rw [State.mem_candidatesOf, State.mem_placedCopies]
    constructor
    · rintro ⟨⟨harr, hrec, hcopy⟩, hcand⟩
      exact ⟨w.record, harr, hrec, rfl, hcopy, hcand⟩
    · rintro ⟨_, harr, hrec, rfl, hcopy, hcand⟩
      exact ⟨⟨harr, hrec, hcopy⟩, hcand⟩
  · exact State.choose_oldest hw hv

/-! ### The fill of one host's slot (R64, R66 to R68) -/

theorem State.makeOffer_serial {s : State} {h : HostId} {n : SlotNo} {r : Record} (hr : s.record n = some r) (m : SlotNo) :
    (s.makeOffer h n).serial m = if m = n then s.serial n + 1 else s.serial m := by
  rw [State.makeOffer_some hr]; simp [State.serial_setSerial]

/-- The offer that a fill makes (R66 to R68). -/
theorem State.offerMade_makeOffer {s : State} {n : SlotNo} {r : Record} (h : HostId) (hr : s.record n = some r) :
    s.OfferMade (s.makeOffer h n) h n r := by
  refine ⟨by rw [State.makeOffer_some hr]; rfl, fun k hk => ?_, fun m hm => ?_, ?_, ?_, ?_, ?_⟩
  · simp [State.makeOffer_disp hr, State.makeOffer_port hr, hk]
  · simp [State.makeOffer_record hr, State.makeOffer_serial hr, hm]
  · rw [State.makeOffer_serial hr, if_pos rfl]
  · rw [State.makeOffer_record hr, if_pos rfl]; rfl
  · rw [State.makeOffer_disp hr, if_pos rfl]; rfl
  · rw [State.makeOffer_port hr, if_pos rfl]

theorem exec_arbiterFill {s : State} (h : HostId) (hr : s.running) : exec (.arbiterFill h) s = .next (s.arbiterFill h) := by
  have hr' : s.inReset = none := hr
  simp only [exec, execArbiterFill, hr']

theorem State.arbiterFill_chooses {s : State} {h : HostId} {w : PlacedCopy} (hready : s.readyForOffer h = true)
    (hw : s.choose h = some w) : s.arbiterFill h = s.makeOffer h w.slot := by
  simp only [State.arbiterFill, hready, if_true, hw]

/-- Without room for an offer, or without a candidate, the arbiter does nothing (R64). -/
theorem State.arbiterFill_idle {s : State} {h : HostId} (hidle : s.readyForOffer h = true → s.choose h = none) : s.arbiterFill h = s := by
  by_cases hready : s.readyForOffer h = true
  · simp only [State.arbiterFill, hready, if_true, hidle hready]
  · exact if_neg hready

/-- Settles O26: the arbiter fills a ready host's slot with its choice, and does nothing else. -/
theorem arbiterFillMakesOffer : Obligations.ArbiterFillMakesOffer := by
  unfold Obligations.ArbiterFillMakesOffer
  refine ⟨fun h s hrun hnothing => ?_, fun h s w r hrun ho hroom hw hr => ?_, fun h s n r => State.offerMade_makeOffer h⟩
  · rw [exec_arbiterFill h hrun, State.arbiterFill_idle fun hready => ?_]
    obtain ⟨hempty, hroom⟩ := State.readyForOffer_iff.1 hready
    rcases hnothing with hfull | hlong | hnone
    · exact absurd hempty hfull
    · omega
    · exact State.choose_none.2 hnone
  · refine ⟨s.makeOffer h w.slot, ?_, State.offerMade_makeOffer h hr⟩
    rw [exec_arbiterFill h hrun, State.arbiterFill_chooses (State.readyForOffer_iff.2 ⟨ho, hroom⟩) hw]

/-! ### DECLINE (R72, R120) -/

section
variable {s : State} {p : HostId} {o : Offer} {r : Record}

/-- A declined ANY copy waits again, with the round end that may be due (R54, R72). -/
theorem State.handBackOffer_any (hm : r.mode = .any) : s.handBackOffer p o r =
    ((s.takeOffer p o).setRecord o.handle.slot (some (r.declinedBy p o.handle))).roundEnd o.handle.slot := by
  simp only [State.handBackOffer, hm]

/-- A declined EACH copy is removed (R72). -/
theorem State.handBackOffer_each (hm : r.mode = .each) : s.handBackOffer p o r =
    (((s.takeOffer p o).removeCopy o.handle.slot p).state, ((s.takeOffer p o).removeCopy o.handle.slot p).notice) := by
  simp only [State.handBackOffer, hm]

end

/-- Settles O49: the state in which the offer is taken from the caller, then the copy handed back by the record's mode. -/
theorem declineHandsBack : Obligations.DeclineHandsBack := by
  unfold Obligations.DeclineHandsBack
  intro p q o r s ht ha ho hr
  have hr' : ((s.heard p).takeOffer p o).record o.handle.slot = some r := by simpa [State.heard_record ht.1] using hr
  refine ⟨(s.heard p).takeOffer p o, rfl, fun h hne => ?_, ?_, ?_, ?_, fun hm => ?_, fun hm => ?_⟩
  · simp [State.takeOffer_session, State.takeOffer_disp, State.takeOffer_port, hne]
  · rw [State.takeOffer_disp, if_pos rfl, State.heard_disp ht.1]
  · rw [State.takeOffer_session, if_pos rfl]
  · rw [State.takeOffer_port, if_pos rfl, Port.deleteOffer_eq]
  · rw [exec_decline_taken ht ha q ho hr, State.declineOffer_eq, State.handBackOffer_any hm]
    rfl
  · rw [exec_decline_taken ht ha q ho hr, State.declineOffer_eq, State.handBackOffer_each hm, State.removeCopy_some hr']

/-! ### The expiries of the host timers (R77, R78, R131, R133) -/

section
variable {s : State} {h : HostId} {cause : EvictCause} {survive : State → State}

/-- A miss below the miss limit (R78, R133). -/
theorem State.miss_below (hlt : (s.session h).missCount + 1 < (s.session h).missLimit) :
    s.miss h cause survive = survive (s.updSession h fun e => { e with missCount := e.missCount + 1 }) := by
  refine if_neg ?_
  rw [State.session_updSession, if_pos rfl]
  exact Nat.not_le.2 hlt

/-- The miss that brings the count to the miss limit loses the host (R78, R133). -/
theorem State.miss_at_limit (hle : (s.session h).missLimit ≤ (s.session h).missCount + 1) :
    s.miss h cause survive = (s.updSession h fun e => { e with missCount := e.missCount + 1 }).lose h cause := by
  refine if_pos ?_
  rw [State.session_updSession, if_pos rfl]
  exact hle

theorem exec_claimTimerExpiry {o : Offer} {expiry : Nat} (hr : s.running) (ho : (s.disp h).offer = some o)
    (ht : (s.disp h).claimTimer = some expiry) :
    exec (.claimTimerExpiry h) s = .next (({ s with now := max s.now expiry } : State).claimExpiry h o) := by
  have hr' : s.inReset = none := hr
  simp only [exec, execClaimTimerExpiry, hr', ho, ht]

theorem exec_claimTimerExpiry_stopped (ht : (s.disp h).claimTimer = none) : exec (.claimTimerExpiry h) s = .next s := by
  simp only [exec, execClaimTimerExpiry]
  split
  · rename_i hrunning; rw [ht] at hrunning; cases hrunning
  · rfl

theorem exec_wakeTimerExpiry {expiry : Nat} (hr : s.running) (hw : (s.session h).state = .waking)
    (ht : (s.session h).wakeTimer = some expiry) : exec (.wakeTimerExpiry h) s =
      .next (({ s with now := max s.now expiry } : State).miss h .wakeTimeout fun t => t.restartWake h) := by
  have hr' : s.inReset = none := hr
  simp only [exec, execWakeTimerExpiry, hr', hw, ht]

theorem exec_wakeTimerExpiry_stopped (ht : (s.session h).wakeTimer = none) : exec (.wakeTimerExpiry h) s = .next s := by
  simp only [exec, execWakeTimerExpiry]
  split
  · rename_i hrunning; rw [ht] at hrunning; cases hrunning
  · rfl

theorem State.updSession_updSession (s : State) (h : HostId) (f g : Session → Session) :
    (s.updSession h f).updSession h g = s.updSession h fun e => g (f e) := by
  simp [State.updSession]

/-- A TIMEOUT withdrawal and its round end change no session (R77). -/
theorem State.timeout_session (s : State) (h k : HostId) (n : SlotNo) :
    ((s.withdraw h .timeout).roundEndDelivered n).session k = s.session k := by simp

end

/-- Settles O58: an expiry is a miss, after the withdrawal and the round end at a claim timer, and with the restart at a wake timer. -/
theorem timerExpiriesCountMisses : Obligations.TimerExpiriesCountMisses := by
  unfold Obligations.TimerExpiriesCountMisses
  refine ⟨fun h o expiry s hr ho ht => ?_, fun h expiry s hr hw ht => ?_, fun h s =>
    ⟨exec_claimTimerExpiry_stopped, exec_wakeTimerExpiry_stopped⟩⟩
  · have hsession := State.timeout_session { s with now := max s.now expiry } h h o.handle.slot
    dsimp only
    rw [exec_claimTimerExpiry hr ho ht, State.claimExpiry]
    refine ⟨fun hlt => ?_, fun hle => ?_⟩
    · rw [State.miss_below (by rw [hsession]; exact hlt)]
    · rw [State.miss_at_limit (by rw [hsession]; exact hle)]
  · dsimp only
    rw [exec_wakeTimerExpiry hr hw ht]
    refine ⟨fun hlt => ?_, fun hle => ?_⟩
    · rw [State.miss_below (s := { s with now := max s.now expiry }) hlt, State.restartWake, State.updSession_updSession]
      rfl
    · rw [State.miss_at_limit (s := { s with now := max s.now expiry }) hle]

end Sys2Proof.Machine
end

