-- ==== Sys2Proof/Proofs/WithdrawalEffects.lean ====
section
/-! SUPPORT. What a withdrawal does to the queue, the copy and the slot of one host, and what the withdrawal of every offer of a record comes to. -/

namespace Sys2Proof.Machine

/-! ### The OFFER of a withdrawn offer (R75) -/

theorem dropOffer_none {hd : Handle} {q : List Msg} (h : ∀ m ∈ q, m.offers hd = false) : dropOffer hd q = none := by
  rw [Option.eq_none_iff_forall_ne_some]
  intro q' hq'
  obtain ⟨before, m, after, rfl, -, hm, -⟩ := dropOffer_some hq'
  rw [h m (by simp)] at hm; cases hm

/-- The newest OFFER of a handle leaves the queue (log entry 24). -/
theorem dropOffer_newest {hd : Handle} {m : Msg} {after : List Msg} (hm : m.offers hd = true) (hafter : ∀ x ∈ after, x.offers hd = false)
    (before : List Msg) : dropOffer hd (before ++ m :: after) = some (before ++ after) := by
  induction before with
  | nil => simp [dropOffer, dropOffer_none hafter, hm]
  | cons x before ih => simp [dropOffer, ih]

section
variable {q : Port} {hd : Handle}

theorem Port.queueWithoutOffer_uncarried (hc : q.headCarried = false) : q.queueWithoutOffer hd = dropOffer hd q.queue := by
  simp [Port.queueWithoutOffer, hc]

/-- The message of an exchange in progress stays at the head (R172). -/
theorem Port.queueWithoutOffer_carried {m : Msg} {ms : List Msg} (hc : q.headCarried = true) (hq : q.queue = m :: ms) :
    q.queueWithoutOffer hd = (dropOffer hd ms).map (m :: ·) := by
  simp [Port.queueWithoutOffer, hc, hq]

theorem Port.queueWithoutOffer_newest {before after : List Msg} {m : Msg} (hq : q.queue = before ++ m :: after) (hm : m.offers hd = true)
    (hafter : ∀ x ∈ after, x.offers hd = false) (hfree : before = [] → q.headCarried = false) :
    q.queueWithoutOffer hd = some (before ++ after) := by
  cases hc : q.headCarried with
  | false => rw [Port.queueWithoutOffer_uncarried hc, hq, dropOffer_newest hm hafter]
  | true =>
    cases before with
    | nil => rw [hfree rfl] at hc; cases hc
    | cons x before =>
      rw [Port.queueWithoutOffer_carried hc (by rw [hq, List.cons_append]), dropOffer_newest hm hafter]
      rfl

theorem Port.queueWithoutOffer_none (h : ∀ m ∈ (if q.headCarried then q.queue.tail else q.queue), m.offers hd = false) :
    q.queueWithoutOffer hd = none := by
  cases hc : q.headCarried with
  | false =>
    rw [hc] at h
    rw [Port.queueWithoutOffer_uncarried hc]
    exact dropOffer_none h
  | true =>
    rw [hc] at h
    cases hq : q.queue with
    | nil => simp [Port.queueWithoutOffer, hc, hq]
    | cons x xs =>
      rw [hq] at h
      rw [Port.queueWithoutOffer_carried hc hq, Option.map_eq_none_iff]
      exact dropOffer_none h

theorem Port.endOffer_queue_deleted {l : List Msg} (h : q.queueWithoutOffer hd = some l) (reason : Reason) :
    (q.endOffer hd reason).queue = l := by
  simp only [Port.endOffer, h]

theorem Port.endOffer_queue_withdrawn (h : q.queueWithoutOffer hd = none) (reason : Reason) :
    (q.endOffer hd reason).queue = q.queue ++ [.withdraw hd reason] := by
  simp only [Port.endOffer, h]

end

/-! ### One withdrawal (R73 to R75) -/

@[simp] theorem State.withdraw_serial (s : State) (h : HostId) (reason : Reason) (n : SlotNo) :
    (s.withdraw h reason).serial n = s.serial n := by
  cases ho : (s.disp h).offer with
  | none => rw [State.withdraw_none ho]
  | some o => rw [State.withdraw_some ho]; simp

/-- A withdrawal writes three tables of the state. -/
theorem State.withdraw_eq (s : State) (h : HostId) (reason : Reason) : s.withdraw h reason =
    { s with slots := (s.withdraw h reason).slots, dispatch := (s.withdraw h reason).dispatch, ports := (s.withdraw h reason).ports } := by
  cases ho : (s.disp h).offer with
  | none => rw [State.withdraw_none ho]
  | some o => rw [State.withdraw_some ho]; rfl

theorem State.withdraw_other (s : State) {h k : HostId} (reason : Reason) (hk : k ≠ h) :
    (s.withdraw h reason).disp k = s.disp k ∧ (s.withdraw h reason).port k = s.port k := by
  cases ho : (s.disp h).offer with
  | none => rw [State.withdraw_none ho]; exact ⟨rfl, rfl⟩
  | some o => rw [State.withdraw_disp ho, State.withdraw_port ho, if_neg hk, if_neg hk]; exact ⟨rfl, rfl⟩

/-- What a withdrawal does at its host depends on that host's offer slot and port alone. -/
theorem State.withdraw_congr {s t : State} {k : HostId} (reason : Reason) (hdisp : t.disp k = s.disp k) (hport : t.port k = s.port k) :
    (t.withdraw k reason).disp k = (s.withdraw k reason).disp k ∧ (t.withdraw k reason).port k = (s.withdraw k reason).port k := by
  cases ho : (s.disp k).offer with
  | none =>
    rw [State.withdraw_none ho, State.withdraw_none (by rw [hdisp]; exact ho)]
    exact ⟨hdisp, hport⟩
  | some o =>
    have ho' : (t.disp k).offer = some o := by rw [hdisp]; exact ho
    rw [State.withdraw_disp ho, State.withdraw_disp ho', State.withdraw_port ho, State.withdraw_port ho', hdisp, hport]
    exact ⟨rfl, rfl⟩

/-- The record of a withdrawn offer, its copy written with the host that it is at (R73). -/
theorem Record.withdrawn_eq (r : Record) (h : HostId) (hd : Handle) (reason : Reason) : r.withdrawn h hd reason =
    { r with
      copies := r.copies.map fun c =>
        if c.host = some h ∧ c.state = .offered hd then ⟨if r.mode = .any then none else some h, .waiting⟩ else c
      declined := if reason = .timeout ∧ r.mode = .any then r.declined.set h true else r.declined } := by
  have hcopies : (r.withdrawn h hd reason).copies = r.copies.map fun c =>
      if c.host = some h ∧ c.state = .offered hd then ⟨if r.mode = .any then none else some h, .waiting⟩ else c := by
    refine List.map_congr_left fun c _ => ?_
    split
    · rename_i hc; rw [hc.1]
    · rfl
  rw [← hcopies]
  rfl

/-! ### The withdrawal of every offer of a record (R80, R114, R115, R151) -/

/-- The copy is the one offered to a host that the host's offer slot names. -/
def State.recalls (s : State) (c : Copy) (h : HostId) : Bool :=
  decide (c.host = some h) && decide ((s.disp h).offer.map (fun o => CopyState.offered o.handle) = some c.state)

theorem State.recalls_iff {s : State} {c : Copy} {h : HostId} {o : Offer} (ho : (s.disp h).offer = some o) :
    s.recalls c h = true ↔ c.host = some h ∧ c.state = .offered o.handle := by
  simp [State.recalls, ho, eq_comm (a := CopyState.offered o.handle)]

theorem State.recalls_withdraw {s : State} {h k : HostId} (hk : k ≠ h) (reason : Reason) (c : Copy) :
    (s.withdraw h reason).recalls c k = s.recalls c k := by
  simp [State.recalls, State.withdraw_offer, hk]

/-- A copy that waits again (R73): without host in an ANY record, with its own in an EACH record. -/
def Copy.returned (c : Copy) (m : Mode) : Copy := ⟨if m = .any then none else c.host, .waiting⟩

theorem Copy.returned_returned (c : Copy) (m : Mode) : (c.returned m).returned m = c.returned m := by cases m <;> rfl

/-- The copy of a record of mode `m` after the withdrawal of an offer at one host (R73). -/
def Copy.withdrawn (c : Copy) (m : Mode) (h : HostId) (hd : Handle) : Copy :=
  if c.host = some h ∧ c.state = .offered hd then c.returned m else c

theorem Record.withdrawn_copies {reason : Reason} (hne : reason ≠ .timeout) (r : Record) (h : HostId) (hd : Handle) :
    r.withdrawn h hd reason = { r with copies := r.copies.map fun c => c.withdrawn r.mode h hd } := by
  simp only [Record.withdrawn, hne, false_and, if_false]
  rfl

/-- The copy of a record of mode `m` after the withdrawals at the hosts of a list. -/
def State.recall (s : State) (hs : List HostId) (m : Mode) (c : Copy) : Copy := if hs.any (s.recalls c) then c.returned m else c

/-- A record whose copies offered to the hosts of a list wait again. -/
def Record.recalled (r : Record) (s : State) (hs : List HostId) : Record := { r with copies := r.copies.map (s.recall hs r.mode) }

theorem Record.recalled_nil (r : Record) (s : State) : r.recalled s [] = r :=
  congrArg (fun cs : List Copy => { r with copies := cs }) (List.map_id r.copies)

/-- A withdrawal and then those at the hosts of a list recall the copies of all of them (R73). -/
theorem State.recall_cons {s : State} {h : HostId} {hs : List HostId} {o : Offer} (ho : (s.disp h).offer = some o) (hnew : h ∉ hs)
    (reason : Reason) (m : Mode) (c : Copy) :
    (s.withdraw h reason).recall hs m (c.withdrawn m h o.handle) = s.recall (h :: hs) m c := by
  have hlater (d : Copy) : hs.any ((s.withdraw h reason).recalls d) = hs.any (s.recalls d) := by
    rw [Bool.eq_iff_iff, List.any_eq_true, List.any_eq_true]
    refine exists_congr fun k => and_congr_right fun hk => ?_
    rw [State.recalls_withdraw (ne_of_mem_of_not_mem hk hnew)]
  rw [State.recall, State.recall, hlater, List.any_cons]
  by_cases hc : c.host = some h ∧ c.state = .offered o.handle
  · have hfirst : s.recalls c h = true := (State.recalls_iff ho).2 hc
    simp only [Copy.withdrawn, if_pos hc, Copy.returned_returned, ite_self, hfirst, Bool.true_or, if_true]
  · have hfirst : s.recalls c h = false := Bool.eq_false_iff.2 fun hrecalls => hc ((State.recalls_iff ho).1 hrecalls)
    simp only [Copy.withdrawn, if_neg hc, hfirst, Bool.false_or]

theorem Record.recalled_cons {s : State} {h : HostId} {hs : List HostId} {o : Offer} {reason : Reason} (ho : (s.disp h).offer = some o)
    (hnew : h ∉ hs) (hne : reason ≠ .timeout) (r : Record) :
    (r.withdrawn h o.handle reason).recalled (s.withdraw h reason) hs = r.recalled s (h :: hs) := by
  simp only [Record.withdrawn_copies hne, Record.recalled, List.map_map]
  exact congrArg (fun cs : List Copy => { r with copies := cs })
    (List.map_congr_left fun c _ => State.recall_cons ho hnew reason r.mode c)

/-- The hosts of a list are all different and each holds an offer of a slot. -/
def State.OfferedAt (s : State) (n : SlotNo) (hs : List HostId) : Prop := hs.Nodup ∧ ∀ h ∈ hs, s.holdsOfferOf n h = true

/-- The first of the hosts holds an offer of the slot, and the others hold theirs after its withdrawal. -/
theorem State.OfferedAt.cons {s : State} {n : SlotNo} {h : HostId} {hs : List HostId} (hh : s.OfferedAt n (h :: hs)) (reason : Reason) :
    (∃ o, (s.disp h).offer = some o ∧ o.handle.slot = n) ∧ h ∉ hs ∧ (s.withdraw h reason).OfferedAt n hs := by
  obtain ⟨hnodup, hall⟩ := hh
  obtain ⟨hnew, hnodup⟩ := List.nodup_cons.1 hnodup
  refine ⟨State.holdsOfferOf_iff.1 (hall h (List.mem_cons_self ..)), hnew, hnodup, fun k hk => ?_⟩
  have hne : k ≠ h := ne_of_mem_of_not_mem hk hnew
  have hold := hall k (List.mem_cons_of_mem _ hk)
  rw [State.holdsOfferOf_iff] at hold ⊢
  rwa [State.withdraw_offer, if_neg hne]

theorem State.withdrawEach_cons (s : State) (h : HostId) (hs : List HostId) (reason : Reason) :
    s.withdrawEach (h :: hs) reason = (s.withdraw h reason).withdrawEach hs reason := rfl

/-- The withdrawals leave every other slot alone, and of their own slot all but the record (R6). -/
theorem State.withdrawEach_slots {s : State} {n : SlotNo} {r : Record} {hs : List HostId} {reason : Reason} (hne : reason ≠ .timeout)
    (hr : s.record n = some r) (hh : s.OfferedAt n hs) :
    (s.withdrawEach hs reason).record n = some (r.recalled s hs) ∧ (s.withdrawEach hs reason).serial n = s.serial n ∧
      s.sameSlotsBut (s.withdrawEach hs reason) n := by
  induction hs generalizing s r with
  | nil => exact ⟨by rw [Record.recalled_nil]; exact hr, rfl, fun _ _ => ⟨rfl, rfl⟩⟩
  | cons h hs ih =>
    obtain ⟨⟨o, ho, hslot⟩, hnew, hrest⟩ := hh.cons reason
    have hrec : (s.withdraw h reason).record n = some (r.withdrawn h o.handle reason) := by
      rw [State.withdraw_record ho, if_pos hslot.symm, hr]; rfl
    obtain ⟨hrecord, hserial, hothers⟩ := ih hrec hrest
    rw [State.withdrawEach_cons]
    refine ⟨by rw [hrecord, Record.recalled_cons ho hnew hne], by rw [hserial, State.withdraw_serial], fun m hm => ?_⟩
    obtain ⟨hrecord', hserial'⟩ := hothers m hm
    refine ⟨hrecord'.trans ?_, hserial'.trans (State.withdraw_serial ..)⟩
    rw [State.withdraw_record ho, if_neg (hslot ▸ hm)]

/-- The withdrawals leave the hosts that are not in the list alone. -/
theorem State.withdrawEach_other (s : State) (reason : Reason) {hs : List HostId} {k : HostId} (hk : k ∉ hs) :
    (s.withdrawEach hs reason).disp k = s.disp k ∧ (s.withdrawEach hs reason).port k = s.port k := by
  induction hs generalizing s with
  | nil => exact ⟨rfl, rfl⟩
  | cons h hs ih =>
    rw [List.mem_cons, not_or] at hk
    obtain ⟨hne, hk⟩ := hk
    obtain ⟨hdisp, hport⟩ := ih (s.withdraw h reason) hk
    obtain ⟨hdisp', hport'⟩ := State.withdraw_other s reason hne
    exact ⟨hdisp.trans hdisp', hport.trans hport'⟩

/-- What the withdrawals do at a host of the list is its own withdrawal. -/
theorem State.withdrawEach_own {s : State} {n : SlotNo} (reason : Reason) {hs : List HostId} {k : HostId} (hh : s.OfferedAt n hs)
    (hk : k ∈ hs) : (s.withdrawEach hs reason).disp k = (s.withdraw k reason).disp k ∧
      (s.withdrawEach hs reason).port k = (s.withdraw k reason).port k := by
  induction hs generalizing s with
  | nil => cases hk
  | cons h hs ih =>
    obtain ⟨-, hnew, hrest⟩ := hh.cons reason
    rw [State.withdrawEach_cons]
    rcases List.mem_cons.1 hk with rfl | hmem
    · exact State.withdrawEach_other _ reason hnew
    · have hne : k ≠ h := ne_of_mem_of_not_mem hmem hnew
      obtain ⟨hdisp, hport⟩ := State.withdraw_other s reason hne
      obtain ⟨hdisp', hport'⟩ := State.withdraw_congr reason hdisp hport
      obtain ⟨hown, hown'⟩ := ih hrest hmem
      exact ⟨hown.trans hdisp', hown'.trans hport'⟩

theorem State.offeredAt_holders (s : State) (n : SlotNo) : s.OfferedAt n (HostId.all.filter (s.holdsOfferOf n)) :=
  ⟨List.Nodup.filter _ (by decide), fun _ hh => (List.mem_filter.1 hh).2⟩

theorem State.mem_holders {s : State} {n : SlotNo} {h : HostId} :
    h ∈ HostId.all.filter (s.holdsOfferOf n) ↔ ∃ o, (s.disp h).offer = some o ∧ o.handle.slot = n := by
  rw [List.mem_filter, State.holdsOfferOf_iff]
  exact and_iff_right (HostId.mem_all h)

theorem State.withdrawAll_outline (s : State) (n : SlotNo) (reason : Reason) : s.withdrawAll n reason =
    { s with
      slots := (s.withdrawAll n reason).slots, dispatch := (s.withdrawAll n reason).dispatch, ports := (s.withdrawAll n reason).ports } := by
  obtain ⟨hnow, hlines, htable, hleases, harrivals, hsessions, hloss, hmissed, hepoch, hcauses, hinReset, hfreeIdx, hpending, -⟩ :=
    s.withdrawAll_frame n reason
  generalize s.withdrawAll n reason = t at *
  rw [← hnow, ← hlines, ← htable, ← hleases, ← harrivals, ← hsessions, ← hloss, ← hmissed, ← hepoch, ← hcauses, ← hinReset, ← hfreeIdx,
    ← hpending]

/-- A copy is recalled just when its own host holds an offer of the slot that put it there. -/
theorem State.holders_recall_iff {s : State} {n : SlotNo} {c : Copy} : (HostId.all.filter (s.holdsOfferOf n)).any (s.recalls c) = true ↔
    ∃ o, (c.host.bind fun h => (s.disp h).offer) = some o ∧ o.handle.slot = n ∧ c.state = .offered o.handle := by
  rw [List.any_eq_true]
  constructor
  · rintro ⟨h, hh, hrecalls⟩
    obtain ⟨o, ho, hslot⟩ := State.mem_holders.1 hh
    obtain ⟨hhost, hstate⟩ := (State.recalls_iff ho).1 hrecalls
    exact ⟨o, by rw [hhost]; exact ho, hslot, hstate⟩
  · rintro ⟨o, hbind, hslot, hstate⟩
    obtain ⟨h, hhost, ho⟩ := Option.bind_eq_some_iff.1 hbind
    exact ⟨h, State.mem_holders.2 ⟨o, ho, hslot⟩, (State.recalls_iff ho).2 ⟨hhost, hstate⟩⟩

/-- Settles O29: the readings of the state that one withdrawal leaves, and those of the withdrawals at every holder of an offer of the record. -/
theorem withdrawalEffect : Obligations.WithdrawalEffect := by
  unfold Obligations.WithdrawalEffect
  refine ⟨fun s h o r reason ho hr => ?_, fun s n r reason hr hne => ?_⟩
  · dsimp only
    have hport : (s.withdraw h reason).port h = (s.port h).endOffer o.handle reason := by rw [State.withdraw_port ho, if_pos rfl]
    refine ⟨s.withdraw_eq h reason, fun k hk => ⟨by simp, State.withdraw_other s reason hk⟩, fun m hm => ⟨?_, by simp⟩, by simp, ?_, ?_, ?_,
      fun before m after hq hm hafter hfree => ?_, fun hnone => ?_⟩
    · rw [State.withdraw_record ho, if_neg hm]
    · rw [State.withdraw_disp ho, if_pos rfl]
    · rw [State.withdraw_record ho, if_pos rfl, hr, Option.map_some, Record.withdrawn_eq]
    · rw [hport]; exact Port.endOffer_eq ..
    · rw [hport, Port.endOffer_queue_deleted (Port.queueWithoutOffer_newest hq hm hafter hfree)]
    · rw [hport, Port.endOffer_queue_withdrawn (Port.queueWithoutOffer_none hnone)]
  · dsimp only
    have hholders := s.offeredAt_holders n
    obtain ⟨hrecord, hserial, hslots⟩ := State.withdrawEach_slots hne hr hholders
    refine ⟨s.withdrawAll_outline n reason, hslots, hserial, fun h hnone => ?_, fun h o ho hslot => ?_, ?_⟩
    · exact State.withdrawEach_other s reason fun hmem => by
        obtain ⟨o, ho, hslot⟩ := State.mem_holders.1 hmem
        exact hnone o ho hslot
    · obtain ⟨hdisp, hport⟩ := State.withdrawEach_own reason hholders (State.mem_holders.2 ⟨o, ho, hslot⟩)
      refine ⟨hdisp.trans ?_, hport⟩
      rw [State.withdraw_disp ho, if_pos rfl]
    · refine hrecord.trans (congrArg (fun cs : List Copy => some { r with copies := cs }) (List.map_congr_left fun c _ => ?_))
      split
      · rename_i o ho
        refine if_congr (State.holders_recall_iff.trans ⟨fun ⟨o', ho', hoffered⟩ => ?_, fun hoffered => ⟨o, ho, hoffered⟩⟩) rfl rfl
        rw [ho] at ho'
        cases ho'
        exact hoffered
      · rename_i hnone
        refine if_neg fun hany => ?_
        obtain ⟨o, ho, -⟩ := State.holders_recall_iff.1 hany
        rw [hnone] at ho; cases ho

end Sys2Proof.Machine
end

