-- ==== Sys2Proof/Proofs/ServiceCompletion.lean ====
section
/-! SUPPORT. The stack and the record that a DONE of the newest entry leaves. -/

namespace Sys2Proof.Machine

/-! ### DONE (R92 to R94) -/

/-- A change of a host's dispatch entry is known by what it makes of the entry as it stands. -/
theorem State.updDisp_congr {s : State} {h : HostId} {f g : Dispatch → Dispatch} (hfg : f (s.disp h) = g (s.disp h)) :
    s.updDisp h f = s.updDisp h g := congrArg (fun d : Dispatch => { s with dispatch := s.dispatch.set h d }) hfg

/-- The pop of the newest entry leaves the entries below it, and the caller's copy leaves the record (R92, R93). -/
theorem State.popTop_newest {s : State} {p : HostId} {es : List StackEntry} {e : StackEntry} (hs : (s.disp p).stack = es ++ [e]) :
    s.popTop p e = (s.updDisp p fun d => { d with stack := es }).removeCopy e.handle.slot p := by
  have hpop : (s.updDisp p fun d => { d with stack := d.stack.dropLast }) = s.updDisp p fun d => { d with stack := es } :=
    State.updDisp_congr (by rw [hs, List.dropLast_concat])
  rw [State.popTop, hpop]

/-- Settles O50: the newest entry is popped, then the caller's copy removed from a record in use. -/
theorem doneFinishesNewest : Obligations.DoneFinishesNewest := by
  unfold Obligations.DoneFinishesNewest
  intro p q es e r s ht ha hs hr
  dsimp only
  have hstack : ((s.heard p).disp p).stack = es ++ [e] := by rw [State.heard_disp ht.1, hs]
  have hrecord : ((s.heard p).updDisp p fun d => { d with stack := es }).record e.handle.slot = some r := by
    rw [State.record_updDisp, State.heard_record ht.1, hr]
  rw [exec_done_newest ht ha q hs, State.finishService_eq, State.popTop_newest hstack, State.removeCopy_some hrecord]

end Sys2Proof.Machine
end

