-- ==== Sys2Proof/Proofs/OtherSessions.lean ====
section
/-! SUPPORT. What the commands of one host leave of the sessions of the others, and the sum of the four quotas. -/

namespace Sys2Proof.Machine

/-! ### The pool of 48 (R111) -/

/-- Settles O5: every update keeps the sum of the quotas, a SET_QUOTA by its own check. -/
theorem quotaSumKept : Obligations.QuotaSumKept := fun _ _ hs h => step_keeps (fun _ _ _ _ hstir => hstir.quotaOk) hs h

/-! ### The sessions of the other hosts (R111, R130, R139, R141)

A wake leaves its host WAKING, so a host is woken at most once in a chain of operations, whichever of them recomputes. -/

/-- The Timebase stands, and the session of every host but one stays but for the wake of a DEEP host (R130). -/
structure State.SparesOthers (p : HostId) (s t : State) : Prop where
  now : t.now = s.now
  session : ∀ h, h ≠ p → t.session h = s.session h ∨ (s.session h).state = .deep ∧ t.session h = (s.session h).roused s.now

namespace State.SparesOthers
variable {p : HostId} {s t u : State}

theorem of_session (hnow : t.now = s.now) (hs : ∀ h, h ≠ p → t.session h = s.session h) : s.SparesOthers p t :=
  ⟨hnow, fun h hh => .inl (hs h hh)⟩

theorem of_sessions (hnow : t.now = s.now) (hs : t.sessions = s.sessions) : s.SparesOthers p t :=
  of_session hnow fun h _ => congrFun (State.session_congr hs) h

theorem refl (s : State) : s.SparesOthers p s := of_sessions rfl rfl

/-- A host that the first part has woken is no longer DEEP in the second (R130). -/
theorem trans (h : s.SparesOthers p t) (h' : t.SparesOthers p u) : s.SparesOthers p u where
  now := h'.now.trans h.now
  session k hk := by
    rcases h.session k hk with hsame | ⟨hdeep, hwoken⟩
    · have hlater := h'.session k hk
      rwa [hsame, h.now] at hlater
    · rcases h'.session k hk with hsame' | ⟨hdeep', -⟩
      · exact .inr ⟨hdeep, hsame'.trans hwoken⟩
      · rw [hwoken] at hdeep'
        cases hdeep'

/-- A further part that changes neither the Timebase nor a session. -/
theorem keep (h : s.SparesOthers p t) (hnow : u.now = t.now) (hs : u.sessions = t.sessions) : s.SparesOthers p u :=
  h.trans (of_sessions hnow hs)

theorem updSession (s : State) (p : HostId) (f : Session → Session) : s.SparesOthers p (s.updSession p f) :=
  of_session rfl fun h hh => by rw [State.session_updSession, if_neg hh]

theorem wakeUp (s : State) (p : HostId) : s.SparesOthers p (s.wakeUp p) :=
  of_session (s.wakeUp_now p) fun h hh => by rw [State.wakeUp_session, if_neg (hh ·.1)]

theorem reply (h : s.SparesOthers p t) {k : HostId} {q : Byte} {result : ResultCode} {data : ReplyData} :
    s.SparesOthers p (t.reply k q result data) := h.keep rfl rfl

theorem answer (h : s.SparesOthers p t) {k : HostId} {q : Byte} {result : ResultCode} {data : ReplyData} :
    s.SparesOthers p (t.answer k q result data).state := h.reply

theorem recompute (h : s.SparesOthers p t) : s.SparesOthers p t.recompute :=
  h.trans ⟨by simp, fun k _ => t.recompute_session_cases k⟩

theorem finishExchange (h : s.SparesOthers p t) (k : HostId) : s.SparesOthers p (t.finishExchange k) :=
  h.keep (by simp) (by simp)

/-! #### An exchange and its command -/

/-- The rise of CS spares the others when its command does (R173, R174, R187). -/
theorem csRise {bytes : Nat} {take : State → State} (htake : ∀ v, SparesOthers p v (take v)) : s.SparesOthers p (s.csRise p bytes take) := by
  unfold State.csRise
  split
  · exact .refl s
  · split
    · exact of_sessions rfl rfl
    · have hmarks : s.SparesOthers p (s.clearMarks p bytes) := by
        rw [State.clearMarks_outline]
        exact of_sessions rfl rfl
      exact (hmarks.trans (htake _)).finishExchange p
  · exact of_sessions rfl rfl

theorem fullExchange {take : State → State} (htake : ∀ v, SparesOthers p v (take v)) : s.SparesOthers p (s.fullExchange p take) := by
  have hfall : s.SparesOthers p (s.ensureExchange p) := by
    rw [State.ensureExchange_outline]
    exact of_sessions rfl rfl
  exact hfall.trans (csRise htake)

/-- A command without place for its REPLY sets a mark alone (R178). -/
theorem withReplyRoom {take : State → State} (htake : s.SparesOthers p (take s)) : s.SparesOthers p (s.withReplyRoom p take) := by
  unfold State.withReplyRoom
  split
  · exact htake
  · exact of_sessions rfl rfl

/-- A command row judged by itself spares the others when its judgement does (R124, R128, R134, R141, R178). -/
theorem row {take : State → State} (htake : ∀ v, SparesOthers p v (take v)) :
    s.SparesOthers p (s.fullExchange p fun s => s.withReplyRoom p take) :=
  fullExchange fun v => withReplyRoom (htake v)

/-- A command of an attached host spares the others when its own rule does (R126, R127). -/
theorem command {q : Byte} {act : State → Effect} (hact : ∀ v, SparesOthers p v (act v).state) :
    s.SparesOthers p (s.fullExchange p fun s => s.command p q act) :=
  row fun v => by
    dsimp only
    split
    · have hrule : v.SparesOthers p (act (v.wakeUp p)).state := (wakeUp v p).trans (hact _)
      split
      · exact hrule.recompute
      · exact hrule
    · exact (refl v).reply

end State.SparesOthers

/-! #### Each command's own rule -/

section rule
variable (s : State) (p : HostId) (q : Byte)

theorem State.openSession_spares (depth : Nat) : s.SparesOthers p (s.openSession p q depth) := by
  have hopened := State.SparesOthers.updSession s p fun e => e.opened depth
  exact (hopened.keep (by simp [Session.opened]) (by simp [Session.opened])).recompute

theorem State.closeSession_spares : s.SparesOthers p (s.closeSession p q) := by
  have hteardown : s.SparesOthers p (s.teardown p .absent).state :=
    .of_session (by simp) fun h hh => by rw [State.teardown_session, if_neg hh]
  exact hteardown.reply.recompute

theorem State.sleepDoze_spares : s.SparesOthers p (s.sleepDoze p q) := by
  unfold State.sleepDoze
  split
  · exact (State.SparesOthers.refl s).reply
  · exact (State.SparesOthers.updSession s p _).reply.recompute

theorem State.sleepDeep_spares : s.SparesOthers p (s.sleepDeep p q) := by
  unfold State.sleepDeep
  split
  · exact (State.SparesOthers.refl s).reply
  · have hwithdraw : s.SparesOthers p (s.withdraw p .sleep) := .of_sessions (by simp) (by simp)
    exact (hwithdraw.trans (.updSession _ p _)).recompute.reply

theorem State.answerHost_spares (host view : Byte) : s.SparesOthers p (s.answerHost p q host view) := by
  unfold State.answerHost
  split <;> exact (State.SparesOthers.refl s).reply

theorem State.claimOffer_spares (o : Offer) (r : Record) : s.SparesOthers p (s.claimOffer p q o r) := by
  have hserve : s.SparesOthers p (s.serve p o r) := .of_session rfl fun h hh => by rw [State.serve_session, if_neg hh]
  rw [State.claimOffer_eq]
  exact hserve.reply

theorem State.declineOffer_spares (o : Offer) (r : Record) : s.SparesOthers p (s.declineOffer p q o r) := by
  have htake : s.SparesOthers p (s.takeOffer p o) := .of_session (by simp) fun h hh => by rw [State.takeOffer_session, if_neg hh]
  have hback : (s.takeOffer p o).SparesOthers p (s.handBackOffer p o r).1 := by
    unfold State.handBackOffer
    dsimp only
    split <;> exact .of_sessions (by simp) (by simp)
  rw [State.declineOffer_eq]
  exact (htake.trans hback).keep (by simp) (by simp)

theorem State.finishService_spares (e : StackEntry) : s.SparesOthers p (s.finishService p q e) :=
  .of_sessions (by simp [State.finishService]) (by simp [State.finishService])

theorem State.retractAny_spares (n : SlotNo) (r : Record) : s.SparesOthers p (s.retractAny p q n r).state := by
  unfold State.retractAny
  split <;> exact .of_sessions (by simp [State.answer]) (by simp [State.answer])

theorem State.retractEach_spares (n : SlotNo) (r : Record) : s.SparesOthers p (s.retractEach p q n r).state := by
  unfold State.retractEach
  dsimp only
  split <;> exact .of_sessions (by simp) (by simp)

theorem State.arm_spares (l : LineNo) : s.SparesOthers p (s.arm l) := by
  unfold State.arm
  dsimp only
  split <;> exact .of_sessions (by simp) (by simp)

theorem State.configure_spares (l : LineNo) (new : LineEntry) (apply : Bool) : s.SparesOthers p (s.configure p q l new apply) := by
  unfold State.configure
  dsimp only
  have hentry : s.SparesOthers p (s.setEntry l new) := .of_sessions rfl rfl
  have harmed : s.SparesOthers p (if armsDetector (s.entry l) new then (s.setEntry l new).arm l else s.setEntry l new) := by
    split
    · exact hentry.trans (State.arm_spares _ p l)
    · exact hentry
  generalize (if armsDetector (s.entry l) new then (s.setEntry l new).arm l else s.setEntry l new) = u at harmed ⊢
  split
  · exact harmed.keep (by simp [State.rebuild]) (by simp [State.rebuild])
  · exact harmed.reply

theorem State.fetchLoss_spares : s.SparesOthers p (s.fetchLoss p q) := by
  unfold State.fetchLoss
  dsimp only
  split <;> exact .of_sessions rfl rfl

end rule

/-! #### Each command row -/

section row
variable {s t : State} {p : HostId} {q : Byte}

theorem exec_attach_spares {depth : Byte} (h : exec (.attach p q depth) s = .next t) : s.SparesOthers p t := by
  cases h
  refine .row fun v => ?_
  split
  · exact (State.SparesOthers.refl v).reply
  · split
    · exact (State.SparesOthers.refl v).reply
    · exact v.openSession_spares p q _

theorem exec_detach_spares (h : exec (.detach p q) s = .next t) : s.SparesOthers p t := by
  cases h
  refine .row fun v => ?_
  split
  · exact (State.SparesOthers.wakeUp v p).trans (State.closeSession_spares _ p q)
  · exact (State.SparesOthers.refl v).reply

theorem exec_sleep_spares {depth : Byte} (h : exec (.sleep p q depth) s = .next t) : s.SparesOthers p t := by
  cases h
  refine .row fun v => ?_
  split
  · split
    · exact v.sleepDoze_spares p q
    · exact v.sleepDeep_spares p q
    · exact (State.SparesOthers.refl v).reply
  · exact (State.SparesOthers.refl v).reply

theorem exec_queryHost_spares {host view : Byte} (h : exec (.queryHost p q host view) s = .next t) : s.SparesOthers p t := by
  cases h
  refine .row fun v => ?_
  have hanswer := (State.SparesOthers.wakeUp v p).trans (State.answerHost_spares _ p q host view)
  dsimp only
  split
  · exact hanswer.recompute
  · exact hanswer

/-- The parameter that a SET_HOST sets is the caller's own (R139). -/
theorem exec_setHost_spares {param : Byte} {value : BitVec 16} (h : exec (.setHost p q param value) s = .next t) : s.SparesOthers p t := by
  cases h
  refine .command fun v => ?_
  split
  · exact (State.SparesOthers.refl v).answer
  · exact (State.SparesOthers.updSession v p _).answer

theorem exec_setFloor_spares {floor : Byte} (h : exec (.setFloor p q floor) s = .next t) : s.SparesOthers p t := by
  cases h
  refine .command fun v => ?_
  split
  · exact (State.SparesOthers.refl v).answer
  · rename_i f _
    have hfloor := State.SparesOthers.updSession v p fun e => { e with floor := f }
    dsimp only
    split
    · split
      · exact hfloor.keep (by simp) (by simp)
      · exact hfloor.reply
    · exact hfloor.reply

/-- The quota that a SET_QUOTA sets is the caller's own (R111). -/
theorem exec_setQuota_spares {quota : Byte} (h : exec (.setQuota p q quota) s = .next t) : s.SparesOthers p t := by
  cases h
  refine .command fun v => ?_
  split
  · exact (State.SparesOthers.refl v).answer
  · dsimp only
    split
    · exact (State.SparesOthers.refl v).answer
    · exact (State.SparesOthers.updSession v p _).answer

theorem exec_claim_spares {slot serial : Byte} (h : exec (.claim p q slot serial) s = .next t) : s.SparesOthers p t := by
  cases h
  refine .command fun v => ?_
  split
  · exact v.claimOffer_spares p q _ _
  · exact (State.SparesOthers.refl v).answer

theorem exec_decline_spares {slot serial : Byte} (h : exec (.decline p q slot serial) s = .next t) : s.SparesOthers p t := by
  cases h
  refine .command fun v => ?_
  split
  · exact v.declineOffer_spares p q _ _
  · exact (State.SparesOthers.refl v).answer

theorem exec_done_spares {slot serial : Byte} (h : exec (.done p q slot serial) s = .next t) : s.SparesOthers p t := by
  cases h
  refine .command fun v => ?_
  split
  · split
    · split
      · exact v.finishService_spares p q _
      · exact (State.SparesOthers.refl v).answer
    · exact (State.SparesOthers.refl v).answer
  · exact (State.SparesOthers.refl v).answer

theorem exec_post_spares {band mode notify rc rh : Byte} {payload : BitVec 32}
    (h : exec (.post p q band mode notify rc rh payload) s = .next t) : s.SparesOthers p t := by
  cases h
  refine .command fun v => ?_
  split
  · exact (State.SparesOthers.refl v).answer
  · dsimp only
    split
    · split
      · exact (State.SparesOthers.refl v).answer
      · exact .of_sessions rfl rfl
    · exact (State.SparesOthers.refl v).answer

theorem exec_retract_spares {slot : Byte} (h : exec (.retract p q slot) s = .next t) : s.SparesOthers p t := by
  cases h
  refine .command fun v => ?_
  split
  · exact (State.SparesOthers.refl v).answer
  · split
    · exact (State.SparesOthers.refl v).answer
    · split
      · split
        · exact v.retractAny_spares p q _ _
        · exact v.retractEach_spares p q _ _
      · exact (State.SparesOthers.refl v).answer

theorem exec_lease_spares {group : Byte} (h : exec (.lease p q group) s = .next t) : s.SparesOthers p t := by
  cases h
  refine .command fun v => ?_
  split
  · exact (State.SparesOthers.refl v).answer
  · split <;> exact .of_sessions rfl rfl

theorem exec_release_spares {group : Byte} (h : exec (.release p q group) s = .next t) : s.SparesOthers p t := by
  cases h
  refine .command fun v => ?_
  split
  · exact (State.SparesOthers.refl v).answer
  · split <;> exact .of_sessions rfl rfl

theorem exec_configLine_spares {line flags sense qual band mode rc rh : Byte}
    (h : exec (.configLine p q line flags sense qual band mode rc rh) s = .next t) : s.SparesOthers p t := by
  cases h
  refine .command fun v => ?_
  split
  · exact (State.SparesOthers.refl v).answer
  · split
    · split
      · exact (State.SparesOthers.refl v).answer
      · exact v.configure_spares p q _ _ _
    · exact (State.SparesOthers.refl v).answer

theorem exec_ackNotice_spares {causes : Byte} (h : exec (.ackNotice p q causes) s = .next t) : s.SparesOthers p t := by
  cases h
  refine .command fun v => ?_
  split <;> exact .of_sessions rfl rfl

/-- A query is its REPLY (R22, R42). -/
theorem exec_queryEvent_spares {slot view : Byte} (h : exec (.queryEvent p q slot view) s = .next t) : s.SparesOthers p t := by
  cases h
  refine .command fun v => ?_
  split <;> exact (State.SparesOthers.refl v).answer

theorem exec_queryLine_spares {line : Byte} (h : exec (.queryLine p q line) s = .next t) : s.SparesOthers p t := by
  cases h
  refine .command fun v => ?_
  split <;> exact (State.SparesOthers.refl v).answer

end row

/-- Whatever a command does, it spares the sessions of the other hosts. -/
theorem exec_sparesOthers {i : Instr} {s t : State} {p : HostId} {q : Byte} (hcaller : callerOf i = some (p, q))
    (h : exec i s = .next t) : s.SparesOthers p t := by
  cases i with
  | nop => cases hcaller; cases h; exact .fullExchange .refl
  | unknownCommand => cases hcaller; cases h; exact .command fun v => (State.SparesOthers.refl v).answer
  | attach => cases hcaller; exact exec_attach_spares h
  | detach => cases hcaller; exact exec_detach_spares h
  | sleep => cases hcaller; exact exec_sleep_spares h
  | setHost => cases hcaller; exact exec_setHost_spares h
  | setFloor => cases hcaller; exact exec_setFloor_spares h
  | setQuota => cases hcaller; exact exec_setQuota_spares h
  | queryHost => cases hcaller; exact exec_queryHost_spares h
  | claim => cases hcaller; exact exec_claim_spares h
  | decline => cases hcaller; exact exec_decline_spares h
  | done => cases hcaller; exact exec_done_spares h
  | post => cases hcaller; exact exec_post_spares h
  | retract => cases hcaller; exact exec_retract_spares h
  | lease => cases hcaller; exact exec_lease_spares h
  | release => cases hcaller; exact exec_release_spares h
  | configLine => cases hcaller; exact exec_configLine_spares h
  | fetchLoss => cases hcaller; cases h; exact .command fun v => v.fetchLoss_spares p q
  | ackNotice => cases hcaller; exact exec_ackNotice_spares h
  | queryEvent => cases hcaller; exact exec_queryEvent_spares h
  | queryLine => cases hcaller; exact exec_queryLine_spares h
  | exchangeStart | shortExchange | rawChange | qualificationTimerExpiry | claimTimerExpiry | wakeTimerExpiry | arbiterFill | resetLine
  | supplyLow | powerOn | hubResetCompletion | exchangeDiscarded | holdEnds => cases hcaller

/-- Settles O18: a command's own rule changes the caller's session alone, and its recomputation wakes a DEEP host at most. -/
theorem otherSessionsUntouched : Obligations.OtherSessionsUntouched := by
  unfold Obligations.OtherSessionsUntouched
  intro i p q s t h hcaller hh hexec
  exact (exec_sparesOthers hcaller hexec).session h hh

end Sys2Proof.Machine
end

