-- ==== Sys2Proof/Proofs/PostedEvents.lean ====
section
/-! SUPPORT. The posted pool: the delivery of a COMPLETED notice, SET_QUOTA, and RETRACT. -/

namespace Sys2Proof.Machine

/-! ### The delivery of a notice (R118, R119) -/

section deliver
variable {s : State} {m : Notice}

theorem State.deliver_unattached (ha : s.attached m.sender = false) : s.deliver m = s := by
  simp [State.deliver, ha]

theorem State.deliver_appended (ha : s.attached m.sender = true) (hroom : nonWithdraw (s.port m.sender).queue ≤ 7) :
    s.deliver m = s.enqueue m.sender (.completed m.slot m.outcome m.payload) := by
  simp [State.deliver, ha, Port.hasNoticeRoom, hroom]

/-- A notice without a place is dropped with the notice-dropped mark (R118). -/
theorem State.deliver_dropped (ha : s.attached m.sender = true) (hfull : 8 ≤ nonWithdraw (s.port m.sender).queue) :
    s.deliver m = s.updPort m.sender fun q => { q with noticeDropped := true, cs := q.cs.noticeSetAgain } := by
  simp [State.deliver, ha, Port.hasNoticeRoom, Nat.not_le.2 (show 7 < _ from hfull)]

end deliver

theorem ChipSelect.noticeSetAgain_live {cs : ChipSelect} {x : Exchange} (h : cs = .live x) :
    cs.noticeSetAgain = .live { x with shownNotice := false } := by
  rw [h]; rfl

theorem ChipSelect.noticeSetAgain_of_not_live {cs : ChipSelect} (h : ∀ x, cs ≠ .live x) : cs.noticeSetAgain = cs := by
  cases cs with
  | live x => exact absurd rfl (h x)
  | idle | cutOff | notReady => rfl

/-- Settles O33, by the sender's attachment and the room in its queue; the dropped notice touches the sender's port alone. -/
theorem noticeDelivered : Obligations.NoticeDelivered := by
  unfold Obligations.NoticeDelivered
  refine fun s m => ⟨State.deliver_unattached, State.deliver_appended, fun ha hfull => ?_⟩
  rw [State.deliver_dropped ha hfull]
  refine ⟨rfl, fun h hh => by rw [State.port_updPort, if_neg hh], (s.port m.sender).cs.noticeSetAgain, ?_,
    ChipSelect.noticeSetAgain_of_not_live, fun _ => ChipSelect.noticeSetAgain_live⟩
  rw [State.port_updPort, if_pos rfl]

/-! ### SET_QUOTA (R111) -/

section setQuota
variable {s : State} {p : HostId} (ht : s.takes p) (ha : s.attached p = true) (q : Byte) {quota : Byte}
include ht

/-- Before the command the caller's quota and the room are those of the state in which the exchange completes. -/
theorem State.heard_quotaData : (s.heard p).quotaData p = .quotaSet (s.session p).quota (48 - s.quotaSum) := by
  rw [State.quotaData, State.heard_quota ht.1, State.heard_quotaSum ht.1]

/-- The sum of the quotas with the caller's replaced. -/
theorem State.heard_quotaSum_set (k : Nat) : ((s.heard p).updSession p fun e => { e with quota := k }).quotaSum =
    s.quotaSum - (s.session p).quota + k := by
  rw [State.quotaSum_updSession, State.heard_quotaSum ht.1, State.heard_quota ht.1]

include ha

theorem exec_setQuota_outside (hq : 48 < quota.toNat) : exec (.setQuota p q quota) s =
    .next (s.ended p false ((s.heard p).reply p q .badArg (.quotaSet (s.session p).quota (48 - s.quotaSum)))) := by
  have hparse : parseRange 0 48 quota = none := parseRange_none.2 (.inr hq)
  simp only [exec, execSetQuota, State.fullExchange_command ht ha, hparse, State.answer, State.heard_quotaData ht]

/-- A quota for which the pool has no room is not set. -/
theorem exec_setQuota_noRoom (hq : quota.toNat ≤ 48) (hsum : 48 < s.quotaSum - (s.session p).quota + quota.toNat) :
    exec (.setQuota p q quota) s =
      .next (s.ended p false ((s.heard p).reply p q .noRoom (.quotaSet (s.session p).quota (48 - s.quotaSum)))) := by
  have hparse : parseRange 0 48 quota = some quota.toNat := parseRange_eq.2 ⟨rfl, Nat.zero_le _, hq⟩
  simp only [exec, execSetQuota, State.fullExchange_command ht ha, hparse, State.answer, State.heard_quotaSum_set ht, hsum, if_true,
    State.heard_quotaData ht]

/-- A quota within the pool is set, and the REPLY gives the room that is left. -/
theorem exec_setQuota_set (hq : quota.toNat ≤ 48) (hsum : s.quotaSum - (s.session p).quota + quota.toNat ≤ 48) :
    exec (.setQuota p q quota) s = .next (s.ended p false
      (((s.heard p).updSession p fun e => { e with quota := quota.toNat }).reply p q .ok
        (.quotaSet quota.toNat (48 - (s.quotaSum - (s.session p).quota + quota.toNat))))) := by
  have hparse : parseRange 0 48 quota = some quota.toNat := parseRange_eq.2 ⟨rfl, Nat.zero_le _, hq⟩
  simp only [exec, execSetQuota, State.fullExchange_command ht ha, hparse, State.answer, State.heard_quotaSum_set ht,
    Nat.not_lt.2 hsum, if_false, State.quotaData, State.session_updSession, if_true]

end setQuota

/-- Settles O45, by the byte of the quota and by the sum that it would make. -/
theorem setQuotaWithinPool : Obligations.SetQuotaWithinPool := by
  unfold Obligations.SetQuotaWithinPool
  intro p q quota s ht ha
  exact ⟨exec_setQuota_outside ht ha q, exec_setQuota_noRoom ht ha q, exec_setQuota_set ht ha q⟩

/-! ### RETRACT (R113 to R115) -/

/-- A byte outside 48 to 95 names no posted slot (R1). -/
theorem parsePosted_none {slot : Byte} (h : slot.toNat < 48 ∨ 95 < slot.toNat) : (parseSlot slot).filter isPostedSlot = none := by
  cases hn : parseSlot slot with
  | none => rfl
  | some n =>
    have hval := parseSlot_eq.1 hn
    have hline : isPostedSlot n = false := isPostedSlot_of_lt (by have := n.isLt; omega)
    simp [hline]

theorem parsePosted_some {slot : Byte} {n : SlotNo} (hn : slot.toNat = n.val) (hp : 48 ≤ n.val) :
    (parseSlot slot).filter isPostedSlot = some n := by
  simp [parseSlot_eq.2 hn, isPostedSlot_of_le hp]

section retract
variable {s : State} {p : HostId} (ht : s.takes p) (ha : s.attached p = true) (q : Byte) {slot : Byte}
include ht ha

theorem exec_retract_outside (h : slot.toNat < 48 ∨ 95 < slot.toNat) :
    exec (.retract p q slot) s = .next (s.ended p false ((s.heard p).reply p q .badArg (.retractSlot slot))) := by
  simp only [exec, execRetract, State.fullExchange_command ht ha, parsePosted_none h, State.answer]

section slot
variable {n : SlotNo} (hn : slot.toNat = n.val) (hp : 48 ≤ n.val)
include hn hp

theorem exec_retract_free (hr : s.record n = none) :
    exec (.retract p q slot) s = .next (s.ended p false ((s.heard p).reply p q .badArg (.retractSlot slot))) := by
  simp only [exec, execRetract, State.fullExchange_command ht ha, parsePosted_some hn hp, State.heard_record ht.1, hr, State.answer]

variable {r : Record} (hr : s.record n = some r)
include hr

theorem exec_retract_notOwner (hs : r.source ≠ .host p) :
    exec (.retract p q slot) s = .next (s.ended p false ((s.heard p).reply p q .notOwner (.retractSlot slot))) := by
  simp only [exec, execRetract, State.fullExchange_command ht ha, parsePosted_some hn hp, State.heard_record ht.1, hr, hs, if_false,
    State.answer]

/-- An OPEN ANY record is freed with its offer withdrawn (R114). -/
theorem exec_retract_anyOpen (hs : r.source = .host p) (hm : r.mode = .any) (hopen : r.phase = .opened) :
    exec (.retract p q slot) s = .next (s.ended p true
      ((((s.heard p).withdrawAll n .retracted).freeSlot n).reply p q .ok (.retractOk n 1 0))) := by
  simp only [exec_retract_any ht ha q hn hp hr hs hm, State.retractAny, hopen]

/-- A CAPTURED ANY record stays with the host that serves it (R114). -/
theorem exec_retract_anyServed {h : HostId} {hd : Handle} (hs : r.source = .host p) (hm : r.mode = .any) (hcaptured : r.phase = .captured)
    (hcopies : r.copies = [⟨some h, .inService hd⟩]) :
    exec (.retract p q slot) s = .next (s.ended p false ((s.heard p).reply p q .inService (.retractInService n (some h)))) := by
  have hholder : (r.copies.find? Copy.inService).bind Copy.host = some h := by rw [hcopies]; rfl
  simp only [exec_retract_any ht ha q hn hp hr hs hm, State.retractAny, hcaptured, hholder, State.answer]

/-- An EACH record of which no copy is IN_SERVICE is freed with its offers withdrawn (R115). -/
theorem exec_retract_eachFreed (hs : r.source = .host p) (hm : r.mode = .each) (hleft : r.copies.filter Copy.inService = []) :
    exec (.retract p q slot) s = .next (s.ended p true
      ((((s.heard p).withdrawAll n .retracted).freeSlot n).reply p q .ok
        (.retractOk n (r.copies.length - (r.copies.filter Copy.inService).length) 0))) := by
  simp only [exec_retract_each ht ha q hn hp hr hs hm, State.retractEach, hleft, List.isEmpty_nil, if_true]

/-- An EACH record keeps its IN_SERVICE copies (R115). -/
theorem exec_retract_eachPartial (hs : r.source = .host p) (hm : r.mode = .each) (hleft : r.copies.filter Copy.inService ≠ []) :
    exec (.retract p q slot) s = .next (s.ended p true
      ((((s.heard p).withdrawAll n .retracted).setRecord n (some { r with copies := r.copies.filter Copy.inService })).reply p q .partialDone
        (.retractOk n (r.copies.length - (r.copies.filter Copy.inService).length) (r.copies.filter Copy.inService).length))) := by
  have hkept : (r.copies.filter Copy.inService).isEmpty = false := List.isEmpty_eq_false_iff.2 hleft
  simp only [exec_retract_each ht ha q hn hp hr hs hm, State.retractEach, hkept, Bool.false_eq_true, if_false]

end slot
end retract

/-- Settles O53, by the slot, the record's owner, its mode, and whether a copy of it is IN_SERVICE. -/
theorem retractTakesBack : Obligations.RetractTakesBack := by
  unfold Obligations.RetractTakesBack
  intro p q slot s ht ha
  refine ⟨exec_retract_outside ht ha q, fun n hn hp => ⟨exec_retract_free ht ha q hn hp, fun r hr => ?_⟩⟩
  exact ⟨exec_retract_notOwner ht ha q hn hp hr, exec_retract_anyOpen ht ha q hn hp hr, fun _ _ => exec_retract_anyServed ht ha q hn hp hr,
    fun hs hm => ⟨exec_retract_eachFreed ht ha q hn hp hr hs hm, exec_retract_eachPartial ht ha q hn hp hr hs hm⟩⟩

end Sys2Proof.Machine
end

section
/-! SUPPORT. The sessions of the hosts: what stands when a command is judged, the commands that are not taken or not answered, and ATTACH, DETACH, SLEEP and
SET_HOST. -/

namespace Sys2Proof.Machine

/-! ### The state in which a command is judged (R127, R172, R173) -/

theorem State.exchangeOf_idle {s : State} {p : HostId} (hc : (s.port p).cs = .idle) :
    s.exchangeOf p = { s.newExchange p with bytes := 12 } := by
  simp only [State.exchangeOf, hc]

theorem State.exchangeOf_live {s : State} {p : HostId} {y : Exchange} (hc : (s.port p).cs = .live y) :
    s.exchangeOf p = { y with bytes := 12 } := by
  simp only [State.exchangeOf, hc]

/-- The hosts that a command first makes AWAKE (R127). -/
theorem State.sleeps_iff {s : State} {p : HostId} : s.sleeps p = true ↔
    (s.session p).state = .doze ∨ (s.session p).state = .deep ∨ (s.session p).state = .waking := by
  unfold State.sleeps
  cases (s.session p).state <;> decide

/-- Settles O21: the exchange is the one in progress, or the one that the fall of CS starts; the readings of the judged port and of the woken session. -/
theorem beforeTheCommand : Obligations.BeforeTheCommand := by
  unfold Obligations.BeforeTheCommand
  refine ⟨fun s p h => ⟨s.exchangeOf p, ?_, fun k hk => State.judged_port_ne h hk, State.judged_port_self h, fun hc => ?_, fun y hc =>
    State.exchangeOf_live hc⟩, fun s p => ⟨State.wakeUp_eq s p, fun k hk => ?_, ?_⟩⟩
  · rw [State.judged_ports h]
    exact State.judged_eq h
  · rw [State.exchangeOf_idle hc]
    exact ⟨rfl, rfl, rfl⟩
  · rw [State.wakeUp_session, if_neg (hk ·.1)]
  · simp only [State.wakeUp_session, State.sleeps_iff, true_and]

/-! ### Commands that are not taken, and commands of hosts that are not attached (R126, R178) -/

/-- A command row is a full exchange that asks for a place for its REPLY and then takes effect, and a command that needs a session answers NOT_ATTACHED where
there is none. -/
structure CommandRow (i : Instr) (p : HostId) (q : Byte) (take : State → State) : Prop where
  row : ∀ s, exec i s = .next (s.fullExchange p fun v => v.withReplyRoom p take)
  unattached : needsSession i = true → ∀ v : State, v.attached p = false → take v = v.reply p q .notAttached .empty

/-- The rows that run as `State.command`, whatever their own rule. -/
theorem commandRow_of_command {i : Instr} {p : HostId} {q : Byte} {act : State → Effect}
    (h : ∀ s, exec i s = .next (s.fullExchange p fun v => v.command p q act)) : ∃ take, CommandRow i p q take :=
  ⟨_, h, fun _ v hv => by simp [hv]⟩

/-- Every command row but NOP. -/
theorem exists_commandRow {i : Instr} {p : HostId} {q : Byte} (hcaller : callerOf i = some (p, q)) (hnop : i ≠ .nop p q) :
    ∃ take, CommandRow i p q take := by
  cases i with
  | nop => cases hcaller; exact absurd rfl hnop
  | attach | queryHost => cases hcaller; exact ⟨_, fun _ => rfl, fun hneeds => by cases hneeds⟩
  | detach | sleep => cases hcaller; exact ⟨_, fun _ => rfl, fun _ v hv => by simp [hv]⟩
  | unknownCommand | setHost | setFloor | setQuota | claim | decline | done | post | retract | lease | release | configLine | fetchLoss
  | ackNotice | queryEvent | queryLine => cases hcaller; exact commandRow_of_command fun _ => rfl
  | exchangeStart | shortExchange | rawChange | qualificationTimerExpiry | claimTimerExpiry | wakeTimerExpiry | arbiterFill | resetLine
  | supplyLow | powerOn | hubResetCompletion | exchangeDiscarded | holdEnds => cases hcaller

/-- A command whose REPLY has no place sets the overrun mark alone (R178). -/
theorem CommandRow.exec_full {i : Instr} {p : HostId} {q : Byte} {take : State → State} {s : State} (hi : CommandRow i p q take)
    (h : s.canExchange p) (hfull : (s.port p).hasReplyRoom = false) :
    exec i s = .next (((s.judged p).updPort p fun r => { r with overrun := true }).finishExchange p) := by
  rw [hi.row, State.fullExchange_eq h, State.withReplyRoom_full (by rw [State.judged_hasReplyRoom h, hfull])]

/-- A taken command takes effect on the judged state (R173). -/
theorem CommandRow.exec_takes {i : Instr} {p : HostId} {q : Byte} {take : State → State} {s : State} (hi : CommandRow i p q take)
    (ht : s.takes p) : exec i s = .next ((take (s.judged p)).finishExchange p) := by
  rw [hi.row, State.fullExchange_room ht]

/-- Settles O20, by the one shape of all command rows. -/
theorem noRoomAndNotAttached : Obligations.NoRoomAndNotAttached := by
  unfold Obligations.NoRoomAndNotAttached
  refine ⟨fun i p q s hcaller hnop h hfull => ?_, fun i p q s hcaller hneeds ht ha => ?_⟩
  · obtain ⟨take, hi⟩ := exists_commandRow hcaller hnop
    exact hi.exec_full h hfull
  · have hnop : i ≠ .nop p q := by rintro rfl; cases hneeds
    obtain ⟨take, hi⟩ := exists_commandRow hcaller hnop
    rw [hi.exec_takes ht, hi.unattached hneeds _ (by rw [State.judged_attached ht.1, ha])]

/-! ### ATTACH (R124, R125) -/

/-- The session opened, with its REPLY, before the round ends and the recomputation. -/
def State.opened (s : State) (p : HostId) (q : Byte) (depth : Nat) : State :=
  (s.updSession p fun e => e.opened depth).reply p q .ok
    (.attachOk s.epoch (s.causes.get p) depth (s.session p).wasLost (s.session p).quota)

theorem State.openSession_eq (s : State) (p : HostId) (q : Byte) (depth : Nat) :
    s.openSession p q depth = (s.opened p q depth).roundEnds.recompute := rfl

theorem State.opened_session (s : State) (p k : HostId) (q : Byte) (depth : Nat) :
    (s.opened p q depth).session k = if k = p then (s.session p).opened depth else s.session k :=
  State.session_updSession s p k fun e => e.opened depth

theorem State.opened_port (s : State) (p k : HostId) (q : Byte) (depth : Nat) : (s.opened p q depth).port k =
    if k = p then { s.port p with queue := (s.port p).queue ++
      [.reply q .ok (.attachOk s.epoch (s.causes.get p) depth (s.session p).wasLost (s.session p).quota)] }
    else s.port k :=
  State.reply_port ..

section attach
variable {s : State} {p : HostId} (ht : s.takes p) (q : Byte) {depth : Byte}
include ht

theorem exec_attach_attached (ha : s.attached p = true) : exec (.attach p q depth) s =
    .next (((s.judged p).reply p q .badState (.hostStateIs (s.session p).state)).finishExchange p) := by
  simp only [exec, execAttach, State.fullExchange_room ht, State.judged_attached ht.1, ha, if_true, State.judged_session ht.1]

variable (ha : s.attached p = false)
include ha

theorem exec_attach_badArg (hd : 4 < depth.toNat) :
    exec (.attach p q depth) s = .next (((s.judged p).reply p q .badArg .empty).finishExchange p) := by
  have hparse : parseRange 0 4 depth = none := parseRange_none.2 (.inr hd)
  simp only [exec, execAttach, State.fullExchange_room ht, State.judged_attached ht.1, ha, Bool.false_eq_true, if_false, hparse]

theorem exec_attach_opens (hd : depth.toNat ≤ 4) : exec (.attach p q depth) s =
    .next (((s.judged p).opened p q (if depth.toNat = 0 then 2 else depth.toNat)).roundEnds.recompute.finishExchange p) := by
  have hparse : parseRange 0 4 depth = some depth.toNat := parseRange_eq.2 ⟨rfl, Nat.zero_le _, hd⟩
  simp only [exec, execAttach, State.fullExchange_room ht, State.judged_attached ht.1, ha, Bool.false_eq_true, if_false, hparse,
    State.openSession_eq]

end attach

/-- Settles O40, by the caller's attachment and the byte of the depth; the readings of the opened session and of the port with the REPLY. -/
theorem attachOpensSession : Obligations.AttachOpensSession := by
  unfold Obligations.AttachOpensSession
  refine fun p q depth s ht => ⟨exec_attach_attached ht q, exec_attach_badArg ht q, fun ha hd =>
    ⟨_, exec_attach_opens ht q ha hd, rfl, fun k hk => ?_, fun k hk => ?_, ?_, ?_⟩⟩
  · rw [State.opened_port, if_neg hk]
  · rw [State.opened_session, if_neg hk, State.judged_session ht.1]
  · rw [State.opened_session, if_pos rfl, State.judged_session ht.1]
    rfl
  · rw [State.opened_port, if_pos rfl, State.judged_epoch ht.1, State.judged_causes ht.1, State.judged_session ht.1,
      State.judged_port_self ht.1]
    rfl

/-! ### DETACH (R127, R134, R135, R186) -/

/-- With no message of its own at the head of the queue, the end of an exchange is the rise of CS alone (R173, R180). -/
theorem State.finishExchange_uncarried {s : State} {p : HostId} (hc : (s.port p).headCarried = false) :
    s.finishExchange p = s.setCs p .idle := by
  have htake : (s.port p).takeCarried = (s.port p, false) := by simp [Port.takeCarried, hc]
  simp only [State.finishExchange, htake, Bool.false_eq_true, if_false]
  rfl

theorem ChipSelect.dropCarried_ne_carried {cs : ChipSelect} {x : Exchange} (h : cs.dropCarried = .live x) : x.carried = false := by
  cases cs <;> cases h
  rfl

/-- The message of an exchange in progress has left the emptied queue, so a message queued after a teardown is not carried by it (R186). -/
theorem State.teardown_uncarried (s : State) (h : HostId) (final : HostState) :
    ((s.teardown h final).state.port h).headCarried = false := by
  rw [State.teardown_port, if_pos rfl]
  unfold Port.headCarried
  dsimp only
  split
  · rename_i hx
    exact ChipSelect.dropCarried_ne_carried hx
  all_goals rfl

/-- What a DETACH leaves before the recomputation: the teardown, and the REPLY alone in the emptied queue (R134). -/
def State.closed (s : State) (p : HostId) (q : Byte) : State := (s.teardown p .absent).state.reply p q .ok .empty

theorem State.closeSession_eq (s : State) (p : HostId) (q : Byte) : s.closeSession p q = (s.closed p q).recompute := rfl

section closed
variable (s : State) (p : HostId) (q : Byte)

theorem State.closed_session : (s.closed p q).session p = { s.session p with state := .absent, wakeTimer := none } := by
  have hsession := State.teardown_session s p .absent p
  rwa [if_pos rfl] at hsession

theorem State.closed_port (k : HostId) : (s.closed p q).port k =
    if k = p then { (s.teardown p .absent).state.port p with queue := [.reply q .ok .empty] }
    else (s.teardown p .absent).state.port k := by
  have hempty : ((s.teardown p .absent).state.port p).queue = [] := by rw [State.teardown_port, if_pos rfl]
  rw [State.closed, State.reply_port, hempty]
  rfl

theorem State.closed_offer : ((s.closed p q).disp p).offer = none := by
  have hdisp : (s.closed p q).disp p = _ := State.teardown_disp s p .absent p
  rw [hdisp, if_pos rfl]

/-- A detached host is neither woken nor offered anything, so the recomputation leaves its session and its port (R44, R59). -/
theorem State.closed_recompute_session : (s.closed p q).recompute.session p = (s.closed p q).session p := by
  rcases State.recompute_session_cases (s.closed p q) p with hsame | ⟨hdeep, -⟩
  · exact hsame
  · rw [State.closed_session] at hdeep
    cases hdeep

theorem State.closed_recompute_port : (s.closed p q).recompute.port p = (s.closed p q).port p :=
  State.recompute_port (s.closed_offer p q) (by rw [State.closed_session]; rfl)

/-- The REPLY stays queued at the end of the exchange (R186). -/
theorem State.closed_finish_queue : (((s.closed p q).recompute.finishExchange p).port p).queue = [.reply q .ok .empty] := by
  have hport : (s.closed p q).recompute.port p = { (s.teardown p .absent).state.port p with queue := [.reply q .ok .empty] } := by
    rw [State.closed_recompute_port, State.closed_port, if_pos rfl]
  have huncarried : ((s.closed p q).recompute.port p).headCarried = false := by
    rw [hport]
    exact State.teardown_uncarried s p .absent
  rw [State.finishExchange_uncarried huncarried, State.setCs_port, if_pos rfl, hport]

end closed

/-- The return to AWAKE leaves no trace in a session that ends (R127, R134). -/
theorem State.heard_closed_session {s : State} {p : HostId} (ht : s.takes p) (q : Byte) :
    ((s.heard p).closed p q).session p = { s.session p with state := .absent, wakeTimer := none } := by
  rw [State.closed_session, State.heard_session ht.1]
  split <;> rfl

/-- Settles O41: the readings of the state with the REPLY in the emptied queue, which the rest of the event leaves. -/
theorem detachClosesSession : Obligations.DetachClosesSession := by
  unfold Obligations.DetachClosesSession
  refine fun p q s ht ha => ⟨(s.heard p).closed p q, ?_, rfl, fun k hk => ?_, ?_, ?_, State.closed_finish_queue _ p q⟩
  · rw [exec_detach_taken ht ha, State.closeSession_eq]
  · rw [State.closed_port, if_neg hk]
  · rw [State.closed_port, if_pos rfl]
  · simp only [State.finishExchange_frame]
    rw [State.closed_recompute_session, State.heard_closed_session ht]

/-! ### SLEEP (R128, R129) -/

section sleep
variable (s : State) (p : HostId) (q : Byte)

theorem State.sleepDoze_again (hs : (s.session p).state = .doze) : s.sleepDoze p q = s.reply p q .ok (.hostStateIs .doze) := by
  simp only [State.sleepDoze, hs]

theorem State.sleepDoze_falls (hs : (s.session p).state ≠ .doze) : s.sleepDoze p q =
    ((s.updSession p fun e => { e with state := .doze, wakeTimer := none }).reply p q .ok (.hostStateIs .doze)).recompute := by
  unfold State.sleepDoze
  split
  · rename_i hdoze
    exact absurd hdoze hs
  · rfl

theorem State.sleepDeep_again (hs : (s.session p).state = .deep) : s.sleepDeep p q = s.reply p q .ok (.hostStateIs .deep) := by
  simp only [State.sleepDeep, hs]

/-- A host in DEEP after its offer has been withdrawn and the Router has recomputed (R128, R129). -/
def State.deepened (s : State) (p : HostId) : State :=
  ((s.withdraw p .sleep).updSession p fun e => { e with state := .deep, wakeTimer := none }).recompute

theorem State.sleepDeep_falls (hs : (s.session p).state ≠ .deep) :
    s.sleepDeep p q = (s.deepened p).reply p q .ok (.hostStateIs ((s.deepened p).session p).state) := by
  unfold State.sleepDeep
  split
  · rename_i hdeep
    exact absurd hdeep hs
  · rfl

/-- The recomputation may take the wake trigger of the host that falls asleep (R59, R129). -/
theorem State.deepened_state : ((s.deepened p).session p).state = .deep ∨ ((s.deepened p).session p).state = .waking := by
  rcases State.recompute_session_cases ((s.withdraw p .sleep).updSession p fun e => { e with state := .deep, wakeTimer := none }) p with
    hsame | ⟨-, hwoken⟩
  · left
    rw [State.deepened, hsame, State.session_updSession, if_pos rfl]
  · right
    rw [State.deepened, hwoken]
    rfl

end sleep

section sleepRow
variable {s : State} {p : HostId} (ht : s.takes p) (ha : s.attached p = true) (q : Byte)
include ht ha

theorem exec_sleep_badArg {depth : Byte} (h1 : depth ≠ 1) (h2 : depth ≠ 2) :
    exec (.sleep p q depth) s = .next (((s.judged p).reply p q .badArg .empty).finishExchange p) := by
  have hne1 : depth.toNat ≠ 1 := fun h => h1 (BitVec.eq_of_toNat_eq h)
  have hne2 : depth.toNat ≠ 2 := fun h => h2 (BitVec.eq_of_toNat_eq h)
  simp only [exec, execSleep, State.fullExchange_room ht, State.judged_attached ht.1, ha, if_true]

theorem exec_sleep_doze : exec (.sleep p q 1) s = .next (((s.judged p).sleepDoze p q).finishExchange p) := by
  simp [exec, execSleep, State.fullExchange_room ht, State.judged_attached ht.1, ha]

theorem exec_sleep_deep : exec (.sleep p q 2) s = .next (((s.judged p).sleepDeep p q).finishExchange p) := by
  simp [exec, execSleep, State.fullExchange_room ht, State.judged_attached ht.1, ha]

end sleepRow

/-- Settles O42, by the byte of the depth and the state in which SLEEP finds the host. -/
theorem sleepByState : Obligations.SleepByState := by
  unfold Obligations.SleepByState
  intro p q depth s ht ha
  have hsession : (s.judged p).session p = s.session p := State.judged_session ht.1 p
  refine ⟨exec_sleep_badArg ht ha q, ?_, ?_, ?_, ?_⟩
  · rintro rfl hst
    rw [exec_sleep_doze ht ha, State.sleepDoze_again _ p q (by rw [hsession, hst])]
  · rintro rfl hst
    rw [exec_sleep_doze ht ha, State.sleepDoze_falls _ p q (by rwa [hsession])]
  · rintro rfl hst
    rw [exec_sleep_deep ht ha, State.sleepDeep_again _ p q (by rw [hsession, hst])]
  · rintro rfl hst
    rw [exec_sleep_deep ht ha, State.sleepDeep_falls _ p q (by rwa [hsession])]
    exact ⟨rfl, State.deepened_state _ p⟩

/-! ### SET_HOST (R139)

Each parameter, with a value in its range, sets its own field. -/

theorem setParameter_claimWindow {value : BitVec 16} (h : 16 ≤ value.toNat) (e : Session) :
    setParameter e 0 value = some { e with claimWindow := value.toNat } := if_pos h

theorem setParameter_dozeAllowance (value : BitVec 16) (e : Session) :
    setParameter e 1 value = some { e with dozeAllowance := value.toNat } := rfl

theorem setParameter_wakeTimeout {value : BitVec 16} (h : 50 ≤ value.toNat) (e : Session) :
    setParameter e 2 value = some { e with wakeTimeout := value.toNat } := if_pos h

theorem setParameter_missLimit {value : BitVec 16} (h1 : 1 ≤ value.toNat) (h15 : value.toNat ≤ 15) (e : Session) :
    setParameter e 3 value = some { e with missLimit := value.toNat } := if_pos ⟨h1, h15⟩

theorem setParameter_wakeBand {value : BitVec 16} (h1 : 1 ≤ value.toNat) (h8 : value.toNat ≤ 8) (e : Session) :
    setParameter e 4 value = some { e with wakeBand := value.toNat } := if_pos ⟨h1, h8⟩

theorem setParameter_batchThreshold {value : BitVec 16} (h1 : 1 ≤ value.toNat) (h32 : value.toNat ≤ 32) (e : Session) :
    setParameter e 5 value = some { e with batchThreshold := value.toNat } := if_pos ⟨h1, h32⟩

section setHost
variable {s : State} {p : HostId} (ht : s.takes p) (ha : s.attached p = true) (q : Byte) {param : Byte} {value : BitVec 16}
include ht ha

/-- A SET_HOST within the table of R139 sets its parameter in the caller's entry. -/
theorem exec_setHost_sets {f : Session → Session} (hf : ∀ e, setParameter e param value = some (f e)) : exec (.setHost p q param value) s =
    .next (s.ended p false (((s.heard p).updSession p f).reply p q .ok (.parameterSet param value))) := by
  simp only [exec, execSetHost, State.fullExchange_command ht ha, hf, State.answer]
  rfl

theorem exec_setHost_badArg (hnone : ∀ e, setParameter e param value = none) :
    exec (.setHost p q param value) s = .next (s.ended p false ((s.heard p).reply p q .badArg .empty)) := by
  simp only [exec, execSetHost, State.fullExchange_command ht ha, hnone, State.answer]

end setHost

/-- Settles O43, parameter by parameter. -/
theorem setHostSetsParameter : Obligations.SetHostSetsParameter := by
  unfold Obligations.SetHostSetsParameter
  intro p q param value s ht ha
  refine ⟨?_, ?_, ?_, ?_, ?_, ?_, fun hout => exec_setHost_badArg ht ha q fun e => setParameter_none e param value hout⟩
  · rintro rfl h16
    exact exec_setHost_sets ht ha q (setParameter_claimWindow h16)
  · rintro rfl
    exact exec_setHost_sets ht ha q (setParameter_dozeAllowance value)
  · rintro rfl h50
    exact exec_setHost_sets ht ha q (setParameter_wakeTimeout h50)
  · rintro rfl h1 h15
    exact exec_setHost_sets ht ha q (setParameter_missLimit h1 h15)
  · rintro rfl h1 h8
    exact exec_setHost_sets ht ha q (setParameter_wakeBand h1 h8)
  · rintro rfl h1 h32
    exact exec_setHost_sets ht ha q (setParameter_batchThreshold h1 h32)

end Sys2Proof.Machine
end

section
/-! SUPPORT. The leases of the line groups and the configuration of a line (chapter 8). -/

namespace Sys2Proof.Machine

/-! ### The lease holders (R136, R143) -/

/-- Settles O7: an update hands a lease to an attached host alone, and a teardown takes the leases of its host. -/
theorem leaseHoldersKept : Obligations.LeaseHoldersKept := by
  unfold Obligations.LeaseHoldersKept
  exact fun _ _ hs h => step_keeps (fun _ _ _ _ hstir => hstir.leasesOk) hs h

/-! ### LEASE and RELEASE (R144, R145) -/

section lease
variable {s : State} {p : HostId} (ht : s.takes p) (ha : s.attached p = true) (q : Byte) {group : Byte}
include ht ha

theorem exec_lease_outside (hg : 7 < group.toNat) :
    exec (.lease p q group) s = .next (s.ended p false ((s.heard p).reply p q .badArg .empty)) := by
  simp only [exec, execLease, State.fullExchange_command ht ha, parseGroup_none.2 hg, State.answer]

theorem exec_release_outside (hg : 7 < group.toNat) :
    exec (.release p q group) s = .next (s.ended p false ((s.heard p).reply p q .badArg .empty)) := by
  simp only [exec, execRelease, State.fullExchange_command ht ha, parseGroup_none.2 hg, State.answer]

variable {g : GroupNo} (hg : group.toNat = g.val)
include hg

/-- A free group is taken. -/
theorem exec_lease_free (hh : s.holder g = none) : exec (.lease p q group) s =
    .next (s.ended p false (((s.heard p).setHolder g (some p)).reply p q .ok (.leaseHolder g (some p)))) := by
  simp only [exec, execLease, State.fullExchange_command ht ha, parseGroup_eq.2 hg, State.heard_holder ht.1, hh, State.answer]

/-- A group that has a holder stays with it. -/
theorem exec_lease_held {h : HostId} (hh : s.holder g = some h) : exec (.lease p q group) s =
    .next (s.ended p false ((s.heard p).reply p q (if h = p then .ok else .held) (.leaseHolder g (some h)))) := by
  simp only [exec, execLease, State.fullExchange_command ht ha, parseGroup_eq.2 hg, State.heard_holder ht.1, hh, State.answer]

/-- The holder frees its group. -/
theorem exec_release_holder (hh : s.holder g = some p) : exec (.release p q group) s =
    .next (s.ended p false (((s.heard p).setHolder g none).reply p q .ok (.leaseHolder g none))) := by
  simp only [exec, execRelease, State.fullExchange_command ht ha, parseGroup_eq.2 hg, State.heard_holder ht.1, hh, if_true, State.answer]

/-- A group that the caller does not hold stays as it is. -/
theorem exec_release_noLease (hh : s.holder g ≠ some p) : exec (.release p q group) s =
    .next (s.ended p false ((s.heard p).reply p q .noLease (.leaseHolder g (s.holder g)))) := by
  simp only [exec, execRelease, State.fullExchange_command ht ha, parseGroup_eq.2 hg, State.heard_holder ht.1, hh, if_false, State.answer]

end lease

/-- Settles O54, by the group byte and by the group's holder: none, the caller, another host. -/
theorem leaseAndRelease : Obligations.LeaseAndRelease := by
  unfold Obligations.LeaseAndRelease
  intro p q group s ht ha
  refine ⟨fun hg => ⟨exec_lease_outside ht ha q hg, exec_release_outside ht ha q hg⟩, fun g hg => ⟨fun hh => ?_, fun hh => ?_, fun h hne hh => ?_⟩⟩
  · have hrelease := exec_release_noLease ht ha q hg (by simp [hh])
    rw [hh] at hrelease
    exact ⟨exec_lease_free ht ha q hg hh, hrelease⟩
  · have hlease := exec_lease_held ht ha q hg hh
    rw [if_pos rfl] at hlease
    exact ⟨hlease, exec_release_holder ht ha q hg hh⟩
  · have hlease := exec_lease_held ht ha q hg hh
    have hrelease := exec_release_noLease ht ha q hg (by simpa [hh] using hne)
    rw [if_neg hne] at hlease
    rw [hh] at hrelease
    exact ⟨hlease, hrelease⟩

/-! ### The refusals of CONFIG_LINE (R147) -/

theorem parseQualification_none {b : Byte} (h : b.toNat ∉ [0, 1, 2, 4, 8, 16, 32, 64]) : parseQualification b = none :=
  if_neg fun hmem => h (List.contains_iff_mem.1 hmem)

/-- One field outside its values puts a CONFIG_LINE outside its values. -/
theorem parseLineEntry_none {flags sense qual band mode rc rh : Byte}
    (h : 3 < flags.toNat ∨ 4 < sense.toNat ∨ qual.toNat ∉ [0, 1, 2, 4, 8, 16, 32, 64] ∨ 7 < band.toNat ∨ 1 < mode.toNat ∨
      parseRoute rc rh = none) : parseLineEntry flags sense qual band mode rc rh = none := by
  rcases h with h | h | h | h | h | h
  · exact parseLineEntry_flags_none (parseConfigFlags_none.2 h)
  · simp [parseLineEntry, parseSense_none.2 h]
  · simp [parseLineEntry, parseQualification_none h]
  · simp [parseLineEntry, parseRange_none.2 (.inr h)]
  · simp [parseLineEntry, parseMode_none.2 h]
  · simp [parseLineEntry, h]

section configLine
variable {s : State} {p : HostId} (ht : s.takes p) (ha : s.attached p = true) (q : Byte) {line flags sense qual band mode rc rh : Byte}
include ht ha

theorem exec_configLine_outside (hl : 47 < line.toNat) : exec (.configLine p q line flags sense qual band mode rc rh) s =
    .next (s.ended p false ((s.heard p).reply p q .badArg (.configBadArg line))) := by
  simp only [exec, execConfigLine, State.fullExchange_command ht ha, parseLine_none.2 hl, State.answer]

variable {l : LineNo} (hl : line.toNat = l.val)
include hl

/-- The lease of the line's group is asked for before the fields. -/
theorem exec_configLine_noLease (hh : s.holder (groupOfLine l) ≠ some p) :
    exec (.configLine p q line flags sense qual band mode rc rh) s =
      .next (s.ended p false ((s.heard p).reply p q .noLease (.configNoLease l (s.holder (groupOfLine l))))) := by
  simp only [exec, execConfigLine, State.fullExchange_command ht ha, parseLine_eq.2 hl, State.heard_holder ht.1, hh, if_false, State.answer]

theorem exec_configLine_badArg (hh : s.holder (groupOfLine l) = some p) (hnone : parseLineEntry flags sense qual band mode rc rh = none) :
    exec (.configLine p q line flags sense qual band mode rc rh) s =
      .next (s.ended p false ((s.heard p).reply p q .badArg (.configBadArg line))) := by
  simp only [exec, execConfigLine, State.fullExchange_command ht ha, parseLine_eq.2 hl, State.heard_holder ht.1, hh, if_true, hnone,
    State.answer]

end configLine

/-! ### A CONFIG_LINE that has passed its checks (R148 to R154) -/

/-- The entry replaced, and the detector armed where the change asks for it (steps 1 and 2: R148, R149). -/
def State.reentered (s : State) (l : LineNo) (new : LineEntry) : State :=
  if armsDetector (s.entry l) new then (s.setEntry l new).arm l else s.setEntry l new

/-- Whether the new entry brings an arrival: its change arms the detector of an enabled line at the active level (R149). -/
def State.entryArrives (s : State) (l : LineNo) (new : LineEntry) : Bool :=
  armsDetector (s.entry l) new && armingArrives new (s.line l).raw

/-- The arming of a detector reads the entry and the raw level alone. -/
theorem State.arm_setEntry (s : State) (l : LineNo) (new : LineEntry) : (s.setEntry l new).arm l =
    if armingArrives new (s.line l).raw then ((s.setEntry l new).setLine l ⟨(s.line l).raw, .steady (s.line l).raw⟩).arrive l
    else (s.setEntry l new).setLine l ⟨(s.line l).raw, .steady (s.line l).raw⟩ := by
  simp [State.arm, State.entry_setEntry]

theorem State.reentered_eq (s : State) (l : LineNo) (new : LineEntry) : s.reentered l new =
    if s.entryArrives l new then
      (if armsDetector (s.entry l) new then (s.setEntry l new).setLine l ⟨(s.line l).raw, .steady (s.line l).raw⟩
        else s.setEntry l new).arrive l
    else if armsDetector (s.entry l) new then (s.setEntry l new).setLine l ⟨(s.line l).raw, .steady (s.line l).raw⟩
    else s.setEntry l new := by
  unfold State.reentered State.entryArrives
  cases armsDetector (s.entry l) new with
  | true => simp [State.arm_setEntry]
  | false => simp

/-- The line's entry is then the new one. -/
theorem State.reentered_entry (s : State) (l : LineNo) (new : LineEntry) : (s.reentered l new).entry l = new := by
  have htable : (s.reentered l new).table = (s.setEntry l new).table := by
    unfold State.reentered
    split
    · exact State.arm_table ..
    · rfl
  rw [State.entry_congr htable, State.entry_setEntry, if_pos rfl]

/-- The rebuild of a record in use: the withdrawals leave all but its copies, and these are made afresh (R151). -/
theorem State.rebuild_eq {s : State} {l : LineNo} {r : Record} (hr : s.record (slotOfLine l) = some r) :
    s.rebuild l = (s.withdrawAll (slotOfLine l) .reconfigured).setRecord (slotOfLine l) (some (r.rebuilt (s.entry l))) := by
  obtain ⟨r', hr', heq, -⟩ := State.withdrawAll_record (reason := .reconfigured) (by simp) hr
  have hrebuilt : r'.rebuilt (s.entry l) = r.rebuilt (s.entry l) := by rw [heq]; rfl
  rw [← hrebuilt]
  unfold State.rebuild State.updRecord
  dsimp only
  rw [hr']
  rfl

theorem State.phase_free {s : State} {n : SlotNo} (hr : s.record n = none) : s.phase n = .free := by
  simp only [State.phase, hr]

theorem State.phase_of_opened {s : State} {n : SlotNo} {r : Record} (hr : s.record n = some r) (hp : r.phase = .opened) :
    s.phase n = .opened := by
  simp only [State.phase, hr, hp]

theorem State.phase_of_captured {s : State} {n : SlotNo} {r : Record} (hr : s.record n = some r) (hp : r.phase = .captured) :
    s.phase n = .captured := by
  simp only [State.phase, hr, hp]

section configure
variable (s : State) (p : HostId) (q : Byte) (l : LineNo) (new : LineEntry)

/-- Without apply-to-open the record stays as it is (R150). -/
theorem State.configure_unapplied : s.configure p q l new false = (s.reentered l new).reply p q .ok
    (.configured l (armsDetector (s.entry l) new) (s.entryArrives l new) ((s.reentered l new).phase (slotOfLine l)) 0 0) := rfl

/-- A FREE slot has nothing to rebuild (R154). -/
theorem State.configure_free (hr : (s.reentered l new).record (slotOfLine l) = none) : s.configure p q l new true =
    (s.reentered l new).reply p q .ok (.configured l (armsDetector (s.entry l) new) (s.entryArrives l new) .free 0 0) := by
  have hphase := State.phase_free hr
  unfold State.reentered at hphase ⊢
  simp [State.configure, hphase, State.entryArrives]

/-- A CAPTURED record is deferred (R153). -/
theorem State.configure_captured {r : Record} (hr : (s.reentered l new).record (slotOfLine l) = some r) (hp : r.phase = .captured) :
    s.configure p q l new true = (s.reentered l new).reply p q .okDeferred
      (.configured l (armsDetector (s.entry l) new) (s.entryArrives l new) .captured 0 0) := by
  have hphase := State.phase_of_captured hr hp
  unfold State.reentered at hphase ⊢
  simp [State.configure, hphase, State.entryArrives]

/-- An OPEN record is rebuilt from the new entry (R151). -/
theorem State.configure_opened {r : Record} (hr : (s.reentered l new).record (slotOfLine l) = some r) (hp : r.phase = .opened) :
    s.configure p q l new true =
      (((s.reentered l new).withdrawAll (slotOfLine l) .reconfigured).setRecord (slotOfLine l) (some (r.rebuilt new))).reply p q .ok
        (.configured l (armsDetector (s.entry l) new) (s.entryArrives l new) .opened
          (HostId.all.filter ((s.reentered l new).holdsOfferOf (slotOfLine l))).length (freshCopies new.mode new.route).length) := by
  have hphase := State.phase_of_opened hr hp
  have hrebuild := State.rebuild_eq hr
  rw [State.reentered_entry] at hrebuild
  rw [← hrebuild]
  unfold State.reentered at hphase ⊢
  simp [State.configure, hphase, State.entryArrives]

end configure

/-- Settles O55: the checks in their order; then, by the phase of the line's record, what the replaced entry and the armed detector leave to apply. -/
theorem configLineReplacesEntry : Obligations.ConfigLineReplacesEntry := by
  unfold Obligations.ConfigLineReplacesEntry
  refine ⟨fun p q line flags sense qual band mode rc rh s ht ha => ⟨exec_configLine_outside ht ha q, fun l hl =>
    ⟨exec_configLine_noLease ht ha q hl, fun hh hbad => exec_configLine_badArg ht ha q hl hh (parseLineEntry_none hbad)⟩⟩, ?_⟩
  intro p q line flags sense qual band mode rc rh l new apply s ht ha hl hh he w n old raw armed arrival _ _ u cmd
  have hentry : w.entry l = old := State.heard_entry ht.1 l
  have hraw : (w.line l).raw = raw := congrArg LineState.raw (State.heard_line ht.1 l)
  have harmed : armsDetector (w.entry l) new = armed := by rw [hentry]; rfl
  have harrival : w.entryArrives l new = arrival := by
    rw [State.entryArrives, harmed, hraw, armingArrives, ← Bool.and_assoc]
  have hu : w.reentered l new = u := by
    rw [State.reentered_eq, harmed, harrival, hraw]
    rfl
  have hexec {v : State} (hv : w.configure p q l new apply = v) : exec cmd s = .next (s.ended p true v) := by
    rw [← hv]
    exact exec_configLine_taken ht ha q hl hh he
  rw [← hu, ← harmed, ← harrival]
  refine ⟨?_, ?_, fun r => ?_, fun r => ?_⟩
  · rintro rfl
    exact hexec (w.configure_unapplied p q l new)
  · rintro rfl hr
    exact hexec (w.configure_free p q l new hr)
  · rintro rfl hr hp
    exact hexec (w.configure_captured p q l new hr hp)
  · rintro rfl hr hp
    exact hexec (w.configure_opened p q l new hr hp)

end Sys2Proof.Machine
end

section
/-! SUPPORT. The loss queue, and the causes that a host has not acknowledged (chapter 9). -/

namespace Sys2Proof.Machine

/-! ### The loss list through every step (R158) -/

/-- Settles O8: every update keeps the bounds of the loss list and its unread sets within the attached hosts. -/
theorem lossQueueKept : Obligations.LossQueueKept := fun _ _ hs h => step_keeps (fun _ _ _ _ hstir => hstir.lossOk) hs h

/-! ### The making of a loss entry (R159 to R161) -/

/-- The hosts of the unread set: the attached ones of the route list, and every attached one when the route list holds none (R160). -/
theorem State.unreadFor_get {s : State} {route : List HostId} {h : HostId} : (s.unreadFor route).get h = true ↔
    s.attached h = true ∧ (h ∈ route ∨ ∀ k ∈ route, s.attached k = false) := by
  unfold State.unreadFor
  dsimp only
  split
  · rename_i hempty
    have hnone (k : HostId) (hk : k ∈ route) : s.attached k = false := by
      simpa [hk] using HostSet.isEmpty_eq_true.1 hempty k
    simp only [PerHost.get_ofFn]
    exact ⟨fun ha => ⟨ha, .inr hnone⟩, And.left⟩
  · rename_i hfull
    obtain ⟨k, hk⟩ := HostSet.isEmpty_eq_false.1 (Bool.not_eq_true _ ▸ hfull)
    simp only [PerHost.get_ofFn, Bool.and_eq_true, List.contains_iff_mem] at hk ⊢
    exact and_congr_right fun _ => ⟨.inl, fun hor => hor.resolve_right fun hnone => absurd hk.1 (by simp [hnone k hk.2])⟩

/-- An entry has an unread set unless no host is attached (R160). -/
theorem State.unreadFor_isEmpty {s : State} {route : List HostId} :
    (s.unreadFor route).isEmpty = true ↔ ∀ h, s.attached h = false := by
  rw [HostSet.isEmpty_eq_true]
  constructor
  · intro hempty h
    have hout (k : HostId) (ha : s.attached k = true) : ¬(k ∈ route ∨ ∀ j ∈ route, s.attached j = false) := fun hk =>
      absurd (State.unreadFor_get.2 ⟨ha, hk⟩) (by simp [hempty k])
    by_contra ha
    rw [Bool.not_eq_false] at ha
    refine hout h ha (.inr fun j hj => ?_)
    by_contra haj
    exact hout j (by simpa using haj) (.inl hj)
  · intro hnone h
    rw [← Bool.not_eq_true, State.unreadFor_get, hnone h]
    exact fun hh => Bool.false_ne_true hh.1

section makeLoss
variable {s : State} (cause : LossCause) (n : SlotNo) (r : Record) (host : Option HostId)

theorem State.makeLoss_unattached (h : ∀ h, s.attached h = false) : s.makeLoss cause n r host = s :=
  if_pos (State.unreadFor_isEmpty.2 h)

variable (ha : ∃ h, s.attached h = true)
include ha

theorem State.unreadFor_not_isEmpty (route : List HostId) : ¬(s.unreadFor route).isEmpty = true := fun hempty => by
  obtain ⟨h, ha⟩ := ha
  exact absurd ha (by simp [State.unreadFor_isEmpty.1 hempty h])

/-- An entry is stored at the tail while there is a place (R158). -/
theorem State.makeLoss_stored (hlen : s.loss.length < 16) : s.makeLoss cause n r host =
    { s with loss := s.loss ++ [⟨cause, n, r.source, r.band, r.lossPayload, host, s.unreadFor r.route⟩] } :=
  (if_neg (State.unreadFor_not_isEmpty ha r.route)).trans (if_pos hlen)

/-- An entry without place is counted by the hosts that it would have been for (R161). -/
theorem State.makeLoss_missed (hlen : 16 ≤ s.loss.length) : s.makeLoss cause n r host =
    { s with missed := PerHost.ofFn fun h =>
        if (s.unreadFor r.route).get h then min 255 (s.missed.get h + 1) else s.missed.get h } :=
  (if_neg (State.unreadFor_not_isEmpty ha r.route)).trans (if_neg (Nat.not_lt.2 hlen))

end makeLoss

/-- Settles O32, by the attached hosts and by the places of the list. -/
theorem lossEntryMade : Obligations.LossEntryMade := by
  unfold Obligations.LossEntryMade
  intro s cause n r host
  refine ⟨fun h => State.unreadFor_get, State.makeLoss_unattached cause n r host, State.makeLoss_stored cause n r host, fun ha hlen => ?_⟩
  rw [State.makeLoss_missed cause n r host ha hlen]
  exact ⟨rfl, fun h => PerHost.get_ofFn _ h⟩

/-! ### FETCH_LOSS (R162) -/

section fetch
variable {p : HostId} {before after : List LossEntry} {e : LossEntry}

/-- What a fetch by a host leaves of an entry that holds it (R162). -/
def LossEntry.readBy (e : LossEntry) (p : HostId) : LossEntry := { e with unread := e.unread.set p false }

theorem LossEntry.readBy_unread (e : LossEntry) (p : HostId) : (e.readBy p).unread.get p = false := PerHost.get_set_self ..

variable (hbefore : ∀ d ∈ before, d.unread.get p = false)
include hbefore

/-- Of the entries that still hold the host, none comes before the one fetched. -/
theorem unreadCount_first : unreadCount p (before ++ (if (e.readBy p).unread.isEmpty then [] else [e.readBy p]) ++ after) =
    after.countP fun d => d.unread.get p := by
  have hzero : before.countP (fun d => d.unread.get p) = 0 := List.countP_eq_zero.2 fun d hd => by simp [hbefore d hd]
  have hread : (if (e.readBy p).unread.isEmpty then [] else [e.readBy p]).countP (fun d => d.unread.get p) = 0 := by
    split
    · rfl
    · exact List.countP_eq_zero.2 fun d hd => by simp [List.mem_singleton.1 hd, e.readBy_unread p]
  rw [unreadCount, List.countP_append, List.countP_append, hzero, hread, Nat.zero_add]

variable (he : e.unread.get p = true)
include he

/-- A fetch leaves the entries before and after the first one that holds the host. -/
theorem fetchFrom_first : fetchFrom p (before ++ e :: after) =
    before ++ (if (e.readBy p).unread.isEmpty then [] else [e.readBy p]) ++ after := by
  induction before with
  | nil =>
    rw [List.nil_append, List.nil_append, fetchFrom, if_pos he]
    by_cases hempty : (e.readBy p).unread.isEmpty = true
    · rw [if_pos hempty]
      exact if_pos hempty
    · rw [if_neg hempty]
      exact if_neg hempty
  | cons d ds ih =>
    rw [List.forall_mem_cons] at hbefore
    rw [List.cons_append, fetchFrom, if_neg (by simp [hbefore.1]), ih hbefore.2]
    rfl

theorem find_unread_first : (before ++ e :: after).find? (fun d => d.unread.get p) = some e := by
  rw [List.find?_append, List.find?_eq_none.2 fun d hd => by simp [hbefore d hd], Option.none_or]
  exact List.find?_cons_of_pos he

end fetch

theorem State.fetchLoss_none {s : State} {p : HostId} (h : ∀ e ∈ s.loss, e.unread.get p = false) (q : Byte) :
    s.fetchLoss p q = { s with missed := s.missed.set p 0 }.reply p q .ok (.noLossEntry (s.missed.get p)) := by
  have hnone : (s.loss.find? fun e => e.unread.get p) = none := List.find?_eq_none.2 fun e he => by simp [h e he]
  simp only [State.fetchLoss, hnone]

/-- The first entry that holds the host is fetched. -/
theorem State.fetchLoss_first {s : State} {p : HostId} {before after : List LossEntry} {e : LossEntry} (hloss : s.loss = before ++ e :: after)
    (hbefore : ∀ d ∈ before, d.unread.get p = false) (he : e.unread.get p = true) (q : Byte) :
    s.fetchLoss p q =
      { s with
        missed := s.missed.set p 0
        loss := before ++ (if (e.readBy p).unread.isEmpty then [] else [e.readBy p]) ++ after }.reply p q .ok
          (.lossEntry e.cause e.slot e.source e.band e.payload e.host (s.missed.get p)
            (after.countP fun (d : LossEntry) => d.unread.get p)) := by
  simp only [State.fetchLoss, hloss, find_unread_first hbefore he, fetchFrom_first hbefore he, unreadCount_first hbefore]

/-! ### ACK_NOTICE (R169) -/

theorem parseCauses_none {b : Byte} : parseCauses b = none ↔ 7 < b.toNat := by
  simp only [parseCauses, ite_eq_right_iff, reduceCtorEq, imp_false]
  omega

theorem parseCauses_of_le {b : Byte} (h : b.toNat ≤ 7) : parseCauses b = some ⟨b.getLsbD 0, b.getLsbD 1, b.getLsbD 2⟩ :=
  if_pos (Nat.lt_succ_of_le h)

section ackNotice
variable {s : State} {p : HostId} (ht : s.takes p) (ha : s.attached p = true)
include ht ha

theorem exec_ackNotice_badArg {causes : Byte} (q : Byte) (h : 7 < causes.toNat) :
    exec (.ackNotice p q causes) s = .next (s.ended p false ((s.heard p).reply p q .badArg .empty)) := by
  simp only [exec, execAckNotice]
  rw [State.command_answer ht ha]
  simp only [parseCauses_none.2 h]

theorem exec_ackNotice_named {causes : Byte} {named : CauseSet} (q : Byte) (h : parseCauses causes = some named) :
    exec (.ackNotice p q causes) s = .next (s.ended p false
      ({ s.heard p with causes := (s.heard p).causes.set p ((s.causes.get p).diff named) }.reply p q .ok
        (.causesLeft ((s.causes.get p).diff named) s.epoch))) := by
  simp only [exec, execAckNotice, State.fullExchange_command ht ha, h, State.answer, State.heard_causes ht.1, State.heard_epoch ht.1]

end ackNotice

/-- Settles O57: the first entry that holds the caller is fetched, and the causes named by the byte leave the caller's set. -/
theorem fetchLossAndAckNotice : Obligations.FetchLossAndAckNotice := by
  unfold Obligations.FetchLossAndAckNotice
  refine ⟨fun p q s ht ha => ⟨fun hnone => ?_, fun before e after hloss hbefore he => ?_⟩, fun p q causes s ht ha => ⟨?_, fun hle => ?_⟩⟩
  · rw [exec_fetchLoss_taken ht ha, State.fetchLoss_none (by rwa [State.heard_loss ht.1]), State.heard_missed ht.1]
  · rw [exec_fetchLoss_taken ht ha, State.fetchLoss_first ((State.heard_loss ht.1).trans hloss) hbefore he, State.heard_missed ht.1]
    rfl
  · exact exec_ackNotice_badArg ht ha q
  · rw [exec_ackNotice_named ht ha q (parseCauses_of_le hle)]
    rfl

end Sys2Proof.Machine
end

section
/-! SUPPORT. The hub resets: how they begin and hold, and the exchanges that they discard (chapter 9). -/

namespace Sys2Proof.Machine

/-! ### The beginning of a reset and its holds (R165, R166) -/

section halt
variable (s : State)

theorem State.haltForReset_port (h : HostId) :
    s.haltForReset.port h = { s.port h with queue := [], partMark := false, cs := (s.port h).cs.cut } := PerHost.get_ofFn _ h

theorem State.haltForReset_disp (h : HostId) : s.haltForReset.disp h = { s.disp h with claimTimer := none } := PerHost.get_ofFn _ h

theorem State.haltForReset_session (h : HostId) : s.haltForReset.session h = { s.session h with wakeTimer := none } := PerHost.get_ofFn _ h

theorem State.haltForReset_line (l : LineNo) : s.haltForReset.line l = { s.line l with detector := (s.line l).detector.stopped } :=
  getElem_mapTable _ _ _ l.isLt

end halt

/-- The epoch that the lost Retention Cells hold is a free value, and an epoch all the same (R164). -/
theorem State.loseRetention_epoch_ne_zero (s : State) : s.loseRetention.epoch ≠ 0 := by
  intro hzero
  have hlt := (Config.lostEpoch s.freeIdx).isLt
  have hnat := congrArg BitVec.toNat hzero
  simp [State.loseRetention] at hnat
  omega

/-- The first hold stops the hub (R165). -/
theorem State.hold_running {s : State} (hr : s.running) (c : Cause) :
    s.hold c = { s.haltForReset with inReset := some ⟨CauseSet.empty.insert c, CauseSet.empty.insert c⟩ } := by
  have hr' : s.inReset = none := hr
  simp only [State.hold, hr']

/-- A further hold joins the reset in progress (R165). -/
theorem State.hold_inReset {s : State} {r : ResetProgress} (hr : s.inReset = some r) (c : Cause) :
    s.hold c = { s with inReset := some ⟨r.holds.insert c, r.causes.insert c⟩ } := by
  simp only [State.hold, hr]

/-- Each of the three resets halts a running hub with its own hold, and POWER_ON alone touches the Retention Cells. -/
theorem exec_reset_begins {i : Instr} {c : Cause} {s : State} (hr : s.running)
    (hi : i = .resetLine ∧ c = .resetLine ∨ i = .supplyLow ∧ c = .supplyLow ∨ i = .powerOn ∧ c = .powerOn) :
    ∃ t, exec i s = .next t ∧
      t = { s.haltForReset with
        inReset := some ⟨CauseSet.empty.insert c, CauseSet.empty.insert c⟩, epoch := t.epoch, causes := t.causes, freeIdx := t.freeIdx } ∧
      (i ≠ .powerOn → t.epoch = s.epoch ∧ t.causes = s.causes ∧ t.freeIdx = s.freeIdx) ∧ (i = .powerOn → t.epoch ≠ 0) := by
  rcases hi with ⟨rfl, rfl⟩ | ⟨rfl, rfl⟩ | ⟨rfl, rfl⟩
  · exact ⟨_, congrArg Host.Outcome.next (State.hold_running hr .resetLine), rfl, fun _ => ⟨rfl, rfl, rfl⟩, nofun⟩
  · exact ⟨_, congrArg Host.Outcome.next (State.hold_running hr .supplyLow), rfl, fun _ => ⟨rfl, rfl, rfl⟩, nofun⟩
  · refine ⟨_, rfl, ?_, fun h => absurd rfl h, fun _ => State.loseRetention_epoch_ne_zero _⟩
    rw [State.hold_running hr]
    rfl

section holdEnds
variable {s : State} {r : ResetProgress} {c : Cause} (hr : s.inReset = some r)
include hr

theorem exec_holdEnds_held (hc : r.holds.has c = true) (hmore : ∃ d, d ≠ c ∧ r.holds.has d = true) :
    exec (.holdEnds c) s = .next { s with inReset := some ⟨r.holds.erase c, r.causes⟩ } := by
  obtain ⟨d, hne, hd⟩ := hmore
  have hsize : 1 < r.holds.size := CauseSet.one_lt_size_iff.2 ⟨d, c, hne, hd, hc⟩
  simp only [exec, execHoldEnds, hr, hc, hsize, decide_true, Bool.and_self, if_true]

/-- A hold that is not in force cannot end, and the last one ends with the completion of the reset (log entries 6 and 7). -/
theorem exec_holdEnds_unheld (h : r.holds.has c = false ∨ ∀ d, d ≠ c → r.holds.has d = false) : exec (.holdEnds c) s = .next s := by
  have hno : (r.holds.has c && decide (1 < r.holds.size)) = false := by
    rcases h with hc | hlast
    · rw [hc, Bool.false_and]
    · have hsize : ¬1 < r.holds.size := fun hsize => by
        obtain ⟨a, b, hne, ha, hb⟩ := CauseSet.one_lt_size_iff.1 hsize
        by_cases hac : a = c
        · exact absurd (hlast b fun hbc => hne (hac.trans hbc.symm)) (by simp [hb])
        · exact absurd (hlast a hac) (by simp [ha])
      rw [decide_eq_false hsize, Bool.and_false]
  simp only [exec, execHoldEnds, hr, hno, Bool.false_eq_true, if_false]

end holdEnds

/-- Settles O59: the readings of the halted hub, and the holds that join a reset in progress or leave it. -/
theorem resetBeginsAndHolds : Obligations.ResetBeginsAndHolds := by
  unfold Obligations.ResetBeginsAndHolds
  refine ⟨fun i c s hr hi => ?_, fun s r hr => ⟨?_, ?_, ?_, fun c => ⟨exec_holdEnds_held hr, exec_holdEnds_unheld hr⟩⟩, fun s c hr => ?_⟩
  · obtain ⟨t, hexec, ht, hkept, hlost⟩ := exec_reset_begins hr hi
    have hport (h : HostId) : t.port h = s.haltForReset.port h := by rw [ht]; rfl
    have hdisp (h : HostId) : t.disp h = s.haltForReset.disp h := by rw [ht]; rfl
    have hsession (h : HostId) : t.session h = s.haltForReset.session h := by rw [ht]; rfl
    have hline (l : LineNo) : t.line l = s.haltForReset.line l := by rw [ht]; rfl
    refine ⟨t, hexec, ht.trans (by rw [ht]; rfl), hkept, hlost, fun h => ?_, fun l => ?_⟩
    · have hwake : t.wakeOut h = false := by rw [State.wakeOut, ht]; exact Bool.and_false _
      rw [State.attn, hport, hdisp, hsession, State.haltForReset_port]
      exact ⟨rfl, rfl, rfl, rfl, by cases (s.port h).cs <;> rfl, s.haltForReset_disp h, s.haltForReset_session h, rfl, hwake⟩
    · rw [hline, State.haltForReset_line]
      exact ⟨rfl, by cases (s.line l).detector <;> rfl⟩
  · exact congrArg Host.Outcome.next (State.hold_inReset hr .resetLine)
  · exact congrArg Host.Outcome.next (State.hold_inReset hr .supplyLow)
  · refine ⟨_, rfl, ?_, State.loseRetention_epoch_ne_zero _⟩
    rw [State.hold_inReset hr]
    rfl
  · have hr' : s.inReset = none := hr
    simp only [exec, execHoldEnds, hr']

/-! ### The events of a hub in reset, and the periods that a reset cut off (R165, R187) -/

/-- Of two ends of a chip-select period the later stands. -/
theorem State.setCs_setCs (s : State) (p : HostId) (cs cs' : ChipSelect) : (s.setCs p cs).setCs p cs' = s.setCs p cs' := by
  simp [State.setCs, State.updPort]

/-- A period of a hub in reset, or one that holds no exchange, ends with nothing done (R187). -/
theorem State.csRise_discarded {s : State} {p : HostId} (hc : (s.port p).cs ≠ .idle) (h : ¬s.running ∨ ∀ x, (s.port p).cs ≠ .live x)
    (bytes : Nat) (take : State → State) : s.csRise p bytes take = s.setCs p .idle := by
  unfold State.csRise
  split
  · rename_i hidle
    exact absurd hidle hc
  · rename_i x hr hlive
    exact absurd hlive (h.resolve_left (not_not_intro hr) x)
  · rfl

/-- A hub in reset forms no frame (R187). -/
theorem State.csFall_inReset {s : State} {p : HostId} (hr : ¬s.running) (hc : (s.port p).cs = .idle) : s.csFall p = s.setCs p .notReady := by
  obtain ⟨r, hr⟩ := Option.ne_none_iff_exists'.1 hr
  simp only [State.csFall, hc, hr]

/-- A command that is not judged leaves CS high, and nothing else (R187). -/
theorem State.fullExchange_discarded {s : State} {p : HostId} (h : ¬s.canExchange p) (take : State → State) :
    s.fullExchange p take = s.setCs p .idle := by
  unfold State.fullExchange State.ensureExchange
  split
  · rename_i hc
    have hr : ¬s.running := fun hr => h ⟨hr, by simp [hc], by simp [hc]⟩
    rw [State.csFall_inReset hr hc, State.csRise_discarded (s := s.setCs p .notReady) (by simp) (.inl hr), State.setCs_setCs]
  · rename_i x hc
    exact State.csRise_discarded (by simp [hc]) (.inl fun hr => h ⟨hr, by simp [hc], by simp [hc]⟩) _ _
  · rename_i hc
    exact State.csRise_discarded (by simp [hc]) (.inr (by simp [hc])) _ _
  · rename_i hc
    exact State.csRise_discarded (by simp [hc]) (.inr (by simp [hc])) _ _

/-- Every command is a full exchange. -/
theorem exec_fullExchange {i : Instr} {p : HostId} {q : Byte} (hcaller : callerOf i = some (p, q)) :
    ∃ take : State → State, ∀ s, exec i s = .next (s.fullExchange p take) := by
  by_cases hnop : i = .nop p q
  · subst hnop
    exact ⟨id, fun _ => rfl⟩
  · obtain ⟨_, hi⟩ := exists_commandRow hcaller hnop
    exact ⟨_, hi.row⟩

theorem exec_discarded {i : Instr} {p : HostId} {q : Byte} {s : State} (hcaller : callerOf i = some (p, q)) (h : ¬s.canExchange p) :
    exec i s = .next (s.setCs p .idle) := by
  obtain ⟨take, hexec⟩ := exec_fullExchange hcaller
  rw [hexec, State.fullExchange_discarded h]

/-- A chip-select period changes at most, and a command leaves its own port's CS high. -/
def TouchesCs (i : Instr) (s t : State) : Prop :=
  ∃ p cs, t = s.setCs p cs ∧ ∀ h q, callerOf i = some (h, q) → h = p ∧ cs = .idle

theorem State.setCs_self (s : State) (p : HostId) : s.setCs p (s.port p).cs = s := by
  have hports : s.ports.set p (s.ports.get p) = s.ports := by cases p <;> rfl
  exact congrArg (fun ports => { s with ports := ports }) hports

theorem TouchesCs.refl {i : Instr} (hi : callerOf i = none) (s : State) : TouchesCs i s s :=
  ⟨.h0, _, (s.setCs_self .h0).symm, fun _ _ hcaller => by rw [hi] at hcaller; cases hcaller⟩

theorem TouchesCs.event {i : Instr} (hi : callerOf i = none) (s : State) (p : HostId) (cs : ChipSelect) : TouchesCs i s (s.setCs p cs) :=
  ⟨p, cs, rfl, fun _ _ hcaller => by rw [hi] at hcaller; cases hcaller⟩

theorem TouchesCs.command {i : Instr} {p : HostId} {q : Byte} {s t : State} (hcaller : callerOf i = some (p, q)) (hr : ¬s.running)
    (h : exec i s = .next t) : TouchesCs i s t := by
  rw [exec_discarded hcaller fun hx => hr hx.1] at h
  cases h
  refine ⟨p, .idle, rfl, fun k _ hk => ?_⟩
  rw [hcaller] at hk
  cases hk
  exact ⟨rfl, rfl⟩

theorem exec_exchangeDiscarded_touches {s t : State} {p : HostId} (h : exec (.exchangeDiscarded p) s = .next t) :
    TouchesCs (.exchangeDiscarded p) s t := by
  simp only [exec, execExchangeDiscarded] at h
  split at h <;> cases h
  iterate 2 exact .event rfl s p .idle
  iterate 2 exact .refl rfl s

section discarded
variable {s t : State} (hr : ¬s.running)
include hr

theorem exec_exchangeStart_inReset {p : HostId} (h : exec (.exchangeStart p) s = .next t) : TouchesCs (.exchangeStart p) s t := by
  cases h
  cases hc : (s.port p).cs with
  | idle => rw [State.csFall_inReset hr hc]; exact .event rfl s p _
  | live | cutOff | notReady => simp only [State.csFall, hc]; exact .refl rfl s

theorem exec_shortExchange_inReset {p : HostId} {k : Fin 12} (h : exec (.shortExchange p k) s = .next t) :
    TouchesCs (.shortExchange p k) s t := by
  cases h
  by_cases hc : (s.port p).cs = .idle
  · have hsame : s.csRise p k.val id = s := by unfold State.csRise; simp only [hc]
    rw [hsame]
    exact .refl rfl s
  · rw [State.csRise_discarded hc (.inl hr)]
    exact .event rfl s p .idle

/-- A row that is not a part of the reset touches one chip-select period at most (R165, R187). -/
theorem exec_inReset_touchesCs {i : Instr} (h : exec i s = .next t) (hline : i ≠ .resetLine) (hlow : i ≠ .supplyLow) (hon : i ≠ .powerOn)
    (hends : ∀ c, i ≠ .holdEnds c) (hcompletes : ∀ pins, i ≠ .hubResetCompletion pins) : TouchesCs i s t := by
  obtain ⟨r, hin⟩ := Option.ne_none_iff_exists'.1 hr
  cases i with
  | exchangeStart => exact exec_exchangeStart_inReset hr h
  | shortExchange => exact exec_shortExchange_inReset hr h
  | exchangeDiscarded => exact exec_exchangeDiscarded_touches h
  | rawChange | arbiterFill =>
    simp only [exec, execRawChange, execArbiterFill, hin] at h
    cases h
    exact .refl rfl s
  | qualificationTimerExpiry | claimTimerExpiry | wakeTimerExpiry =>
    simp only [exec, execQualificationTimerExpiry, execClaimTimerExpiry, execWakeTimerExpiry, hin] at h
    cases h
    exact .refl rfl s
  | resetLine => exact absurd rfl hline
  | supplyLow => exact absurd rfl hlow
  | powerOn => exact absurd rfl hon
  | holdEnds c => exact absurd rfl (hends c)
  | hubResetCompletion pins => exact absurd rfl (hcompletes pins)
  | nop | unknownCommand | attach | detach | sleep | setHost | setFloor | setQuota | queryHost | claim | decline | done | post | retract
  | lease | release | configLine | fetchLoss | ackNotice | queryEvent | queryLine => exact .command rfl hr h

end discarded

theorem State.setCs_samePortsBut (s : State) (p : HostId) (cs : ChipSelect) : s.samePortsBut (s.setCs p cs) p := fun h hh => by
  rw [State.setCs_port, if_neg hh]

/-- Settles O19: in a reset a row touches a chip-select period at most, and a period that a reset cut off ends with nothing done. -/
theorem nothingTakenInReset : Obligations.NothingTakenInReset := by
  unfold Obligations.NothingTakenInReset
  refine ⟨fun i s t hr h hline hlow hon hends hcompletes => ?_, fun i p s hc hi => ⟨s.setCs p .idle, ?_, rfl, s.setCs_samePortsBut p .idle, ?_⟩⟩
  · obtain ⟨p, cs, rfl, hcommand⟩ := exec_inReset_touchesCs hr h hline hlow hon hends hcompletes
    refine ⟨rfl, fun k => ?_, fun k q hcaller => ?_⟩
    · rw [State.setCs_port]
      split
      · rename_i hk; rw [hk]
      · rfl
    · obtain ⟨rfl, rfl⟩ := hcommand k q hcaller
      exact ⟨by rw [State.setCs_port, if_pos rfl], s.setCs_samePortsBut k .idle⟩
  · rcases hi with ⟨q, hcaller⟩ | ⟨k, rfl⟩
    · exact exec_discarded hcaller fun ⟨_, hcut, hnotReady⟩ => hc.elim hcut hnotReady
    · obtain ⟨hlow, hdead⟩ : (s.port p).cs ≠ .idle ∧ ∀ x, (s.port p).cs ≠ .live x := by rcases hc with hc | hc <;> simp [hc]
      exact congrArg Host.Outcome.next (State.csRise_discarded hlow (.inr hdead) k.val id)
  · rw [State.setCs_port, if_pos rfl]

end Sys2Proof.Machine
end

section
/-! SUPPORT. Which commands and events change the Retention Cells (R164, R169). -/

namespace Sys2Proof.Machine

/-! ### What an exchange and its command retain -/

/-- The epoch stays, and the cause sets of some hosts. -/
structure State.Retains (hosts : HostId → Prop) (s t : State) : Prop where
  epoch : t.epoch = s.epoch
  causes : ∀ h, hosts h → t.causes.get h = s.causes.get h

namespace State.Retains
variable {hosts : HostId → Prop} {p : HostId} {s t u : State}

theorem of_cells (hepoch : t.epoch = s.epoch) (hcauses : t.causes = s.causes) : s.Retains hosts t :=
  ⟨hepoch, fun _ _ => by rw [hcauses]⟩

theorem refl (s : State) : s.Retains hosts s := of_cells rfl rfl

theorem trans (h : s.Retains hosts t) (h' : t.Retains hosts u) : s.Retains hosts u :=
  ⟨h'.epoch.trans h.epoch, fun k hk => (h'.causes k hk).trans (h.causes k hk)⟩

theorem recompute (h : s.Retains hosts t) : s.Retains hosts t.recompute := h.trans (of_cells (by simp) (by simp))

theorem reply (h : s.Retains hosts t) {k : HostId} {q : Byte} {result : ResultCode} {data : ReplyData} :
    s.Retains hosts (t.reply k q result data) := h.trans (of_cells rfl rfl)

theorem answer (h : s.Retains hosts t) {k : HostId} {q : Byte} {result : ResultCode} {data : ReplyData} :
    s.Retains hosts (t.answer k q result data).state := h.reply

/-- The passage of time retains the cells. -/
theorem later (s : State) (k : Nat) : s.Retains hosts { s with now := k } := of_cells rfl rfl

/-- The rise of CS retains what its command does (R173, R174, R187). -/
theorem csRise {bytes : Nat} {take : State → State} (htake : ∀ v, Retains hosts v (take v)) :
    s.Retains hosts (s.csRise p bytes take) := by
  unfold State.csRise
  split
  · exact .refl s
  · split
    · exact of_cells rfl rfl
    · have hmarks : s.Retains hosts (s.clearMarks p bytes) := by
        rw [State.clearMarks_outline]
        exact of_cells rfl rfl
      exact (hmarks.trans (htake _)).trans (of_cells (by simp) (by simp))
  · exact of_cells rfl rfl

theorem fullExchange {take : State → State} (htake : ∀ v, Retains hosts v (take v)) : s.Retains hosts (s.fullExchange p take) := by
  have hfall : s.Retains hosts (s.ensureExchange p) := by
    rw [State.ensureExchange_outline]
    exact of_cells rfl rfl
  exact hfall.trans (csRise htake)

/-- A command row judged by itself retains what its judgement does; without place for its REPLY it sets a mark alone (R178). -/
theorem row {take : State → State} (htake : ∀ v, Retains hosts v (take v)) :
    s.Retains hosts (s.fullExchange p fun s => s.withReplyRoom p take) :=
  fullExchange fun v => by
    unfold State.withReplyRoom
    split
    · exact htake v
    · exact of_cells rfl rfl

/-- A command of an attached host retains what its own rule does (R126, R127). -/
theorem command {q : Byte} {act : State → Effect} (hact : ∀ v, Retains hosts v (act v).state) :
    s.Retains hosts (s.fullExchange p fun s => s.command p q act) :=
  row fun v => by
    dsimp only
    split
    · have hwake : v.Retains hosts (v.wakeUp p) := of_cells (v.wakeUp_epoch p) (v.wakeUp_causes p)
      have hrule := hwake.trans (hact (v.wakeUp p))
      split
      · exact hrule.recompute
      · exact hrule
    · exact (refl v).reply

end State.Retains

/-! ### Each command's own rule -/

section rule
variable (hosts : HostId → Prop) (s : State) (p : HostId) (q : Byte)

theorem State.openSession_retains (depth : Nat) : s.Retains hosts (s.openSession p q depth) :=
  .of_cells (by simp [State.openSession]) (by simp [State.openSession])

theorem State.closeSession_retains : s.Retains hosts (s.closeSession p q) :=
  .of_cells (by simp [State.closeSession]) (by simp [State.closeSession])

theorem State.sleepDoze_retains : s.Retains hosts (s.sleepDoze p q) := by
  unfold State.sleepDoze
  split
  · exact (State.Retains.refl s).reply
  · exact .of_cells (by simp) (by simp)

theorem State.sleepDeep_retains : s.Retains hosts (s.sleepDeep p q) := by
  unfold State.sleepDeep
  split
  · exact (State.Retains.refl s).reply
  · exact .of_cells (by simp) (by simp)

theorem State.answerHost_retains (host view : Byte) : s.Retains hosts (s.answerHost p q host view) := by
  unfold State.answerHost
  split <;> exact (State.Retains.refl s).reply

theorem State.declineOffer_retains (o : Offer) (r : Record) : s.Retains hosts (s.declineOffer p q o r) := by
  have hback : s.Retains hosts (s.handBackOffer p o r).1 := by
    unfold State.handBackOffer
    dsimp only
    split <;> exact .of_cells (by simp) (by simp)
  rw [State.declineOffer_eq]
  exact hback.trans (.of_cells (by simp) (by simp))

theorem State.finishService_retains (e : StackEntry) : s.Retains hosts (s.finishService p q e) :=
  .of_cells (by simp [State.finishService]) (by simp [State.finishService])

theorem State.retractAny_retains (n : SlotNo) (r : Record) : s.Retains hosts (s.retractAny p q n r).state := by
  unfold State.retractAny
  split <;> exact .of_cells (by simp [State.answer]) (by simp [State.answer])

theorem State.retractEach_retains (n : SlotNo) (r : Record) : s.Retains hosts (s.retractEach p q n r).state := by
  unfold State.retractEach
  dsimp only
  split <;> exact .of_cells (by simp) (by simp)

theorem State.arm_retains (l : LineNo) : s.Retains hosts (s.arm l) := by
  unfold State.arm
  dsimp only
  split <;> exact .of_cells (by simp) (by simp)

theorem State.configure_retains (l : LineNo) (new : LineEntry) (apply : Bool) : s.Retains hosts (s.configure p q l new apply) := by
  unfold State.configure
  dsimp only
  have hentry : s.Retains hosts (s.setEntry l new) := .of_cells rfl rfl
  have harmed : s.Retains hosts (if armsDetector (s.entry l) new then (s.setEntry l new).arm l else s.setEntry l new) := by
    split
    · exact hentry.trans (State.arm_retains hosts _ l)
    · exact hentry
  generalize (if armsDetector (s.entry l) new then (s.setEntry l new).arm l else s.setEntry l new) = u at harmed ⊢
  split
  · have hrebuild : u.Retains hosts (u.rebuild l) := .of_cells (by simp [State.rebuild]) (by simp [State.rebuild])
    exact (harmed.trans hrebuild).reply
  · exact harmed.reply

theorem State.fetchLoss_retains : s.Retains hosts (s.fetchLoss p q) := by
  unfold State.fetchLoss
  dsimp only
  split <;> exact .of_cells rfl rfl

/-- An acceptance of a level is an arrival at most (R31, R32). -/
theorem State.accept_retains (l : LineNo) (level : Level) : s.Retains hosts (s.accept l level) := by
  unfold State.accept
  dsimp only
  split <;> exact .of_cells (by simp) (by simp)

theorem State.rawChange_retains (l : LineNo) (level : Level) : s.Retains hosts (s.rawChange l level) := by
  have hraw : s.Retains hosts (s.setLine l { s.line l with raw := level }) := .of_cells rfl rfl
  unfold State.rawChange
  dsimp only
  split
  · exact hraw
  · split
    · exact hraw
    · split
      · exact hraw.trans (State.accept_retains hosts _ l level)
      · exact .of_cells rfl rfl
  · split
    · exact .of_cells rfl rfl
    · exact hraw

/-- A miss loses the host, or leaves what goes on (R78, R133). -/
theorem State.miss_retains (cause : EvictCause) {survive : State → State} (hs : ∀ v, State.Retains hosts v (survive v)) :
    s.Retains hosts (s.miss p cause survive) := by
  have hmiss : s.Retains hosts (s.updSession p fun e => { e with missCount := e.missCount + 1 }) := .of_cells rfl rfl
  unfold State.miss
  dsimp only
  split
  · exact hmiss.trans (.of_cells (by simp) (by simp))
  · exact hmiss.trans (hs _)

/-- A hold that appears leaves the Retention Cells alone (R165). -/
theorem State.hold_retains (c : Cause) : s.Retains hosts (s.hold c) := by
  unfold State.hold
  split <;> exact .of_cells rfl rfl

end rule

/-! ### Each command row -/

section row
variable {hosts : HostId → Prop} {s t : State} {p : HostId} {q : Byte}

theorem exec_attach_retains {depth : Byte} (h : exec (.attach p q depth) s = .next t) : s.Retains hosts t := by
  cases h
  refine .row fun v => ?_
  split
  · exact (State.Retains.refl v).reply
  · split
    · exact (State.Retains.refl v).reply
    · exact State.openSession_retains hosts v p q _

theorem exec_detach_retains (h : exec (.detach p q) s = .next t) : s.Retains hosts t := by
  cases h
  refine .row fun v => ?_
  split
  · have hwake : v.Retains hosts (v.wakeUp p) := .of_cells (v.wakeUp_epoch p) (v.wakeUp_causes p)
    exact hwake.trans (State.closeSession_retains hosts _ p q)
  · exact (State.Retains.refl v).reply

theorem exec_sleep_retains {depth : Byte} (h : exec (.sleep p q depth) s = .next t) : s.Retains hosts t := by
  cases h
  refine .row fun v => ?_
  split
  · split
    · exact State.sleepDoze_retains hosts v p q
    · exact State.sleepDeep_retains hosts v p q
    · exact (State.Retains.refl v).reply
  · exact (State.Retains.refl v).reply

theorem exec_queryHost_retains {host view : Byte} (h : exec (.queryHost p q host view) s = .next t) : s.Retains hosts t := by
  cases h
  refine .row fun v => ?_
  have hwake : v.Retains hosts (v.wakeUp p) := .of_cells (v.wakeUp_epoch p) (v.wakeUp_causes p)
  have hanswer := hwake.trans (State.answerHost_retains hosts _ p q host view)
  dsimp only
  split
  · exact hanswer.recompute
  · exact hanswer

theorem exec_setHost_retains {param : Byte} {value : BitVec 16} (h : exec (.setHost p q param value) s = .next t) : s.Retains hosts t := by
  cases h
  refine .command fun v => ?_
  split <;> exact .of_cells rfl rfl

theorem exec_setFloor_retains {floor : Byte} (h : exec (.setFloor p q floor) s = .next t) : s.Retains hosts t := by
  cases h
  refine .command fun v => ?_
  split
  · exact (State.Retains.refl v).answer
  · dsimp only
    split
    · split <;> exact .of_cells (by simp) (by simp)
    · exact .of_cells rfl rfl

theorem exec_setQuota_retains {quota : Byte} (h : exec (.setQuota p q quota) s = .next t) : s.Retains hosts t := by
  cases h
  refine .command fun v => ?_
  split
  · exact (State.Retains.refl v).answer
  · dsimp only
    split <;> exact .of_cells rfl rfl

theorem exec_claim_retains {slot serial : Byte} (h : exec (.claim p q slot serial) s = .next t) : s.Retains hosts t := by
  cases h
  refine .command fun v => ?_
  split <;> exact .of_cells rfl rfl

theorem exec_decline_retains {slot serial : Byte} (h : exec (.decline p q slot serial) s = .next t) : s.Retains hosts t := by
  cases h
  refine .command fun v => ?_
  split
  · exact State.declineOffer_retains hosts v p q _ _
  · exact (State.Retains.refl v).answer

theorem exec_done_retains {slot serial : Byte} (h : exec (.done p q slot serial) s = .next t) : s.Retains hosts t := by
  cases h
  refine .command fun v => ?_
  split
  · split
    · split
      · exact State.finishService_retains hosts v p q _
      · exact (State.Retains.refl v).answer
    · exact (State.Retains.refl v).answer
  · exact (State.Retains.refl v).answer

theorem exec_post_retains {band mode notify rc rh : Byte} {payload : BitVec 32}
    (h : exec (.post p q band mode notify rc rh payload) s = .next t) : s.Retains hosts t := by
  cases h
  refine .command fun v => ?_
  split
  · exact (State.Retains.refl v).answer
  · dsimp only
    split
    · split <;> exact .of_cells rfl rfl
    · exact (State.Retains.refl v).answer

theorem exec_retract_retains {slot : Byte} (h : exec (.retract p q slot) s = .next t) : s.Retains hosts t := by
  cases h
  refine .command fun v => ?_
  split
  · exact (State.Retains.refl v).answer
  · split
    · exact (State.Retains.refl v).answer
    · split
      · split
        · exact State.retractAny_retains hosts v p q _ _
        · exact State.retractEach_retains hosts v p q _ _
      · exact (State.Retains.refl v).answer

theorem exec_lease_retains {group : Byte} (h : exec (.lease p q group) s = .next t) : s.Retains hosts t := by
  cases h
  refine .command fun v => ?_
  split
  · exact (State.Retains.refl v).answer
  · split <;> exact .of_cells rfl rfl

theorem exec_release_retains {group : Byte} (h : exec (.release p q group) s = .next t) : s.Retains hosts t := by
  cases h
  refine .command fun v => ?_
  split
  · exact (State.Retains.refl v).answer
  · split <;> exact .of_cells rfl rfl

theorem exec_configLine_retains {line flags sense qual band mode rc rh : Byte}
    (h : exec (.configLine p q line flags sense qual band mode rc rh) s = .next t) : s.Retains hosts t := by
  cases h
  refine .command fun v => ?_
  split
  · exact (State.Retains.refl v).answer
  · split
    · split
      · exact (State.Retains.refl v).answer
      · exact State.configure_retains hosts v p q _ _ _
    · exact (State.Retains.refl v).answer

/-- An ACK_NOTICE changes the cause set of its own host alone (R169). -/
theorem exec_ackNotice_retains {causes : Byte} (hp : ¬hosts p) (h : exec (.ackNotice p q causes) s = .next t) : s.Retains hosts t := by
  cases h
  refine .command fun v => ?_
  split
  · exact (State.Retains.refl v).answer
  · exact ⟨rfl, fun k hk => PerHost.get_set_ne _ _ fun hkp => hp (hkp ▸ hk)⟩

theorem exec_queryEvent_retains {slot view : Byte} (h : exec (.queryEvent p q slot view) s = .next t) : s.Retains hosts t := by
  cases h
  refine .command fun v => ?_
  split <;> exact (State.Retains.refl v).answer

theorem exec_queryLine_retains {line : Byte} (h : exec (.queryLine p q line) s = .next t) : s.Retains hosts t := by
  cases h
  refine .command fun v => ?_
  split <;> exact (State.Retains.refl v).answer

end row

/-! ### Each event -/

section event
variable {hosts : HostId → Prop} {s t : State}

theorem exec_rawChange_retains {l : LineNo} {level : Level} (h : exec (.rawChange l level) s = .next t) : s.Retains hosts t := by
  simp only [exec, execRawChange] at h
  split at h <;> cases h
  · split
    · exact .refl s
    · exact State.rawChange_retains hosts s l level
  · exact .refl s

theorem exec_qualificationTimerExpiry_retains {l : LineNo} (h : exec (.qualificationTimerExpiry l) s = .next t) : s.Retains hosts t := by
  simp only [exec, execQualificationTimerExpiry] at h
  split at h <;> cases h
  · exact (State.Retains.later s _).trans (State.accept_retains hosts _ l _)
  · exact .refl s

theorem exec_claimTimerExpiry_retains {k : HostId} (h : exec (.claimTimerExpiry k) s = .next t) : s.Retains hosts t := by
  simp only [exec, execClaimTimerExpiry] at h
  split at h <;> cases h
  · rename_i o expiry _ _ _
    have htimeout : State.Retains hosts { s with now := max s.now expiry }
        ((({ s with now := max s.now expiry } : State).withdraw k .timeout).roundEndDelivered o.handle.slot) :=
      .of_cells (by simp) (by simp)
    exact ((State.Retains.later s _).trans htimeout).trans (State.miss_retains hosts _ k _ fun v => (State.Retains.refl v).recompute)
  · exact .refl s

theorem exec_wakeTimerExpiry_retains {k : HostId} (h : exec (.wakeTimerExpiry k) s = .next t) : s.Retains hosts t := by
  simp only [exec, execWakeTimerExpiry] at h
  split at h <;> cases h
  · exact (State.Retains.later s _).trans (State.miss_retains hosts _ k _ fun v => .of_cells rfl rfl)
  · exact .refl s

theorem exec_arbiterFill_retains {k : HostId} (h : exec (.arbiterFill k) s = .next t) : s.Retains hosts t := by
  simp only [exec, execArbiterFill] at h
  split at h <;> cases h
  · exact .of_cells (by simp) (by simp)
  · exact .refl s

theorem exec_exchangeDiscarded_retains {p : HostId} (h : exec (.exchangeDiscarded p) s = .next t) : s.Retains hosts t := by
  obtain ⟨_, _, rfl, -⟩ := exec_exchangeDiscarded_touches h
  exact .of_cells rfl rfl

theorem exec_holdEnds_retains {c : Cause} (h : exec (.holdEnds c) s = .next t) : s.Retains hosts t := by
  simp only [exec, execHoldEnds] at h
  split at h
  · cases h; exact .refl s
  · split at h <;> cases h <;> exact .of_cells rfl rfl

end event

/-- Every row but POWER_ON, the completion of a reset in progress and an ACK_NOTICE of the hosts in question leaves the Retention Cells alone. -/
theorem exec_retains {hosts : HostId → Prop} {i : Instr} {s t : State} (hon : i ≠ .powerOn)
    (hcompletes : ∀ pins, i = .hubResetCompletion pins → s.running) (hack : ∀ p q c, i = .ackNotice p q c → ¬hosts p)
    (h : exec i s = .next t) : s.Retains hosts t := by
  cases i with
  | exchangeStart p => cases h; rw [State.csFall_outline]; exact .of_cells rfl rfl
  | shortExchange => cases h; exact .csRise .refl
  | nop => cases h; exact .fullExchange .refl
  | unknownCommand => cases h; exact .command fun v => (State.Retains.refl v).answer
  | attach => exact exec_attach_retains h
  | detach => exact exec_detach_retains h
  | sleep => exact exec_sleep_retains h
  | setHost => exact exec_setHost_retains h
  | setFloor => exact exec_setFloor_retains h
  | setQuota => exact exec_setQuota_retains h
  | queryHost => exact exec_queryHost_retains h
  | claim => exact exec_claim_retains h
  | decline => exact exec_decline_retains h
  | done => exact exec_done_retains h
  | post => exact exec_post_retains h
  | retract => exact exec_retract_retains h
  | lease => exact exec_lease_retains h
  | release => exact exec_release_retains h
  | configLine => exact exec_configLine_retains h
  | fetchLoss p q => cases h; exact .command fun v => State.fetchLoss_retains hosts v p q
  | ackNotice p q c => exact exec_ackNotice_retains (hack p q c rfl) h
  | queryEvent => exact exec_queryEvent_retains h
  | queryLine => exact exec_queryLine_retains h
  | rawChange => exact exec_rawChange_retains h
  | qualificationTimerExpiry => exact exec_qualificationTimerExpiry_retains h
  | claimTimerExpiry => exact exec_claimTimerExpiry_retains h
  | wakeTimerExpiry => exact exec_wakeTimerExpiry_retains h
  | arbiterFill => exact exec_arbiterFill_retains h
  | resetLine => cases h; exact State.hold_retains hosts s .resetLine
  | supplyLow => cases h; exact State.hold_retains hosts s .supplyLow
  | powerOn => exact absurd rfl hon
  | hubResetCompletion pins => rw [exec_hubResetCompletion_running (hcompletes pins rfl) h]; exact .refl s
  | exchangeDiscarded => exact exec_exchangeDiscarded_retains h
  | holdEnds => exact exec_holdEnds_retains h

/-- Settles O17: a row outside those named leaves the epoch alone, and the cause set of the host in question. -/
theorem retentionGuarded : Obligations.RetentionGuarded := by
  unfold Obligations.RetentionGuarded
  intro i s t hexec
  refine ⟨fun hne => ?_, fun h hne => ?_⟩
  · by_contra hno
    rw [not_or, not_exists] at hno
    have hretains : s.Retains (fun _ => False) t :=
      exec_retains hno.1 (fun pins hi => by_contra fun hr => hno.2 pins ⟨hi, hr⟩) (fun _ _ _ _ => id) hexec
    exact hne hretains.epoch
  · by_contra hno
    rw [not_or, not_or, not_exists] at hno
    obtain ⟨hon, hcompletes, hack⟩ := hno
    have hretains : s.Retains (· = h) t :=
      exec_retains hon (fun pins hi => by_contra fun hr => hcompletes pins ⟨hi, hr⟩)
        (fun p q c hi hp => hack ⟨q, c, hp ▸ hi⟩) hexec
    exact hne (hretains.causes h rfl)

end Sys2Proof.Machine
end

section
/-! SUPPORT. The step of the hub, and the command frames that its ports take in (R171, R175, R176). -/

namespace Sys2Proof.Machine

/-! ### The step (log entries 3 and 14) -/

/-- Settles O1: each arm of `step`, by the queue of waiting commands. -/
theorem stepRunsFrontCommand : Obligations.StepRunsFrontCommand := by
  unfold Obligations.StepRunsFrontCommand
  exact ⟨fun c rest s h => by simp only [step, h], fun s h => by simp only [step, h, State.tick]⟩

/-! ### Command frames (R175, R176) -/

/-- The two bytes of a number, put together again. -/
theorem word16_bytes (v : BitVec 16) : word16 (v.extractLsb' 0 8) (v.extractLsb' 8 8) = v :=
  BitVec.extractLsb'_append_extractLsb' (w := 8)

/-- The four bytes of a number, put together again. -/
theorem word32_bytes (v : BitVec 32) :
    word32 (v.extractLsb' 0 8) (v.extractLsb' 8 8) (v.extractLsb' 16 8) (v.extractLsb' 24 8) = v := by
  have hupper : v.extractLsb' 24 8 ++ v.extractLsb' 16 8 = v.extractLsb' 16 16 :=
    BitVec.extractLsb'_append_extractLsb'_eq_extractLsb' rfl
  have hmiddle : v.extractLsb' 16 16 ++ v.extractLsb' 8 8 = v.extractLsb' 8 24 :=
    BitVec.extractLsb'_append_extractLsb'_eq_extractLsb' rfl
  unfold word32
  rw [hupper, hmiddle]
  exact BitVec.extractLsb'_append_extractLsb' (w := 24)

/-- A frame whose code is outside the table of R176 spells an unknown command. -/
theorem commandOfFrame_unknown (p : HostId) {f : CommandFrame} (h : f.code.toNat ∉ commandCodes) :
    commandOfFrame p f = .unknownCommand p f.seq f.code := by
  unfold commandOfFrame
  split
  case h_21 => rfl
  all_goals
    rename_i hcode
    exact absurd (by rw [hcode]; decide) h

/-- Every frame spells a well-formed command: one of the table of R176, or an unknown one. -/
theorem commandOfFrame_wellFormed (p : HostId) (f : CommandFrame) : (commandOfFrame p f).wellFormed = true := by
  by_cases h : f.code.toNat ∈ commandCodes
  · unfold commandOfFrame
    split
    case h_21 => simp_all [commandCodes]
    all_goals rfl
  · rw [commandOfFrame_unknown p h]
    simpa [Instr.wellFormed] using h

theorem callerOf_commandOfFrame (p : HostId) (f : CommandFrame) : callerOf (commandOfFrame p f) = some (p, f.seq) := by
  unfold commandOfFrame
  split <;> rfl

/-- The code of the frame that a decoded command is written as. -/
theorem frameOfCommand_code (p : HostId) (f : CommandFrame) :
    (frameOfCommand (commandOfFrame p f)).map (·.2.code) = some f.code := by
  unfold commandOfFrame
  split
  case h_21 => rfl
  all_goals exact congrArg some (BitVec.eq_of_toNat_eq (Eq.symm ‹_›))

/-- A well-formed command is decoded from its own frame. -/
theorem commandOfFrame_frameOfCommand {i : Instr} {p : HostId} {q : Byte} (hi : i.wellFormed = true) (hc : callerOf i = some (p, q)) :
    ∃ f, frameOfCommand i = some (p, f) ∧ f.seq = q ∧ commandOfFrame p f = i := by
  cases i with
  | nop | attach | detach | sleep | setFloor | setQuota | queryHost | claim | decline | done | retract | lease | release | configLine
  | fetchLoss | ackNotice | queryEvent | queryLine => cases hc; exact ⟨_, rfl, rfl, rfl⟩
  | setHost p q param v =>
    cases hc
    exact ⟨_, rfl, rfl, congrArg (Instr.setHost p q param) (word16_bytes v)⟩
  | post p q band mode notify rc rh payload =>
    cases hc
    exact ⟨_, rfl, rfl, congrArg (Instr.post p q band mode notify rc rh) (word32_bytes payload)⟩
  | unknownCommand p q code =>
    cases hc
    exact ⟨_, rfl, rfl, commandOfFrame_unknown p (by simpa [Instr.wellFormed] using hi)⟩
  | exchangeStart | shortExchange | rawChange | qualificationTimerExpiry | claimTimerExpiry | wakeTimerExpiry | arbiterFill | resetLine
  | supplyLow | powerOn | hubResetCompletion | exchangeDiscarded | holdEnds => cases hc

/-- Settles O4: the frame of a decoded command is that of a well-formed one, and its code is the frame's. -/
theorem commandFrameRoundTrip : Obligations.CommandFrameRoundTrip := by
  unfold Obligations.CommandFrameRoundTrip
  refine ⟨fun i p q => commandOfFrame_frameOfCommand, fun p f => ?_⟩
  have hwf := commandOfFrame_wellFormed p f
  have hcaller := callerOf_commandOfFrame p f
  obtain ⟨g, hframe, -, hback⟩ := commandOfFrame_frameOfCommand hwf hcaller
  have hcode : g.code = f.code := by simpa [hframe] using frameOfCommand_code p f
  exact ⟨hwf, hcaller, g, hframe, hcode, hback⟩

end Sys2Proof.Machine
end

section
/-! SUPPORT. What the rise of CS makes of a chip-select period (R173 to R175, R180, R187). -/

namespace Sys2Proof.Machine

/-! ### The rise of CS on a discarded exchange (R174, R187) -/

/-- A chip-select period replaced, and nothing else. -/
theorem State.setCs_alone (s : State) (p : HostId) (cs : ChipSelect) :
    s.setCs p cs = { s with ports := (s.setCs p cs).ports } ∧ s.samePortsBut (s.setCs p cs) p ∧
      (s.setCs p cs).port p = { s.port p with cs := cs } :=
  ⟨rfl, s.setCs_samePortsBut p cs, by rw [State.setCs_port, if_pos rfl]⟩

/-- A short exchange of a running hub leaves CS high, and nothing else (R174). -/
theorem exec_shortExchange_eq {s : State} {p : HostId} (k : Fin 12) (h : s.canExchange p) :
    exec (.shortExchange p k) s = .next (s.setCs p .idle) := by
  obtain ⟨hr, hcut, hnotReady⟩ := h
  have hrise : s.csRise p k.val id = s.setCs p .idle := by
    cases hc : (s.port p).cs with
    | idle => rw [← hc, State.setCs_self]; simp only [State.csRise, hc]
    | live x => simp only [State.csRise, hr, hc, if_pos k.isLt]
    | cutOff => exact absurd hc hcut
    | notReady => exact absurd hc hnotReady
  exact congrArg Host.Outcome.next hrise

/-- The end of a period that a reset cut off or that began during one (R187). -/
theorem exec_exchangeDiscarded_eq {s : State} {p : HostId} (h : (s.port p).cs = .cutOff ∨ (s.port p).cs = .notReady) :
    exec (.exchangeDiscarded p) s = .next (s.setCs p .idle) := by
  rcases h with h | h <;> simp only [exec, execExchangeDiscarded, h]

/-- Settles O38: both rows are the rise of CS alone. -/
theorem discardedExchangesChangeNothing : Obligations.DiscardedExchangesChangeNothing := by
  unfold Obligations.DiscardedExchangesChangeNothing
  exact ⟨fun p k s h => ⟨_, exec_shortExchange_eq k h, s.setCs_alone p .idle⟩,
    fun p s h => ⟨_, exec_exchangeDiscarded_eq h, s.setCs_alone p .idle⟩⟩

/-! ### NOP and UNKNOWN_COMMAND (R175) -/

/-- Settles O39: the exchange of a NOP has no step 2, and an unknown command is a command of its caller that only replies. -/
theorem nopAndUnknownCommand : Obligations.NopAndUnknownCommand := by
  unfold Obligations.NopAndUnknownCommand
  refine ⟨fun p q s h => ⟨congrArg Host.Outcome.next (State.fullExchange_eq h id), ?_⟩, fun p q code s ht ha => ?_,
    fun p q code s ht ha => ?_⟩
  · obtain ⟨-, -, -, -, -, hsessions, -⟩ := State.finishExchange_frame (s.judged p) p
    rw [hsessions, State.judged_sessions h]
  · exact congrArg Host.Outcome.next (State.command_answer ht ha rfl)
  · exact congrArg Host.Outcome.next (State.fullExchange_notAttached ht ha q _)

/-! ### Step 3 of a full exchange (R173, R180) -/

/-- An exchange whose message stays in the queue, after step 3. -/
theorem State.finishExchange_kept {s : State} {p : HostId} {q : Port} (h : (s.port p).takeCarried = (q, false)) :
    s.finishExchange p = s.updPort p fun _ => { q with cs := .idle } := by
  simp only [State.finishExchange, h, Bool.false_eq_true, if_false]

/-- An exchange whose message has left the queue, after step 3: the arbiter may fill. -/
theorem State.finishExchange_left {s : State} {p : HostId} {q : Port} (h : (s.port p).takeCarried = (q, true)) :
    s.finishExchange p = (s.updPort p fun _ => { q with cs := .idle }).arbiterFill p := by
  simp only [State.finishExchange, h, if_true]

section takeCarried
variable {q : Port} {x : Exchange} (hlive : q.cs = .live x)
include hlive

theorem Port.headCarried_live : q.headCarried = x.carried := by simp only [Port.headCarried, hlive]

/-- An exchange that carries nothing, or whose message is gone, removes nothing. -/
theorem Port.takeCarried_nothing (h : x.carried = false ∨ q.queue = []) : q.takeCarried = (q, false) := by
  unfold Port.takeCarried
  rw [Port.headCarried_live hlive]
  rcases h with h | h <;> simp [h]

variable {m : Msg} {rest : List Msg} (hcarried : x.carried = true) (hqueue : q.queue = m :: rest)
include hcarried hqueue

/-- A first part sets the part mark and stays (R180). -/
theorem Port.takeCarried_firstPart (htwo : m.twoPart = true) (hmark : q.partMark = false) :
    q.takeCarried = ({ q with partMark := true }, false) := by
  simp [Port.takeCarried, Port.headCarried_live hlive, hcarried, hqueue, htwo, hmark]

/-- A one-part message or a second part leaves the queue (R180). -/
theorem Port.takeCarried_whole (h : m.twoPart = false ∨ q.partMark = true) :
    q.takeCarried = ({ q with queue := rest, partMark := false }, true) := by
  have hlast : (m.twoPart && !q.partMark) = false := by rcases h with h | h <;> simp [h]
  simp [Port.takeCarried, Port.headCarried_live hlive, hcarried, hqueue, hlast]

end takeCarried

/-- Settles O22, by what `takeCarried` does of the message. -/
theorem exchangeEnd : Obligations.ExchangeEnd := by
  unfold Obligations.ExchangeEnd
  refine fun s p x hlive => ⟨fun h => ?_, fun m rest hcarried hqueue => ⟨fun htwo hmark => ?_, fun h => ?_⟩⟩
  · exact State.finishExchange_kept (Port.takeCarried_nothing hlive h)
  · exact State.finishExchange_kept (Port.takeCarried_firstPart hlive hcarried hqueue htwo hmark)
  · exact State.finishExchange_left (Port.takeCarried_whole hlive hcarried hqueue h)

end Sys2Proof.Machine
end

section
/-! SUPPORT. The bytes that octets make, with their free bits, and the tables of a REPLY's data that they carry (R184, R185). -/

namespace Sys2Proof.Machine

/-! ### Octets and their free bits (log entry 10) -/

/-- The byte that an octet makes at position `i` of frame `k`. -/
def Octet.shown (k i : Nat) (o : Octet) : Byte := o.value ||| (o.unlisted &&& Config.unlistedBits k i)

@[simp] theorem octet_shown (k i : Nat) (v : Byte) : (octet v).shown k i = v := by simp [Octet.shown, octet]

@[simp] theorem octetNat_shown (k i n : Nat) : (octetNat n).shown k i = BitVec.ofNat 8 n := octet_shown k i _

@[simp] theorem fillOctets_nil (k i : Nat) : fillOctets k i [] = [] := rfl

@[simp] theorem fillOctets_cons (k i : Nat) (o : Octet) (os : List Octet) :
    fillOctets k i (o :: os) = o.shown k i :: fillOctets k (i + 1) os := by
  have hshown : (if o.unlisted = 0 then o.value else o.value ||| (o.unlisted &&& Config.unlistedBits k i)) = o.shown k i := by
    split
    · rename_i h; simp [Octet.shown, h]
    · rfl
  exact congrArg (· :: fillOctets k (i + 1) os) hshown

@[simp] theorem fillOctets_length (k i : Nat) (os : List Octet) : (fillOctets k i os).length = os.length := by
  induction os generalizing i with
  | nil => rfl
  | cons o os ih => simp [ih]

@[simp] theorem padOctets_length (n : Nat) (os : List Octet) : (padOctets n os).length = n := by
  induction n generalizing os with
  | zero => rfl
  | succ n ih => cases os <;> simp [padOctets, ih]

/-- Under a mask of listed bits a byte is its octet's value. -/
theorem Octet.shown_and {o : Octet} {mask : Byte} (h : o.unlisted &&& mask = 0#8) (k i : Nat) :
    o.shown k i &&& mask = o.value &&& mask := by
  have hfree : o.unlisted &&& Config.unlistedBits k i &&& mask = 0#8 := by
    rw [BitVec.and_assoc, BitVec.and_comm _ mask, ← BitVec.and_assoc, h, BitVec.zero_and]
  rw [Octet.shown, BitVec.and_or_distrib_right, hfree, BitVec.or_zero]

/-- A listed bit is the value's. -/
theorem Octet.shown_getLsbD {o : Octet} {j : Nat} (h : o.unlisted.getLsbD j = false) (k i : Nat) :
    (o.shown k i).getLsbD j = o.value.getLsbD j := by
  simp [Octet.shown, h]

/-- The bits that a field takes are listed, and carry it. -/
def Octet.Carries (o : Octet) (f : BitField) : Prop :=
  f.shownIn o.value ∧ o.unlisted.toNat / 2 ^ f.low % 2 ^ (f.high + 1 - f.low) = 0

theorem Octet.Carries.shownIn {o : Octet} {f : BitField} (h : o.Carries f) (k i : Nat) : f.shownIn (o.shown k i) := by
  obtain ⟨hvalue, hlisted⟩ := h
  rw [BitField.shownIn, Octet.shown, BitVec.toNat_or, BitVec.toNat_and, Nat.or_div_two_pow, Nat.or_mod_two_pow, Nat.and_div_two_pow,
    Nat.and_mod_two_pow, hlisted, Nat.zero_and, Nat.or_zero, hvalue]

/-- An octet carries every field of a byte of a table. -/
def Octet.CarriesAll (o : Octet) (fields : List BitField) : Prop := ∀ f ∈ fields, o.Carries f

@[simp] theorem Octet.carriesAll_nil (o : Octet) : o.CarriesAll [] := by simp [Octet.CarriesAll]

@[simp] theorem Octet.carriesAll_cons {o : Octet} {f : BitField} {fs : List BitField} :
    o.CarriesAll (f :: fs) ↔ o.Carries f ∧ o.CarriesAll fs := by simp [Octet.CarriesAll]

@[simp] theorem Octet.carriesAll_append {o : Octet} {fs gs : List BitField} :
    o.CarriesAll (fs ++ gs) ↔ o.CarriesAll fs ∧ o.CarriesAll gs := by simp [Octet.CarriesAll, or_imp, forall_and]

/-! ### The tables of a frame's data (R184) -/

theorem dataShown_nil (table : List (List BitField)) : dataShown [] table := fun i b h => by simp at h

theorem dataShown_cons {b : Byte} {bytes : List Byte} {fields : List BitField} {table : List (List BitField)}
    (hb : ∀ f ∈ fields, f.shownIn b) (h : dataShown bytes table) : dataShown (b :: bytes) (fields :: table) := by
  intro i c hc
  cases i with
  | zero => cases hc; simpa using hb
  | succ i => exact h i c hc

theorem dataShown_zero_cons {bytes : List Byte} (h : dataShown bytes []) : dataShown (0 :: bytes) [] := by
  intro i c hc
  cases i with
  | zero => cases hc; simp
  | succ i => exact h i c hc

/-- The octets of a table, cut or filled with 0x00, make bytes that show it. -/
theorem dataShown_fillOctets (k i n : Nat) {os : List Octet} {table : List (List BitField)}
    (h : List.Forall₂ Octet.CarriesAll os table) : dataShown (fillOctets k i (padOctets n os)) table := by
  induction n generalizing i os table with
  | zero => exact dataShown_nil table
  | succ n ih =>
    cases h with
    | nil =>
      rw [padOctets, fillOctets_cons, octet_shown]
      exact dataShown_zero_cons (ih (i + 1) .nil)
    | cons ho hos =>
      rw [padOctets, fillOctets_cons]
      exact dataShown_cons (fun f hf => (ho f hf).shownIn k i) (ih (i + 1) hos)

/-! ### Bytes and numbers (R171) -/

@[simp] theorem octetNat_carriesAll (v : Nat) : (octetNat v).CarriesAll (whole v) := by
  simp [whole, octetNat, Octet.Carries, BitField.shownIn]

@[simp] theorem octet_carriesAll (v : Byte) : (octet v).CarriesAll (whole v.toNat) := by
  simp [whole, octet, Octet.Carries, BitField.shownIn]

/-- A byte of a number of several bytes. -/
theorem octet_extract_carriesAll {w : Nat} (v : BitVec w) (low : Nat) :
    (octet (v.extractLsb' low 8)).CarriesAll (whole (v.toNat / 2 ^ low % 256)) := by
  have hbyte : (v.extractLsb' low 8).toNat = v.toNat / 2 ^ low % 256 := by
    rw [BitVec.extractLsb'_toNat, Nat.shiftRight_eq_div_pow]
  rw [← hbyte]
  exact octet_carriesAll _

theorem octets16_carry (v : BitVec 16) : List.Forall₂ Octet.CarriesAll (octets16 v) (number 2 v.toNat) := by
  have hlow := octet_extract_carriesAll v 0
  have hhigh := octet_extract_carriesAll v 8
  simp only [Nat.pow_zero, Nat.div_one] at hlow
  exact .cons hlow (.cons hhigh .nil)

theorem octets32_carry (v : BitVec 32) : List.Forall₂ Octet.CarriesAll (octets32 v) (number 4 v.toNat) := by
  have h0 := octet_extract_carriesAll v 0
  have h1 := octet_extract_carriesAll v 8
  have h2 := octet_extract_carriesAll v 16
  have h3 := octet_extract_carriesAll v 24
  simp only [number, Nat.div_div_eq_div_mul]
  simp only [Nat.pow_zero, Nat.div_one] at h0
  exact .cons h0 (.cons h1 (.cons h2 (.cons h3 .nil)))

theorem octets16_ofNat_carry (v : Nat) : List.Forall₂ Octet.CarriesAll (octets16 (BitVec.ofNat 16 v)) (number 2 v) := by
  have hnumber : number 2 (BitVec.ofNat 16 v).toNat = number 2 v := by
    have hlow : v % 65536 % 256 = v % 256 := by omega
    have hhigh : v % 65536 / 256 % 256 = v / 256 % 256 := by omega
    simp [number, hlow, hhigh]
  rw [← hnumber]
  exact octets16_carry _

theorem octetsHandle_carry (hd : Handle) :
    List.Forall₂ Octet.CarriesAll (octetsHandle hd) [whole hd.slot.val, whole hd.serial.toNat] :=
  .cons (octetNat_carriesAll _) (.cons (octet_carriesAll _) .nil)

/-! ### The codes of R176 and R181 to R185 -/

theorem wirePhase_eq (v : SlotPhase) : wirePhase v = v.code := by cases v <;> rfl
theorem wireMode_eq (v : Mode) : wireMode v = v.code := by cases v <;> rfl
theorem wireHostState_eq (v : HostState) : wireHostState v = v.code := by cases v <;> rfl
theorem wireSense_eq (v : Sense) : wireSense v = v.code := by cases v <;> rfl
theorem wireResult_eq (v : ResultCode) : wireResult v = BitVec.ofNat 8 v.code := by cases v <;> rfl
theorem wireReason_eq (v : Reason) : wireReason v = BitVec.ofNat 8 v.code := by cases v <;> rfl
theorem wireOutcome_eq (v : CompletionOutcome) : wireOutcome v = BitVec.ofNat 8 v.code := by cases v <;> rfl
theorem wireEvictCause_eq (v : EvictCause) : wireEvictCause v = BitVec.ofNat 8 v.code := by cases v <;> rfl
theorem wireLossCause_eq (v : LossCause) : wireLossCause v = v.code := by cases v <;> rfl
theorem wireRecordResult_eq (v : RecordResult) : wireRecordResult v = v.code := by cases v <;> rfl
theorem wireSource_eq (v : Source) : wireSource v = v.code := by cases v <;> rfl
theorem wireHost_eq (v : Option HostId) : wireHost v = hostCode v := by cases v <;> rfl

theorem SlotPhase.code_lt (v : SlotPhase) : v.code < 4 := by cases v <;> decide
theorem Mode.code_lt (v : Mode) : v.code < 2 := by cases v <;> decide
theorem HostState.code_lt (v : HostState) : v.code < 8 := by cases v <;> decide
theorem Sense.code_lt (v : Sense) : v.code < 8 := by cases v <;> decide
theorem LossCause.code_lt (v : LossCause) : v.code < 4 := by cases v <;> decide
theorem acceptedCode_lt (v : Option Level) : acceptedCode v < 4 := by rcases v with _ | _ | _ <;> decide
theorem HostId.toNat_lt (h : HostId) : h.toNat < 4 := by cases h <;> decide

/-! ### Bytes of several fields (R176, R184, R185) -/

theorem Octet.carries_ofNat {n : Nat} {mask : Byte} {f : BitField} : (⟨BitVec.ofNat 8 n, mask⟩ : Octet).Carries f ↔
    n % 256 / 2 ^ f.low % 2 ^ (f.high + 1 - f.low) = f.value % 2 ^ (f.high + 1 - f.low) ∧
      mask.toNat / 2 ^ f.low % 2 ^ (f.high + 1 - f.low) = 0 := by
  rw [Octet.Carries, BitField.shownIn, BitVec.toNat_ofNat]

theorem octetNat_carries {n : Nat} {f : BitField} : (octetNat n).Carries f ↔
    n % 256 / 2 ^ f.low % 2 ^ (f.high + 1 - f.low) = f.value % 2 ^ (f.high + 1 - f.low) := by
  rw [octetNat, Octet.carries_ofNat]
  simp

theorem causes_carriesAll (c : CauseSet) : (octetNat (causeCode c)).CarriesAll (causeFields c) := by
  have h0 := c.powerOn.toNat_le; have h1 := c.resetLine.toNat_le; have h2 := c.supplyLow.toNat_le
  simp only [causeFields, causeCode, bitFlag, Octet.carriesAll_cons, Octet.carriesAll_nil, octetNat_carries, and_true]
  omega

theorem declined_carriesAll (u : HostSet) :
    (⟨BitVec.ofNat 8 (hostSetCode u), 0xF0⟩ : Octet).CarriesAll [bitFlag 0 u.h0, bitFlag 1 u.h1, bitFlag 2 u.h2, bitFlag 3 u.h3] := by
  have h0 := u.h0.toNat_le; have h1 := u.h1.toNat_le; have h2 := u.h2.toNat_le; have h3 := u.h3.toNat_le
  simp only [hostSetCode, bitFlag, Octet.carriesAll_cons, Octet.carriesAll_nil, Octet.carries_ofNat, BitVec.ofNat_eq_ofNat,
    BitVec.toNat_ofNat, and_true]
  omega

theorem route_carriesAll (route : List HostId) : (routeOctet route).CarriesAll (routeFields route) := by
  match route with
  | [] => exact octet_carriesAll 0
  | [a] => simp [routeFields, routeOctet, Octet.carries_ofNat]
  | [a, b] =>
    have ha := HostId.toNat_lt a
    simp [routeFields, routeOctet, Octet.carries_ofNat]
    omega
  | [a, b, c] =>
    have ha := HostId.toNat_lt a; have hb := HostId.toNat_lt b
    simp [routeFields, routeOctet, Octet.carries_ofNat]
    omega
  | a :: b :: c :: d :: _ =>
    have ha := HostId.toNat_lt a; have hb := HostId.toNat_lt b; have hc := HostId.toNat_lt c
    simp [routeFields, routeOctet, octetNat, Octet.carries_ofNat]
    omega

/-- A byte with a number in bits 2 to 0 and the was-lost flag in bit 7 (R184, R185). -/
theorem wasLost_carriesAll (v : Nat) (wasLost : Bool) :
    (⟨BitVec.ofNat 8 (v % 8 + 128 * wasLost.toNat), 0x78⟩ : Octet).CarriesAll [⟨2, 0, v⟩, bitFlag 7 wasLost] := by
  have hflag := wasLost.toNat_le
  simp only [bitFlag, Octet.carriesAll_cons, Octet.carriesAll_nil, Octet.carries_ofNat, BitVec.ofNat_eq_ofNat,
    BitVec.toNat_ofNat, and_true]
  omega

theorem configured_carriesAll (armed arrival : Bool) (phase : SlotPhase) :
    (⟨BitVec.ofNat 8 (armed.toNat + 2 * arrival.toNat + 16 * phase.code), 0xCC⟩ : Octet).CarriesAll
      [bitFlag 0 armed, bitFlag 1 arrival, ⟨5, 4, wirePhase phase⟩] := by
  rw [wirePhase_eq]
  have h0 := armed.toNat_le; have h1 := arrival.toNat_le; have h4 := phase.code_lt
  simp only [bitFlag, Octet.carriesAll_cons, Octet.carriesAll_nil, Octet.carries_ofNat, BitVec.ofNat_eq_ofNat,
    BitVec.toNat_ofNat, and_true]
  omega

theorem recordFlags_carriesAll (phase : SlotPhase) (posted : Bool) (mode : Mode) (sat notify : Bool) :
    (⟨BitVec.ofNat 8 (phase.code + 4 * posted.toNat + 8 * mode.code + 16 * sat.toNat + 32 * notify.toNat), 0xC0⟩ : Octet).CarriesAll
      [⟨1, 0, wirePhase phase⟩, bitFlag 2 posted, ⟨3, 3, wireMode mode⟩, bitFlag 4 sat, bitFlag 5 notify] := by
  rw [wirePhase_eq, wireMode_eq]
  have h0 := phase.code_lt; have h2 := posted.toNat_le; have h3 := mode.code_lt; have h4 := sat.toNat_le; have h5 := notify.toNat_le
  simp only [bitFlag, Octet.carriesAll_cons, Octet.carriesAll_nil, Octet.carries_ofNat, BitVec.ofNat_eq_ofNat,
    BitVec.toNat_ofNat, and_true]
  omega

/-- The source byte of a RECORD view; that of a FREE posted slot is zero or 4 (log entry 11). -/
theorem source_carriesAll (posted : Bool) (source : Option Source) :
    (sourceOctet posted source).CarriesAll (match source with
      | some v => whole (wireSource v)
      | none => if posted then [⟨1, 0, 0⟩, ⟨7, 3, 0⟩] else whole 0) := by
  cases source with
  | some v =>
    have hsource : (octetNat v.code).CarriesAll (whole (wireSource v)) := by
      rw [wireSource_eq]
      exact octetNat_carriesAll v.code
    exact hsource
  | none =>
    cases posted
    · exact octet_carriesAll 0
    · simp [sourceOctet, Octet.Carries, BitField.shownIn]

theorem copiesFlags_carriesAll (phase : SlotPhase) (mode : Mode) (anyWaiting : Bool) (n : Nat) :
    (⟨BitVec.ofNat 8 (phase.code + 8 * mode.code + 16 * anyWaiting.toNat + 32 * (n % 8)), 0x04⟩ : Octet).CarriesAll
      [⟨1, 0, wirePhase phase⟩, ⟨3, 3, wireMode mode⟩, bitFlag 4 anyWaiting, ⟨7, 5, n⟩] := by
  rw [wirePhase_eq, wireMode_eq]
  have h0 := phase.code_lt; have h3 := mode.code_lt; have h4 := anyWaiting.toNat_le
  simp only [bitFlag, Octet.carriesAll_cons, Octet.carriesAll_nil, Octet.carries_ofNat, BitVec.ofNat_eq_ofNat,
    BitVec.toNat_ofNat, and_true]
  omega

theorem PositionView.nibble_lt (v : PositionView) : v.nibble < 16 := by
  have h2 := v.candidate.toNat_le; have h3 := v.wakeTarget.toNat_le
  unfold PositionView.nibble
  omega

theorem nibbleAt_lt (ps : List PositionView) (i : Nat) : nibbleAt ps i < 16 := by
  unfold nibbleAt
  split
  · exact PositionView.nibble_lt _
  · decide

/-- The nibble of a route-list position stands at its place in a byte. -/
theorem position_carriesAll {ps : List PositionView} {i low n : Nat} (hlow : low = 0 ∨ low = 4)
    (h : n / 2 ^ low % 16 = nibbleAt ps i) : (octetNat n).CarriesAll (positionFields ps i low) := by
  unfold positionFields
  unfold nibbleAt at h
  cases hview : ps[i]? with
  | none =>
    simp only [hview] at h
    rcases hlow with rfl | rfl
    all_goals
      simp only [Octet.carriesAll_cons, Octet.carriesAll_nil, octetNat_carries, and_true]
      omega
  | some v =>
    have h2 := v.candidate.toNat_le; have h3 := v.wakeTarget.toNat_le
    simp only [hview, PositionView.nibble] at h
    rcases hlow with rfl | rfl
    all_goals
      simp only [bitFlag, Octet.carriesAll_cons, Octet.carriesAll_nil, octetNat_carries, and_true]
      omega

/-- Two positions share a byte of the COPIES view (R185). -/
theorem positions_carriesAll (ps : List PositionView) (i j : Nat) :
    (octetNat (nibbleAt ps i + 16 * nibbleAt ps j)).CarriesAll (positionFields ps i 0 ++ positionFields ps j 4) := by
  have hi := nibbleAt_lt ps i; have hj := nibbleAt_lt ps j
  exact Octet.carriesAll_append.2 ⟨position_carriesAll (.inl rfl) (by omega), position_carriesAll (.inr rfl) (by omega)⟩

theorem lineFlags_carriesAll (enabled : Bool) (mode : Mode) (high : Bool) (accepted : Option Level) (qualifying : Bool)
    (phase : SlotPhase) :
    (octetNat (enabled.toNat + 2 * mode.code + 4 * high.toNat + 8 * acceptedCode accepted + 32 * qualifying.toNat
        + 64 * phase.code)).CarriesAll
      [bitFlag 0 enabled, ⟨1, 1, wireMode mode⟩, bitFlag 2 high, ⟨4, 3, acceptedCode accepted⟩, bitFlag 5 qualifying,
        ⟨7, 6, wirePhase phase⟩] := by
  rw [wirePhase_eq, wireMode_eq]
  have h0 := enabled.toNat_le; have h1 := mode.code_lt; have h2 := high.toNat_le; have h3 := acceptedCode_lt accepted
  have h5 := qualifying.toNat_le; have h6 := phase.code_lt
  simp only [bitFlag, Octet.carriesAll_cons, Octet.carriesAll_nil, octetNat_carries, and_true]
  omega

theorem lineSense_carriesAll (sense : Sense) (band n : Nat) :
    (octetNat (sense.code + 8 * (band % 8) + 64 * (n % 4))).CarriesAll [⟨2, 0, wireSense sense⟩, ⟨5, 3, band⟩, ⟨7, 6, n⟩] := by
  rw [wireSense_eq]
  have h0 := sense.code_lt
  simp only [Octet.carriesAll_cons, Octet.carriesAll_nil, octetNat_carries, and_true]
  omega

theorem lossFlags_carriesAll (cause : LossCause) (source : Source) (host : Option HostId) :
    (lossFlags cause source host).CarriesAll
      ([bitFlag 0 true, ⟨2, 1, wireLossCause cause⟩] ++ (host.toList.map fun h => ⟨5, 4, h.toNat⟩) ++
        (match source with
          | .host h => [⟨7, 6, h.toNat⟩]
          | .line _ => [])) := by
  rw [wireLossCause_eq]
  have hcause := cause.code_lt
  cases host with
  | none =>
    cases source
    all_goals
      simp [lossFlags, bitFlag, Octet.carries_ofNat]
      omega
  | some h =>
    have hhost := HostId.toNat_lt h
    cases source
    all_goals
      simp [lossFlags, bitFlag, Octet.carries_ofNat]
      omega

/-! ### The data of every REPLY (R184, R185) -/

/-- The data bytes of every REPLY carry what the tables list for them. -/
theorem replyOctets_carry (data : ReplyData) : List.Forall₂ Octet.CarriesAll data.octets (replyFields data) := by
  cases data with
  | empty => exact .nil
  | attachOk epoch causes depth wasLost quota =>
    exact List.rel_append (octets16_carry epoch) (.cons (causes_carriesAll causes) (.cons (wasLost_carriesAll depth wasLost)
      (.cons (octetNat_carriesAll quota) .nil)))
  | hostStateIs st => simp [ReplyData.octets, replyFields, wireHostState_eq]
  | parameterSet param value => exact .cons (octet_carriesAll param) (octets16_carry value)
  | floorSet | quotaSet | handleNamed | postOk | retractOk | retractSlot | configBadArg | hostCounts =>
    simp [ReplyData.octets, replyFields]
  | claimLine hd count sat => exact List.rel_append (octetsHandle_carry hd) (by simp)
  | claimPosted hd payload => exact List.rel_append (octetsHandle_carry hd) (octets32_carry payload)
  | doneOk hd result n => exact List.rel_append (octetsHandle_carry hd) (by simp [wireRecordResult_eq])
  | postRefused use quota => exact .cons (octet_carriesAll 0) (by simp)
  | retractInService slot holder => exact .cons (octetNat_carriesAll _) (.cons (octet_carriesAll 0) (by simp [wireHost_eq]))
  | leaseHolder | configNoLease => simp [ReplyData.octets, replyFields, wireHost_eq]
  | configured line armed arrival phase withdrawn rebuilt =>
    exact .cons (octetNat_carriesAll _) (.cons (configured_carriesAll armed arrival phase) (by simp))
  | causesLeft causes epoch => exact .cons (causes_carriesAll causes) (octets16_carry epoch)
  | hostStateView st wasLost depth floor level entries tally =>
    have hstate := wasLost_carriesAll st.code wasLost
    rw [Nat.mod_eq_of_lt st.code_lt] at hstate
    rw [replyFields, wireHostState_eq]
    exact .cons hstate (by simp)
  | hostTimes window allowance timeout =>
    exact List.rel_append (List.rel_append (octets16_ofNat_carry window) (octets16_ofNat_carry allowance)) (octets16_ofNat_carry timeout)
  | eventRecord phase posted mode sat notify source band position serial =>
    exact .cons (recordFlags_carriesAll phase posted mode sat notify) (.cons (source_carriesAll posted source) (by simp))
  | eventCopies phase mode anyWaiting route declined rounds ps =>
    exact .cons (copiesFlags_carriesAll phase mode anyWaiting route.length) (.cons (route_carriesAll route)
      (.cons (declined_carriesAll declined) (.cons (octetNat_carriesAll rounds) (.cons (positions_carriesAll ps 0 1)
      (.cons (positions_carriesAll ps 2 3) .nil)))))
  | eventLine => simp [ReplyData.octets, replyFields, wirePhase_eq]
  | eventPosted phase payload => exact .cons (by simp [wirePhase_eq]) (octets32_carry payload)
  | lineView e raw accepted qualifying phase count backlog =>
    exact .cons (lineFlags_carriesAll e.enabled e.mode (decide (raw = .high)) accepted qualifying phase)
      (.cons (lineSense_carriesAll e.sense e.band (e.route.length - 1)) (.cons (octetNat_carriesAll _)
      (.cons (route_carriesAll _) (by simp))))
  | lossEntry cause slot source band payload host missed remaining =>
    exact .cons (lossFlags_carriesAll cause source host) (by simp)
  | noLossEntry missed =>
    exact .cons (by simp [bitFlag, Octet.Carries, BitField.shownIn]) (.cons (Octet.carriesAll_nil _) (.cons (Octet.carriesAll_nil _)
      (.cons (octetNat_carriesAll missed) (.cons (octet_carriesAll 0) .nil))))

end Sys2Proof.Machine
end

section
/-! SUPPORT. The frame that a port forms at the fall of CS (R172, R180 to R183). -/

namespace Sys2Proof.Machine

/-! ### The status byte (R181) -/

theorem Port.depthAfter_le (q : Port) : q.depthAfter ≤ 3 := by
  unfold Port.depthAfter
  split
  · decide
  · exact Nat.min_le_left ..

theorem State.statusByte_toNat (s : State) (h : HostId) : (s.statusByte h).toNat =
    (s.port h).overrun.toNat * 128 + (s.port h).noticeDropped.toNat * 64 + (s.lossUnread h).toNat * 32 + (s.session h).state.code * 4 +
      (s.port h).depthAfter := by
  have h7 := (s.port h).overrun.toNat_le; have h6 := (s.port h).noticeDropped.toNat_le; have h5 := (s.lossUnread h).toNat_le
  have hstate : (s.session h).state.code ≤ 5 := by cases (s.session h).state <;> decide
  have hdepth := (s.port h).depthAfter_le
  rw [State.statusByte, BitVec.toNat_ofNat]
  omega

theorem getLsbD_of_toNat {b : Byte} {i : Nat} {v : Bool} (h : b.toNat / 2 ^ i % 2 = v.toNat) : b.getLsbD i = v := by
  rw [← BitVec.testBit_toNat, Nat.testBit_eq_decide_div_mod_eq, h]
  cases v <;> rfl

/-- The fields of the status byte. -/
theorem State.statusByte_fields (s : State) (h : HostId) :
    (s.statusByte h).getLsbD 7 = (s.port h).overrun ∧ (s.statusByte h).getLsbD 6 = (s.port h).noticeDropped ∧
    (s.statusByte h).getLsbD 5 = s.lossUnread h ∧ (s.statusByte h).toNat / 4 % 8 = (s.session h).state.code ∧
    (s.statusByte h).toNat % 4 = (s.port h).depthAfter := by
  have hvalue := s.statusByte_toNat h
  have h7 := (s.port h).overrun.toNat_le; have h6 := (s.port h).noticeDropped.toNat_le; have h5 := (s.lossUnread h).toNat_le
  have hstate := (s.session h).state.code_lt
  have hdepth := (s.port h).depthAfter_le
  exact ⟨getLsbD_of_toNat (by omega), getLsbD_of_toNat (by omega), getLsbD_of_toNat (by omega), by omega, by omega⟩

theorem State.lossUnread_iff (s : State) (h : HostId) : s.lossUnread h = true ↔ ∃ e ∈ s.loss, e.unread.get h = true :=
  List.any_eq_true

theorem Port.depthAfter_nil {q : Port} (hq : q.queue = []) : q.depthAfter = 0 := by simp only [Port.depthAfter, hq]

theorem Port.depthAfter_cons {q : Port} {m : Msg} {rest : List Msg} (hq : q.queue = m :: rest) :
    q.depthAfter = min 3 (if m.twoPart = true ∧ q.partMark = false then rest.length + 1 else rest.length) := by
  simp only [Port.depthAfter, hq, Bool.and_eq_true, Bool.not_eq_true']

/-! ### The frame of a port (R180 to R183) -/

theorem Msg.twoPart_iff (m : Msg) : m.twoPart = true ↔ ∃ seq result cause slot source band payload host missed remaining,
    m = .reply seq result (.lossEntry cause slot source band payload host missed remaining) := by
  constructor
  · intro h
    unfold Msg.twoPart at h
    split at h
    · exact ⟨_, _, _, _, _, _, _, _, _, _, rfl⟩
    all_goals cases h
  · rintro ⟨_, _, _, _, _, _, _, _, _, _, rfl⟩
    rfl

/-- The first four bytes of a frame and its body (R181). -/
def frameOf (head : Octet) (status : Byte) (epoch : BitVec 16) (body : List Octet) : List Octet :=
  head :: octet status :: octet (epoch.extractLsb' 0 8) :: octet (epoch.extractLsb' 8 8) :: padOctets 8 body

theorem State.frameOctets_nil {s : State} {p : HostId} (hq : (s.port p).queue = []) :
    s.frameOctets p = frameOf (headOctet 0 false false) (s.statusByte p) s.epoch [] := by
  simp only [State.frameOctets, hq]
  rfl

theorem State.frameOctets_cons {s : State} {p : HostId} {m : Msg} {rest : List Msg} (hq : (s.port p).queue = m :: rest) :
    s.frameOctets p = frameOf (headOctet m.kindCode (m.twoPart && (s.port p).partMark) (m.twoPart && !(s.port p).partMark))
      (s.statusByte p) s.epoch (m.body (m.twoPart && (s.port p).partMark)) := by
  simp only [State.frameOctets, hq]
  rfl

/-- Every frame has the four bytes of R181 and eight more. -/
theorem State.exists_frameOf (s : State) (p : HostId) : ∃ head body, s.frameOctets p = frameOf head (s.statusByte p) s.epoch body := by
  cases hq : (s.port p).queue with
  | nil => exact ⟨_, _, State.frameOctets_nil hq⟩
  | cons m rest => exact ⟨_, _, State.frameOctets_cons hq⟩

/-- A frame, byte for byte. -/
theorem fillOctets_frameOf (k : Nat) (head : Octet) (status : Byte) (epoch : BitVec 16) (body : List Octet) :
    fillOctets k 0 (frameOf head status epoch body) =
      head.shown k 0 :: status :: epoch.extractLsb' 0 8 :: epoch.extractLsb' 8 8 :: fillOctets k 4 (padOctets 8 body) := by
  simp [frameOf]

/-- The kind of a frame without parts (R181); bits 5 and 4 are not listed. -/
theorem headOctet_shown (kind k : Nat) : (headOctet kind false false).shown k 0 &&& 0xCF = BitVec.ofNat 8 kind &&& 0xCF :=
  Octet.shown_and (o := headOctet kind false false) (show (0x30 : Byte) &&& 0xCF = 0#8 by decide) k 0

/-- The kind and the part bits of a REPLY's frame (R180, R181). -/
theorem headOctet_reply_shown (second follows : Bool) (k : Nat) :
    (headOctet 1 second follows).shown k 0 &&& 0x0F = 1 ∧ ((headOctet 1 second follows).shown k 0).getLsbD 6 = second ∧
      ((headOctet 1 second follows).shown k 0).getLsbD 7 = follows := by
  have hkind := Octet.shown_and (o := headOctet 1 second follows) (mask := 0x0F) (show (0x30 : Byte) &&& 0x0F = 0#8 by decide) k 0
  have hsecond := Octet.shown_getLsbD (o := headOctet 1 second follows) (j := 6) (show (0x30 : Byte).getLsbD 6 = false by decide) k 0
  have hfollows := Octet.shown_getLsbD (o := headOctet 1 second follows) (j := 7) (show (0x30 : Byte).getLsbD 7 = false by decide) k 0
  rw [hkind, hsecond, hfollows]
  cases second <;> cases follows <;> decide

section body
variable (k : Nat)

theorem withdraw_body (hd : Handle) (reason : Reason) :
    fillOctets k 4 (padOctets 8 (Msg.body false (.withdraw hd reason))) =
      [BitVec.ofNat 8 hd.slot.val, hd.serial, wireReason reason, 0, 0, 0, 0, 0] := by
  simp [Msg.body, octetsHandle, padOctets, wireReason_eq]

theorem completed_body (slot : SlotNo) (outcome : CompletionOutcome) (payload : BitVec 32) :
    fillOctets k 4 (padOctets 8 (Msg.body false (.completed slot outcome payload))) =
      [1, BitVec.ofNat 8 slot.val, wireOutcome outcome, payload.extractLsb' 0 8, payload.extractLsb' 8 8, payload.extractLsb' 16 8,
        payload.extractLsb' 24 8, 0] := by
  simp [Msg.body, octets32, padOctets, wireOutcome_eq]

theorem evicted_body (cause : EvictCause) (misses returned abandoned leases : Nat) :
    fillOctets k 4 (padOctets 8 (Msg.body false (.evicted cause misses returned abandoned leases))) =
      [2, wireEvictCause cause, BitVec.ofNat 8 misses, BitVec.ofNat 8 returned, BitVec.ofNat 8 abandoned, BitVec.ofNat 8 leases, 0, 0] := by
  simp [Msg.body, padOctets, wireEvictCause_eq]

/-- Bytes 8 to 11 of an OFFER's frame: the count of a line record, the payload of a posted one (R182). -/
def offerTail (source : Source) (count : Nat) (payload : BitVec 32) : List Byte :=
  match source with
  | .line _ => [BitVec.ofNat 8 count, 0, 0, 0]
  | .host _ => [payload.extractLsb' 0 8, payload.extractLsb' 8 8, payload.extractLsb' 16 8, payload.extractLsb' 24 8]

/-- Byte 7 of an OFFER's frame (R182). -/
def offerFlags (band : Nat) (mode : Mode) (sat : Bool) : Octet := ⟨BitVec.ofNat 8 (band % 8 + 8 * mode.code + 16 * sat.toNat), 0xE0⟩

theorem offerFlags_carriesAll (band : Nat) (mode : Mode) (sat : Bool) :
    (offerFlags band mode sat).CarriesAll [⟨2, 0, band⟩, ⟨3, 3, wireMode mode⟩, bitFlag 4 sat] := by
  rw [wireMode_eq]
  have h3 := mode.code_lt; have h4 := sat.toNat_le
  simp only [offerFlags, bitFlag, Octet.carriesAll_cons, Octet.carriesAll_nil, Octet.carries_ofNat, BitVec.ofNat_eq_ofNat,
    BitVec.toNat_ofNat, and_true]
  omega

theorem offer_body (hd : Handle) (source : Source) (band : Nat) (mode : Mode) (sat : Bool) (count : Nat)
    (payload : BitVec 32) :
    fillOctets k 4 (padOctets 8 (Msg.body false (.offer hd source band mode sat count payload))) =
      BitVec.ofNat 8 hd.slot.val :: hd.serial :: BitVec.ofNat 8 (wireSource source) :: (offerFlags band mode sat).shown k 7 ::
        offerTail source count payload := by
  cases source <;> simp [Msg.body, octetsHandle, octets32, padOctets, wireSource_eq, offerFlags, offerTail]

theorem reply_body (second : Bool) (seq : Byte) (result : ResultCode) (data : ReplyData) :
    fillOctets k 4 (padOctets 8 (Msg.body second (.reply seq result data))) =
      seq :: wireResult result :: fillOctets k 6 (padOctets 6 (if second = true then data.secondOctets else data.octets)) := by
  simp [Msg.body, padOctets, wireResult_eq]

/-- The second part of the REPLY with a loss entry (R185). -/
theorem lossEntry_secondPart (cause : LossCause) (slot : SlotNo) (source : Source) (band : Nat) (payload : BitVec 32)
    (host : Option HostId) (missed remaining : Nat) :
    fillOctets k 6 (padOctets 6 (ReplyData.lossEntry cause slot source band payload host missed remaining).secondOctets) =
      [payload.extractLsb' 0 8, payload.extractLsb' 8 8, payload.extractLsb' 16 8, payload.extractLsb' 24 8, 0, 0] := by
  simp [ReplyData.secondOctets, octets32, padOctets]

end body

/-! ### The fall of CS (R172, R181, R187) -/

theorem notReadyFrame_getD (i : Nat) : notReadyFrame.getD i 0 = if i = 0 then 0x0F else 0 := by
  match i with
  | 0 | 1 | 2 | 3 | 4 | 5 | 6 | 7 | 8 | 9 | 10 | 11 => rfl
  | _ + 12 => rfl

/-- CS falls on a running hub: the exchange with its frame, and the next free values (log entry 15). -/
theorem exec_exchangeStart_running {s : State} {p : HostId} (hr : s.running) (hc : (s.port p).cs = .idle) :
    exec (.exchangeStart p) s = .next { s.setCs p (.live (s.newExchange p)) with freeIdx := s.freeIdx + 1 } :=
  congrArg Host.Outcome.next (State.csFall_eq hr hc)

/-- CS falls on a hub in reset (R187). -/
theorem exec_exchangeStart_notReady {s : State} {p : HostId} (hr : ¬s.running) (hc : (s.port p).cs = .idle) :
    exec (.exchangeStart p) s = .next (s.setCs p .notReady) :=
  congrArg Host.Outcome.next (State.csFall_inReset hr hc)

/-- CS that is low does not fall (log entry 6). -/
theorem exec_exchangeStart_low {s : State} {p : HostId} (hc : (s.port p).cs ≠ .idle) : exec (.exchangeStart p) s = .next s := by
  have hfall : s.csFall p = s := by
    cases hcs : (s.port p).cs with
    | idle => exact absurd hcs hc
    | live | cutOff | notReady => simp only [State.csFall, hcs]
  exact congrArg Host.Outcome.next hfall

/-- The frame that CS forms as it falls, byte for byte. -/
theorem State.newExchange_frame {s : State} {p : HostId} {head : Octet} {body : List Octet}
    (h : s.frameOctets p = frameOf head (s.statusByte p) s.epoch body) : (s.newExchange p).frame =
      head.shown s.freeIdx 0 :: s.statusByte p :: s.epoch.extractLsb' 0 8 :: s.epoch.extractLsb' 8 8 ::
        fillOctets s.freeIdx 4 (padOctets 8 body) :=
  (congrArg (fillOctets s.freeIdx 0) h).trans (fillOctets_frameOf ..)

/-- Settles O36, by the level of CS and the reset. -/
theorem exchangeStartFormsFrame : Obligations.ExchangeStartFormsFrame := by
  unfold Obligations.ExchangeStartFormsFrame
  refine ⟨fun p s hr hc => ?_, fun p s hr hc => ?_, fun p s => exec_exchangeStart_low⟩
  · obtain ⟨head, body, hoctets⟩ := s.exists_frameOf p
    have hframe := State.newExchange_frame hoctets
    obtain ⟨-, hothers, hport⟩ := s.setCs_alone p (.live (s.newExchange p))
    refine ⟨_, s.newExchange p, exec_exchangeStart_running hr hc, rfl, hothers, hport, rfl, rfl, rfl, rfl, ?_, ?_, ?_, ?_⟩
    all_goals simp [hframe]
  · obtain ⟨houtline, hothers, hport⟩ := s.setCs_alone p .notReady
    refine ⟨_, exec_exchangeStart_notReady hr hc, houtline, hothers, hport, fun i => ?_⟩
    rw [State.misoByte, hport, notReadyFrame_getD]

/-- The exchange that EXCHANGE_START leaves on a running hub. -/
theorem exchangeStart_live {s t : State} {p : HostId} {x : Exchange} (hr : s.running) (hc : (s.port p).cs = .idle)
    (h : exec (.exchangeStart p) s = .next t) (hx : (t.port p).cs = .live x) : x = s.newExchange p := by
  obtain ⟨-, -, hport⟩ := s.setCs_alone p (.live (s.newExchange p))
  rw [exec_exchangeStart_running hr hc] at h
  cases h
  exact (ChipSelect.live.inj ((congrArg Port.cs hport).symm.trans hx)).symm

/-- Settles O37: the status byte by its sum, and each message's frame byte for byte, where the octets of a REPLY's data carry its table. -/
theorem frameContent : Obligations.FrameContent := by
  unfold Obligations.FrameContent
  refine ⟨fun s h => ?_, Msg.twoPart_iff, fun p s t x hr hc hexec hx => ?_⟩
  · obtain ⟨hoverrun, hnotice, hloss, hstate, hdepth⟩ := s.statusByte_fields h
    refine ⟨hoverrun, hnotice, by rw [hloss, State.lossUnread_iff], by rw [hstate, wireHostState_eq], fun hq => ?_, fun m rest hq => ?_⟩
    · rw [hdepth, Port.depthAfter_nil hq]
    · rw [hdepth, Port.depthAfter_cons hq]
  · obtain rfl := exchangeStart_live hr hc hexec hx
    refine ⟨fun hq => ?_, fun m rest hq => ?_⟩
    · rw [State.newExchange_frame (State.frameOctets_nil hq)]
      exact ⟨headOctet_shown 0 _, rfl⟩
    · rw [State.newExchange_frame (State.frameOctets_cons hq)]
      generalize (s.port p).partMark = mark
      cases m with
      | reply seq result data =>
        obtain ⟨hkind, hsecond, hfollows⟩ := headOctet_reply_shown
          ((Msg.reply seq result data).twoPart && mark) ((Msg.reply seq result data).twoPart && !mark) s.freeIdx
        simp only [Msg.kindCode, List.getD_cons_zero, List.drop_succ_cons, List.drop_zero, reply_body]
        refine ⟨hkind, by rw [hsecond, Bool.and_eq_true], by rw [hfollows, Bool.and_eq_true, Bool.not_eq_true'], by simp, rfl, rfl,
          fun hfirst => ?_, ?_⟩
        · have hsecondPart : ((Msg.reply seq result data).twoPart && mark) = false := Bool.and_eq_false_iff.2 hfirst
          rw [hsecondPart]
          exact dataShown_fillOctets _ 6 6 (replyOctets_carry data)
        · rintro cause slot source band payload host missed remaining rfl rfl
          exact lossEntry_secondPart _ cause slot source band payload host missed remaining
      | offer hd source band mode sat count payload =>
        refine ⟨headOctet_shown 2 _, ?_⟩
        simp only [Msg.twoPart, Bool.false_and, List.drop_succ_cons, List.drop_zero, offer_body]
        exact ⟨rfl, rfl, rfl, fun f hf => (offerFlags_carriesAll band mode sat f hf).shownIn _ 7, rfl⟩
      | withdraw hd reason => exact ⟨headOctet_shown 3 _, withdraw_body _ hd reason⟩
      | completed slot outcome payload => exact ⟨headOctet_shown 4 _, completed_body _ slot outcome payload⟩
      | evicted cause misses returned abandoned leases =>
        exact ⟨headOctet_shown 4 _, evicted_body _ cause misses returned abandoned leases⟩

end Sys2Proof.Machine
end
